-- ==== Sys2Proof/Word.lean ====
section
/-! DEFINITION. The word types of the TLCS-900/H2 (spec/00_scope.md R8, R9): bytes, words and long words are bit
vectors with bit 0 the least significant, and arithmetic on an n-bit operand is modulo 2^n. -/

namespace Sys2Proof

/-- A byte: 8 bits (R9). -/
abbrev Byte := BitVec 8

/-- A word: 16 bits (R9). -/
abbrev Word := BitVec 16

/-- A long word: 32 bits (R9). -/
abbrev Long := BitVec 32

/-- A byte address as the CPU puts it on its 24 address lines (R70, R71). -/
abbrev Addr := BitVec 24

end Sys2Proof
end

