-- ==== Sys2Proof/Syntax.lean ====
section
/-! DEFINITION. The instructions of the TLCS-900/H2 as abstract syntax: operand sizes, register operands, memory
operands, condition codes and `Instr`, with one constructor for each row of spec/opcode_table.json. An operand's type
admits only what the encoding of the spec can name, so that a register code that is not assigned, or a size that a row
does not have, cannot be written down at all. -/

namespace Sys2Proof

/-- The three operand sizes: byte, word, long word (R9, R103). -/
inductive Size
  | b | w | l
deriving DecidableEq, Repr

/-- `nb`: the operand size in bytes (R9). -/
abbrev Size.bytes : Size → Nat
  | .b => 1
  | .w => 2
  | .l => 4

/-- `n`: the operand size in bits (R9). -/
abbrev Size.bits (sz : Size) : Nat := 8 * sz.bytes

/-- How many bits it takes to say which part of a 32-bit register an operand of this size is: one of four bytes, one of
two words, or the whole register (R22, R24, R27). -/
abbrev Size.partBits : Size → Nat
  | .b => 2
  | .w => 1
  | .l => 0

/-- The sizes of a row that exists as byte and word only. -/
inductive SizeBW
  | b | w
deriving DecidableEq, Repr

/-- The sizes of a row that exists as word and long word only. -/
inductive SizeWL
  | w | l
deriving DecidableEq, Repr

/-- A byte-or-word size as an operand size. -/
abbrev SizeBW.size : SizeBW → Size
  | .b => .b
  | .w => .w

/-- Twice the operation size: the size of `RR` and `rr` in MUL, MULS, DIV, DIVS (R270). -/
abbrev SizeBW.double : SizeBW → Size
  | .b => .w
  | .w => .l

/-- How many bits name `RR`: four word registers WA BC DE HL in a byte operation, eight long registers in a word
operation (R270 (a), (b)). -/
abbrev SizeBW.dblBits : SizeBW → Nat
  | .b => 2
  | .w => 3

/-- A word-or-long size as an operand size. -/
abbrev SizeWL.size : SizeWL → Size
  | .w => .w
  | .l => .l

/-- The four 32-bit registers of a bank (R21). -/
inductive BankReg
  | xwa | xbc | xde | xhl
deriving DecidableEq, Repr

/-- The 28 names of 32-bit registers in the register map: absolute (bank k), previous bank, current bank, and the four
registers outside the banks (R23, R24, R27). -/
inductive Reg32
  | bank (k : BitVec 2) (x : BankReg)
  | prev (x : BankReg)
  | cur (x : BankReg)
  | xix | xiy | xiz | xsp
deriving DecidableEq, Repr

/-- The operand `r` at size `sz`: a current register by 3-bit code in the first byte (R108), or any register by the
extension code (R110), given as a 32-bit register of the map and the part of it. -/
inductive RegOp (sz : Size)
  | short (c : BitVec 3)
  | ext (r : Reg32) (part : BitVec sz.partBits)
deriving DecidableEq, Repr

/-- The operand `rr` of `MUL rr,#` and its kin, and of MULA: a register of twice the operation size, by code in the
first byte or by extension code (R270 (c), (d), R276). In a byte operation the short code `c` stands for the 3-bit code
`c ++ 1`, the only codes R270 (b) lists. -/
inductive DblOp (z : SizeBW)
  | short (c : BitVec z.dblBits)
  | ext (r : Reg32) (part : BitVec z.double.partBits)
deriving DecidableEq, Repr

/-- The step of `(-r32)` and `(r32+)`, carried by the mode byte (R113, R123). -/
inductive Step
  | one | two | four
deriving DecidableEq, Repr

/-- A memory operand: the addressing modes of R113. -/
inductive MemOp
  /-- `(R)` (R115). -/
  | ind (c : BitVec 3)
  /-- `(R+d8)` (R116). -/
  | disp8 (c : BitVec 3) (d : Byte)
  /-- `(#8)` (R117). -/
  | abs8 (a : Byte)
  /-- `(#16)` (R118). -/
  | abs16 (a : Word)
  /-- `(#24)` (R119). -/
  | abs24 (a : Addr)
  /-- `(r32)`, the general form (R120). -/
  | indReg (r : Reg32)
  /-- `(r32+d16)` (R121). -/
  | disp16 (r : Reg32) (d : Word)
  /-- `(r32+r8)` (R122). -/
  | index8 (r : Reg32) (x : Reg32) (part : BitVec 2)
  /-- `(r32+r16)` (R122). -/
  | index16 (r : Reg32) (x : Reg32) (part : BitVec 1)
  /-- `(-r32)` (R123). -/
  | preDec (r : Reg32) (st : Step)
  /-- `(r32+)` (R124). -/
  | postInc (r : Reg32) (st : Step)
deriving DecidableEq, Repr

/-- The condition codes, in the order of their 4-bit codes (R130). -/
inductive Cond
  | f | lt | le | ule | ov | mi | z | c | t | ge | gt | ugt | nov | pl | nz | nc
deriving DecidableEq, Repr

/-- The control registers that LDC names (R50). -/
inductive CtrlReg
  | dmas (n : BitVec 3)
  | dmad (n : BitVec 3)
  | dmac (n : BitVec 3)
  | dmam (n : BitVec 3)
  | intnest
deriving DecidableEq, Repr

/-- The width of a control register, which is the only size LDC may name it with (R50, R360, D15). -/
abbrev CtrlReg.size : CtrlReg → Size
  | .dmas _ => .l
  | .dmad _ => .l
  | .dmac _ => .w
  | .dmam _ => .b
  | .intnest => .w

/-- The two pointer pairs of LDI, LDIR, LDD and LDDR: destination and source (R205). -/
inductive BlockPair
  /-- `(XDE),(XHL)`. -/
  | deHl
  /-- `(XIX),(XIY)`. -/
  | ixIy
deriving DecidableEq, Repr

/-- The instructions: one constructor for each row of spec/opcode_table.json, in its order, with the row's name, sizes,
class, op code byte and rule. `R` is a current register by 3-bit code (R109), `r` a register operand, `m` a memory
operand; immediates, displacements and fields are kept as the bits the encoding holds. -/
inductive Instr
  -- One-byte op codes (R104)
  /-- `NOP`: OP1 op 00, R350. -/
  | nop
  /-- `PUSH SR` (W): OP1 op 02, R353. -/
  | pushSr
  /-- `POP SR` (W): OP1 op 03, R354. -/
  | popSr
  /-- `HALT`: OP1 op 05, R357. -/
  | halt
  /-- `EI #3`: OP1 op 06, R351. -/
  | ei (num : BitVec 3)
  /-- `DI`: OP1 op 06, R352. -/
  | di
  /-- `RETI`: OP1 op 07, R440. -/
  | reti
  /-- `LD (#8),#` (B): OP1 op 08, R168. -/
  | ldAbs8ImmB (a : Byte) (imm : Byte)
  /-- `PUSH #` (B): OP1 op 09, R177. -/
  | pushImmB (imm : Byte)
  /-- `LDW (#8),#` (W): OP1 op 0A, R168. -/
  | ldAbs8ImmW (a : Byte) (imm : Word)
  /-- `PUSHW #` (W): OP1 op 0B, R177. -/
  | pushImmW (imm : Word)
  /-- `INCF`: OP1 op 0C, R371. -/
  | incf
  /-- `DECF`: OP1 op 0D, R372. -/
  | decf
  /-- `RET`: OP1 op 0E, R435. -/
  | ret
  /-- `RETD d16`: OP1 op 0F, R437. -/
  | retd (d : Word)
  /-- `RCF`: OP1 op 10, R320. -/
  | rcf
  /-- `SCF`: OP1 op 11, R321. -/
  | scf
  /-- `CCF`: OP1 op 12, R322. -/
  | ccf
  /-- `ZCF`: OP1 op 13, R323. -/
  | zcf
  /-- `PUSH A` (B): OP1 op 14, R174. -/
  | pushA
  /-- `POP A` (B): OP1 op 15, R181. -/
  | popA
  /-- `EX F,F'` (B): OP1 op 16, R200. -/
  | exFF
  /-- `LDF #2`: OP1 op 17, R370. -/
  | ldf (num : BitVec 2)
  /-- `PUSH F` (B): OP1 op 18, R173. -/
  | pushF
  /-- `POP F` (B): OP1 op 19, R180. -/
  | popF
  /-- `JP #16`: OP1 op 1A, R420. -/
  | jp16 (a : Word)
  /-- `JP #24`: OP1 op 1B, R421. -/
  | jp24 (a : Addr)
  /-- `CALL #16`: OP1 op 1C, R430. -/
  | call16 (a : Word)
  /-- `CALL #24`: OP1 op 1D, R431. -/
  | call24 (a : Addr)
  /-- `CALR $+3+d16`: OP1 op 1E, R433. -/
  | calr (d : Word)
  /-- `LD R,#` (B): OP1 op 20+, R164. -/
  | ldCurImmB (R : BitVec 3) (imm : Byte)
  /-- `PUSH R` (W): OP1 op 28+, R175. -/
  | pushCurW (R : BitVec 3)
  /-- `LD R,#` (W): OP1 op 30+, R164. -/
  | ldCurImmW (R : BitVec 3) (imm : Word)
  /-- `PUSH R` (L): OP1 op 38+, R175. -/
  | pushCurL (R : BitVec 3)
  /-- `LD R,#` (L): OP1 op 40+, R164. -/
  | ldCurImmL (R : BitVec 3) (imm : Long)
  /-- `POP R` (W): OP1 op 48+, R182. -/
  | popCurW (R : BitVec 3)
  /-- `POP R` (L): OP1 op 58+, R182. -/
  | popCurL (R : BitVec 3)
  /-- `JR [cc,]$+2+d8`: OP1 op 60+, R423. -/
  | jr (cc : Cond) (d : Byte)
  /-- `JRL [cc,]$+3+d16`: OP1 op 70+, R424. -/
  | jrl (cc : Cond) (d : Word)
  /-- `SWI #3`: OP1 op F8+, R355. -/
  | swi (num : BitVec 3)
  -- The reg class (R131)
  /-- `LD r,#` (B W L): REG op 03, R165. -/
  | ldRegImm (sz : Size) (r : RegOp sz) (imm : BitVec sz.bits)
  /-- `PUSH r` (B W L): REG op 04, R176. -/
  | pushReg (sz : Size) (r : RegOp sz)
  /-- `POP r` (B W L): REG op 05, R183. -/
  | popReg (sz : Size) (r : RegOp sz)
  /-- `CPL r` (B W): REG op 06, R304. -/
  | cpl (z : SizeBW) (r : RegOp z.size)
  /-- `NEG r` (B W): REG op 07, R238. -/
  | neg (z : SizeBW) (r : RegOp z.size)
  /-- `MUL rr,#` (B W): REG op 08, R271. -/
  | mulImm (z : SizeBW) (rr : DblOp z) (imm : BitVec z.size.bits)
  /-- `MULS rr,#` (B W): REG op 09, R272. -/
  | mulsImm (z : SizeBW) (rr : DblOp z) (imm : BitVec z.size.bits)
  /-- `DIV rr,#` (B W): REG op 0A, R273. -/
  | divImm (z : SizeBW) (rr : DblOp z) (imm : BitVec z.size.bits)
  /-- `DIVS rr,#` (B W): REG op 0B, R274. -/
  | divsImm (z : SizeBW) (rr : DblOp z) (imm : BitVec z.size.bits)
  /-- `LINK r,d16` (L): REG op 0C, R365. -/
  | link (r : RegOp .l) (d : Word)
  /-- `UNLK r` (L): REG op 0D, R366. -/
  | unlk (r : RegOp .l)
  /-- `BS1F A,r` (W): REG op 0E, R340. -/
  | bs1f (r : RegOp .w)
  /-- `BS1B A,r` (W): REG op 0F, R341. -/
  | bs1b (r : RegOp .w)
  /-- `DAA r` (B): REG op 10, R242. -/
  | daa (r : RegOp .b)
  /-- `EXTZ r` (W L): REG op 12, R239. -/
  | extz (z : SizeWL) (r : RegOp z.size)
  /-- `EXTS r` (W L): REG op 13, R240. -/
  | exts (z : SizeWL) (r : RegOp z.size)
  /-- `PAA r` (W L): REG op 14, R241. -/
  | paa (z : SizeWL) (r : RegOp z.size)
  /-- `MIRR r` (W): REG op 16, R203. -/
  | mirr (r : RegOp .w)
  /-- `MULA rr` (W): REG op 19, R276. -/
  | mula (rr : DblOp .w)
  /-- `DJNZ [r,]$+3/4+d8` (B W): REG op 1C, R425. -/
  | djnz (z : SizeBW) (r : RegOp z.size) (d : Byte)
  /-- `ANDCF #4,r` (B W): REG op 20, R313. -/
  | andcfImmReg (z : SizeBW) (r : RegOp z.size) (num : BitVec 4)
  /-- `ANDCF A,r` (B W): REG op 28, R313. -/
  | andcfAReg (z : SizeBW) (r : RegOp z.size)
  /-- `ORCF #4,r` (B W): REG op 21, R314. -/
  | orcfImmReg (z : SizeBW) (r : RegOp z.size) (num : BitVec 4)
  /-- `ORCF A,r` (B W): REG op 29, R314. -/
  | orcfAReg (z : SizeBW) (r : RegOp z.size)
  /-- `XORCF #4,r` (B W): REG op 22, R315. -/
  | xorcfImmReg (z : SizeBW) (r : RegOp z.size) (num : BitVec 4)
  /-- `XORCF A,r` (B W): REG op 2A, R315. -/
  | xorcfAReg (z : SizeBW) (r : RegOp z.size)
  /-- `LDCF #4,r` (B W): REG op 23, R311. -/
  | ldcfImmReg (z : SizeBW) (r : RegOp z.size) (num : BitVec 4)
  /-- `LDCF A,r` (B W): REG op 2B, R311. -/
  | ldcfAReg (z : SizeBW) (r : RegOp z.size)
  /-- `STCF #4,r` (B W): REG op 24, R312. -/
  | stcfImmReg (z : SizeBW) (r : RegOp z.size) (num : BitVec 4)
  /-- `STCF A,r` (B W): REG op 2C, R312. -/
  | stcfAReg (z : SizeBW) (r : RegOp z.size)
  /-- `LDC cr,r` (B W L): REG op 2E, R360. -/
  | ldcToCr (cr : CtrlReg) (r : RegOp cr.size)
  /-- `LDC r,cr` (B W L): REG op 2F, R361. -/
  | ldcFromCr (cr : CtrlReg) (r : RegOp cr.size)
  /-- `RES #4,r` (B W): REG op 30, R331. -/
  | resReg (z : SizeBW) (r : RegOp z.size) (num : BitVec 4)
  /-- `SET #4,r` (B W): REG op 31, R332. -/
  | setReg (z : SizeBW) (r : RegOp z.size) (num : BitVec 4)
  /-- `CHG #4,r` (B W): REG op 32, R333. -/
  | chgReg (z : SizeBW) (r : RegOp z.size) (num : BitVec 4)
  /-- `BIT #4,r` (B W): REG op 33, R330. -/
  | bitReg (z : SizeBW) (r : RegOp z.size) (num : BitVec 4)
  /-- `TSET #4,r` (B W): REG op 34, R334. -/
  | tsetReg (z : SizeBW) (r : RegOp z.size) (num : BitVec 4)
  /-- `MINC1 #,r` (W): REG op 38, R286. -/
  | minc1 (r : RegOp .w) (field : Word)
  /-- `MINC2 #,r` (W): REG op 39, R287. -/
  | minc2 (r : RegOp .w) (field : Word)
  /-- `MINC4 #,r` (W): REG op 3A, R288. -/
  | minc4 (r : RegOp .w) (field : Word)
  /-- `MDEC1 #,r` (W): REG op 3C, R289. -/
  | mdec1 (r : RegOp .w) (field : Word)
  /-- `MDEC2 #,r` (W): REG op 3D, R290. -/
  | mdec2 (r : RegOp .w) (field : Word)
  /-- `MDEC4 #,r` (W): REG op 3E, R291. -/
  | mdec4 (r : RegOp .w) (field : Word)
  /-- `MUL RR,r` (B W): REG op 40+, R271. -/
  | mulReg (z : SizeBW) (RR : BitVec z.dblBits) (r : RegOp z.size)
  /-- `MULS RR,r` (B W): REG op 48+, R272. -/
  | mulsReg (z : SizeBW) (RR : BitVec z.dblBits) (r : RegOp z.size)
  /-- `DIV RR,r` (B W): REG op 50+, R273. -/
  | divReg (z : SizeBW) (RR : BitVec z.dblBits) (r : RegOp z.size)
  /-- `DIVS RR,r` (B W): REG op 58+, R274. -/
  | divsReg (z : SizeBW) (RR : BitVec z.dblBits) (r : RegOp z.size)
  /-- `INC #3,r` (B W L): REG op 60+, R236. -/
  | incReg (sz : Size) (r : RegOp sz) (num : BitVec 3)
  /-- `DEC #3,r` (B W L): REG op 68+, R237. -/
  | decReg (sz : Size) (r : RegOp sz) (num : BitVec 3)
  /-- `SCC cc,r` (B W): REG op 70+, R375. -/
  | scc (z : SizeBW) (r : RegOp z.size) (cc : Cond)
  /-- `ADD R,r` (B W L): REG op 80+, R231. -/
  | addCurReg (sz : Size) (R : BitVec 3) (r : RegOp sz)
  /-- `ADD r,#` (B W L): REG op C8, R231. -/
  | addRegImm (sz : Size) (r : RegOp sz) (imm : BitVec sz.bits)
  /-- `ADC R,r` (B W L): REG op 90+, R232. -/
  | adcCurReg (sz : Size) (R : BitVec 3) (r : RegOp sz)
  /-- `ADC r,#` (B W L): REG op C9, R232. -/
  | adcRegImm (sz : Size) (r : RegOp sz) (imm : BitVec sz.bits)
  /-- `SUB R,r` (B W L): REG op A0+, R233. -/
  | subCurReg (sz : Size) (R : BitVec 3) (r : RegOp sz)
  /-- `SUB r,#` (B W L): REG op CA, R233. -/
  | subRegImm (sz : Size) (r : RegOp sz) (imm : BitVec sz.bits)
  /-- `SBC R,r` (B W L): REG op B0+, R234. -/
  | sbcCurReg (sz : Size) (R : BitVec 3) (r : RegOp sz)
  /-- `SBC r,#` (B W L): REG op CB, R234. -/
  | sbcRegImm (sz : Size) (r : RegOp sz) (imm : BitVec sz.bits)
  /-- `AND R,r` (B W L): REG op C0+, R301. -/
  | andCurReg (sz : Size) (R : BitVec 3) (r : RegOp sz)
  /-- `AND r,#` (B W L): REG op CC, R301. -/
  | andRegImm (sz : Size) (r : RegOp sz) (imm : BitVec sz.bits)
  /-- `XOR R,r` (B W L): REG op D0+, R303. -/
  | xorCurReg (sz : Size) (R : BitVec 3) (r : RegOp sz)
  /-- `XOR r,#` (B W L): REG op CD, R303. -/
  | xorRegImm (sz : Size) (r : RegOp sz) (imm : BitVec sz.bits)
  /-- `OR R,r` (B W L): REG op E0+, R302. -/
  | orCurReg (sz : Size) (R : BitVec 3) (r : RegOp sz)
  /-- `OR r,#` (B W L): REG op CE, R302. -/
  | orRegImm (sz : Size) (r : RegOp sz) (imm : BitVec sz.bits)
  /-- `CP R,r` (B W L): REG op F0+, R235. -/
  | cpCurReg (sz : Size) (R : BitVec 3) (r : RegOp sz)
  /-- `CP r,#` (B W L): REG op CF, R235. -/
  | cpRegImm (sz : Size) (r : RegOp sz) (imm : BitVec sz.bits)
  /-- `LD R,r` (B W L): REG op 88+, R161. -/
  | ldCurReg (sz : Size) (R : BitVec 3) (r : RegOp sz)
  /-- `LD r,R` (B W L): REG op 98+, R162. -/
  | ldRegCur (sz : Size) (r : RegOp sz) (R : BitVec 3)
  /-- `LD r,#3` (B W L): REG op A8+, R163. -/
  | ldRegImm3 (sz : Size) (r : RegOp sz) (imm : BitVec 3)
  /-- `EX R,r` (B W): REG op B8+, R201. -/
  | exCurReg (z : SizeBW) (R : BitVec 3) (r : RegOp z.size)
  /-- `CP r,#3` (B W): REG op D8+, R235. -/
  | cpRegImm3 (z : SizeBW) (r : RegOp z.size) (imm : BitVec 3)
  /-- `RLC #4,r` (B W L): REG op E8, R393. -/
  | rlcImmReg (sz : Size) (r : RegOp sz) (num : BitVec 4)
  /-- `RLC A,r` (B W L): REG op F8, R393. -/
  | rlcAReg (sz : Size) (r : RegOp sz)
  /-- `RRC #4,r` (B W L): REG op E9, R394. -/
  | rrcImmReg (sz : Size) (r : RegOp sz) (num : BitVec 4)
  /-- `RRC A,r` (B W L): REG op F9, R394. -/
  | rrcAReg (sz : Size) (r : RegOp sz)
  /-- `RL #4,r` (B W L): REG op EA, R395. -/
  | rlImmReg (sz : Size) (r : RegOp sz) (num : BitVec 4)
  /-- `RL A,r` (B W L): REG op FA, R395. -/
  | rlAReg (sz : Size) (r : RegOp sz)
  /-- `RR #4,r` (B W L): REG op EB, R396. -/
  | rrImmReg (sz : Size) (r : RegOp sz) (num : BitVec 4)
  /-- `RR A,r` (B W L): REG op FB, R396. -/
  | rrAReg (sz : Size) (r : RegOp sz)
  /-- `SLA #4,r` (B W L): REG op EC, R397. -/
  | slaImmReg (sz : Size) (r : RegOp sz) (num : BitVec 4)
  /-- `SLA A,r` (B W L): REG op FC, R397. -/
  | slaAReg (sz : Size) (r : RegOp sz)
  /-- `SRA #4,r` (B W L): REG op ED, R398. -/
  | sraImmReg (sz : Size) (r : RegOp sz) (num : BitVec 4)
  /-- `SRA A,r` (B W L): REG op FD, R398. -/
  | sraAReg (sz : Size) (r : RegOp sz)
  /-- `SLL #4,r` (B W L): REG op EE, R399. -/
  | sllImmReg (sz : Size) (r : RegOp sz) (num : BitVec 4)
  /-- `SLL A,r` (B W L): REG op FE, R399. -/
  | sllAReg (sz : Size) (r : RegOp sz)
  /-- `SRL #4,r` (B W L): REG op EF, R400. -/
  | srlImmReg (sz : Size) (r : RegOp sz) (num : BitVec 4)
  /-- `SRL A,r` (B W L): REG op FF, R400. -/
  | srlAReg (sz : Size) (r : RegOp sz)
  -- The src class (R132)
  /-- `PUSH<W> (mem)` (B W): SRC op 04, R179. -/
  | pushMem (z : SizeBW) (m : MemOp)
  /-- `RLD [A,](mem)` (B): SRC op 06, R410. -/
  | rld (m : MemOp)
  /-- `RRD [A,](mem)` (B): SRC op 07, R411. -/
  | rrd (m : MemOp)
  /-- `LDI<W>` (B W): SRC op 10, R206. -/
  | ldi (z : SizeBW) (p : BlockPair)
  /-- `LDIR<W>` (B W): SRC op 11, R207. -/
  | ldir (z : SizeBW) (p : BlockPair)
  /-- `LDD<W>` (B W): SRC op 12, R208. -/
  | ldd (z : SizeBW) (p : BlockPair)
  /-- `LDDR<W>` (B W): SRC op 13, R209. -/
  | lddr (z : SizeBW) (p : BlockPair)
  /-- `CPI [A/WA,(R+)]` (B W): SRC op 14, R211. -/
  | cpi (z : SizeBW) (R : BitVec 3)
  /-- `CPIR [A/WA,(R+)]` (B W): SRC op 15, R212. -/
  | cpir (z : SizeBW) (R : BitVec 3)
  /-- `CPD [A/WA,(R-)]` (B W): SRC op 16, R213. -/
  | cpd (z : SizeBW) (R : BitVec 3)
  /-- `CPDR [A/WA,(R-)]` (B W): SRC op 17, R214. -/
  | cpdr (z : SizeBW) (R : BitVec 3)
  /-- `LD<W> (#16),(mem)` (B W): SRC op 19, R170. -/
  | ldAbs16Mem (z : SizeBW) (a : Word) (m : MemOp)
  /-- `LD R,(mem)` (B W L): SRC op 20+, R166. -/
  | ldCurMem (sz : Size) (R : BitVec 3) (m : MemOp)
  /-- `EX (mem),R` (B W): SRC op 30+, R202. -/
  | exMemCur (z : SizeBW) (m : MemOp) (R : BitVec 3)
  /-- `ADD<W> (mem),#` (B W): SRC op 38, R231. -/
  | addMemImm (z : SizeBW) (m : MemOp) (imm : BitVec z.size.bits)
  /-- `ADD R,(mem)` (B W L): SRC op 80+, R231. -/
  | addCurMem (sz : Size) (R : BitVec 3) (m : MemOp)
  /-- `ADD (mem),R` (B W L): SRC op 88+, R231. -/
  | addMemCur (sz : Size) (m : MemOp) (R : BitVec 3)
  /-- `ADC<W> (mem),#` (B W): SRC op 39, R232. -/
  | adcMemImm (z : SizeBW) (m : MemOp) (imm : BitVec z.size.bits)
  /-- `ADC R,(mem)` (B W L): SRC op 90+, R232. -/
  | adcCurMem (sz : Size) (R : BitVec 3) (m : MemOp)
  /-- `ADC (mem),R` (B W L): SRC op 98+, R232. -/
  | adcMemCur (sz : Size) (m : MemOp) (R : BitVec 3)
  /-- `SUB<W> (mem),#` (B W): SRC op 3A, R233. -/
  | subMemImm (z : SizeBW) (m : MemOp) (imm : BitVec z.size.bits)
  /-- `SUB R,(mem)` (B W L): SRC op A0+, R233. -/
  | subCurMem (sz : Size) (R : BitVec 3) (m : MemOp)
  /-- `SUB (mem),R` (B W L): SRC op A8+, R233. -/
  | subMemCur (sz : Size) (m : MemOp) (R : BitVec 3)
  /-- `SBC<W> (mem),#` (B W): SRC op 3B, R234. -/
  | sbcMemImm (z : SizeBW) (m : MemOp) (imm : BitVec z.size.bits)
  /-- `SBC R,(mem)` (B W L): SRC op B0+, R234. -/
  | sbcCurMem (sz : Size) (R : BitVec 3) (m : MemOp)
  /-- `SBC (mem),R` (B W L): SRC op B8+, R234. -/
  | sbcMemCur (sz : Size) (m : MemOp) (R : BitVec 3)
  /-- `AND<W> (mem),#` (B W): SRC op 3C, R301. -/
  | andMemImm (z : SizeBW) (m : MemOp) (imm : BitVec z.size.bits)
  /-- `AND R,(mem)` (B W L): SRC op C0+, R301. -/
  | andCurMem (sz : Size) (R : BitVec 3) (m : MemOp)
  /-- `AND (mem),R` (B W L): SRC op C8+, R301. -/
  | andMemCur (sz : Size) (m : MemOp) (R : BitVec 3)
  /-- `XOR<W> (mem),#` (B W): SRC op 3D, R303. -/
  | xorMemImm (z : SizeBW) (m : MemOp) (imm : BitVec z.size.bits)
  /-- `XOR R,(mem)` (B W L): SRC op D0+, R303. -/
  | xorCurMem (sz : Size) (R : BitVec 3) (m : MemOp)
  /-- `XOR (mem),R` (B W L): SRC op D8+, R303. -/
  | xorMemCur (sz : Size) (m : MemOp) (R : BitVec 3)
  /-- `OR<W> (mem),#` (B W): SRC op 3E, R302. -/
  | orMemImm (z : SizeBW) (m : MemOp) (imm : BitVec z.size.bits)
  /-- `OR R,(mem)` (B W L): SRC op E0+, R302. -/
  | orCurMem (sz : Size) (R : BitVec 3) (m : MemOp)
  /-- `OR (mem),R` (B W L): SRC op E8+, R302. -/
  | orMemCur (sz : Size) (m : MemOp) (R : BitVec 3)
  /-- `CP<W> (mem),#` (B W): SRC op 3F, R235. -/
  | cpMemImm (z : SizeBW) (m : MemOp) (imm : BitVec z.size.bits)
  /-- `CP R,(mem)` (B W L): SRC op F0+, R235. -/
  | cpCurMem (sz : Size) (R : BitVec 3) (m : MemOp)
  /-- `CP (mem),R` (B W L): SRC op F8+, R235. -/
  | cpMemCur (sz : Size) (m : MemOp) (R : BitVec 3)
  /-- `MUL RR,(mem)` (B W): SRC op 40+, R271. -/
  | mulMem (z : SizeBW) (RR : BitVec z.dblBits) (m : MemOp)
  /-- `MULS RR,(mem)` (B W): SRC op 48+, R272. -/
  | mulsMem (z : SizeBW) (RR : BitVec z.dblBits) (m : MemOp)
  /-- `DIV RR,(mem)` (B W): SRC op 50+, R273. -/
  | divMem (z : SizeBW) (RR : BitVec z.dblBits) (m : MemOp)
  /-- `DIVS RR,(mem)` (B W): SRC op 58+, R274. -/
  | divsMem (z : SizeBW) (RR : BitVec z.dblBits) (m : MemOp)
  /-- `INC<W> #3,(mem)` (B W): SRC op 60+, R236. -/
  | incMem (z : SizeBW) (num : BitVec 3) (m : MemOp)
  /-- `DEC<W> #3,(mem)` (B W): SRC op 68+, R237. -/
  | decMem (z : SizeBW) (num : BitVec 3) (m : MemOp)
  /-- `RLC<W> (mem)` (B W): SRC op 78, R393. -/
  | rlcMem (z : SizeBW) (m : MemOp)
  /-- `RRC<W> (mem)` (B W): SRC op 79, R394. -/
  | rrcMem (z : SizeBW) (m : MemOp)
  /-- `RL<W> (mem)` (B W): SRC op 7A, R395. -/
  | rlMem (z : SizeBW) (m : MemOp)
  /-- `RR<W> (mem)` (B W): SRC op 7B, R396. -/
  | rrMem (z : SizeBW) (m : MemOp)
  /-- `SLA<W> (mem)` (B W): SRC op 7C, R397. -/
  | slaMem (z : SizeBW) (m : MemOp)
  /-- `SRA<W> (mem)` (B W): SRC op 7D, R398. -/
  | sraMem (z : SizeBW) (m : MemOp)
  /-- `SLL<W> (mem)` (B W): SRC op 7E, R399. -/
  | sllMem (z : SizeBW) (m : MemOp)
  /-- `SRL<W> (mem)` (B W): SRC op 7F, R400. -/
  | srlMem (z : SizeBW) (m : MemOp)
  -- The dst class (R133)
  /-- `LD (mem),#` (B): DST op 00, R169. -/
  | ldMemImmB (m : MemOp) (imm : Byte)
  /-- `LDW (mem),#` (W): DST op 02, R169. -/
  | ldMemImmW (m : MemOp) (imm : Word)
  /-- `POP (mem)` (B): DST op 04, R184. -/
  | popMemB (m : MemOp)
  /-- `POPW (mem)` (W): DST op 06, R184. -/
  | popMemW (m : MemOp)
  /-- `LD (mem),(#16)` (B): DST op 14, R171. -/
  | ldMemAbs16B (m : MemOp) (a : Word)
  /-- `LDW (mem),(#16)` (W): DST op 16, R171. -/
  | ldMemAbs16W (m : MemOp) (a : Word)
  /-- `LDA R,mem` (W): DST op 20+, R185. -/
  | ldaW (R : BitVec 3) (m : MemOp)
  /-- `LDA R,mem` (L): DST op 30+, R185. -/
  | ldaL (R : BitVec 3) (m : MemOp)
  /-- `ANDCF A,(mem)` (B): DST op 28, R313. -/
  | andcfAMem (m : MemOp)
  /-- `ANDCF #3,(mem)` (B): DST op 80+, R313. -/
  | andcfImmMem (num : BitVec 3) (m : MemOp)
  /-- `ORCF A,(mem)` (B): DST op 29, R314. -/
  | orcfAMem (m : MemOp)
  /-- `ORCF #3,(mem)` (B): DST op 88+, R314. -/
  | orcfImmMem (num : BitVec 3) (m : MemOp)
  /-- `XORCF A,(mem)` (B): DST op 2A, R315. -/
  | xorcfAMem (m : MemOp)
  /-- `XORCF #3,(mem)` (B): DST op 90+, R315. -/
  | xorcfImmMem (num : BitVec 3) (m : MemOp)
  /-- `LDCF A,(mem)` (B): DST op 2B, R311. -/
  | ldcfAMem (m : MemOp)
  /-- `LDCF #3,(mem)` (B): DST op 98+, R311. -/
  | ldcfImmMem (num : BitVec 3) (m : MemOp)
  /-- `STCF A,(mem)` (B): DST op 2C, R312. -/
  | stcfAMem (m : MemOp)
  /-- `STCF #3,(mem)` (B): DST op A0+, R312. -/
  | stcfImmMem (num : BitVec 3) (m : MemOp)
  /-- `LD (mem),R` (B): DST op 40+, R167. -/
  | ldMemCurB (m : MemOp) (R : BitVec 3)
  /-- `LD (mem),R` (W): DST op 50+, R167. -/
  | ldMemCurW (m : MemOp) (R : BitVec 3)
  /-- `LD (mem),R` (L): DST op 60+, R167. -/
  | ldMemCurL (m : MemOp) (R : BitVec 3)
  /-- `TSET #3,(mem)` (B): DST op A8+, R334. -/
  | tsetMem (num : BitVec 3) (m : MemOp)
  /-- `RES #3,(mem)` (B): DST op B0+, R331. -/
  | resMem (num : BitVec 3) (m : MemOp)
  /-- `SET #3,(mem)` (B): DST op B8+, R332. -/
  | setMem (num : BitVec 3) (m : MemOp)
  /-- `CHG #3,(mem)` (B): DST op C0+, R333. -/
  | chgMem (num : BitVec 3) (m : MemOp)
  /-- `BIT #3,(mem)` (B): DST op C8+, R330. -/
  | bitMem (num : BitVec 3) (m : MemOp)
  /-- `JP [cc,]mem`: DST op D0+, R422. -/
  | jpMem (cc : Cond) (m : MemOp)
  /-- `CALL [cc,]mem`: DST op E0+, R432. -/
  | callMem (cc : Cond) (m : MemOp)
  /-- `RET cc`: DST op F0+, R436. -/
  | retCc (cc : Cond)
  -- LDAR (R125, R186)
  /-- `LDAR R,$+4+d16` (W): LDAR op 20+, R186. -/
  | ldarW (R : BitVec 3) (d : Word)
  /-- `LDAR R,$+4+d16` (L): LDAR op 30+, R186. -/
  | ldarL (R : BitVec 3) (d : Word)
deriving DecidableEq, Repr

end Sys2Proof
end

