-- ==== Sys2Proof/WellFormed.lean ====
section
/-! DEFINITION. Which terms of `Instr` are instructions that an encoding of the spec stands for. The types of
Sys2Proof/Syntax.lean already exclude unassigned register codes (R111), sizes a row does not have (R134), codes of `RR`
that R270 does not list, undefined steps and mode bytes (R126), fixed-zero bits (R129) and control register codes or
sizes that R53 excludes. One thing is left: the bytes 06H, 07H are DI (R147), so the term `ei 7` has no bytes of its
own. -/

namespace Sys2Proof

/-- An instruction is well formed when it is the decoding of some bytes: every term but `EI 7`, whose bytes decode as
DI ("DI is EI 7: same op code 06H, operand 07H", R147). -/
def Instr.wf (i : Instr) : Bool := decide (i ≠ .ei 7)

end Sys2Proof
end

