-- ==== Sys2Proof/Decode.lean ====
section
/-! DEFINITION. The decoder, total on any bytes and rejecting by name, and after it the encoder (spec/30_encoding.md).
An op code byte is read as its upper five bits and its lower three, which is how the code maps are laid out: a row
written `80+R` is one value of the upper five bits with the register in the lower three. -/

namespace Sys2Proof

/-- Why bytes are no instruction. -/
inductive DecodeError
  /-- A blank cell of a code map (R140 (a), (c)). -/
  | undefinedOp
  /-- A dummy instruction code (R140 (b), (c)). -/
  | dummyOp
  /-- A size the row does not have (R134). -/
  | size
  /-- A second op code tied to other first bytes (R132, R133). -/
  | firstByte
  /-- An undefined mode byte, one with a register code that R111 excludes among them (R126, D18). -/
  | mode
  /-- A register code, in another place than a mode byte, that the map does not define at this size (R111, D17). -/
  | registerCode
  /-- A fixed-zero bit that is not 0 (R129). -/
  | fixedZeroBits
  /-- A code of a double register that R270 does not list (D34). -/
  | doubleRegister
  /-- A control register code or size outside R50 (R53). -/
  | controlRegister
  /-- The bytes end inside the instruction. -/
  | truncated
deriving DecidableEq, Repr

/-! ## Fields -/

/-- A byte from its upper five and its lower three bits. -/
def opByte (h : BitVec 5) (l : BitVec 3) : Byte := h ++ l

/-- The upper five bits of a byte. -/
def hi5 (b : Byte) : BitVec 5 := b.extractLsb' 3 5

/-- The lower three bits of a byte. -/
def lo3 (b : Byte) : BitVec 3 := b.extractLsb' 0 3

/-- `nb` operand bytes, the first the least significant (R75, R101). -/
def takeLE : (nb : Nat) → List Byte → Except DecodeError ((BitVec (8 * nb)) × List Byte)
  | 0, bs => .ok (0#0, bs)
  | _ + 1, [] => .error .truncated
  | nb + 1, b :: bs =>
    match takeLE nb bs with
    | .ok (v, rest) => .ok ((v ++ b : BitVec (8 * nb + 8)), rest)
    | .error e => .error e

/-- One byte. -/
def take8 (bs : List Byte) : Except DecodeError (Byte × List Byte) := takeLE 1 bs

/-- A byte whose upper four bits are drawn as 0: the #4 byte (R127, R129). -/
def takeNum4 (bs : List Byte) : Except DecodeError ((BitVec 4) × List Byte) := do
  let (b, bs) ← take8 bs
  if b.extractLsb' 4 4 = 0 then .ok (b.extractLsb' 0 4, bs) else .error .fixedZeroBits

/-- The byte of EI, whose upper five bits are drawn as 0 (R351, R129). -/
def takeNum3 (bs : List Byte) : Except DecodeError ((BitVec 3) × List Byte) := do
  let (b, bs) ← take8 bs
  if hi5 b = 0 then .ok (lo3 b, bs) else .error .fixedZeroBits

/-- The byte of LDF, whose upper six bits are drawn as 0 (R370, R129). -/
def takeNum2 (bs : List Byte) : Except DecodeError ((BitVec 2) × List Byte) := do
  let (b, bs) ← take8 bs
  if b.extractLsb' 2 6 = 0 then .ok (b.extractLsb' 0 2, bs) else .error .fixedZeroBits

/-- The condition with a 4-bit code (R130). -/
def condOf (c : BitVec 4) : Cond :=
  match c.toNat with
  | 0 => .f
  | 1 => .lt
  | 2 => .le
  | 3 => .ule
  | 4 => .ov
  | 5 => .mi
  | 6 => .z
  | 7 => .c
  | 8 => .t
  | 9 => .ge
  | 10 => .gt
  | 11 => .ugt
  | 12 => .nov
  | 13 => .pl
  | 14 => .nz
  | _ => .nc

/-! ## Register codes -/

/-- The register of a bank with a 2-bit place (R27). -/
def bankRegOf (c : BitVec 2) : BankReg :=
  match c.toNat with
  | 0 => .xwa
  | 1 => .xbc
  | 2 => .xde
  | _ => .xhl

/-- The 32-bit register whose register code has these upper six bits (R27); none for the codes 40H to CFH (R111). -/
def reg32Of (c : BitVec 6) : Option Reg32 :=
  match (c.extractLsb' 4 2).toNat, (c.extractLsb' 2 2).toNat with
  | 0, _ => some (.bank (c.extractLsb' 2 2) (bankRegOf (c.extractLsb' 0 2)))
  | 3, 1 => some (.prev (bankRegOf (c.extractLsb' 0 2)))
  | 3, 2 => some (.cur (bankRegOf (c.extractLsb' 0 2)))
  | 3, 3 =>
    match (c.extractLsb' 0 2).toNat with
    | 0 => some .xix
    | 1 => some .xiy
    | 2 => some .xiz
    | _ => some .xsp
  | _, _ => none

/-- The register operand as the first byte, and the code byte after it, give it (R102 (2), R110). -/
inductive RawReg
  | short (c : BitVec 3)
  | ext (code : Byte)
deriving DecidableEq, Repr

/-- The part of a 32-bit register that a register code names at a size, or none when the code is not a multiple of the
size (R27, R111). -/
def partOf (sz : Size) (code : Byte) : Option (BitVec sz.partBits) :=
  match sz with
  | .b => some (code.extractLsb' 0 2)
  | .w => if code.extractLsb' 0 1 = 0 then some (code.extractLsb' 1 1) else none
  | .l => if code.extractLsb' 0 2 = 0 then some 0#0 else none

/-- The operand `r` (R108, R110, R111). -/
def regOp (sz : Size) (raw : RawReg) : Except DecodeError (RegOp sz) :=
  match raw with
  | .short c => .ok (.short c)
  | .ext code =>
    match reg32Of (code.extractLsb' 2 6), partOf sz code with
    | some r, some part => .ok (.ext r part)
    | _, _ => .error .registerCode

/-- The operand `RR` from its 3-bit code (R270 (a), (b)). -/
def dblCode (z : SizeBW) (c : BitVec 3) : Except DecodeError (BitVec z.dblBits) :=
  match z with
  | .b => if c.extractLsb' 0 1 = 1 then .ok (c.extractLsb' 1 2) else .error .doubleRegister
  | .w => .ok c

/-- The operand `rr` (R270 (c), (d)); an odd code after C7H is refused as D34 says. -/
def dblOp (z : SizeBW) (raw : RawReg) : Except DecodeError (DblOp z) :=
  match raw with
  | .short c => do
    let c ← dblCode z c
    .ok (.short c)
  | .ext code =>
    match reg32Of (code.extractLsb' 2 6), partOf z.double code with
    | some r, some part => .ok (.ext r part)
    | none, _ => .error .registerCode
    | _, none => .error (match z with | .b => .doubleRegister | .w => .registerCode)

/-- A 32-bit register named by a whole mode byte, as in R122; a code that R111 excludes makes it an undefined mode byte
(R126, D18). -/
def longReg (code : Byte) : Except DecodeError Reg32 :=
  match reg32Of (code.extractLsb' 2 6), partOf .l code with
  | some r, some _ => .ok r
  | _, _ => .error .mode

/-- A control register at the size of the instruction (R50, R53, D15, D16). -/
def ctrlRegOf (sz : Size) (code : Byte) : Except DecodeError CtrlReg :=
  let n := code.extractLsb' 2 3
  let cr : Option CtrlReg :=
    match (code.extractLsb' 5 3).toNat, (code.extractLsb' 0 2).toNat with
    | 0, 0 => some (.dmas n)
    | 1, 0 => some (.dmad n)
    | 2, 0 => some (.dmac n)
    | 2, 2 => some (.dmam n)
    | 3, 0 => if n = 7 then some .intnest else none
    | _, _ => none
  match cr with
  | some cr => if cr.size = sz then .ok cr else .error .controlRegister
  | none => .error .controlRegister

/-! ## Sizes -/

/-- A byte-or-word row under a size (R134). -/
def needBW (sz : Size) : Except DecodeError SizeBW :=
  match sz with
  | .b => .ok .b
  | .w => .ok .w
  | .l => .error .size

/-- A word-or-long row under a size (R134). -/
def needWL (sz : Size) : Except DecodeError SizeWL :=
  match sz with
  | .b => .error .size
  | .w => .ok .w
  | .l => .ok .l

/-- A row of one size under a size (R134). -/
def needSize (want sz : Size) : Except DecodeError Unit := if sz = want then .ok () else .error .size

/-! ## Memory operands -/

/-- The 32-bit register in the upper six bits of a mode byte (R113); one that R111 excludes makes it undefined (R126). -/
def modeReg (b : Byte) : Except DecodeError Reg32 :=
  match reg32Of (b.extractLsb' 2 6) with
  | some r => .ok r
  | none => .error .mode

/-- The step in the lower two bits of a mode byte; 11 is not defined (R113, R123). -/
def stepOf (b : Byte) : Except DecodeError Step :=
  match (b.extractLsb' 0 2).toNat with
  | 0 => .ok .one
  | 1 => .ok .two
  | 2 => .ok .four
  | _ => .error .mode

/-- The modes of `mmmm = 0011`, from the mode byte on (R120 to R122). -/
def decodeMode3 (b : Byte) (bs : List Byte) : Except DecodeError (MemOp × List Byte) :=
  match (b.extractLsb' 0 2).toNat with
  | 0 => do
    let r ← modeReg b
    .ok (.indReg r, bs)
  | 1 => do
    let r ← modeReg b
    let (d, bs) ← takeLE 2 bs
    .ok (.disp16 r d, bs)
  | 3 =>
    if b = 0x03 then do
      let (c1, bs) ← take8 bs
      let (c2, bs) ← take8 bs
      let r ← longReg c1
      match reg32Of (c2.extractLsb' 2 6), partOf .b c2 with
      | some x, some part => .ok (.index8 r x part, bs)
      | _, _ => .error .mode
    else if b = 0x07 then do
      let (c1, bs) ← take8 bs
      let (c2, bs) ← take8 bs
      let r ← longReg c1
      match reg32Of (c2.extractLsb' 2 6), partOf .w c2 with
      | some x, some part => .ok (.index16 r x part, bs)
      | _, _ => .error .mode
    else .error .mode
  | _ => .error .mode

/-- The modes with `m = 1`, by the lower three bits of the first byte (R113, R117 to R124). -/
def decodeMode (k : BitVec 3) (bs : List Byte) : Except DecodeError (MemOp × List Byte) :=
  match k.toNat with
  | 0 => do
    let (a, bs) ← takeLE 1 bs
    .ok (.abs8 a, bs)
  | 1 => do
    let (a, bs) ← takeLE 2 bs
    .ok (.abs16 a, bs)
  | 2 => do
    let (a, bs) ← takeLE 3 bs
    .ok (.abs24 a, bs)
  | 3 => do
    let (b, bs) ← take8 bs
    decodeMode3 b bs
  | 4 => do
    let (b, bs) ← take8 bs
    let st ← stepOf b
    let r ← modeReg b
    .ok (.preDec r st, bs)
  | 5 => do
    let (b, bs) ← take8 bs
    let st ← stepOf b
    let r ← modeReg b
    .ok (.postInc r st, bs)
  | _ => .error .undefinedOp

/-- The pointer pair of LDI, LDIR, LDD, LDDR from the mode of the first byte (R205). -/
def blockPair (m : MemOp) : Except DecodeError BlockPair :=
  match m with
  | .ind c => if c = 3 then .ok .deHl else if c = 5 then .ok .ixIy else .error .firstByte
  | _ => .error .firstByte

/-- The pointer of CPI, CPIR, CPD, CPDR from the mode of the first byte (R210). -/
def comparePointer (m : MemOp) : Except DecodeError (BitVec 3) :=
  match m with
  | .ind c => .ok c
  | _ => .error .firstByte

/-! ## The reg class (R131) -/

/-- `reg` class, second bytes 00H to 07H. -/
def reg00 (sz : Size) (raw : RawReg) (op : Byte) (bs : List Byte) : Except DecodeError (Instr × List Byte) :=
  match (lo3 op).toNat with
  | 3 => do
    let r ← regOp sz raw
    let (imm, bs) ← takeLE sz.bytes bs
    .ok (.ldRegImm sz r imm, bs)
  | 4 => do
    let r ← regOp sz raw
    .ok (.pushReg sz r, bs)
  | 5 => do
    let r ← regOp sz raw
    .ok (.popReg sz r, bs)
  | 6 => do
    let z ← needBW sz
    let r ← regOp z.size raw
    .ok (.cpl z r, bs)
  | 7 => do
    let z ← needBW sz
    let r ← regOp z.size raw
    .ok (.neg z r, bs)
  | _ => .error .undefinedOp

/-- `reg` class, second bytes 08H to 0FH. -/
def reg08 (sz : Size) (raw : RawReg) (op : Byte) (bs : List Byte) : Except DecodeError (Instr × List Byte) :=
  match (lo3 op).toNat with
  | 0 => do
    let z ← needBW sz
    let rr ← dblOp z raw
    let (imm, bs) ← takeLE z.size.bytes bs
    .ok (.mulImm z rr imm, bs)
  | 1 => do
    let z ← needBW sz
    let rr ← dblOp z raw
    let (imm, bs) ← takeLE z.size.bytes bs
    .ok (.mulsImm z rr imm, bs)
  | 2 => do
    let z ← needBW sz
    let rr ← dblOp z raw
    let (imm, bs) ← takeLE z.size.bytes bs
    .ok (.divImm z rr imm, bs)
  | 3 => do
    let z ← needBW sz
    let rr ← dblOp z raw
    let (imm, bs) ← takeLE z.size.bytes bs
    .ok (.divsImm z rr imm, bs)
  | 4 => do
    let _ ← needSize .l sz
    let r ← regOp .l raw
    let (d, bs) ← takeLE 2 bs
    .ok (.link r d, bs)
  | 5 => do
    let _ ← needSize .l sz
    let r ← regOp .l raw
    .ok (.unlk r, bs)
  | 6 => do
    let _ ← needSize .w sz
    let r ← regOp .w raw
    .ok (.bs1f r, bs)
  | _ => do
    let _ ← needSize .w sz
    let r ← regOp .w raw
    .ok (.bs1b r, bs)

/-- `reg` class, second bytes 10H to 17H. -/
def reg10 (sz : Size) (raw : RawReg) (op : Byte) (bs : List Byte) : Except DecodeError (Instr × List Byte) :=
  match (lo3 op).toNat with
  | 0 => do
    let _ ← needSize .b sz
    let r ← regOp .b raw
    .ok (.daa r, bs)
  | 2 => do
    let z ← needWL sz
    let r ← regOp z.size raw
    .ok (.extz z r, bs)
  | 3 => do
    let z ← needWL sz
    let r ← regOp z.size raw
    .ok (.exts z r, bs)
  | 4 => do
    let z ← needWL sz
    let r ← regOp z.size raw
    .ok (.paa z r, bs)
  | 6 => do
    let _ ← needSize .w sz
    let r ← regOp .w raw
    .ok (.mirr r, bs)
  | _ => .error .undefinedOp

/-- `reg` class, second bytes 18H to 1FH; 1AH, 1BH, 1DH, 1EH, 1FH are dummies. -/
def reg18 (sz : Size) (raw : RawReg) (op : Byte) (bs : List Byte) : Except DecodeError (Instr × List Byte) :=
  match (lo3 op).toNat with
  | 0 => .error .undefinedOp
  | 1 => do
    let _ ← needSize .w sz
    let rr ← dblOp .w raw
    .ok (.mula rr, bs)
  | 4 => do
    let z ← needBW sz
    let r ← regOp z.size raw
    let (d, bs) ← takeLE 1 bs
    .ok (.djnz z r d, bs)
  | _ => .error .dummyOp

/-- `reg` class, second bytes 20H to 27H. -/
def reg20 (sz : Size) (raw : RawReg) (op : Byte) (bs : List Byte) : Except DecodeError (Instr × List Byte) :=
  match (lo3 op).toNat with
  | 0 => do
    let z ← needBW sz
    let r ← regOp z.size raw
    let (num, bs) ← takeNum4 bs
    .ok (.andcfImmReg z r num, bs)
  | 1 => do
    let z ← needBW sz
    let r ← regOp z.size raw
    let (num, bs) ← takeNum4 bs
    .ok (.orcfImmReg z r num, bs)
  | 2 => do
    let z ← needBW sz
    let r ← regOp z.size raw
    let (num, bs) ← takeNum4 bs
    .ok (.xorcfImmReg z r num, bs)
  | 3 => do
    let z ← needBW sz
    let r ← regOp z.size raw
    let (num, bs) ← takeNum4 bs
    .ok (.ldcfImmReg z r num, bs)
  | 4 => do
    let z ← needBW sz
    let r ← regOp z.size raw
    let (num, bs) ← takeNum4 bs
    .ok (.stcfImmReg z r num, bs)
  | _ => .error .undefinedOp

/-- `reg` class, second bytes 28H to 2FH. -/
def reg28 (sz : Size) (raw : RawReg) (op : Byte) (bs : List Byte) : Except DecodeError (Instr × List Byte) :=
  match (lo3 op).toNat with
  | 0 => do
    let z ← needBW sz
    let r ← regOp z.size raw
    .ok (.andcfAReg z r, bs)
  | 1 => do
    let z ← needBW sz
    let r ← regOp z.size raw
    .ok (.orcfAReg z r, bs)
  | 2 => do
    let z ← needBW sz
    let r ← regOp z.size raw
    .ok (.xorcfAReg z r, bs)
  | 3 => do
    let z ← needBW sz
    let r ← regOp z.size raw
    .ok (.ldcfAReg z r, bs)
  | 4 => do
    let z ← needBW sz
    let r ← regOp z.size raw
    .ok (.stcfAReg z r, bs)
  | 6 => do
    let (c, bs) ← take8 bs
    let cr ← ctrlRegOf sz c
    let r ← regOp cr.size raw
    .ok (.ldcToCr cr r, bs)
  | 7 => do
    let (c, bs) ← take8 bs
    let cr ← ctrlRegOf sz c
    let r ← regOp cr.size raw
    .ok (.ldcFromCr cr r, bs)
  | _ => .error .undefinedOp

/-- `reg` class, second bytes 30H to 37H. -/
def reg30 (sz : Size) (raw : RawReg) (op : Byte) (bs : List Byte) : Except DecodeError (Instr × List Byte) :=
  match (lo3 op).toNat with
  | 0 => do
    let z ← needBW sz
    let r ← regOp z.size raw
    let (num, bs) ← takeNum4 bs
    .ok (.resReg z r num, bs)
  | 1 => do
    let z ← needBW sz
    let r ← regOp z.size raw
    let (num, bs) ← takeNum4 bs
    .ok (.setReg z r num, bs)
  | 2 => do
    let z ← needBW sz
    let r ← regOp z.size raw
    let (num, bs) ← takeNum4 bs
    .ok (.chgReg z r num, bs)
  | 3 => do
    let z ← needBW sz
    let r ← regOp z.size raw
    let (num, bs) ← takeNum4 bs
    .ok (.bitReg z r num, bs)
  | 4 => do
    let z ← needBW sz
    let r ← regOp z.size raw
    let (num, bs) ← takeNum4 bs
    .ok (.tsetReg z r num, bs)
  | _ => .error .undefinedOp

/-- `reg` class, second bytes 38H to 3FH; 3BH and 3FH are dummies. -/
def reg38 (sz : Size) (raw : RawReg) (op : Byte) (bs : List Byte) : Except DecodeError (Instr × List Byte) :=
  match (lo3 op).toNat with
  | 0 => do
    let _ ← needSize .w sz
    let r ← regOp .w raw
    let (field, bs) ← takeLE 2 bs
    .ok (.minc1 r field, bs)
  | 1 => do
    let _ ← needSize .w sz
    let r ← regOp .w raw
    let (field, bs) ← takeLE 2 bs
    .ok (.minc2 r field, bs)
  | 2 => do
    let _ ← needSize .w sz
    let r ← regOp .w raw
    let (field, bs) ← takeLE 2 bs
    .ok (.minc4 r field, bs)
  | 4 => do
    let _ ← needSize .w sz
    let r ← regOp .w raw
    let (field, bs) ← takeLE 2 bs
    .ok (.mdec1 r field, bs)
  | 5 => do
    let _ ← needSize .w sz
    let r ← regOp .w raw
    let (field, bs) ← takeLE 2 bs
    .ok (.mdec2 r field, bs)
  | 6 => do
    let _ ← needSize .w sz
    let r ← regOp .w raw
    let (field, bs) ← takeLE 2 bs
    .ok (.mdec4 r field, bs)
  | _ => .error .dummyOp

/-- `reg` class, second bytes C8H to CFH: the two-operand group with an immediate (R230). -/
def regC8 (sz : Size) (raw : RawReg) (op : Byte) (bs : List Byte) : Except DecodeError (Instr × List Byte) :=
  match (lo3 op).toNat with
  | 0 => do
    let r ← regOp sz raw
    let (imm, bs) ← takeLE sz.bytes bs
    .ok (.addRegImm sz r imm, bs)
  | 1 => do
    let r ← regOp sz raw
    let (imm, bs) ← takeLE sz.bytes bs
    .ok (.adcRegImm sz r imm, bs)
  | 2 => do
    let r ← regOp sz raw
    let (imm, bs) ← takeLE sz.bytes bs
    .ok (.subRegImm sz r imm, bs)
  | 3 => do
    let r ← regOp sz raw
    let (imm, bs) ← takeLE sz.bytes bs
    .ok (.sbcRegImm sz r imm, bs)
  | 4 => do
    let r ← regOp sz raw
    let (imm, bs) ← takeLE sz.bytes bs
    .ok (.andRegImm sz r imm, bs)
  | 5 => do
    let r ← regOp sz raw
    let (imm, bs) ← takeLE sz.bytes bs
    .ok (.xorRegImm sz r imm, bs)
  | 6 => do
    let r ← regOp sz raw
    let (imm, bs) ← takeLE sz.bytes bs
    .ok (.orRegImm sz r imm, bs)
  | _ => do
    let r ← regOp sz raw
    let (imm, bs) ← takeLE sz.bytes bs
    .ok (.cpRegImm sz r imm, bs)

/-- `reg` class, second bytes E8H to EFH: rotates and shifts by #4 (R390). -/
def regE8 (sz : Size) (raw : RawReg) (op : Byte) (bs : List Byte) : Except DecodeError (Instr × List Byte) :=
  match (lo3 op).toNat with
  | 0 => do
    let r ← regOp sz raw
    let (num, bs) ← takeNum4 bs
    .ok (.rlcImmReg sz r num, bs)
  | 1 => do
    let r ← regOp sz raw
    let (num, bs) ← takeNum4 bs
    .ok (.rrcImmReg sz r num, bs)
  | 2 => do
    let r ← regOp sz raw
    let (num, bs) ← takeNum4 bs
    .ok (.rlImmReg sz r num, bs)
  | 3 => do
    let r ← regOp sz raw
    let (num, bs) ← takeNum4 bs
    .ok (.rrImmReg sz r num, bs)
  | 4 => do
    let r ← regOp sz raw
    let (num, bs) ← takeNum4 bs
    .ok (.slaImmReg sz r num, bs)
  | 5 => do
    let r ← regOp sz raw
    let (num, bs) ← takeNum4 bs
    .ok (.sraImmReg sz r num, bs)
  | 6 => do
    let r ← regOp sz raw
    let (num, bs) ← takeNum4 bs
    .ok (.sllImmReg sz r num, bs)
  | _ => do
    let r ← regOp sz raw
    let (num, bs) ← takeNum4 bs
    .ok (.srlImmReg sz r num, bs)

/-- `reg` class, second bytes F8H to FFH: rotates and shifts by A (R390). -/
def regF8 (sz : Size) (raw : RawReg) (op : Byte) (bs : List Byte) : Except DecodeError (Instr × List Byte) :=
  match (lo3 op).toNat with
  | 0 => do
    let r ← regOp sz raw
    .ok (.rlcAReg sz r, bs)
  | 1 => do
    let r ← regOp sz raw
    .ok (.rrcAReg sz r, bs)
  | 2 => do
    let r ← regOp sz raw
    .ok (.rlAReg sz r, bs)
  | 3 => do
    let r ← regOp sz raw
    .ok (.rrAReg sz r, bs)
  | 4 => do
    let r ← regOp sz raw
    .ok (.slaAReg sz r, bs)
  | 5 => do
    let r ← regOp sz raw
    .ok (.sraAReg sz r, bs)
  | 6 => do
    let r ← regOp sz raw
    .ok (.sllAReg sz r, bs)
  | _ => do
    let r ← regOp sz raw
    .ok (.srlAReg sz r, bs)

/-- The second op code byte of the `reg` class and what follows it (R131). -/
def decodeReg (sz : Size) (raw : RawReg) (op : Byte) (bs : List Byte) : Except DecodeError (Instr × List Byte) :=
  match (hi5 op).toNat with
  | 0 => reg00 sz raw op bs
  | 1 => reg08 sz raw op bs
  | 2 => reg10 sz raw op bs
  | 3 => reg18 sz raw op bs
  | 4 => reg20 sz raw op bs
  | 5 => reg28 sz raw op bs
  | 6 => reg30 sz raw op bs
  | 7 => reg38 sz raw op bs
  | 8 => do
    let z ← needBW sz
    let RR ← dblCode z (lo3 op)
    let r ← regOp z.size raw
    .ok (.mulReg z RR r, bs)
  | 9 => do
    let z ← needBW sz
    let RR ← dblCode z (lo3 op)
    let r ← regOp z.size raw
    .ok (.mulsReg z RR r, bs)
  | 10 => do
    let z ← needBW sz
    let RR ← dblCode z (lo3 op)
    let r ← regOp z.size raw
    .ok (.divReg z RR r, bs)
  | 11 => do
    let z ← needBW sz
    let RR ← dblCode z (lo3 op)
    let r ← regOp z.size raw
    .ok (.divsReg z RR r, bs)
  | 12 => do
    let r ← regOp sz raw
    .ok (.incReg sz r (lo3 op), bs)
  | 13 => do
    let r ← regOp sz raw
    .ok (.decReg sz r (lo3 op), bs)
  | 14 => do
    let z ← needBW sz
    let r ← regOp z.size raw
    .ok (.scc z r (condOf (op.extractLsb' 0 4)), bs)
  | 15 => do
    let z ← needBW sz
    let r ← regOp z.size raw
    .ok (.scc z r (condOf (op.extractLsb' 0 4)), bs)
  | 16 => do
    let r ← regOp sz raw
    .ok (.addCurReg sz (lo3 op) r, bs)
  | 17 => do
    let r ← regOp sz raw
    .ok (.ldCurReg sz (lo3 op) r, bs)
  | 18 => do
    let r ← regOp sz raw
    .ok (.adcCurReg sz (lo3 op) r, bs)
  | 19 => do
    let r ← regOp sz raw
    .ok (.ldRegCur sz r (lo3 op), bs)
  | 20 => do
    let r ← regOp sz raw
    .ok (.subCurReg sz (lo3 op) r, bs)
  | 21 => do
    let r ← regOp sz raw
    .ok (.ldRegImm3 sz r (lo3 op), bs)
  | 22 => do
    let r ← regOp sz raw
    .ok (.sbcCurReg sz (lo3 op) r, bs)
  | 23 => do
    let z ← needBW sz
    let r ← regOp z.size raw
    .ok (.exCurReg z (lo3 op) r, bs)
  | 24 => do
    let r ← regOp sz raw
    .ok (.andCurReg sz (lo3 op) r, bs)
  | 25 => regC8 sz raw op bs
  | 26 => do
    let r ← regOp sz raw
    .ok (.xorCurReg sz (lo3 op) r, bs)
  | 27 => do
    let z ← needBW sz
    let r ← regOp z.size raw
    .ok (.cpRegImm3 z r (lo3 op), bs)
  | 28 => do
    let r ← regOp sz raw
    .ok (.orCurReg sz (lo3 op) r, bs)
  | 29 => regE8 sz raw op bs
  | 30 => do
    let r ← regOp sz raw
    .ok (.cpCurReg sz (lo3 op) r, bs)
  | 31 => regF8 sz raw op bs
  | _ => .error .undefinedOp

/-! ## The src class (R132) -/

/-- `src` class, second bytes 00H to 07H. -/
def src00 (sz : Size) (m : MemOp) (op : Byte) (bs : List Byte) : Except DecodeError (Instr × List Byte) :=
  match (lo3 op).toNat with
  | 4 => do
    let z ← needBW sz
    .ok (.pushMem z m, bs)
  | 6 => do
    let _ ← needSize .b sz
    .ok (.rld m, bs)
  | 7 => do
    let _ ← needSize .b sz
    .ok (.rrd m, bs)
  | _ => .error .undefinedOp

/-- `src` class, second bytes 10H to 17H: block transfer and block compare (R205, R210). -/
def src10 (sz : Size) (m : MemOp) (op : Byte) (bs : List Byte) : Except DecodeError (Instr × List Byte) :=
  match (lo3 op).toNat with
  | 0 => do
    let z ← needBW sz
    let p ← blockPair m
    .ok (.ldi z p, bs)
  | 1 => do
    let z ← needBW sz
    let p ← blockPair m
    .ok (.ldir z p, bs)
  | 2 => do
    let z ← needBW sz
    let p ← blockPair m
    .ok (.ldd z p, bs)
  | 3 => do
    let z ← needBW sz
    let p ← blockPair m
    .ok (.lddr z p, bs)
  | 4 => do
    let z ← needBW sz
    let R ← comparePointer m
    .ok (.cpi z R, bs)
  | 5 => do
    let z ← needBW sz
    let R ← comparePointer m
    .ok (.cpir z R, bs)
  | 6 => do
    let z ← needBW sz
    let R ← comparePointer m
    .ok (.cpd z R, bs)
  | _ => do
    let z ← needBW sz
    let R ← comparePointer m
    .ok (.cpdr z R, bs)

/-- `src` class, second bytes 38H to 3FH: the two-operand group with an immediate (R230). -/
def src38 (sz : Size) (m : MemOp) (op : Byte) (bs : List Byte) : Except DecodeError (Instr × List Byte) :=
  match (lo3 op).toNat with
  | 0 => do
    let z ← needBW sz
    let (imm, bs) ← takeLE z.size.bytes bs
    .ok (.addMemImm z m imm, bs)
  | 1 => do
    let z ← needBW sz
    let (imm, bs) ← takeLE z.size.bytes bs
    .ok (.adcMemImm z m imm, bs)
  | 2 => do
    let z ← needBW sz
    let (imm, bs) ← takeLE z.size.bytes bs
    .ok (.subMemImm z m imm, bs)
  | 3 => do
    let z ← needBW sz
    let (imm, bs) ← takeLE z.size.bytes bs
    .ok (.sbcMemImm z m imm, bs)
  | 4 => do
    let z ← needBW sz
    let (imm, bs) ← takeLE z.size.bytes bs
    .ok (.andMemImm z m imm, bs)
  | 5 => do
    let z ← needBW sz
    let (imm, bs) ← takeLE z.size.bytes bs
    .ok (.xorMemImm z m imm, bs)
  | 6 => do
    let z ← needBW sz
    let (imm, bs) ← takeLE z.size.bytes bs
    .ok (.orMemImm z m imm, bs)
  | _ => do
    let z ← needBW sz
    let (imm, bs) ← takeLE z.size.bytes bs
    .ok (.cpMemImm z m imm, bs)

/-- `src` class, second bytes 78H to 7FH: rotates and shifts of memory (R390). -/
def src78 (sz : Size) (m : MemOp) (op : Byte) (bs : List Byte) : Except DecodeError (Instr × List Byte) :=
  match (lo3 op).toNat with
  | 0 => do
    let z ← needBW sz
    .ok (.rlcMem z m, bs)
  | 1 => do
    let z ← needBW sz
    .ok (.rrcMem z m, bs)
  | 2 => do
    let z ← needBW sz
    .ok (.rlMem z m, bs)
  | 3 => do
    let z ← needBW sz
    .ok (.rrMem z m, bs)
  | 4 => do
    let z ← needBW sz
    .ok (.slaMem z m, bs)
  | 5 => do
    let z ← needBW sz
    .ok (.sraMem z m, bs)
  | 6 => do
    let z ← needBW sz
    .ok (.sllMem z m, bs)
  | _ => do
    let z ← needBW sz
    .ok (.srlMem z m, bs)

/-- The second op code byte of the `src` class and what follows it (R132). -/
def decodeSrc (sz : Size) (m : MemOp) (op : Byte) (bs : List Byte) : Except DecodeError (Instr × List Byte) :=
  match (hi5 op).toNat with
  | 0 => src00 sz m op bs
  | 2 => src10 sz m op bs
  | 3 =>
    if lo3 op = 1 then do
      let z ← needBW sz
      let (a, bs) ← takeLE 2 bs
      .ok (.ldAbs16Mem z a m, bs)
    else .error .undefinedOp
  | 4 => .ok (.ldCurMem sz (lo3 op) m, bs)
  | 6 => do
    let z ← needBW sz
    .ok (.exMemCur z m (lo3 op), bs)
  | 7 => src38 sz m op bs
  | 8 => do
    let z ← needBW sz
    let RR ← dblCode z (lo3 op)
    .ok (.mulMem z RR m, bs)
  | 9 => do
    let z ← needBW sz
    let RR ← dblCode z (lo3 op)
    .ok (.mulsMem z RR m, bs)
  | 10 => do
    let z ← needBW sz
    let RR ← dblCode z (lo3 op)
    .ok (.divMem z RR m, bs)
  | 11 => do
    let z ← needBW sz
    let RR ← dblCode z (lo3 op)
    .ok (.divsMem z RR m, bs)
  | 12 => do
    let z ← needBW sz
    .ok (.incMem z (lo3 op) m, bs)
  | 13 => do
    let z ← needBW sz
    .ok (.decMem z (lo3 op) m, bs)
  | 15 => src78 sz m op bs
  | 16 => .ok (.addCurMem sz (lo3 op) m, bs)
  | 17 => .ok (.addMemCur sz m (lo3 op), bs)
  | 18 => .ok (.adcCurMem sz (lo3 op) m, bs)
  | 19 => .ok (.adcMemCur sz m (lo3 op), bs)
  | 20 => .ok (.subCurMem sz (lo3 op) m, bs)
  | 21 => .ok (.subMemCur sz m (lo3 op), bs)
  | 22 => .ok (.sbcCurMem sz (lo3 op) m, bs)
  | 23 => .ok (.sbcMemCur sz m (lo3 op), bs)
  | 24 => .ok (.andCurMem sz (lo3 op) m, bs)
  | 25 => .ok (.andMemCur sz m (lo3 op), bs)
  | 26 => .ok (.xorCurMem sz (lo3 op) m, bs)
  | 27 => .ok (.xorMemCur sz m (lo3 op), bs)
  | 28 => .ok (.orCurMem sz (lo3 op) m, bs)
  | 29 => .ok (.orMemCur sz m (lo3 op), bs)
  | 30 => .ok (.cpCurMem sz (lo3 op) m, bs)
  | 31 => .ok (.cpMemCur sz m (lo3 op), bs)
  | _ => .error .undefinedOp

/-! ## The dst class (R133) -/

/-- `dst` class, second bytes 00H to 07H; 01H and 05H are dummies. -/
def dst00 (m : MemOp) (op : Byte) (bs : List Byte) : Except DecodeError (Instr × List Byte) :=
  match (lo3 op).toNat with
  | 0 => do
    let (imm, bs) ← takeLE 1 bs
    .ok (.ldMemImmB m imm, bs)
  | 1 => .error .dummyOp
  | 2 => do
    let (imm, bs) ← takeLE 2 bs
    .ok (.ldMemImmW m imm, bs)
  | 4 => .ok (.popMemB m, bs)
  | 5 => .error .dummyOp
  | 6 => .ok (.popMemW m, bs)
  | _ => .error .undefinedOp

/-- `dst` class, second bytes 10H to 17H; 15H is a dummy. -/
def dst10 (m : MemOp) (op : Byte) (bs : List Byte) : Except DecodeError (Instr × List Byte) :=
  match (lo3 op).toNat with
  | 4 => do
    let (a, bs) ← takeLE 2 bs
    .ok (.ldMemAbs16B m a, bs)
  | 5 => .error .dummyOp
  | 6 => do
    let (a, bs) ← takeLE 2 bs
    .ok (.ldMemAbs16W m a, bs)
  | _ => .error .undefinedOp

/-- `dst` class, second bytes 28H to 2FH: carry-flag operations with A (R310). -/
def dst28 (m : MemOp) (op : Byte) (bs : List Byte) : Except DecodeError (Instr × List Byte) :=
  match (lo3 op).toNat with
  | 0 => .ok (.andcfAMem m, bs)
  | 1 => .ok (.orcfAMem m, bs)
  | 2 => .ok (.xorcfAMem m, bs)
  | 3 => .ok (.ldcfAMem m, bs)
  | 4 => .ok (.stcfAMem m, bs)
  | _ => .error .undefinedOp

/-- The second op code byte of the `dst` class and what follows it (R133). -/
def decodeDst (m : MemOp) (op : Byte) (bs : List Byte) : Except DecodeError (Instr × List Byte) :=
  match (hi5 op).toNat with
  | 0 => dst00 m op bs
  | 2 => dst10 m op bs
  | 4 => .ok (.ldaW (lo3 op) m, bs)
  | 5 => dst28 m op bs
  | 6 => .ok (.ldaL (lo3 op) m, bs)
  | 8 => .ok (.ldMemCurB m (lo3 op), bs)
  | 10 => .ok (.ldMemCurW m (lo3 op), bs)
  | 12 => .ok (.ldMemCurL m (lo3 op), bs)
  | 16 => .ok (.andcfImmMem (lo3 op) m, bs)
  | 17 => .ok (.orcfImmMem (lo3 op) m, bs)
  | 18 => .ok (.xorcfImmMem (lo3 op) m, bs)
  | 19 => .ok (.ldcfImmMem (lo3 op) m, bs)
  | 20 => .ok (.stcfImmMem (lo3 op) m, bs)
  | 21 => .ok (.tsetMem (lo3 op) m, bs)
  | 22 => .ok (.resMem (lo3 op) m, bs)
  | 23 => .ok (.setMem (lo3 op) m, bs)
  | 24 => .ok (.chgMem (lo3 op) m, bs)
  | 25 => .ok (.bitMem (lo3 op) m, bs)
  | 26 => .ok (.jpMem (condOf (op.extractLsb' 0 4)) m, bs)
  | 27 => .ok (.jpMem (condOf (op.extractLsb' 0 4)) m, bs)
  | 28 => .ok (.callMem (condOf (op.extractLsb' 0 4)) m, bs)
  | 29 => .ok (.callMem (condOf (op.extractLsb' 0 4)) m, bs)
  | 30 => if m = .ind 0 then .ok (.retCc (condOf (op.extractLsb' 0 4)), bs) else .error .firstByte
  | 31 => if m = .ind 0 then .ok (.retCc (condOf (op.extractLsb' 0 4)), bs) else .error .firstByte
  | _ => .error .undefinedOp

/-- LDAR, after F3H, 13H: d16 and the op code byte (R125, R186). -/
def decodeLdar (bs : List Byte) : Except DecodeError (Instr × List Byte) := do
  let (d, bs) ← takeLE 2 bs
  let (op, bs) ← take8 bs
  match (hi5 op).toNat with
  | 4 => .ok (.ldarW (lo3 op) d, bs)
  | 6 => .ok (.ldarL (lo3 op) d, bs)
  | _ => .error .firstByte

/-! ## The first byte (R104) -/

/-- First bytes 00H to 07H. -/
def op00  (op : Byte) (bs : List Byte) : Except DecodeError (Instr × List Byte) :=
  match (lo3 op).toNat with
  | 0 => .ok (.nop, bs)
  | 2 => .ok (.pushSr, bs)
  | 3 => .ok (.popSr, bs)
  | 5 => .ok (.halt, bs)
  | 6 => do
    let (num, bs) ← takeNum3 bs
    .ok (if num = 7 then .di else .ei num, bs)
  | 7 => .ok (.reti, bs)
  | _ => .error .undefinedOp

/-- First bytes 08H to 0FH. -/
def op08  (op : Byte) (bs : List Byte) : Except DecodeError (Instr × List Byte) :=
  match (lo3 op).toNat with
  | 0 => do
    let (a, bs) ← takeLE 1 bs
    let (imm, bs) ← takeLE 1 bs
    .ok (.ldAbs8ImmB a imm, bs)
  | 1 => do
    let (imm, bs) ← takeLE 1 bs
    .ok (.pushImmB imm, bs)
  | 2 => do
    let (a, bs) ← takeLE 1 bs
    let (imm, bs) ← takeLE 2 bs
    .ok (.ldAbs8ImmW a imm, bs)
  | 3 => do
    let (imm, bs) ← takeLE 2 bs
    .ok (.pushImmW imm, bs)
  | 4 => .ok (.incf, bs)
  | 5 => .ok (.decf, bs)
  | 6 => .ok (.ret, bs)
  | _ => do
    let (d, bs) ← takeLE 2 bs
    .ok (.retd d, bs)

/-- First bytes 10H to 17H. -/
def op10  (op : Byte) (bs : List Byte) : Except DecodeError (Instr × List Byte) :=
  match (lo3 op).toNat with
  | 0 => .ok (.rcf, bs)
  | 1 => .ok (.scf, bs)
  | 2 => .ok (.ccf, bs)
  | 3 => .ok (.zcf, bs)
  | 4 => .ok (.pushA, bs)
  | 5 => .ok (.popA, bs)
  | 6 => .ok (.exFF, bs)
  | _ => do
    let (num, bs) ← takeNum2 bs
    .ok (.ldf num, bs)

/-- First bytes 18H to 1FH; 1FH is a dummy. -/
def op18  (op : Byte) (bs : List Byte) : Except DecodeError (Instr × List Byte) :=
  match (lo3 op).toNat with
  | 0 => .ok (.pushF, bs)
  | 1 => .ok (.popF, bs)
  | 2 => do
    let (a, bs) ← takeLE 2 bs
    .ok (.jp16 a, bs)
  | 3 => do
    let (a, bs) ← takeLE 3 bs
    .ok (.jp24 a, bs)
  | 4 => do
    let (a, bs) ← takeLE 2 bs
    .ok (.call16 a, bs)
  | 5 => do
    let (a, bs) ← takeLE 3 bs
    .ok (.call24 a, bs)
  | 6 => do
    let (d, bs) ← takeLE 2 bs
    .ok (.calr d, bs)
  | _ => .error .dummyOp

/-- A `reg` first byte with the register in its lower three bits (R102 (2)). -/
def decodeRegShort (sz : Size) (b : Byte) (bs : List Byte) : Except DecodeError (Instr × List Byte) := do
  let (op, bs) ← take8 bs
  decodeReg sz (.short (lo3 b)) op bs

/-- A first byte with `m = 1` and a size: the addressing modes 0 to 5, 6 undefined, 7 the extension code (R104, R110). -/
def decodeExtended (sz : Size) (b : Byte) (bs : List Byte) : Except DecodeError (Instr × List Byte) :=
  if lo3 b = 7 then do
    let (code, bs) ← take8 bs
    let (op, bs) ← take8 bs
    decodeReg sz (.ext code) op bs
  else do
    let (m, bs) ← decodeMode (lo3 b) bs
    let (op, bs) ← take8 bs
    decodeSrc sz m op bs

/-- A `src` first byte `(R)` (R115). -/
def decodeSrcInd (sz : Size) (b : Byte) (bs : List Byte) : Except DecodeError (Instr × List Byte) := do
  let (op, bs) ← take8 bs
  decodeSrc sz (.ind (lo3 b)) op bs

/-- A `src` first byte `(R+d8)` (R116). -/
def decodeSrcDisp (sz : Size) (b : Byte) (bs : List Byte) : Except DecodeError (Instr × List Byte) := do
  let (d, bs) ← takeLE 1 bs
  let (op, bs) ← take8 bs
  decodeSrc sz (.disp8 (lo3 b) d) op bs

/-- The first bytes F0H to F7H: the `dst` class with `m = 1`, LDAR, and the undefined F6H and F7H (R104, R125). -/
def decodeDstExtended (b : Byte) (bs : List Byte) : Except DecodeError (Instr × List Byte) :=
  if b = 0xF3 ∧ bs.head? = some 0x13 then decodeLdar bs.tail
  else do
    let (m, bs) ← decodeMode (lo3 b) bs
    let (op, bs) ← take8 bs
    decodeDst m op bs

/-- The decoder: the instruction that a list of bytes begins with and the bytes after it, or why there is none (R104,
R106). -/
def decode : List Byte → Except DecodeError (Instr × List Byte)
  | [] => .error .truncated
  | b :: bs =>
    match (hi5 b).toNat with
    | 0 => op00 b bs
    | 1 => op08 b bs
    | 2 => op10 b bs
    | 3 => op18 b bs
    | 4 => do
      let (imm, bs) ← takeLE 1 bs
      .ok (.ldCurImmB (lo3 b) imm, bs)
    | 5 => .ok (.pushCurW (lo3 b), bs)
    | 6 => do
      let (imm, bs) ← takeLE 2 bs
      .ok (.ldCurImmW (lo3 b) imm, bs)
    | 7 => .ok (.pushCurL (lo3 b), bs)
    | 8 => do
      let (imm, bs) ← takeLE 4 bs
      .ok (.ldCurImmL (lo3 b) imm, bs)
    | 9 => .ok (.popCurW (lo3 b), bs)
    | 10 => .error .undefinedOp
    | 11 => .ok (.popCurL (lo3 b), bs)
    | 12 => do
      let (d, bs) ← takeLE 1 bs
      .ok (.jr (condOf (b.extractLsb' 0 4)) d, bs)
    | 13 => do
      let (d, bs) ← takeLE 1 bs
      .ok (.jr (condOf (b.extractLsb' 0 4)) d, bs)
    | 14 => do
      let (d, bs) ← takeLE 2 bs
      .ok (.jrl (condOf (b.extractLsb' 0 4)) d, bs)
    | 15 => do
      let (d, bs) ← takeLE 2 bs
      .ok (.jrl (condOf (b.extractLsb' 0 4)) d, bs)
    | 16 => decodeSrcInd .b b bs
    | 17 => decodeSrcDisp .b b bs
    | 18 => decodeSrcInd .w b bs
    | 19 => decodeSrcDisp .w b bs
    | 20 => decodeSrcInd .l b bs
    | 21 => decodeSrcDisp .l b bs
    | 22 => do
      let (op, bs) ← take8 bs
      decodeDst (.ind (lo3 b)) op bs
    | 23 => do
      let (d, bs) ← takeLE 1 bs
      let (op, bs) ← take8 bs
      decodeDst (.disp8 (lo3 b) d) op bs
    | 24 => decodeExtended .b b bs
    | 25 => decodeRegShort .b b bs
    | 26 => decodeExtended .w b bs
    | 27 => decodeRegShort .w b bs
    | 28 => decodeExtended .l b bs
    | 29 => decodeRegShort .l b bs
    | 30 => decodeDstExtended b bs
    | _ => .ok (.swi (lo3 b), bs)

/-- The length of the longest instruction in bytes (R100). -/
def maxLength : Nat := 7

/-- The bytes of a number, the first the least significant, as the opcode table numbers the bits of an instruction. -/
def tableBytes (nbits w : Nat) : List Byte :=
  (List.range maxLength).map fun i => BitVec.ofNat 8 ((w % 2 ^ nbits) >>> (8 * i))

/-- The instruction the decoder reads from an instruction whose bits are `w`, bit 0 being the least significant bit of
the first byte, every bit above `nbits` 0. -/
def decodeTableWord (nbits w : Nat) : Option Instr :=
  match decode (tableBytes nbits w) with
  | .ok (i, _) => some i
  | .error _ => none

/-! ## The encoder -/

/-- An operand of `nb` bytes, the least significant first (R75). -/
def toLE : (nb : Nat) → BitVec (8 * nb) → List Byte
  | 0, _ => []
  | nb + 1, v => v.setWidth 8 :: toLE nb (v.extractLsb' 8 (8 * nb))

/-- The size code `zz` (R103). -/
def sizeCode : Size → BitVec 2
  | .b => 0
  | .w => 1
  | .l => 2

/-- The 4-bit code of a condition (R130). -/
def condCode : Cond → BitVec 4
  | .f => 0
  | .lt => 1
  | .le => 2
  | .ule => 3
  | .ov => 4
  | .mi => 5
  | .z => 6
  | .c => 7
  | .t => 8
  | .ge => 9
  | .gt => 10
  | .ugt => 11
  | .nov => 12
  | .pl => 13
  | .nz => 14
  | .nc => 15

/-- The place of a register in its bank (R27). -/
def bankPlace : BankReg → BitVec 2
  | .xwa => 0
  | .xbc => 1
  | .xde => 2
  | .xhl => 3

/-- The upper six bits of the register code of a 32-bit register (R27, R113). -/
def code6 : Reg32 → BitVec 6
  | .bank k x => 0#2 ++ k ++ bankPlace x
  | .prev x => 3#2 ++ 1#2 ++ bankPlace x
  | .cur x => 3#2 ++ 2#2 ++ bankPlace x
  | .xix => 0x3C
  | .xiy => 0x3D
  | .xiz => 0x3E
  | .xsp => 0x3F

/-- The register code byte of a part of a 32-bit register (R27, R110). -/
def regCode (sz : Size) (r : Reg32) (part : BitVec sz.partBits) : Byte :=
  match sz with
  | .b => code6 r ++ part
  | .w => code6 r ++ part ++ 0#1
  | .l => code6 r ++ 0#2

/-- The first byte, and the code byte if there is one, of a `reg`-class instruction with operand `r` (R108, R110). -/
def encodeRegOp {sz : Size} : RegOp sz → List Byte
  | .short c => [opByte (3#2 ++ sizeCode sz ++ 1#1) c]
  | .ext r part => [opByte (3#2 ++ sizeCode sz ++ 0#1) 7, regCode sz r part]

/-- The 3-bit code of `RR` (R270 (a), (b)). -/
def encodeDbl (z : SizeBW) (c : BitVec z.dblBits) : BitVec 3 :=
  match z with
  | .b => c ++ 1#1
  | .w => c

/-- The first byte, and the code byte if there is one, of an instruction with operand `rr` (R270 (c), (d), R276). -/
def encodeDblOp {z : SizeBW} : DblOp z → List Byte
  | .short c => [opByte (3#2 ++ sizeCode z.size ++ 1#1) (encodeDbl z c)]
  | .ext r part => [opByte (3#2 ++ sizeCode z.size ++ 0#1) 7, regCode z.double r part]

/-- The step code of a mode byte (R113). -/
def stepCode : Step → BitVec 2
  | .one => 0
  | .two => 1
  | .four => 2

/-- The first byte and the mode bytes of a memory operand, `zz` being the size code or 11 for the `dst` class (R113). -/
def encodeMem (zz : BitVec 2) : MemOp → List Byte
  | .ind c => [opByte (2#2 ++ zz ++ 0#1) c]
  | .disp8 c d => [opByte (2#2 ++ zz ++ 1#1) c, d]
  | .abs8 a => opByte (3#2 ++ zz ++ 0#1) 0 :: toLE 1 a
  | .abs16 a => opByte (3#2 ++ zz ++ 0#1) 1 :: toLE 2 a
  | .abs24 a => opByte (3#2 ++ zz ++ 0#1) 2 :: toLE 3 a
  | .indReg r => [opByte (3#2 ++ zz ++ 0#1) 3, code6 r ++ 0#2]
  | .disp16 r d => opByte (3#2 ++ zz ++ 0#1) 3 :: (code6 r ++ 1#2) :: toLE 2 d
  | .index8 r x part => [opByte (3#2 ++ zz ++ 0#1) 3, 0x03, regCode .l r 0#0, regCode .b x part]
  | .index16 r x part => [opByte (3#2 ++ zz ++ 0#1) 3, 0x07, regCode .l r 0#0, regCode .w x part]
  | .preDec r st => [opByte (3#2 ++ zz ++ 0#1) 4, code6 r ++ stepCode st]
  | .postInc r st => [opByte (3#2 ++ zz ++ 0#1) 5, code6 r ++ stepCode st]

/-- The mode `(R)` that stands for a pointer pair (R205). -/
def pairMode : BlockPair → MemOp
  | .deHl => .ind 3
  | .ixIy => .ind 5

/-- The code byte of a control register (R50). -/
def ctrlCode : CtrlReg → Byte
  | .dmas n => 0#3 ++ n ++ 0#2
  | .dmad n => 1#3 ++ n ++ 0#2
  | .dmac n => 2#3 ++ n ++ 0#2
  | .dmam n => 2#3 ++ n ++ 2#2
  | .intnest => 0x7C

/-- The encoder: the bytes of an instruction (R105, R131 to R133). -/
def encode : Instr → List Byte
  | .nop => [0x00]
  | .pushSr => [0x02]
  | .popSr => [0x03]
  | .halt => [0x05]
  | .ei num => [0x06, 0#5 ++ num]
  | .di => [0x06, 0x07]
  | .reti => [0x07]
  | .ldAbs8ImmB a imm => 0x08 :: (toLE 1 a ++ toLE 1 imm)
  | .pushImmB imm => 0x09 :: toLE 1 imm
  | .ldAbs8ImmW a imm => 0x0A :: (toLE 1 a ++ toLE 2 imm)
  | .pushImmW imm => 0x0B :: toLE 2 imm
  | .incf => [0x0C]
  | .decf => [0x0D]
  | .ret => [0x0E]
  | .retd d => 0x0F :: toLE 2 d
  | .rcf => [0x10]
  | .scf => [0x11]
  | .ccf => [0x12]
  | .zcf => [0x13]
  | .pushA => [0x14]
  | .popA => [0x15]
  | .exFF => [0x16]
  | .ldf num => [0x17, 0#6 ++ num]
  | .pushF => [0x18]
  | .popF => [0x19]
  | .jp16 a => 0x1A :: toLE 2 a
  | .jp24 a => 0x1B :: toLE 3 a
  | .call16 a => 0x1C :: toLE 2 a
  | .call24 a => 0x1D :: toLE 3 a
  | .calr d => 0x1E :: toLE 2 d
  | .ldCurImmB R imm => opByte 0x04 R :: toLE 1 imm
  | .pushCurW R => [opByte 0x05 R]
  | .ldCurImmW R imm => opByte 0x06 R :: toLE 2 imm
  | .pushCurL R => [opByte 0x07 R]
  | .ldCurImmL R imm => opByte 0x08 R :: toLE 4 imm
  | .popCurW R => [opByte 0x09 R]
  | .popCurL R => [opByte 0x0B R]
  | .jr cc d => (0x6#4 ++ condCode cc : Byte) :: toLE 1 d
  | .jrl cc d => (0x7#4 ++ condCode cc : Byte) :: toLE 2 d
  | .swi num => [opByte 0x1F num]
  | .ldRegImm sz r imm => encodeRegOp r ++ 0x03 :: toLE sz.bytes imm
  | .pushReg _ r => encodeRegOp r ++ [0x04]
  | .popReg _ r => encodeRegOp r ++ [0x05]
  | .cpl _ r => encodeRegOp r ++ [0x06]
  | .neg _ r => encodeRegOp r ++ [0x07]
  | .mulImm z rr imm => encodeDblOp rr ++ 0x08 :: toLE z.size.bytes imm
  | .mulsImm z rr imm => encodeDblOp rr ++ 0x09 :: toLE z.size.bytes imm
  | .divImm z rr imm => encodeDblOp rr ++ 0x0A :: toLE z.size.bytes imm
  | .divsImm z rr imm => encodeDblOp rr ++ 0x0B :: toLE z.size.bytes imm
  | .link r d => encodeRegOp r ++ 0x0C :: toLE 2 d
  | .unlk r => encodeRegOp r ++ [0x0D]
  | .bs1f r => encodeRegOp r ++ [0x0E]
  | .bs1b r => encodeRegOp r ++ [0x0F]
  | .daa r => encodeRegOp r ++ [0x10]
  | .extz _ r => encodeRegOp r ++ [0x12]
  | .exts _ r => encodeRegOp r ++ [0x13]
  | .paa _ r => encodeRegOp r ++ [0x14]
  | .mirr r => encodeRegOp r ++ [0x16]
  | .mula rr => encodeDblOp rr ++ [0x19]
  | .djnz _ r d => encodeRegOp r ++ 0x1C :: toLE 1 d
  | .andcfImmReg _ r num => encodeRegOp r ++ [0x20, 0#4 ++ num]
  | .andcfAReg _ r => encodeRegOp r ++ [0x28]
  | .orcfImmReg _ r num => encodeRegOp r ++ [0x21, 0#4 ++ num]
  | .orcfAReg _ r => encodeRegOp r ++ [0x29]
  | .xorcfImmReg _ r num => encodeRegOp r ++ [0x22, 0#4 ++ num]
  | .xorcfAReg _ r => encodeRegOp r ++ [0x2A]
  | .ldcfImmReg _ r num => encodeRegOp r ++ [0x23, 0#4 ++ num]
  | .ldcfAReg _ r => encodeRegOp r ++ [0x2B]
  | .stcfImmReg _ r num => encodeRegOp r ++ [0x24, 0#4 ++ num]
  | .stcfAReg _ r => encodeRegOp r ++ [0x2C]
  | .ldcToCr cr r => encodeRegOp r ++ [0x2E, ctrlCode cr]
  | .ldcFromCr cr r => encodeRegOp r ++ [0x2F, ctrlCode cr]
  | .resReg _ r num => encodeRegOp r ++ [0x30, 0#4 ++ num]
  | .setReg _ r num => encodeRegOp r ++ [0x31, 0#4 ++ num]
  | .chgReg _ r num => encodeRegOp r ++ [0x32, 0#4 ++ num]
  | .bitReg _ r num => encodeRegOp r ++ [0x33, 0#4 ++ num]
  | .tsetReg _ r num => encodeRegOp r ++ [0x34, 0#4 ++ num]
  | .minc1 r field => encodeRegOp r ++ 0x38 :: toLE 2 field
  | .minc2 r field => encodeRegOp r ++ 0x39 :: toLE 2 field
  | .minc4 r field => encodeRegOp r ++ 0x3A :: toLE 2 field
  | .mdec1 r field => encodeRegOp r ++ 0x3C :: toLE 2 field
  | .mdec2 r field => encodeRegOp r ++ 0x3D :: toLE 2 field
  | .mdec4 r field => encodeRegOp r ++ 0x3E :: toLE 2 field
  | .mulReg z RR r => encodeRegOp r ++ [opByte 0x08 (encodeDbl z RR)]
  | .mulsReg z RR r => encodeRegOp r ++ [opByte 0x09 (encodeDbl z RR)]
  | .divReg z RR r => encodeRegOp r ++ [opByte 0x0A (encodeDbl z RR)]
  | .divsReg z RR r => encodeRegOp r ++ [opByte 0x0B (encodeDbl z RR)]
  | .incReg _ r num => encodeRegOp r ++ [opByte 0x0C num]
  | .decReg _ r num => encodeRegOp r ++ [opByte 0x0D num]
  | .scc _ r cc => encodeRegOp r ++ [(0x7#4 ++ condCode cc : Byte)]
  | .addCurReg _ R r => encodeRegOp r ++ [opByte 0x10 R]
  | .addRegImm sz r imm => encodeRegOp r ++ 0xC8 :: toLE sz.bytes imm
  | .adcCurReg _ R r => encodeRegOp r ++ [opByte 0x12 R]
  | .adcRegImm sz r imm => encodeRegOp r ++ 0xC9 :: toLE sz.bytes imm
  | .subCurReg _ R r => encodeRegOp r ++ [opByte 0x14 R]
  | .subRegImm sz r imm => encodeRegOp r ++ 0xCA :: toLE sz.bytes imm
  | .sbcCurReg _ R r => encodeRegOp r ++ [opByte 0x16 R]
  | .sbcRegImm sz r imm => encodeRegOp r ++ 0xCB :: toLE sz.bytes imm
  | .andCurReg _ R r => encodeRegOp r ++ [opByte 0x18 R]
  | .andRegImm sz r imm => encodeRegOp r ++ 0xCC :: toLE sz.bytes imm
  | .xorCurReg _ R r => encodeRegOp r ++ [opByte 0x1A R]
  | .xorRegImm sz r imm => encodeRegOp r ++ 0xCD :: toLE sz.bytes imm
  | .orCurReg _ R r => encodeRegOp r ++ [opByte 0x1C R]
  | .orRegImm sz r imm => encodeRegOp r ++ 0xCE :: toLE sz.bytes imm
  | .cpCurReg _ R r => encodeRegOp r ++ [opByte 0x1E R]
  | .cpRegImm sz r imm => encodeRegOp r ++ 0xCF :: toLE sz.bytes imm
  | .ldCurReg _ R r => encodeRegOp r ++ [opByte 0x11 R]
  | .ldRegCur _ r R => encodeRegOp r ++ [opByte 0x13 R]
  | .ldRegImm3 _ r imm => encodeRegOp r ++ [opByte 0x15 imm]
  | .exCurReg _ R r => encodeRegOp r ++ [opByte 0x17 R]
  | .cpRegImm3 _ r imm => encodeRegOp r ++ [opByte 0x1B imm]
  | .rlcImmReg _ r num => encodeRegOp r ++ [0xE8, 0#4 ++ num]
  | .rlcAReg _ r => encodeRegOp r ++ [0xF8]
  | .rrcImmReg _ r num => encodeRegOp r ++ [0xE9, 0#4 ++ num]
  | .rrcAReg _ r => encodeRegOp r ++ [0xF9]
  | .rlImmReg _ r num => encodeRegOp r ++ [0xEA, 0#4 ++ num]
  | .rlAReg _ r => encodeRegOp r ++ [0xFA]
  | .rrImmReg _ r num => encodeRegOp r ++ [0xEB, 0#4 ++ num]
  | .rrAReg _ r => encodeRegOp r ++ [0xFB]
  | .slaImmReg _ r num => encodeRegOp r ++ [0xEC, 0#4 ++ num]
  | .slaAReg _ r => encodeRegOp r ++ [0xFC]
  | .sraImmReg _ r num => encodeRegOp r ++ [0xED, 0#4 ++ num]
  | .sraAReg _ r => encodeRegOp r ++ [0xFD]
  | .sllImmReg _ r num => encodeRegOp r ++ [0xEE, 0#4 ++ num]
  | .sllAReg _ r => encodeRegOp r ++ [0xFE]
  | .srlImmReg _ r num => encodeRegOp r ++ [0xEF, 0#4 ++ num]
  | .srlAReg _ r => encodeRegOp r ++ [0xFF]
  | .pushMem z m => encodeMem (sizeCode z.size) m ++ [0x04]
  | .rld m => encodeMem (sizeCode .b) m ++ [0x06]
  | .rrd m => encodeMem (sizeCode .b) m ++ [0x07]
  | .ldi z p => encodeMem (sizeCode z.size) (pairMode p) ++ [0x10]
  | .ldir z p => encodeMem (sizeCode z.size) (pairMode p) ++ [0x11]
  | .ldd z p => encodeMem (sizeCode z.size) (pairMode p) ++ [0x12]
  | .lddr z p => encodeMem (sizeCode z.size) (pairMode p) ++ [0x13]
  | .cpi z R => encodeMem (sizeCode z.size) (.ind R) ++ [0x14]
  | .cpir z R => encodeMem (sizeCode z.size) (.ind R) ++ [0x15]
  | .cpd z R => encodeMem (sizeCode z.size) (.ind R) ++ [0x16]
  | .cpdr z R => encodeMem (sizeCode z.size) (.ind R) ++ [0x17]
  | .ldAbs16Mem z a m => encodeMem (sizeCode z.size) m ++ 0x19 :: toLE 2 a
  | .ldCurMem sz R m => encodeMem (sizeCode sz) m ++ [opByte 0x04 R]
  | .exMemCur z m R => encodeMem (sizeCode z.size) m ++ [opByte 0x06 R]
  | .addMemImm z m imm => encodeMem (sizeCode z.size) m ++ 0x38 :: toLE z.size.bytes imm
  | .addCurMem sz R m => encodeMem (sizeCode sz) m ++ [opByte 0x10 R]
  | .addMemCur sz m R => encodeMem (sizeCode sz) m ++ [opByte 0x11 R]
  | .adcMemImm z m imm => encodeMem (sizeCode z.size) m ++ 0x39 :: toLE z.size.bytes imm
  | .adcCurMem sz R m => encodeMem (sizeCode sz) m ++ [opByte 0x12 R]
  | .adcMemCur sz m R => encodeMem (sizeCode sz) m ++ [opByte 0x13 R]
  | .subMemImm z m imm => encodeMem (sizeCode z.size) m ++ 0x3A :: toLE z.size.bytes imm
  | .subCurMem sz R m => encodeMem (sizeCode sz) m ++ [opByte 0x14 R]
  | .subMemCur sz m R => encodeMem (sizeCode sz) m ++ [opByte 0x15 R]
  | .sbcMemImm z m imm => encodeMem (sizeCode z.size) m ++ 0x3B :: toLE z.size.bytes imm
  | .sbcCurMem sz R m => encodeMem (sizeCode sz) m ++ [opByte 0x16 R]
  | .sbcMemCur sz m R => encodeMem (sizeCode sz) m ++ [opByte 0x17 R]
  | .andMemImm z m imm => encodeMem (sizeCode z.size) m ++ 0x3C :: toLE z.size.bytes imm
  | .andCurMem sz R m => encodeMem (sizeCode sz) m ++ [opByte 0x18 R]
  | .andMemCur sz m R => encodeMem (sizeCode sz) m ++ [opByte 0x19 R]
  | .xorMemImm z m imm => encodeMem (sizeCode z.size) m ++ 0x3D :: toLE z.size.bytes imm
  | .xorCurMem sz R m => encodeMem (sizeCode sz) m ++ [opByte 0x1A R]
  | .xorMemCur sz m R => encodeMem (sizeCode sz) m ++ [opByte 0x1B R]
  | .orMemImm z m imm => encodeMem (sizeCode z.size) m ++ 0x3E :: toLE z.size.bytes imm
  | .orCurMem sz R m => encodeMem (sizeCode sz) m ++ [opByte 0x1C R]
  | .orMemCur sz m R => encodeMem (sizeCode sz) m ++ [opByte 0x1D R]
  | .cpMemImm z m imm => encodeMem (sizeCode z.size) m ++ 0x3F :: toLE z.size.bytes imm
  | .cpCurMem sz R m => encodeMem (sizeCode sz) m ++ [opByte 0x1E R]
  | .cpMemCur sz m R => encodeMem (sizeCode sz) m ++ [opByte 0x1F R]
  | .mulMem z RR m => encodeMem (sizeCode z.size) m ++ [opByte 0x08 (encodeDbl z RR)]
  | .mulsMem z RR m => encodeMem (sizeCode z.size) m ++ [opByte 0x09 (encodeDbl z RR)]
  | .divMem z RR m => encodeMem (sizeCode z.size) m ++ [opByte 0x0A (encodeDbl z RR)]
  | .divsMem z RR m => encodeMem (sizeCode z.size) m ++ [opByte 0x0B (encodeDbl z RR)]
  | .incMem z num m => encodeMem (sizeCode z.size) m ++ [opByte 0x0C num]
  | .decMem z num m => encodeMem (sizeCode z.size) m ++ [opByte 0x0D num]
  | .rlcMem z m => encodeMem (sizeCode z.size) m ++ [0x78]
  | .rrcMem z m => encodeMem (sizeCode z.size) m ++ [0x79]
  | .rlMem z m => encodeMem (sizeCode z.size) m ++ [0x7A]
  | .rrMem z m => encodeMem (sizeCode z.size) m ++ [0x7B]
  | .slaMem z m => encodeMem (sizeCode z.size) m ++ [0x7C]
  | .sraMem z m => encodeMem (sizeCode z.size) m ++ [0x7D]
  | .sllMem z m => encodeMem (sizeCode z.size) m ++ [0x7E]
  | .srlMem z m => encodeMem (sizeCode z.size) m ++ [0x7F]
  | .ldMemImmB m imm => encodeMem 3 m ++ 0x00 :: toLE 1 imm
  | .ldMemImmW m imm => encodeMem 3 m ++ 0x02 :: toLE 2 imm
  | .popMemB m => encodeMem 3 m ++ [0x04]
  | .popMemW m => encodeMem 3 m ++ [0x06]
  | .ldMemAbs16B m a => encodeMem 3 m ++ 0x14 :: toLE 2 a
  | .ldMemAbs16W m a => encodeMem 3 m ++ 0x16 :: toLE 2 a
  | .ldaW R m => encodeMem 3 m ++ [opByte 0x04 R]
  | .ldaL R m => encodeMem 3 m ++ [opByte 0x06 R]
  | .andcfAMem m => encodeMem 3 m ++ [0x28]
  | .andcfImmMem num m => encodeMem 3 m ++ [opByte 0x10 num]
  | .orcfAMem m => encodeMem 3 m ++ [0x29]
  | .orcfImmMem num m => encodeMem 3 m ++ [opByte 0x11 num]
  | .xorcfAMem m => encodeMem 3 m ++ [0x2A]
  | .xorcfImmMem num m => encodeMem 3 m ++ [opByte 0x12 num]
  | .ldcfAMem m => encodeMem 3 m ++ [0x2B]
  | .ldcfImmMem num m => encodeMem 3 m ++ [opByte 0x13 num]
  | .stcfAMem m => encodeMem 3 m ++ [0x2C]
  | .stcfImmMem num m => encodeMem 3 m ++ [opByte 0x14 num]
  | .ldMemCurB m R => encodeMem 3 m ++ [opByte 0x08 R]
  | .ldMemCurW m R => encodeMem 3 m ++ [opByte 0x0A R]
  | .ldMemCurL m R => encodeMem 3 m ++ [opByte 0x0C R]
  | .tsetMem num m => encodeMem 3 m ++ [opByte 0x15 num]
  | .resMem num m => encodeMem 3 m ++ [opByte 0x16 num]
  | .setMem num m => encodeMem 3 m ++ [opByte 0x17 num]
  | .chgMem num m => encodeMem 3 m ++ [opByte 0x18 num]
  | .bitMem num m => encodeMem 3 m ++ [opByte 0x19 num]
  | .jpMem cc m => encodeMem 3 m ++ [(0xD#4 ++ condCode cc : Byte)]
  | .callMem cc m => encodeMem 3 m ++ [(0xE#4 ++ condCode cc : Byte)]
  | .retCc cc => [0xB0, 0xF#4 ++ condCode cc]
  | .ldarW R d => 0xF3 :: 0x13 :: (toLE 2 d ++ [opByte 0x04 R])
  | .ldarL R d => 0xF3 :: 0x13 :: (toLE 2 d ++ [opByte 0x06 R])

end Sys2Proof
end

