-- ==== Sys2Proof/Config.lean ====
section
/-! DEFINITION. What the spec leaves to an implementation (R6, spec/92_eei_decisions.md section 2): the named parameters
with the default the spec gives them, and the free values, constants without a body about which nothing can be proved. -/

namespace Sys2Proof

/-- The source of every value the spec calls undefined or any value (`undef_n()`, R10, D7): the k-th value drawn since
the counter was 0. It has no body, so that a claim holds whatever it is. The parameters `DAA_OUTSIDE_TABLE` and
`DIV_FAULT_RESULT` (R6), whose default is any value, are drawn from it too. Assumption 4. -/
opaque Config.freeValue : Nat → Long

/-- `io_region` (R6, R82, D26), at the spec's default, which is everywhere false: all memory is plain storage. Every
access and every fetch consults it; inside it reads and writes are host events. DESIGN CHOICE of the spec: assumption
19. -/
def Config.ioRegion (_ : Addr) : Bool := false

/-- The byte that the host answers to a read at an address of `ioRegion` after so many accesses to that region (R82,
D26). It has no body: the spec gives no device. Assumption 19. -/
opaque Config.ioValue : Nat → Addr → Byte

/-- `RETI_DECREMENTS_INTNEST` (R6, R440, D11), at the spec's default. PRESUMED (the spec marks the default as general
knowledge): assumption 9. -/
def Config.retiDecrementsIntnest : Bool := true

/-- `BLOCK_INT_RESUME_PC` (R6, R215, D25), at the spec's default `$`: the pc that is saved when LDIR or LDDR is
interrupted between two items, out of the address of the instruction and the address after it. DESIGN CHOICE of the
spec: assumption 10. -/
def Config.blockIntResumePc (instrPc _nextPc : Long) : Long := instrPc

end Sys2Proof
end

