-- ==== Sys2Proof/Machine/State.lean ====
section
/-! DEFINITION. The state of the machine, as plain data (spec/10_state.md R20 and the host input of
spec/60_exceptions.md R455), the reasons a step can stop, and the state after reset (R60). -/

namespace Sys2Proof.Machine

/-- The flags of a flag register F: S, Z, H, V, N and C. Bits 5 and 3 of F are the constant 0 and are not stored
(R35, R36). -/
structure Flags where
  s : Bool
  z : Bool
  h : Bool
  v : Bool
  n : Bool
  c : Bool
deriving DecidableEq, Repr

/-- The twenty 32-bit general registers: sixteen in four banks and four outside the banks (R20, R21, R24). The index of
a banked register is the bank number (bits 3:2) followed by the register: XWA 0, XBC 1, XDE 2, XHL 3 (bits 1:0). -/
inductive GReg
  | bank (i : BitVec 4)
  | xix | xiy | xiz | xsp
deriving DecidableEq, Repr

/-- The level of an interrupt request, 1 to 7 (R455). -/
inductive IrqLevel
  | l1 | l2 | l3 | l4 | l5 | l6 | l7
deriving DecidableEq, Repr

/-- What the environment presents at one sampling point (R455, R456, R490). A request carries its level and the number
of its entry in the vector table, a quarter of the vector value `v` of R455, which is a multiple of 4 in 00H..FCH. -/
inductive HostEvent
  /-- No request is presented. -/
  | idle
  /-- A request of level `level` with vector value `4 * entry`. -/
  | irq (level : IrqLevel) (entry : BitVec 6)
  /-- Reset, at the sampling point. -/
  | reset
  /-- The request, if there is one, and then reset in the middle of what follows the sampling point: the entry of that
  request when it is accepted, else the instruction (R490). -/
  | resetWithin (req : Option (IrqLevel × BitVec 6))
deriving DecidableEq, Repr

/-- Memory: address and byte pairs in the canonical form of `Memory.wf`. -/
abbrev Memory := List Host.Cell

/-- An access to one byte: a host event where the address is in `Config.ioRegion` (R82, D26). -/
inductive Access
  | read (a : Addr)
  | write (a : Addr) (v : Byte)
deriving DecidableEq, Repr

/-- A moment inside an instruction at which a reset can fall (R490): what the accesses so far have changed, that is memory
and the log of device accesses, and the access that comes next. -/
structure Moment where
  mem : Memory
  ioLog : List Access
  next : Access
deriving DecidableEq, Repr

/-- The whole state: the architectural state of R20 and R56, whether an endless block compare is under way (`comparing`),
`mem` (the memory of R70), and fields after it that say what the spec asks about a run (`written`, `ioLog`, `trail`),
what the environment will present (`host`) and which free value comes next (`freeCount`). -/
structure State where
  /-- XWA, XBC, XDE and XHL of banks 0 to 3: register `j` of bank `k` at index `4 * k + j` (R21). -/
  banks : Vector Long 16
  /-- XIX (R24). -/
  xix : Long
  /-- XIY (R24). -/
  xiy : Long
  /-- XIZ (R24). -/
  xiz : Long
  /-- XSP, the stack pointer (R25). -/
  xsp : Long
  /-- IFF2:0, SR bits 14:12 (R32). -/
  iff : BitVec 3
  /-- RFP1:0, SR bits 9:8 (R33). -/
  rfp : BitVec 2
  /-- F, SR bits 7:0 (R35). -/
  flags : Flags
  /-- F', the alternate flag register (R38). -/
  flagsAlt : Flags
  /-- PC, 32 bits (R40). -/
  pc : Long
  /-- DMAS0 to DMAS7 (R50). -/
  dmas : Vector Long 8
  /-- DMAD0 to DMAD7 (R50). -/
  dmad : Vector Long 8
  /-- DMAC0 to DMAC7 (R50). -/
  dmac : Vector Word 8
  /-- DMAM0 to DMAM7 (R50). -/
  dmam : Vector Byte 8
  /-- INTNEST, the interrupt nesting counter (R52). -/
  intnest : Word
  /-- The halt bit: HALT was executed and no interrupt accepted yet (R56). -/
  halted : Bool
  /-- A CPIR or CPDR is under way, between two of its items (R212, R214): it is at PC, and as it is indivisible for
  interrupts (R215, D25) no request is accepted. -/
  comparing : Bool
  /-- Memory (R70). -/
  mem : Memory
  /-- The addresses an instruction or an interrupt entry has written since reset, rising (R90, D9). -/
  written : List Nat
  /-- The accesses to `Config.ioRegion` since the machine was made, the last one first: events that the host sees (R82,
  D26). The MODEL's own field. -/
  ioLog : List Access
  /-- While a reset in the middle of an instruction is being worked out (R490), the moments before each store and device
  access so far, the last one first; `none` at all other times. The MODEL's own field. -/
  trail : Option (List Moment)
  /-- The host's stream of events, one for each sampling point to come; when it is empty nothing is presented
  (R455, R490, D10). The MODEL's own field: it stands for the environment. -/
  host : List HostEvent
  /-- How many free values have been drawn (`Config.freeValue`). The MODEL's own field. -/
  freeCount : Nat
deriving DecidableEq, Repr

/-- Why a step stops with a fault. Every one is an encoding that is no instruction of the spec, for which R141 and R452
say that the model faults; each carries the address of the instruction. Safe: nothing is claimed past a fault. -/
inductive Fault
  /-- A blank cell of the first-byte map or of a second-byte map (R140 (a), (c), U2). Raised by fetch and decode. Safe. -/
  | undefinedInstruction (pc : Long)
  /-- A dummy instruction code (R140 (b), (c), U3). Raised by fetch and decode. Safe. -/
  | dummyInstruction (pc : Long)
  /-- A defined second op code under a size the instruction does not have (R134, D32, U4). Raised by fetch and decode. Safe. -/
  | undefinedSize (pc : Long)
  /-- A second op code that the spec ties to certain first bytes, under another one: LDI, LDIR, LDD, LDDR, CPI, CPIR,
  CPD, CPDR, RET cc, LDAR (R132, R133, D33, U4). Raised by fetch and decode. Safe. -/
  | undefinedFirstByte (pc : Long)
  /-- A mode byte that R113 does not list, the step code 11, or a register code in a mode byte that R111 excludes (R126,
  D18, U5). Raised by fetch and decode. Safe. -/
  | undefinedMode (pc : Long)
deriving DecidableEq, Repr

/-- Why a step is refused. -/
inductive Refusal
  /-- An instruction without a meaning in this model. Raised by no arm: every instruction has its meaning. Safe. -/
  | notModelled (mnemonic : String)
  /-- In another place than a mode byte: a register code 40H to CFH, an odd code for a word register or a code that is no
  multiple of 4 for a long register (R111, D17, U6: "refused"). Raised by fetch and decode. Safe. -/
  | registerCode (pc : Long)
  /-- A bit that is not 0 where the encoding draws 0: the EI byte, the LDF byte, the #4 byte (R129, D24, U7: "refused").
  Raised by fetch and decode. Safe. -/
  | fixedZeroBits (pc : Long)
  /-- MUL, MULS, DIV, DIVS in a byte operation with an even 3-bit RR code or an odd code after C7H (R270, D34, U8:
  "refused"). Raised by fetch and decode. Safe. -/
  | doubleRegister (pc : Long)
  /-- LDC with an unassigned control register code, or with a size other than the register's width (R53, D15, D16, U16:
  "refused"). Raised by fetch and decode. Safe. -/
  | controlRegister (pc : Long)
  /-- An instruction one of whose bytes has been written since reset (R90, D9, U20: "the model refuses such programs").
  Raised by the step. Safe. -/
  | selfModifiedCode (pc : Long)
  /-- An address of `Config.ioRegion` lies within reach of the prefetch, so that the fetch might read a device (R82, D26,
  U21: "refuse unless `io_region` is empty there"). Raised by the step, and never while the region is empty. Safe. -/
  | prefetchRegion (pc : Long)
  /-- The bytes given to the decoder end inside an instruction. Raised by no step: the step fetches 7 bytes and no
  instruction is longer (R100). Safe. -/
  | truncatedInstruction (pc : Long)
deriving DecidableEq, Repr

/-- What a step answers. -/
abbrev Result := Host.Outcome State Fault Refusal

/-- All six flags 0. -/
abbrev Flags.clear : Flags := ⟨false, false, false, false, false, false⟩

/-- The state right after reset (R60, R491): XSP 0, IFF 111, RFP 00, not halted, nothing written, and PC the three
bytes at FFFF00H to FFFF02H of a memory that lists nothing, which read as 0 (assumption 2). The registers for which R60
states no value hold 0, a DESIGN CHOICE (assumption 1). No event is pending (D10), no device accessed
(D26), and no free value drawn (assumption 4). -/
def State.reset : State where
  banks := Vector.replicate 16 0
  xix := 0
  xiy := 0
  xiz := 0
  xsp := 0
  iff := 7
  rfp := 0
  flags := Flags.clear
  flagsAlt := Flags.clear
  pc := 0
  dmas := Vector.replicate 8 0
  dmad := Vector.replicate 8 0
  dmac := Vector.replicate 8 0
  dmam := Vector.replicate 8 0
  intnest := 0
  halted := false
  comparing := false
  mem := []
  written := []
  ioLog := []
  trail := none
  host := []
  freeCount := 0

end Sys2Proof.Machine
end

