-- ==== Sys2Proof/Machine/Flags.lean ====
section
/-! DEFINITION. Every flag computation of the spec, as functions of the operands alone: conditions (R130), the two-operand
group (R11, R230 to R235, R300 to R303), the rotates and shifts (R390 to R400), decimal adjustment (R242, R243), multiply
and divide (R271 to R274), bits and bit search (R310 to R341) and modulo steps (R285 to R291). A flag the spec leaves
undefined is an argument `u`, which the caller supplies from a free value. -/

namespace Sys2Proof.Machine

/-- `cond(cc)`: the truth of a condition code on the current flags (R130). -/
def condHolds (cc : Cond) (f : Flags) : Bool :=
  match cc with
  | .f => false
  | .lt => f.s ^^ f.v
  | .le => f.z || (f.s ^^ f.v)
  | .ule => f.c || f.z
  | .ov => f.v
  | .mi => f.s
  | .z => f.z
  | .c => f.c
  | .t => true
  | .ge => !(f.s ^^ f.v)
  | .gt => !(f.z || (f.s ^^ f.v))
  | .ugt => !(f.c || f.z)
  | .nov => !f.v
  | .pl => !f.s
  | .nz => !f.z
  | .nc => !f.c

/-- `parity_even_n(v)`: whether the number of 1 bits is even (R10, R36). -/
def parityEven {n : Nat} (v : BitVec n) : Bool :=
  (List.range n).foldl (fun p i => p ^^ v.getLsbD i) true

/-! ## The two-operand group -/

/-- The result of an addition with carry-in (R11). -/
def addResult {n : Nat} (a b : BitVec n) (cin : Bool) : BitVec n := a + b + (BitVec.ofBool cin).setWidth n

/-- `add_H`: carry from bit 3 to bit 4 (R11). -/
def addHalf {n : Nat} (a b : BitVec n) (cin : Bool) : Bool :=
  decide (15 < a.toNat % 16 + b.toNat % 16 + cin.toNat)

/-- `add_V`: signed overflow (R11). -/
def addOverflow {n : Nat} (a b r : BitVec n) : Bool := a.msb == b.msb && r.msb != a.msb

/-- `add_C`: carry out of the most significant bit (R11). -/
def addCarry {n : Nat} (a b : BitVec n) (cin : Bool) : Bool := decide (2 ^ n ≤ a.toNat + b.toNat + cin.toNat)

/-- The result of a subtraction with borrow-in (R11). -/
def subResult {n : Nat} (a b : BitVec n) (bin : Bool) : BitVec n := a - b - (BitVec.ofBool bin).setWidth n

/-- `sub_H`: borrow from bit 4 into bit 3 (R11). -/
def subHalf {n : Nat} (a b : BitVec n) (bin : Bool) : Bool :=
  decide (a.toNat % 16 < b.toNat % 16 + bin.toNat)

/-- `sub_V`: signed overflow (R11). -/
def subOverflow {n : Nat} (a b r : BitVec n) : Bool := a.msb != b.msb && r.msb != a.msb

/-- `sub_C`: borrow out of the most significant bit (R11). -/
def subBorrow {n : Nat} (a b : BitVec n) (bin : Bool) : Bool := decide (a.toNat < b.toNat + bin.toNat)

/-- The flags of ADD, ADC and of byte INC: `***V0*` (R231, R232); H is `u` when n = 32. -/
def addFlags {n : Nat} (a b : BitVec n) (cin u : Bool) : Flags where
  s := (addResult a b cin).msb
  z := addResult a b cin == 0
  h := if n = 32 then u else addHalf a b cin
  v := addOverflow a b (addResult a b cin)
  n := false
  c := addCarry a b cin

/-- The flags of SUB, SBC, CP, NEG and of byte DEC: `***V1*` (R233, R234); H is `u` when n = 32. -/
def subFlags {n : Nat} (a b : BitVec n) (bin u : Bool) : Flags where
  s := (subResult a b bin).msb
  z := subResult a b bin == 0
  h := if n = 32 then u else subHalf a b bin
  v := subOverflow a b (subResult a b bin)
  n := true
  c := subBorrow a b bin

/-- The flags of AND, OR, XOR: `**1P00` or `**0P00` (R300); V is `u` when n = 32. -/
def logicFlags {n : Nat} (r : BitVec n) (half u : Bool) : Flags where
  s := r.msb
  z := r == 0
  h := half
  v := if n = 32 then u else parityEven r
  n := false
  c := false

/-- The operations of the two-operand group (R230). -/
inductive AluOp
  | add | adc | sub | sbc | and | xor | or | cp
deriving DecidableEq, Repr

/-- The result and the flags of an operation of the group on `dst` and `src`, from the flags before (R231 to R235, R300
to R303). `u` is the flag that is undefined when n = 32. -/
def alu {n : Nat} (op : AluOp) (dst src : BitVec n) (f : Flags) (u : Bool) : BitVec n × Flags :=
  match op with
  | .add => (addResult dst src false, addFlags dst src false u)
  | .adc => (addResult dst src f.c, addFlags dst src f.c u)
  | .sub => (subResult dst src false, subFlags dst src false u)
  | .sbc => (subResult dst src f.c, subFlags dst src f.c u)
  | .and => (dst &&& src, logicFlags (dst &&& src) true u)
  | .xor => (dst ^^^ src, logicFlags (dst ^^^ src) false u)
  | .or => (dst ||| src, logicFlags (dst ||| src) false u)
  | .cp => (subResult dst src false, subFlags dst src false u)

/-- Whether the operation writes its result: all but CP (R235). -/
def AluOp.writes : AluOp → Bool
  | .add => true
  | .adc => true
  | .sub => true
  | .sbc => true
  | .and => true
  | .xor => true
  | .or => true
  | .cp => false

/-- A count of 1 to 8 from its 3-bit field, 0 meaning 8 (R128, R236). -/
def count8 (num : BitVec 3) : Nat := if num.toNat = 0 then 8 else num.toNat

/-- The flags of INC on a byte register or on memory: `***V0-` (R236). -/
def incFlags {n : Nat} (a b : BitVec n) (f : Flags) : Flags := { addFlags a b false false with c := f.c }

/-- The flags of DEC on a byte register or on memory: `***V1-` (R237). -/
def decFlags {n : Nat} (a b : BitVec n) (f : Flags) : Flags := { subFlags a b false false with c := f.c }

/-! ## Rotates and shifts -/

/-- The rotates and shifts, in the order of their operation numbers (R390). -/
inductive ShiftOp
  | rlc | rrc | rl | rr | sla | sra | sll | srl
deriving DecidableEq, Repr

/-- A single-bit shift left with `b` entering the least significant bit. -/
def shiftInLow {n : Nat} (v : BitVec n) (b : Bool) : BitVec n := (v <<< 1) ||| (BitVec.ofBool b).setWidth n

/-- A single-bit shift right with `b` entering the most significant bit. -/
def shiftInHigh {n : Nat} (v : BitVec n) (b : Bool) : BitVec n :=
  (v >>> 1) ||| ((BitVec.ofBool b).setWidth n <<< (n - 1))

/-- One step of a rotate or shift on `dst` and the carry (R393 to R400). -/
def shiftStep {n : Nat} (op : ShiftOp) (d : BitVec n × Bool) : BitVec n × Bool :=
  match op with
  | .rlc => (shiftInLow d.1 d.1.msb, d.1.msb)
  | .rrc => (shiftInHigh d.1 (d.1.getLsbD 0), d.1.getLsbD 0)
  | .rl => (shiftInLow d.1 d.2, d.1.msb)
  | .rr => (shiftInHigh d.1 d.2, d.1.getLsbD 0)
  | .sla => (shiftInLow d.1 false, d.1.msb)
  | .sra => (shiftInHigh d.1 d.1.msb, d.1.getLsbD 0)
  | .sll => (shiftInLow d.1 false, d.1.msb)
  | .srl => (shiftInHigh d.1 false, d.1.getLsbD 0)

/-- `count` steps of a rotate or shift (R391). -/
def shiftSteps {n : Nat} (op : ShiftOp) : Nat → BitVec n × Bool → BitVec n × Bool
  | 0, d => d
  | k + 1, d => shiftSteps op k (shiftStep op d)

/-- A count of 1 to 16 from its 4-bit field, 0 meaning 16 (R128, R391). -/
def count16 (num : BitVec 4) : Nat := if num.toNat = 0 then 16 else num.toNat

/-- The flags of the rotates and shifts: `**0P0*` (R392); V is `u` when n = 32. -/
def shiftFlags {n : Nat} (r : BitVec n) (carry u : Bool) : Flags where
  s := r.msb
  z := r == 0
  h := false
  v := if n = 32 then u else parityEven r
  n := false
  c := carry

/-- The flags of RLD and RRD from A after the rotate: `**0P0-` (R410). -/
def digitFlags (a : Byte) (f : Flags) : Flags where
  s := a.msb
  z := a == 0
  h := false
  v := parityEven a
  n := false
  c := f.c

/-! ## Decimal adjustment -/

/-- A row of the DAA table: the values before (N, C, the range of the upper digit, H, the range of the lower digit), the
value added and the C flag after (R243). -/
structure DaaRow where
  n : Bool
  c : Bool
  upperMin : Nat
  upperMax : Nat
  h : Bool
  lowerMin : Nat
  lowerMax : Nat
  adj : Byte
  cAfter : Bool
deriving DecidableEq, Repr

/-- The DAA table of R243, row by row. -/
def daaTable : List DaaRow :=
  [ ⟨false, false, 0x0, 0x9, false, 0x0, 0x9, 0x00, false⟩,
    ⟨false, false, 0x0, 0x8, false, 0xA, 0xF, 0x06, false⟩,
    ⟨false, false, 0x0, 0x9, true, 0x0, 0x3, 0x06, false⟩,
    ⟨false, false, 0xA, 0xF, false, 0x0, 0x9, 0x60, true⟩,
    ⟨false, false, 0x9, 0xF, false, 0xA, 0xF, 0x66, true⟩,
    ⟨false, false, 0xA, 0xF, true, 0x0, 0x3, 0x66, true⟩,
    ⟨false, true, 0x0, 0x2, false, 0x0, 0x9, 0x60, true⟩,
    ⟨false, true, 0x0, 0x2, false, 0xA, 0xF, 0x66, true⟩,
    ⟨false, true, 0x0, 0x3, true, 0x0, 0x3, 0x66, true⟩,
    ⟨true, false, 0x0, 0x9, false, 0x0, 0x9, 0x00, false⟩,
    ⟨true, false, 0x0, 0x8, true, 0x6, 0xF, 0xFA, false⟩,
    ⟨true, true, 0x7, 0xF, false, 0x0, 0x9, 0xA0, true⟩,
    ⟨true, true, 0x6, 0xF, true, 0x6, 0xF, 0x9A, true⟩ ]

/-- Whether a row of the table matches the operand and the flags before. -/
def DaaRow.covers (row : DaaRow) (a : Byte) (f : Flags) : Bool :=
  row.n == f.n && row.c == f.c && row.h == f.h &&
    decide (row.upperMin ≤ a.toNat / 16) && decide (a.toNat / 16 ≤ row.upperMax) &&
    decide (row.lowerMin ≤ a.toNat % 16) && decide (a.toNat % 16 ≤ row.lowerMax)

/-- The row of the table for an operand and the flags before, or none where the table has no row (R243). -/
def daaRow (a : Byte) (f : Flags) : Option DaaRow := daaTable.find? fun row => row.covers a f

/-- The flags after DAA by a row of the table: `***P-*` (R242). -/
def daaFlags (a adj : Byte) (cAfter : Bool) (f : Flags) : Flags where
  s := (a + adj).msb
  z := a + adj == 0
  h := decide (15 < a.toNat % 16 + adj.toNat % 16)
  v := parityEven (a + adj)
  n := f.n
  c := cAfter

/-! ## Multiply and divide -/

/-- The unsigned product of two m-bit operands, in `w` bits (R271). -/
def mulUnsigned {m : Nat} (w : Nat) (a b : BitVec m) : BitVec w := BitVec.ofNat w (a.toNat * b.toNat)

/-- The signed product of two m-bit operands, in `w` bits (R272). -/
def mulSigned {m : Nat} (w : Nat) (a b : BitVec m) : BitVec w := BitVec.ofInt w (a.toInt * b.toInt)

/-- A quotient and a remainder put together: the quotient in the low m bits, the remainder above (R273, R274). -/
def quotRem {m : Nat} (w : Nat) (q r : BitVec m) : BitVec w := (r ++ q).setWidth w

/-- Unsigned division: none when the divisor is 0 or the quotient does not fit in m bits, and V is then set (R273). -/
def divUnsigned {m w : Nat} (a : BitVec w) (b : BitVec m) : Option (BitVec w) :=
  if b.toNat = 0 ∨ 2 ^ m - 1 < a.toNat / b.toNat then none
  else some (quotRem w (BitVec.ofNat m (a.toNat / b.toNat)) (BitVec.ofNat m (a.toNat % b.toNat)))

/-- Signed division truncating toward zero: none when the divisor is 0 or the quotient is outside
`-2^(m-1) .. 2^(m-1) - 1`, and V is then set (R274). -/
def divSigned {m w : Nat} (a : BitVec w) (b : BitVec m) : Option (BitVec w) :=
  if b.toInt = 0 ∨ a.toInt.tdiv b.toInt < -(2 ^ (m - 1)) ∨ 2 ^ (m - 1) - 1 < a.toInt.tdiv b.toInt then none
  else some (quotRem w (BitVec.ofInt m (a.toInt.tdiv b.toInt))
    (BitVec.ofInt m (a.toInt - a.toInt.tdiv b.toInt * b.toInt)))

/-! ## Bits, bit search and modulo steps -/

/-- `v` with bit `k` replaced by `b` (R312, R331 to R334); nothing changes when `k` is no bit of `v`. -/
def putBit {n : Nat} (v : BitVec n) (k : Nat) (b : Bool) : BitVec n :=
  BitVec.ofFnLE fun i : Fin n => if i.val = k then b else v.getLsbD i.val

/-- The flags of BIT and TSET: Z the inverted bit, H 1, N 0, C unchanged, S and V undefined (R330, R334). -/
def bitFlags (bit undefS undefV : Bool) (f : Flags) : Flags where
  s := undefS
  z := !bit
  h := true
  v := undefV
  n := false
  c := f.c

/-- The number of the lowest bit set (R340). -/
def lowestBit {n : Nat} (v : BitVec n) : Option Nat := (List.range n).find? fun i => v.getLsbD i

/-- The number of the highest bit set (R341). -/
def highestBit {n : Nat} (v : BitVec n) : Option Nat := (List.range n).reverse.find? fun i => v.getLsbD i

/-- The bits of `v` in reverse order (R203). -/
def mirror {n : Nat} (v : BitVec n) : BitVec n := BitVec.ofFnLE fun i : Fin n => v.getLsbD (n - 1 - i.val)

/-- Whether `num` is an operand of MINCk or MDECk: a power of two greater than `k` and at most 2^15 (R285: `num` is 2 to
the n, with n = 1 to 15 for k = 1, 2 to 15 for k = 2, 3 to 15 for k = 4). -/
def moduloOk (num k : Nat) : Bool := (List.range 16).any fun e => num == 2 ^ e && decide (k < 2 ^ e)

/-- MINCk on a register value, `num` being a power of two (R286 to R288). -/
def moduloInc (v : Word) (num k : Nat) : Word :=
  if v.toNat % num = num - k then v - BitVec.ofNat 16 (num - k) else v + BitVec.ofNat 16 k

/-- MDECk on a register value, `num` being a power of two (R289 to R291). -/
def moduloDec (v : Word) (num k : Nat) : Word :=
  if v.toNat % num = 0 then v + BitVec.ofNat 16 (num - k) else v - BitVec.ofNat 16 k

/-- The flags of the block compares: `***(V)1-`, V telling whether BC is not 0 (R210). -/
def compareFlags {n : Nat} (a b : BitVec n) (bcNotZero : Bool) (f : Flags) : Flags where
  s := (a - b).msb
  z := a - b == 0
  h := subHalf a b false
  v := bcNotZero
  n := true
  c := f.c

end Sys2Proof.Machine
end

