-- ==== Sys2Proof/Machine/Ops.lean ====
section
/-! DEFINITION. The named operations over registers and memory: the general registers, SR, memory bytes and
little-endian accesses, the stack, free values, taking an interrupt or a software interrupt and returning from it, and
the reset event. -/

namespace Sys2Proof.Machine

/-! ## General registers (R20 to R27) -/

/-- The contents of a 32-bit general register. -/
def State.reg (s : State) : GReg → Long
  | .bank i => s.banks[i.toNat]'(i.isLt)
  | .xix => s.xix
  | .xiy => s.xiy
  | .xiz => s.xiz
  | .xsp => s.xsp

/-- Write a 32-bit general register. -/
def State.setReg (s : State) (g : GReg) (v : Long) : State :=
  match g with
  | .bank i => { s with banks := s.banks.set i.toNat v (i.isLt) }
  | .xix => { s with xix := v }
  | .xiy => { s with xiy := v }
  | .xiz => { s with xiz := v }
  | .xsp => { s with xsp := v }

/-- Replace the `n` bits of `old` from bit `lo` up by `v`, leaving the others unchanged (R22: "a write to a view changes
exactly the bits of the view"). -/
def insertBits {n : Nat} (old : Long) (lo : Nat) (v : BitVec n) : Long :=
  (old &&& ~~~((BitVec.allOnes n).setWidth 32 <<< lo)) ||| (v.setWidth 32 <<< lo)

/-! ## Free values (R10, D7) -/

/-- The next free value, cut to `n` bits: `undef_n()`. -/
def State.freeBits (s : State) (n : Nat) : BitVec n := (Config.freeValue s.freeCount).setWidth n

/-- The next free value as one bit: `undef_1()`. -/
def State.freeBit (s : State) : Bool := (Config.freeValue s.freeCount).getLsbD 0

/-- The state after one free value has been drawn. -/
def State.drawn (s : State) : State := { s with freeCount := s.freeCount + 1 }

/-! ## Status register (R30, R31, R35) -/

/-- F as a byte: S Z 0 H 0 V N C from bit 7 down (R35). -/
def Flags.toByte (f : Flags) : Byte :=
  BitVec.ofBool f.s ++ BitVec.ofBool f.z ++ 0#1 ++ BitVec.ofBool f.h ++ 0#1 ++ BitVec.ofBool f.v ++
    BitVec.ofBool f.n ++ BitVec.ofBool f.c

/-- The flags a byte loads into F: bits 5 and 3 are not stored (R180, D3). -/
def Flags.ofByte (v : Byte) : Flags where
  s := v.getLsbD 7
  z := v.getLsbD 6
  h := v.getLsbD 4
  v := v.getLsbD 2
  n := v.getLsbD 1
  c := v.getLsbD 0

/-- SR as a word: 1, IFF2:0, 1, 0, RFP1:0, F (R30); bits 15, 11 and 10 read as the constants 1, 1 and 0 (R31). -/
def State.sr (s : State) : Word := 1#1 ++ s.iff ++ 1#1 ++ 0#1 ++ s.rfp ++ s.flags.toByte

/-- Load SR: IFF2:0, RFP1:0 and the six flags take their bits, the constant bits ignore theirs (R31, R354, D3). -/
def State.setSr (s : State) (v : Word) : State :=
  { s with
    iff := v.extractLsb' 12 3
    rfp := v.extractLsb' 8 2
    flags := Flags.ofByte (v.extractLsb' 0 8) }

/-! ## Memory (R70 to R78) -/

/-- What an address reads as that the memory does not list. DESIGN CHOICE (assumption 2): the spec gives memory after
reset no contents. -/
def Memory.unlisted : Byte := 0

/-- The byte at an address. -/
def Memory.read : Memory → Nat → Byte
  | [], _ => Memory.unlisted
  | (k, v) :: t, a => if k = a then v else Memory.read t a

/-- Memory without the byte at an address. -/
def Memory.erase : Memory → Nat → Memory
  | [], _ => []
  | (k, w) :: t, a => if k = a then Memory.erase t a else (k, w) :: Memory.erase t a

/-- List a byte at an address that is not listed, before the addresses above it. -/
def Memory.insert : Memory → Nat → Byte → Memory
  | [], a, v => [(a, v)]
  | (k, w) :: t, a, v => if a < k then (a, v) :: (k, w) :: t else (k, w) :: Memory.insert t a v

/-- Store a byte at an address, keeping the canonical form: addresses rise, and a byte equal to what an unlisted address
reads as is not listed. -/
def Memory.write (m : Memory) (a : Nat) (v : Byte) : Memory :=
  if v = Memory.unlisted then m.erase a else (m.erase a).insert a v

/-- The canonical form from address `lo` on: addresses strictly rising from `lo`, each below 2^24, and no byte listed
that an unlisted address reads as. -/
def Memory.wfFrom : Nat → Memory → Bool
  | _, [] => true
  | lo, (k, v) :: t =>
    decide (lo ≤ k) && decide (k < 2 ^ 24) && decide (v ≠ Memory.unlisted) && Memory.wfFrom (k + 1) t

/-- The canonical form of memory: equal memories are equal lists. -/
def Memory.wf (m : Memory) : Bool := Memory.wfFrom 0 m

/-- Add an address to a rising list of addresses. -/
def insertAddr : List Nat → Nat → List Nat
  | [], a => [a]
  | k :: t, a => if a < k then a :: k :: t else if a = k then k :: t else k :: insertAddr t a

/-- The address on the 24 address lines: bits 31:24 of an effective address or of PC are ignored by memory (R71, R72). -/
def busAddr (ea : Long) : Addr := ea.setWidth 24

/-- The byte at an address: memory's, or, in `ioRegion`, the one that the host answers (R82, D26). -/
def State.readByte (s : State) (a : Addr) : Byte :=
  if Config.ioRegion a then Config.ioValue s.ioLog.length a else s.mem.read a.toNat

/-- While a reset in the middle of an instruction is being worked out, the moment before an access is put on the trail
(R490). -/
def State.onTrail (s : State) (next : Access) : State := { s with trail := s.trail.map (⟨s.mem, s.ioLog, next⟩ :: ·) }

/-- A store of one byte: memory changes, and the address is recorded as written (R90); in `ioRegion` it is a host event
instead (R82, D26). -/
def State.writeByte (s : State) (a : Addr) (v : Byte) : State :=
  if Config.ioRegion a then { s.onTrail (.write a v) with ioLog := .write a v :: s.ioLog }
  else { s.onTrail (.write a v) with mem := s.mem.write a.toNat v, written := insertAddr s.written a.toNat }

/-- What reading a byte does: nothing, or, in `ioRegion`, a host event (R82, D26). -/
def State.noteByte (s : State) (a : Addr) : State :=
  if Config.ioRegion a then { s.onTrail (.read a) with ioLog := .read a :: s.ioLog } else s

/-- What an access that reads `nb` bytes does besides giving their value, which `memRead` says (R82). -/
def State.noteRead (s : State) : (nb : Nat) → Long → State
  | 0, _ => s
  | nb + 1, ea => (s.noteByte (busAddr ea)).noteRead nb (ea + 1)

/-- `MemRead(addr, nb)`: bits 8i+7:8i are the byte at `(addr + i) mod 2^24` (R73). -/
def State.memRead (s : State) : (nb : Nat) → Long → BitVec (8 * nb)
  | 0, _ => 0#0
  | nb + 1, ea => (s.memRead nb (ea + 1) ++ s.readByte (busAddr ea) : BitVec (8 * nb + 8))

/-- `MemWrite(addr, nb, v)`: bits 8i+7:8i go to the byte at `(addr + i) mod 2^24`, in order of increasing address
(R74, R84). -/
def State.memWrite (s : State) : (nb : Nat) → Long → BitVec (8 * nb) → State
  | 0, _, _ => s
  | nb + 1, ea, v => (s.writeByte (busAddr ea) (v.setWidth 8)).memWrite nb (ea + 1) (v.extractLsb' 8 (8 * nb))

/-! ## The stack (R172, R178, D27) -/

/-- `push_n(v)`: `XSP <- XSP - nb; MemWrite(XSP, nb, v)` (R172). -/
def State.push (s : State) (nb : Nat) (v : BitVec (8 * nb)) : State :=
  { s with xsp := s.xsp - BitVec.ofNat 32 nb }.memWrite nb (s.xsp - BitVec.ofNat 32 nb) v

/-- The value `pop_n()` returns: `MemRead(XSP, nb)` (R178). -/
def State.stackTop (s : State) (nb : Nat) : BitVec (8 * nb) := s.memRead nb s.xsp

/-- The state after `pop_n()`: `XSP <- XSP + nb` (R178). -/
def State.popped (s : State) (nb : Nat) : State := { s.noteRead nb s.xsp with xsp := s.xsp + BitVec.ofNat 32 nb }

/-! ## Exceptions: the software interrupt, interrupts, RETI, reset -/

/-- The address of an entry of the vector table, `FFFF00H + 4 * entry` (R453). -/
def vectorAddr (entry : BitVec 6) : Long := 0xFFFF00 + 4 * entry.setWidth 32

/-- What stores the frame of an exception, which fixes the order of its stores (R86): interrupt entry pushes PC and then
SR (R457), SWI stores SR and then PC (R355). -/
inductive FrameOrder
  | interrupt
  | software
deriving DecidableEq, Repr

/-- The frame of an exception: XSP goes down by 6, SR lies at XSP and the 32-bit return address at XSP + 2 (R355, R457). -/
def State.pushFrame (s : State) (order : FrameOrder) (retPc : Long) : State :=
  match order with
  | .interrupt => (s.push 4 retPc).push 2 s.sr
  | .software =>
    let sp := s.xsp - 6
    ({ s with xsp := sp }.memWrite 2 sp s.sr).memWrite 4 (sp + 2) retPc

/-- Taking an exception: the frame is stored, then PC is loaded with all 32 bits of the vector (R355, R457). -/
def State.takeException (s : State) (order : FrameOrder) (retPc : Long) (entry : BitVec 6) : State :=
  let t := s.pushFrame order retPc
  { t.noteRead 4 (vectorAddr entry) with pc := t.memRead 4 (vectorAddr entry) }

/-- The level of a request as a number (R455). -/
def IrqLevel.toNat : IrqLevel → Nat
  | .l1 => 1
  | .l2 => 2
  | .l3 => 3
  | .l4 => 4
  | .l5 => 5
  | .l6 => 6
  | .l7 => 7

/-- A request of level L is accepted when `L >= max(IFF, 1)` (R32, R456), and not inside a CPIR or CPDR (R215, D25). -/
def State.accepts (s : State) (level : IrqLevel) : Bool := !s.comparing && decide (max s.iff.toNat 1 ≤ level.toNat)

/-- General-purpose interrupt processing (R457): push PC and SR, `IFF <- min(L + 1, 7)`, `INTNEST <- INTNEST + 1`, load
PC from the vector; the halt bit is cleared. -/
def State.enterInterrupt (s : State) (retPc : Long) (level : IrqLevel) (entry : BitVec 6) : State :=
  { s.takeException .interrupt retPc entry with
    iff := BitVec.ofNat 3 (min (level.toNat + 1) 7)
    intnest := s.intnest + 1
    halted := false }

/-- The return from an exception (R440): SR and PC are popped and XSP rises by 6; INTNEST is decremented when the
parameter says so (D11). -/
def State.returnFromException (s : State) : State :=
  let s1 := s.noteRead 2 s.xsp
  { ({ s1.noteRead 4 (s.xsp + 2) with xsp := s.xsp + 6 }.setSr (s.memRead 2 s.xsp)) with
    pc := s1.memRead 4 (s.xsp + 2)
    intnest := if Config.retiDecrementsIntnest then s.intnest - 1 else s.intnest }

/-- The reset vector: the three bytes at FFFF00H, FFFF01H and FFFF02H, bits 31:24 being 0 (R491, D4). -/
def State.resetVector (s : State) : Long := (s.memRead 3 0xFFFF00).setWidth 32

/-- The reset event (R490, R491): XSP, IFF, RFP, PC and the halt bit take their reset values; what has no stated reset
value takes a free value (D5), memory stays (assumption 14), and nothing counts as written since reset (R90). The host's
stream stays as it is. -/
def State.resetEvent (s : State) : State where
  banks := Vector.ofFn fun i => Config.freeValue (s.freeCount + i.val)
  xix := Config.freeValue (s.freeCount + 16)
  xiy := Config.freeValue (s.freeCount + 17)
  xiz := Config.freeValue (s.freeCount + 18)
  xsp := 0
  iff := 7
  rfp := 0
  flags := Flags.ofByte ((Config.freeValue (s.freeCount + 19)).setWidth 8)
  flagsAlt := Flags.ofByte ((Config.freeValue (s.freeCount + 20)).setWidth 8)
  pc := s.resetVector
  dmas := Vector.ofFn fun i => Config.freeValue (s.freeCount + 21 + i.val)
  dmad := Vector.ofFn fun i => Config.freeValue (s.freeCount + 29 + i.val)
  dmac := Vector.ofFn fun i => (Config.freeValue (s.freeCount + 37 + i.val)).setWidth 16
  dmam := Vector.ofFn fun i => (Config.freeValue (s.freeCount + 45 + i.val)).setWidth 8
  intnest := (Config.freeValue (s.freeCount + 53)).setWidth 16
  halted := false
  comparing := false
  mem := s.mem
  written := []
  ioLog := (s.noteRead 3 0xFFFF00).ioLog
  trail := none
  host := s.host
  freeCount := s.freeCount + 54

/-- Reset in the middle of what has led to `t` with its trail recorded: "what the interrupted instruction had already
written stays written" (R490). Stores take effect in order (R86), so that memory is what it was before one of them or
after the last; which one nobody says, and a free value chooses (assumption 11). -/
def State.resetWithin (t : State) : State :=
  let t' := { t with freeCount := t.freeCount + 1 }
  match (t.trail.getD [])[(Config.freeValue t.freeCount).toNat]? with
  | some moment => { t' with mem := moment.mem, ioLog := moment.ioLog }.resetEvent
  | none => t'.resetEvent

end Sys2Proof.Machine
end

