-- ==== Sys2Proof/Machine/Operands.lean ====
section
/-! DEFINITION. Every operand form: where a register operand lies, the effective address of a memory operand with the
pre-decrement and post-increment of its mode, the control registers, and the stack accesses of registers and memory
operands. -/

namespace Sys2Proof.Machine

/-! ## Register operands -/

/-- The place of a register of a bank in its bank (R27). -/
def bankRegCode : BankReg → BitVec 2
  | .xwa => 0
  | .xbc => 1
  | .xde => 2
  | .xhl => 3

/-- The general register a name of the register map denotes: the current bank is RFP, the previous one RFP - 1 modulo 4
(R23, R27). -/
def physReg (rfp : BitVec 2) : Reg32 → GReg
  | .bank k x => .bank (k ++ bankRegCode x)
  | .prev x => .bank ((rfp - 1) ++ bankRegCode x)
  | .cur x => .bank (rfp ++ bankRegCode x)
  | .xix => .xix
  | .xiy => .xiy
  | .xiz => .xiz
  | .xsp => .xsp

/-- Where a register operand of size `sz` lies: a general register and the part of it. -/
structure Loc (sz : Size) where
  g : GReg
  part : BitVec sz.partBits
deriving DecidableEq, Repr

/-- Read a register operand (R22). -/
def State.readLoc {sz : Size} (s : State) (l : Loc sz) : BitVec sz.bits :=
  (s.reg l.g).extractLsb' (l.part.toNat * sz.bits) sz.bits

/-- Write a register operand: exactly its bits change (R22). -/
def State.writeLoc {sz : Size} (s : State) (l : Loc sz) (v : BitVec sz.bits) : State :=
  s.setReg l.g (insertBits (s.reg l.g) (l.part.toNat * sz.bits) v)

/-- The 32-bit register with a 3-bit code: XWA XBC XDE XHL XIX XIY XIZ XSP (R107, long column). -/
def curLong (rfp : BitVec 2) (c : BitVec 3) : GReg :=
  match c.toNat with
  | 4 => .xix
  | 5 => .xiy
  | 6 => .xiz
  | 7 => .xsp
  | _ => .bank (rfp ++ c.extractLsb' 0 2)

/-- The register with a 3-bit code at a size (R107): the bytes are W A B C D E H L, the upper byte of a pair having the
even code; a word register is the lower half of the long register with its code. -/
def curLoc (rfp : BitVec 2) (sz : Size) (c : BitVec 3) : Loc sz :=
  match sz with
  | .b => ⟨.bank (rfp ++ c.extractLsb' 1 2), if c.getLsbD 0 then 0 else 1⟩
  | .w => ⟨curLong rfp c, 0⟩
  | .l => ⟨curLong rfp c, 0⟩

/-- Where the operand `r` lies (R108, R110). -/
def opLoc {sz : Size} (rfp : BitVec 2) : RegOp sz → Loc sz
  | .short c => curLoc rfp sz c
  | .ext r part => ⟨physReg rfp r, part⟩

/-- Where the operand `RR` lies: in a word operation the long register with the code (R270 (a)); in a byte operation WA,
BC, DE, HL (R270 (b)). -/
def dblLoc (rfp : BitVec 2) (z : SizeBW) (c : BitVec z.dblBits) : Loc z.double :=
  match z with
  | .b => ⟨.bank (rfp ++ c), 0⟩
  | .w => ⟨curLong rfp c, 0⟩

/-- Where the operand `rr` lies (R270 (c), (d)). -/
def dblOpLoc {z : SizeBW} (rfp : BitVec 2) : DblOp z → Loc z.double
  | .short c => dblLoc rfp z c
  | .ext r part => ⟨physReg rfp r, part⟩

/-- A of the current bank (R13, R107). -/
def aLoc (rfp : BitVec 2) : Loc .b := curLoc rfp .b 1

/-- BC of the current bank (R205). -/
def bcLoc (rfp : BitVec 2) : Loc .w := curLoc rfp .w 1

/-- Read a current register `R`. -/
def State.cur (s : State) (sz : Size) (c : BitVec 3) : BitVec sz.bits := s.readLoc (curLoc s.rfp sz c)

/-- Write a current register `R`. -/
def State.setCur (s : State) (sz : Size) (c : BitVec 3) (v : BitVec sz.bits) : State :=
  s.writeLoc (curLoc s.rfp sz c) v

/-- Read the operand `r`. -/
def State.readOp {sz : Size} (s : State) (r : RegOp sz) : BitVec sz.bits := s.readLoc (opLoc s.rfp r)

/-- Write the operand `r`. -/
def State.writeOp {sz : Size} (s : State) (r : RegOp sz) (v : BitVec sz.bits) : State := s.writeLoc (opLoc s.rfp r) v

/-- Read A. -/
def State.a (s : State) : Byte := s.readLoc (aLoc s.rfp)

/-- Read the 32-bit register named in a mode byte (`reg32(c)` of R120). -/
def State.reg32 (s : State) (r : Reg32) : Long := s.reg (physReg s.rfp r)

/-! ## Control registers (R50) -/

/-- Read a control register (R361). -/
def State.readCr (s : State) : (cr : CtrlReg) → BitVec cr.size.bits
  | .dmas n => s.dmas[n.toNat]'(n.isLt)
  | .dmad n => s.dmad[n.toNat]'(n.isLt)
  | .dmac n => s.dmac[n.toNat]'(n.isLt)
  | .dmam n => s.dmam[n.toNat]'(n.isLt)
  | .intnest => s.intnest

/-- Write a control register: plain storage (R51, R360). -/
def State.writeCr (s : State) (cr : CtrlReg) (v : BitVec cr.size.bits) : State :=
  match cr with
  | .dmas n => { s with dmas := s.dmas.set n.toNat v (n.isLt) }
  | .dmad n => { s with dmad := s.dmad.set n.toNat v (n.isLt) }
  | .dmac n => { s with dmac := s.dmac.set n.toNat v (n.isLt) }
  | .dmam n => { s with dmam := s.dmam.set n.toNat v (n.isLt) }
  | .intnest => { s with intnest := v }

/-! ## Memory operands -/

/-- The step of a mode byte (R123). -/
def stepAmount : Step → Long
  | .one => 1
  | .two => 2
  | .four => 4

/-- The effective address of a memory operand, from the registers before the instruction (R115 to R124); for `(-r32)`
it is the decremented value. -/
def State.ea (s : State) (m : MemOp) : Long :=
  match m with
  | .ind c => s.reg (curLong s.rfp c)
  | .disp8 c d => s.reg (curLong s.rfp c) + d.signExtend 32
  | .abs8 a => a.setWidth 32
  | .abs16 a => a.setWidth 32
  | .abs24 a => a.setWidth 32
  | .indReg r => s.reg32 r
  | .disp16 r d => s.reg32 r + d.signExtend 32
  | .index8 r x part => s.reg32 r + BitVec.signExtend 32 (s.readLoc (sz := .b) ⟨physReg s.rfp x, part⟩)
  | .index16 r x part => s.reg32 r + BitVec.signExtend 32 (s.readLoc (sz := .w) ⟨physReg s.rfp x, part⟩)
  | .preDec r st => s.reg32 r - stepAmount st
  | .postInc r _ => s.reg32 r

/-- The register that a mode pre-decrements, if it is `(-r32)` (R123). -/
def preReg (rfp : BitVec 2) : MemOp → Option GReg
  | .preDec r _ => some (physReg rfp r)
  | _ => none

/-- The register that a mode post-increments, if it is `(r32+)` (R124). -/
def postReg (rfp : BitVec 2) : MemOp → Option GReg
  | .postInc r _ => some (physReg rfp r)
  | _ => none

/-- The register that a mode steps, before or after the instruction's own operation (R123, R124). -/
def autoReg (rfp : BitVec 2) : MemOp → Option GReg
  | .preDec r _ => some (physReg rfp r)
  | .postInc r _ => some (physReg rfp r)
  | _ => none

/-- The pre-decrement of `(-r32)`, before the instruction's own operation (R123). -/
def State.preStep (s : State) (m : MemOp) : State :=
  match m with
  | .preDec r st => s.setReg (physReg s.rfp r) (s.reg32 r - stepAmount st)
  | _ => s

/-- The post-increment of `(r32+)`, after the instruction's own operation (R124). -/
def State.postStep (s : State) (m : MemOp) : State :=
  match m with
  | .postInc r st => s.setReg (physReg s.rfp r) (s.reg32 r + stepAmount st)
  | _ => s

/-- The step of a mode, whichever it has (R123, R124). -/
def State.modeStep (s : State) (m : MemOp) : State := (s.preStep m).postStep m

/-- The value of a register operand of an instruction that has a memory operand, after the pre-decrement. When it is
part of the register the mode pre-decrements, the spec gives no order (R505, D19) and the value is free (assumption 5). -/
def State.dataLoc {sz : Size} (s : State) (m : MemOp) (l : Loc sz) : BitVec sz.bits :=
  if preReg s.rfp m = some l.g then s.freeBits sz.bits else s.readLoc l

/-- The state after `dataLoc`: a free value is used up when it gave one. -/
def State.dataDrawn {sz : Size} (s : State) (m : MemOp) (l : Loc sz) : State :=
  if preReg s.rfp m = some l.g then s.drawn else s

/-- The post-increment of an instruction that has written the register operand `l`. When `l` is part of the register that
the mode steps, before or after, the spec gives no order of the step and the write (R124, R166, R505, D19) and the whole
register is left with a free value (assumption 5). -/
def State.postStepInto {sz : Size} (s : State) (m : MemOp) (l : Loc sz) : State :=
  if autoReg s.rfp m = some l.g then (s.setReg l.g (s.freeBits 32)).drawn else s.postStep m

/-- Whether a mode is `(-r32)` or `(r32+)`. -/
def isAuto : MemOp → Bool
  | .preDec _ _ => true
  | .postInc _ _ => true
  | _ => false

/-- The step of an address-only instruction (LDA, JP, CALL) with `(-r32)` or `(r32+)`: the register moves or not, as a
free bit says, since the spec does not say whether it does (D29, assumption 6). -/
def State.addrStep (s : State) (m : MemOp) : State :=
  if isAuto m then
    if s.freeBit then s.drawn.modeStep m else s.drawn
  else s

/-- The same for LDA, which has written the register operand `l`: when that is part of the register the mode moves, the
whole register is left with a free value (D19, assumption 5). -/
def State.addrStepInto {sz : Size} (s : State) (m : MemOp) (l : Loc sz) : State :=
  if autoReg s.rfp m = some l.g then (s.setReg l.g (s.freeBits 32)).drawn else s

/-! ## Stack accesses with operands -/

/-- PUSH of a register operand (R175, R176). The value pushed is free when the operand is part of XSP: the spec does not
say whether it is read before or after the decrement (R175, D19, assumption 5). -/
def State.pushLoc {sz : Size} (s : State) (l : Loc sz) : State :=
  if l.g = .xsp then s.drawn.push sz.bytes (s.freeBits sz.bits) else s.push sz.bytes (s.readLoc l)

/-- POP to a register operand (R182, R183). XSP is left with a free value when the operand is part of it: the spec does
not order the load against the increment (R182, D19, assumption 5). -/
def State.popLoc {sz : Size} (s : State) (l : Loc sz) : State :=
  if l.g = .xsp then { (s.noteRead sz.bytes s.xsp).drawn with xsp := s.freeBits 32 }
  else (s.popped sz.bytes).writeLoc l (s.stackTop sz.bytes)

/-- PUSH of a memory operand (R179): read, push, with the step of the mode before or after. With `(-XSP)` and `(XSP+)`
the order of that step and the push is free (D19, assumption 5). -/
def State.pushMemOp (s : State) (z : SizeBW) (m : MemOp) : State :=
  let t := s.memRead z.size.bytes (s.ea m)
  let s1 := s.noteRead z.size.bytes (s.ea m)
  if autoReg s.rfp m = some GReg.xsp then
    if s.freeBit then (s1.drawn.modeStep m).push z.size.bytes t else (s1.drawn.push z.size.bytes t).modeStep m
  else ((s1.preStep m).push z.size.bytes t).postStep m

/-- POP to a memory operand (R184): the address is computed, with any pre-decrement, before the pop; then the write and
the post-increment. With `(-XSP)` and `(XSP+)` the order of the step of the mode and the pop is free (D19, assumption
5). -/
def State.popMemOp (s : State) (z : SizeBW) (m : MemOp) : State :=
  if autoReg s.rfp m = some GReg.xsp then
    if s.freeBit then
      let s2 := s.drawn.modeStep m
      (s2.popped z.size.bytes).memWrite z.size.bytes (s.ea m) (s2.stackTop z.size.bytes)
    else ((s.drawn.popped z.size.bytes).memWrite z.size.bytes (s.ea m) (s.stackTop z.size.bytes)).modeStep m
  else
    let s1 := s.preStep m
    ((s1.popped z.size.bytes).memWrite z.size.bytes (s.ea m) (s1.stackTop z.size.bytes)).postStep m

/-- What CALL mem does to the registers and the stack when its condition holds (R432): the address-only step of the
mode, and the push of the return address. With `(-XSP)` and `(XSP+)`, where both move XSP, the order of the two is free
as well (D19, D29, assumption 6). -/
def State.callPush (s : State) (m : MemOp) : State :=
  if autoReg s.rfp m = some GReg.xsp ∧ s.freeBit ∧ (s.freeBits 2).getLsbD 1 then (s.drawn.push 4 s.pc).modeStep m
  else (s.addrStep m).push 4 s.pc

end Sys2Proof.Machine
end

