-- ==== Sys2Proof/Machine/TwoOperand.lean ====
section
/-! DEFINITION. The five forms of the two-operand group (R230), as operations over the state shared by the arithmetic
and the logical instructions. -/

namespace Sys2Proof.Machine

/-- A free value is used up by an operation that leaves a flag undefined at 32 bits, and by no other (R36, R231, R300). -/
def State.drawnLong (s : State) (sz : Size) : State := if sz = .l then s.drawn else s

/-- `dst <- dst op src` with the flags of the operation, where `dst` lies in a register (R230). -/
def State.aluInto {sz : Size} (s : State) (op : AluOp) (l : Loc sz) (src : BitVec sz.bits) : State :=
  let out := alu op (s.readLoc l) src s.flags s.freeBit
  let s1 := { s.drawnLong sz with flags := out.2 }
  if op.writes then s1.writeLoc l out.1 else s1

/-- `op R,r` (R230). -/
def State.aluCurReg (s : State) (op : AluOp) (sz : Size) (R : BitVec 3) (r : RegOp sz) : State :=
  s.aluInto op (curLoc s.rfp sz R) (s.readOp r)

/-- `op r,#` (R230). -/
def State.aluRegImm (s : State) (op : AluOp) (sz : Size) (r : RegOp sz) (imm : BitVec sz.bits) : State :=
  s.aluInto op (opLoc s.rfp r) imm

/-- `op R,(mem)` (R230): the memory operand is the source. -/
def State.aluCurMem (s : State) (op : AluOp) (sz : Size) (R : BitVec 3) (m : MemOp) : State :=
  let l := curLoc s.rfp sz R
  let s1 := s.preStep m
  let s2 := (s1.noteRead sz.bytes (s.ea m)).dataDrawn m l
  let out := alu op (s1.dataLoc m l) (s1.memRead sz.bytes (s.ea m)) s.flags s2.freeBit
  let s3 := { s2.drawnLong sz with flags := out.2 }
  if op.writes then (s3.writeLoc l out.1).postStepInto m l else s3.postStep m

/-- `op (mem),R` (R230): the memory operand is read, combined and written back; CP does not write. -/
def State.aluMemCur (s : State) (op : AluOp) (sz : Size) (m : MemOp) (R : BitVec 3) : State :=
  let l := curLoc s.rfp sz R
  let s1 := s.preStep m
  let s2 := (s1.noteRead sz.bytes (s.ea m)).dataDrawn m l
  let out := alu op (s1.memRead sz.bytes (s.ea m)) (s1.dataLoc m l) s.flags s2.freeBit
  let s3 := { s2.drawnLong sz with flags := out.2 }
  if op.writes then (s3.memWrite sz.bytes (s.ea m) out.1).postStep m else s3.postStep m

/-- `op<W> (mem),#` (R230). -/
def State.aluMemImm (s : State) (op : AluOp) (z : SizeBW) (m : MemOp) (imm : BitVec z.size.bits) : State :=
  let s1 := s.preStep m
  let out := alu op (s1.memRead z.size.bytes (s.ea m)) imm s.flags s1.freeBit
  let s3 := { s1.noteRead z.size.bytes (s.ea m) with flags := out.2 }
  if op.writes then (s3.memWrite z.size.bytes (s.ea m) out.1).postStep m else s3.postStep m

end Sys2Proof.Machine
end

