-- ==== Sys2Proof/Machine/Arith.lean ====
section
/-! DEFINITION. The arithmetic instructions: ADD, ADC, SUB, SBC, CP, INC, DEC, NEG, EXTZ, EXTS, PAA, DAA, MUL, MULS,
DIV, DIVS, MULA, MINCn, MDECn (spec/42_arithmetic.md). -/

namespace Sys2Proof.Machine

/-! ## ADD, ADC, SUB, SBC, CP -/

/-- `ADD R,r` (R231). -/
def execAddCurReg (sz : Size) (R : BitVec 3) (r : RegOp sz) (s : State) : Result := .next (s.aluCurReg .add sz R r)

/-- `ADD r,#` (R231). -/
def execAddRegImm (sz : Size) (r : RegOp sz) (imm : BitVec sz.bits) (s : State) : Result :=
  .next (s.aluRegImm .add sz r imm)

/-- `ADD R,(mem)` (R231). -/
def execAddCurMem (sz : Size) (R : BitVec 3) (m : MemOp) (s : State) : Result := .next (s.aluCurMem .add sz R m)

/-- `ADD (mem),R` (R231). -/
def execAddMemCur (sz : Size) (m : MemOp) (R : BitVec 3) (s : State) : Result := .next (s.aluMemCur .add sz m R)

/-- `ADD<W> (mem),#` (R231). -/
def execAddMemImm (z : SizeBW) (m : MemOp) (imm : BitVec z.size.bits) (s : State) : Result :=
  .next (s.aluMemImm .add z m imm)

/-- `ADC R,r` (R232). -/
def execAdcCurReg (sz : Size) (R : BitVec 3) (r : RegOp sz) (s : State) : Result := .next (s.aluCurReg .adc sz R r)

/-- `ADC r,#` (R232). -/
def execAdcRegImm (sz : Size) (r : RegOp sz) (imm : BitVec sz.bits) (s : State) : Result :=
  .next (s.aluRegImm .adc sz r imm)

/-- `ADC R,(mem)` (R232). -/
def execAdcCurMem (sz : Size) (R : BitVec 3) (m : MemOp) (s : State) : Result := .next (s.aluCurMem .adc sz R m)

/-- `ADC (mem),R` (R232). -/
def execAdcMemCur (sz : Size) (m : MemOp) (R : BitVec 3) (s : State) : Result := .next (s.aluMemCur .adc sz m R)

/-- `ADC<W> (mem),#` (R232). -/
def execAdcMemImm (z : SizeBW) (m : MemOp) (imm : BitVec z.size.bits) (s : State) : Result :=
  .next (s.aluMemImm .adc z m imm)

/-- `SUB R,r` (R233). -/
def execSubCurReg (sz : Size) (R : BitVec 3) (r : RegOp sz) (s : State) : Result := .next (s.aluCurReg .sub sz R r)

/-- `SUB r,#` (R233). -/
def execSubRegImm (sz : Size) (r : RegOp sz) (imm : BitVec sz.bits) (s : State) : Result :=
  .next (s.aluRegImm .sub sz r imm)

/-- `SUB R,(mem)` (R233). -/
def execSubCurMem (sz : Size) (R : BitVec 3) (m : MemOp) (s : State) : Result := .next (s.aluCurMem .sub sz R m)

/-- `SUB (mem),R` (R233). -/
def execSubMemCur (sz : Size) (m : MemOp) (R : BitVec 3) (s : State) : Result := .next (s.aluMemCur .sub sz m R)

/-- `SUB<W> (mem),#` (R233). -/
def execSubMemImm (z : SizeBW) (m : MemOp) (imm : BitVec z.size.bits) (s : State) : Result :=
  .next (s.aluMemImm .sub z m imm)

/-- `SBC R,r` (R234). -/
def execSbcCurReg (sz : Size) (R : BitVec 3) (r : RegOp sz) (s : State) : Result := .next (s.aluCurReg .sbc sz R r)

/-- `SBC r,#` (R234). -/
def execSbcRegImm (sz : Size) (r : RegOp sz) (imm : BitVec sz.bits) (s : State) : Result :=
  .next (s.aluRegImm .sbc sz r imm)

/-- `SBC R,(mem)` (R234). -/
def execSbcCurMem (sz : Size) (R : BitVec 3) (m : MemOp) (s : State) : Result := .next (s.aluCurMem .sbc sz R m)

/-- `SBC (mem),R` (R234). -/
def execSbcMemCur (sz : Size) (m : MemOp) (R : BitVec 3) (s : State) : Result := .next (s.aluMemCur .sbc sz m R)

/-- `SBC<W> (mem),#` (R234). -/
def execSbcMemImm (z : SizeBW) (m : MemOp) (imm : BitVec z.size.bits) (s : State) : Result :=
  .next (s.aluMemImm .sbc z m imm)

/-- `CP R,r` (R235). -/
def execCpCurReg (sz : Size) (R : BitVec 3) (r : RegOp sz) (s : State) : Result := .next (s.aluCurReg .cp sz R r)

/-- `CP r,#` (R235). -/
def execCpRegImm (sz : Size) (r : RegOp sz) (imm : BitVec sz.bits) (s : State) : Result :=
  .next (s.aluRegImm .cp sz r imm)

/-- `CP R,(mem)` (R235). -/
def execCpCurMem (sz : Size) (R : BitVec 3) (m : MemOp) (s : State) : Result := .next (s.aluCurMem .cp sz R m)

/-- `CP (mem),R` (R235). -/
def execCpMemCur (sz : Size) (m : MemOp) (R : BitVec 3) (s : State) : Result := .next (s.aluMemCur .cp sz m R)

/-- `CP<W> (mem),#` (R235). -/
def execCpMemImm (z : SizeBW) (m : MemOp) (imm : BitVec z.size.bits) (s : State) : Result :=
  .next (s.aluMemImm .cp z m imm)

/-- `CP r,#3`: the comparison with the number 0 to 7 (R235). -/
def execCpRegImm3 (z : SizeBW) (r : RegOp z.size) (imm : BitVec 3) (s : State) : Result :=
  .next (s.aluRegImm .cp z.size r (imm.setWidth z.size.bits))

/-! ## INC, DEC, NEG, EXTZ, EXTS, PAA -/

/-- INC and DEC of a register: the flags change for a byte register only (R236, R237). -/
def State.incDecReg (s : State) (up : Bool) (sz : Size) (r : RegOp sz) (num : BitVec 3) : State :=
  let d := BitVec.ofNat sz.bits (count8 num)
  let v := s.readOp r
  let s1 := s.writeOp r (if up then v + d else v - d)
  if sz = .b then { s1 with flags := if up then incFlags v d s.flags else decFlags v d s.flags } else s1

/-- INC and DEC of memory: byte or word, and the flags change (R236, R237). -/
def State.incDecMem (s : State) (up : Bool) (z : SizeBW) (num : BitVec 3) (m : MemOp) : State :=
  let d := BitVec.ofNat z.size.bits (count8 num)
  let s1 := s.preStep m
  let v := s1.memRead z.size.bytes (s.ea m)
  let s2 := { s1.noteRead z.size.bytes (s.ea m) with
    flags := if up then incFlags v d s.flags else decFlags v d s.flags }
  (s2.memWrite z.size.bytes (s.ea m) (if up then v + d else v - d)).postStep m

/-- `INC #3,r` (R236). -/
def execIncReg (sz : Size) (r : RegOp sz) (num : BitVec 3) (s : State) : Result := .next (s.incDecReg true sz r num)

/-- `DEC #3,r` (R237). -/
def execDecReg (sz : Size) (r : RegOp sz) (num : BitVec 3) (s : State) : Result := .next (s.incDecReg false sz r num)

/-- `INC<W> #3,(mem)` (R236). -/
def execIncMem (z : SizeBW) (num : BitVec 3) (m : MemOp) (s : State) : Result := .next (s.incDecMem true z num m)

/-- `DEC<W> #3,(mem)` (R237). -/
def execDecMem (z : SizeBW) (num : BitVec 3) (m : MemOp) (s : State) : Result := .next (s.incDecMem false z num m)

/-- `NEG r`: `r <- 0 - r` with the flags of that subtraction (R238). -/
def execNeg (z : SizeBW) (r : RegOp z.size) (s : State) : Result :=
  let v := s.readOp r
  .next { s.writeOp r (subResult 0 v false) with flags := subFlags 0 v false false }

/-- `EXTZ r`: the upper half of r is cleared (R239). -/
def execExtz (z : SizeWL) (r : RegOp z.size) (s : State) : Result :=
  .next (s.writeOp r (((s.readOp r).setWidth (z.size.bits / 2)).setWidth z.size.bits))

/-- `EXTS r`: the sign of the lower half fills the upper half (R240). -/
def execExts (z : SizeWL) (r : RegOp z.size) (s : State) : Result :=
  .next (s.writeOp r (((s.readOp r).setWidth (z.size.bits / 2)).signExtend z.size.bits))

/-- `PAA r`: an odd value is incremented (R241). -/
def execPaa (z : SizeWL) (r : RegOp z.size) (s : State) : Result :=
  .next (if (s.readOp r).getLsbD 0 then s.writeOp r (s.readOp r + 1) else s)

/-! ## DAA -/

/-- `DAA r`: by the table of R243; where the table has no row the result and the flags S, Z, H, V and C are free values
and N is kept (`DAA_OUTSIDE_TABLE` at its default, D21). -/
def execDaa (r : RegOp .b) (s : State) : Result :=
  let a := s.readOp r
  match daaRow a s.flags with
  | some row => .next { s.writeOp r (a + row.adj) with flags := daaFlags a row.adj row.cAfter s.flags }
  | none =>
    .next { s.writeOp r (s.freeBits 8) with
      flags := { Flags.ofByte (s.drawn.freeBits 8) with n := s.flags.n }
      freeCount := s.freeCount + 2 }

/-! ## MUL, MULS, DIV, DIVS, MULA -/

/-- Multiply and divide (R271 to R274). -/
inductive MulOp
  | mul | muls | div | divs
deriving DecidableEq, Repr

/-- The result in the double register: none when a division has divisor 0 or a quotient out of range (R273, R274). The
multiplications take the lower half of `dst`. -/
def mulDiv {m w : Nat} (op : MulOp) (dst : BitVec w) (src : BitVec m) : Option (BitVec w) :=
  match op with
  | .mul => some (mulUnsigned w (dst.setWidth m) src)
  | .muls => some (mulSigned w (dst.setWidth m) src)
  | .div => divUnsigned dst src
  | .divs => divSigned dst src

/-- The flags after: the multiplications change none, the divisions only V (R271, R273). -/
def mulDivFlags (op : MulOp) (fails : Bool) (f : Flags) : Flags :=
  match op with
  | .mul => f
  | .muls => f
  | .div => { f with v := fails }
  | .divs => { f with v := fails }

/-- The register and the flags after a multiply or divide of the value `dst` of `l`; when the division fails V is 1 and
`l` is left with a free value (R275, `DIV_FAULT_RESULT` at its default, D20). -/
def State.mulDivWrite (s : State) (op : MulOp) (z : SizeBW) (l : Loc z.double) (dst : BitVec z.double.bits)
    (src : BitVec z.size.bits) : State :=
  match mulDiv op dst src with
  | some v => { s.writeLoc l v with flags := mulDivFlags op false s.flags }
  | none => { (s.writeLoc l (s.freeBits z.double.bits)).drawn with flags := mulDivFlags op true s.flags }

/-- The forms `RR,r` and `rr,#`. -/
def State.mulDivInto (s : State) (op : MulOp) (z : SizeBW) (l : Loc z.double) (src : BitVec z.size.bits) : State :=
  s.mulDivWrite op z l (s.readLoc l) src

/-- The form `RR,(mem)`. -/
def State.mulDivMem (s : State) (op : MulOp) (z : SizeBW) (RR : BitVec z.dblBits) (m : MemOp) : State :=
  let l := dblLoc s.rfp z RR
  let s1 := s.preStep m
  let s2 := (s1.noteRead z.size.bytes (s.ea m)).dataDrawn m l
  (s2.mulDivWrite op z l (s1.dataLoc m l) (s1.memRead z.size.bytes (s.ea m))).postStepInto m l

/-- `MUL RR,r` (R271). -/
def execMulReg (z : SizeBW) (RR : BitVec z.dblBits) (r : RegOp z.size) (s : State) : Result :=
  .next (s.mulDivInto .mul z (dblLoc s.rfp z RR) (s.readOp r))

/-- `MUL rr,#` (R271). -/
def execMulImm (z : SizeBW) (rr : DblOp z) (imm : BitVec z.size.bits) (s : State) : Result :=
  .next (s.mulDivInto .mul z (dblOpLoc s.rfp rr) imm)

/-- `MUL RR,(mem)` (R271). -/
def execMulMem (z : SizeBW) (RR : BitVec z.dblBits) (m : MemOp) (s : State) : Result :=
  .next (s.mulDivMem .mul z RR m)

/-- `MULS RR,r` (R272). -/
def execMulsReg (z : SizeBW) (RR : BitVec z.dblBits) (r : RegOp z.size) (s : State) : Result :=
  .next (s.mulDivInto .muls z (dblLoc s.rfp z RR) (s.readOp r))

/-- `MULS rr,#` (R272). -/
def execMulsImm (z : SizeBW) (rr : DblOp z) (imm : BitVec z.size.bits) (s : State) : Result :=
  .next (s.mulDivInto .muls z (dblOpLoc s.rfp rr) imm)

/-- `MULS RR,(mem)` (R272). -/
def execMulsMem (z : SizeBW) (RR : BitVec z.dblBits) (m : MemOp) (s : State) : Result :=
  .next (s.mulDivMem .muls z RR m)

/-- `DIV RR,r` (R273). -/
def execDivReg (z : SizeBW) (RR : BitVec z.dblBits) (r : RegOp z.size) (s : State) : Result :=
  .next (s.mulDivInto .div z (dblLoc s.rfp z RR) (s.readOp r))

/-- `DIV rr,#` (R273). -/
def execDivImm (z : SizeBW) (rr : DblOp z) (imm : BitVec z.size.bits) (s : State) : Result :=
  .next (s.mulDivInto .div z (dblOpLoc s.rfp rr) imm)

/-- `DIV RR,(mem)` (R273). -/
def execDivMem (z : SizeBW) (RR : BitVec z.dblBits) (m : MemOp) (s : State) : Result :=
  .next (s.mulDivMem .div z RR m)

/-- `DIVS RR,r` (R274). -/
def execDivsReg (z : SizeBW) (RR : BitVec z.dblBits) (r : RegOp z.size) (s : State) : Result :=
  .next (s.mulDivInto .divs z (dblLoc s.rfp z RR) (s.readOp r))

/-- `DIVS rr,#` (R274). -/
def execDivsImm (z : SizeBW) (rr : DblOp z) (imm : BitVec z.size.bits) (s : State) : Result :=
  .next (s.mulDivInto .divs z (dblOpLoc s.rfp rr) imm)

/-- `DIVS RR,(mem)` (R274). -/
def execDivsMem (z : SizeBW) (RR : BitVec z.dblBits) (m : MemOp) (s : State) : Result :=
  .next (s.mulDivMem .divs z RR m)

/-- The flags of MULA: `**-V--` from the 32-bit addition (R276). -/
def mulaFlags (a p : Long) (f : Flags) : Flags :=
  { f with s := (a + p).msb, z := a + p == 0, v := addOverflow a p (a + p) }

/-- `MULA rr`: the signed product of the words at XDE and XHL is added to rr; then XHL goes down by 2, also when rr is
XHL (R276). -/
def execMula (rr : DblOp .w) (s : State) : Result :=
  let l := dblOpLoc s.rfp rr
  let xde := curLong s.rfp 2
  let xhl := curLong s.rfp 3
  let s0 := s.noteRead 2 (s.reg xde)
  let p : Long := mulSigned 32 (s.memRead 2 (s.reg xde)) (s0.memRead 2 (s.reg xhl))
  let a : Long := s.readLoc l
  let s1 := { (s0.noteRead 2 (s.reg xhl)).writeLoc l (a + p) with flags := mulaFlags a p s.flags }
  .next (s1.setReg xhl (s1.reg xhl - 2))

/-! ## MINCn and MDECn -/

/-- A modulo step: the encoded field holds `num - k` (R285). Where `num` is no power of two in the range of R285 the
register is left with a free value (D23, assumption 8). -/
def State.moduloStep (s : State) (k : Nat) (up : Bool) (r : RegOp .w) (field : Word) : State :=
  let num := field.toNat + k
  if moduloOk num k then
    s.writeOp r (if up then moduloInc (s.readOp r) num k else moduloDec (s.readOp r) num k)
  else (s.writeOp r (s.freeBits 16)).drawn

/-- `MINC1 #,r` (R286). -/
def execMinc1 (r : RegOp .w) (field : Word) (s : State) : Result := .next (s.moduloStep 1 true r field)

/-- `MINC2 #,r` (R287). -/
def execMinc2 (r : RegOp .w) (field : Word) (s : State) : Result := .next (s.moduloStep 2 true r field)

/-- `MINC4 #,r` (R288). -/
def execMinc4 (r : RegOp .w) (field : Word) (s : State) : Result := .next (s.moduloStep 4 true r field)

/-- `MDEC1 #,r` (R289). -/
def execMdec1 (r : RegOp .w) (field : Word) (s : State) : Result := .next (s.moduloStep 1 false r field)

/-- `MDEC2 #,r` (R290). -/
def execMdec2 (r : RegOp .w) (field : Word) (s : State) : Result := .next (s.moduloStep 2 false r field)

/-- `MDEC4 #,r` (R291). -/
def execMdec4 (r : RegOp .w) (field : Word) (s : State) : Result := .next (s.moduloStep 4 false r field)

end Sys2Proof.Machine
end

