-- ==== Sys2Proof/Machine/Control.lean ====
section
/-! DEFINITION. Special operations and CPU control: NOP, EI, DI, PUSH SR, POP SR, SWI, HALT, LDC, LINK, UNLK, LDF, INCF,
DECF, SCC (spec/44_control.md). -/

namespace Sys2Proof.Machine

/-- `NOP`: nothing but the move to the next instruction (R350). -/
def execNop (s : State) : Result := .next s

/-- `EI [#3]`: `IFF <- num` (R351). -/
def execEi (num : BitVec 3) (s : State) : Result := .next { s with iff := num }

/-- `DI`: `IFF <- 7` (R352). -/
def execDi (s : State) : Result := .next { s with iff := 7 }

/-- `PUSH SR` (R353). -/
def execPushSr (s : State) : Result := .next (s.push 2 s.sr)

/-- `POP SR` (R354). -/
def execPopSr (s : State) : Result := .next ((s.popped 2).setSr (s.stackTop 2))

/-- `SWI num`: SR and the address of the next instruction are pushed, and PC loaded from entry `num` of the vector
table; IFF, RFP and INTNEST do not change (R355, R454, D28). -/
def execSwi (num : BitVec 3) (s : State) : Result := .next (s.takeException .software s.pc (num.setWidth 6))

/-- `HALT`: the halt bit is set, with PC at the next instruction (R357). -/
def execHalt (s : State) : Result := .next { s with halted := true }

/-- `LDC cr,r` (R360). -/
def execLdcToCr (cr : CtrlReg) (r : RegOp cr.size) (s : State) : Result := .next (s.writeCr cr (s.readOp r))

/-- `LDC r,cr` (R361). -/
def execLdcFromCr (cr : CtrlReg) (r : RegOp cr.size) (s : State) : Result := .next (s.writeOp r (s.readCr cr))

/-- `LINK r,d16`: push r; `r <- XSP`; `XSP <- XSP + d16` (R365). With r = XSP the spec gives no order (R505, D19), and
the value pushed and the XSP left are free (assumption 5). -/
def execLink (r : RegOp .l) (d : Word) (s : State) : Result :=
  let l := opLoc s.rfp r
  let s1 := s.pushLoc l
  .next (if l.g = .xsp then { s1.drawn with xsp := s1.freeBits 32 }
    else { s1.writeLoc l s1.xsp with xsp := s1.xsp + d.signExtend 32 })

/-- `UNLK r`: `XSP <- r`; pop r (R366). With r = XSP, XSP is left with a free value (D19, assumption 5), which `popLoc`
says. -/
def execUnlk (r : RegOp .l) (s : State) : Result :=
  .next ({ s with xsp := s.readOp r }.popLoc (opLoc s.rfp r))

/-- `LDF #2`: `RFP <- num` (R370). -/
def execLdf (num : BitVec 2) (s : State) : Result := .next { s with rfp := num }

/-- `INCF`: `RFP <- RFP + 1` modulo 4 (R371). -/
def execIncf (s : State) : Result := .next { s with rfp := s.rfp + 1 }

/-- `DECF`: `RFP <- RFP - 1` modulo 4 (R372). -/
def execDecf (s : State) : Result := .next { s with rfp := s.rfp - 1 }

/-- `SCC cc,r`: r becomes 1 or 0 as the condition holds or not (R375). -/
def execScc (z : SizeBW) (r : RegOp z.size) (cc : Cond) (s : State) : Result :=
  .next (s.writeOp r ((BitVec.ofBool (condHolds cc s.flags)).setWidth z.size.bits))

end Sys2Proof.Machine
end

