-- ==== Sys2Proof/Machine/Exchange.lean ====
section
/-! DEFINITION. Exchange, mirror, block transfer and block compare (spec/41_exchange_block.md), with the sampling of
the host between the items of LDIR and LDDR (R215, R456). -/

namespace Sys2Proof.Machine

/-! ## Exchange and mirror -/

/-- `EX F,F'` (R200). -/
def execExFF (s : State) : Result := .next { s with flags := s.flagsAlt, flagsAlt := s.flags }

/-- `EX R,r`: the two registers are exchanged (R201). -/
def execExCurReg (z : SizeBW) (R : BitVec 3) (r : RegOp z.size) (s : State) : Result :=
  .next ((s.setCur z.size R (s.readOp r)).writeOp r (s.cur z.size R))

/-- `EX (mem),R`: a read, then a write, then the load of the register (R202). -/
def execExMemCur (z : SizeBW) (m : MemOp) (R : BitVec 3) (s : State) : Result :=
  let l := curLoc s.rfp z.size R
  let s1 := s.preStep m
  let t := s1.memRead z.size.bytes (s.ea m)
  let s2 := ((s1.noteRead z.size.bytes (s.ea m)).dataDrawn m l).memWrite z.size.bytes (s.ea m) (s1.dataLoc m l)
  .next ((s2.writeLoc l t).postStepInto m l)

/-- `MIRR r`: the bits of a word register in reverse order (R203). -/
def execMirr (r : RegOp .w) (s : State) : Result := .next (s.writeOp r (mirror (s.readOp r)))

/-! ## Block transfer -/

/-- A pointer moved by `nb` bytes, upward or downward (R205). -/
def movePointer (up : Bool) (nb : Nat) (p : Long) : Long :=
  if up then p + BitVec.ofNat 32 nb else p - BitVec.ofNat 32 nb

/-- The destination pointer of a pair: XDE or XIX (R205). -/
def blockDst (rfp : BitVec 2) : BlockPair → GReg
  | .deHl => .bank (rfp ++ bankRegCode .xde)
  | .ixIy => .xix

/-- The source pointer of a pair: XHL or XIY (R205). -/
def blockSrc (rfp : BitVec 2) : BlockPair → GReg
  | .deHl => .bank (rfp ++ bankRegCode .xhl)
  | .ixIy => .xiy

/-- BC of the current bank, the counter (R205). -/
def State.bc (s : State) : Word := s.readLoc (bcLoc s.rfp)

/-- `BC <- BC - 1` modulo 2^16; the upper half of XBC is not touched (R205). -/
def State.countDown (s : State) : State := s.writeLoc (bcLoc s.rfp) (s.bc - 1)

/-- One item of a block transfer: `t <- MemRead(S, nb); MemWrite(D, nb, t)`, both pointers move, BC counts down (R206 to
R209). -/
def State.blockItem (s : State) (z : SizeBW) (p : BlockPair) (up : Bool) : State :=
  let d := s.reg (blockDst s.rfp p)
  let a := s.reg (blockSrc s.rfp p)
  let s1 := (s.noteRead z.size.bytes a).memWrite z.size.bytes d (s.memRead z.size.bytes a)
  let s2 := s1.setReg (blockDst s.rfp p) (movePointer up z.size.bytes d)
  (s2.setReg (blockSrc s.rfp p) (movePointer up z.size.bytes a)).countDown

/-- The flags of LDI, LDD, LDIR, LDDR: H 0, N 0, V as given, S Z C unchanged (R206, R207). -/
def transferFlags (f : Flags) (v : Bool) : Flags := { f with h := false, v := v, n := false }

/-- LDI and LDD: one item, V telling whether BC is not 0 (R206, R208). -/
def State.blockOnce (s : State) (z : SizeBW) (p : BlockPair) (up : Bool) : State :=
  let s1 := s.blockItem z p up
  { s1 with flags := transferFlags s1.flags (s1.bc != 0) }

/-- How many items a repeat instruction has to do: BC, 0 standing for 65536 (R207). -/
def State.itemCount (s : State) : Nat := if s.bc = 0 then 65536 else s.bc.toNat

/-- The flags H, V and N when an interrupt is accepted between two items are any value (R215, U23). -/
def State.freeBlockFlags (s : State) : State :=
  { s.drawn with
    flags := { s.flags with
      h := s.freeBit
      v := (s.freeBits 2).getLsbD 1
      n := (s.freeBits 3).getLsbD 2 } }

/-- Interrupt entry between two items of LDIR or LDDR, an instruction of 2 bytes whose end is at PC: the PC saved is
`BLOCK_INT_RESUME_PC` (R215, R457). -/
def State.enterFromBlock (s : State) (level : IrqLevel) (entry : BitVec 6) : State :=
  s.freeBlockFlags.enterInterrupt (Config.blockIntResumePc (s.pc - 2) s.pc) level entry

/-- LDIR and LDDR, an instruction of 2 bytes whose end is at PC, with `k` items left to do. After each item but the last
the host is sampled (R207, R215, R456): nothing or a request that is not accepted lets the loop go on, an accepted
request enters the interrupt with PC saved as `BLOCK_INT_RESUME_PC`, and reset resets, at the sampling point or in the
middle of what follows it. -/
def blockRepeat (z : SizeBW) (p : BlockPair) (up : Bool) : Nat → State → State
  | 0, s => { s with flags := transferFlags s.flags false }
  | 1, s =>
    let s1 := s.blockItem z p up
    { s1 with flags := transferFlags s1.flags false }
  | k + 2, s =>
    let s1 := s.blockItem z p up
    match s1.host with
    | [] => blockRepeat z p up (k + 1) s1
    | .idle :: rest => blockRepeat z p up (k + 1) { s1 with host := rest }
    | .reset :: rest => { s1 with host := rest }.resetEvent
    | .irq level entry :: rest =>
      if s1.accepts level then { s1 with host := rest }.enterFromBlock level entry
      else blockRepeat z p up (k + 1) { s1 with host := rest }
    | .resetWithin (some (level, entry)) :: rest =>
      let s2 := { s1 with host := [], trail := some [] }
      { (if s1.accepts level then s2.enterFromBlock level entry
         else blockRepeat z p up (k + 1) s2).resetWithin with host := rest }
    | .resetWithin none :: rest =>
      { (blockRepeat z p up (k + 1) { s1 with host := [], trail := some [] }).resetWithin with host := rest }

/-- `LDI` (R206). -/
def execLdi (z : SizeBW) (p : BlockPair) (s : State) : Result := .next (s.blockOnce z p true)

/-- `LDIR` (R207). -/
def execLdir (z : SizeBW) (p : BlockPair) (s : State) : Result := .next (blockRepeat z p true s.itemCount s)

/-- `LDD` (R208). -/
def execLdd (z : SizeBW) (p : BlockPair) (s : State) : Result := .next (s.blockOnce z p false)

/-- `LDDR` (R209). -/
def execLddr (z : SizeBW) (p : BlockPair) (s : State) : Result := .next (blockRepeat z p false s.itemCount s)

/-! ## Block compare -/

/-- `src1` of the block compares: A or WA of the current bank, by the size (R210). -/
def compareLoc (rfp : BitVec 2) (z : SizeBW) : Loc z.size :=
  match z with
  | .b => curLoc rfp .b 1
  | .w => curLoc rfp .w 0

/-- One item of a block compare: the flags of `src1 - (R)`, R moves, BC counts down (R211). -/
def State.compareItem (s : State) (z : SizeBW) (R : BitVec 3) (up : Bool) : State :=
  let g := curLong s.rfp R
  let src1 := s.readLoc (compareLoc s.rfp z)
  let t := s.memRead z.size.bytes (s.reg g)
  let s1 := ((s.noteRead z.size.bytes (s.reg g)).setReg g (movePointer up z.size.bytes (s.reg g))).countDown
  { s1 with flags := compareFlags src1 t (s1.bc != 0) s1.flags }

/-- Whether CPIR or CPDR is done after an item: the difference was 0 (Z) or BC is 0 (not V) (R212, R214). -/
def State.compareDone (s : State) : Bool := s.flags.z || !s.flags.v

/-- CPIR and CPDR with at most `k` items: until the difference is 0 (Z) or BC is 0 (not V) (R212, R214). -/
def compareRepeat (z : SizeBW) (R : BitVec 3) (up : Bool) : Nat → State → State
  | 0, s => s
  | k + 1, s =>
    let s1 := s.compareItem z R up
    if s1.compareDone then s1 else compareRepeat z R up k s1

/-- CPIR and CPDR, instructions of 2 bytes whose end is at PC (R212, R214): at most 65536 items in one step. With any
pointer but XBC the loop ends within them, because BC counts down. XBC holds the counter as well, and there the rule's
own steps (`R <- R + nb; BC <- BC - 1`) can go on for ever: a step that has not ended leaves the instruction under way,
with PC at it, and the next step goes on (assumption 7). -/
def State.compareLoop (s : State) (z : SizeBW) (R : BitVec 3) (up : Bool) : State :=
  let t := compareRepeat z R up 65536 s
  if t.compareDone then t else { t with pc := t.pc - 2, comparing := true }

/-- `CPI` (R211). -/
def execCpi (z : SizeBW) (R : BitVec 3) (s : State) : Result := .next (s.compareItem z R true)

/-- `CPIR` (R212). -/
def execCpir (z : SizeBW) (R : BitVec 3) (s : State) : Result := .next (s.compareLoop z R true)

/-- `CPD` (R213). -/
def execCpd (z : SizeBW) (R : BitVec 3) (s : State) : Result := .next (s.compareItem z R false)

/-- `CPDR` (R214). -/
def execCpdr (z : SizeBW) (R : BitVec 3) (s : State) : Result := .next (s.compareLoop z R false)

end Sys2Proof.Machine
end

