-- ==== Sys2Proof/Machine/Jump.lean ====
section
/-! DEFINITION. Jump, call and return: JP, JR, JRL, DJNZ, CALL, CALR, RET, RETD, RETI (spec/46_jump_call.md). PC is
`pc_next` when a meaning runs (R101), so that a relative target is PC plus the displacement (R125) and a false condition
leaves PC as it is. -/

namespace Sys2Proof.Machine

/-- A call: the address of the next instruction is pushed and PC loaded (R430). -/
def State.callTo (s : State) (target : Long) : State := { s.push 4 s.pc with pc := target }

/-- A return: PC is popped (R435). -/
def State.returnPc (s : State) : State := { s.popped 4 with pc := s.stackTop 4 }

/-- `JP #16` (R420). -/
def execJp16 (a : Word) (s : State) : Result := .next { s with pc := a.setWidth 32 }

/-- `JP #24` (R421). -/
def execJp24 (a : Addr) (s : State) : Result := .next { s with pc := a.setWidth 32 }

/-- `JP [cc,]mem`: the target is the effective address itself; a false condition does nothing (R422). -/
def execJpMem (cc : Cond) (m : MemOp) (s : State) : Result :=
  .next (if condHolds cc s.flags then { s.addrStep m with pc := s.ea m } else s)

/-- `JR [cc,]$+2+d8` (R423). -/
def execJr (cc : Cond) (d : Byte) (s : State) : Result :=
  .next (if condHolds cc s.flags then { s with pc := s.pc + d.signExtend 32 } else s)

/-- `JRL [cc,]$+3+d16` (R424). -/
def execJrl (cc : Cond) (d : Word) (s : State) : Result :=
  .next (if condHolds cc s.flags then { s with pc := s.pc + d.signExtend 32 } else s)

/-- `DJNZ [r,]$+3/4+d8`: r goes down by 1, and the jump is taken when it is not 0 (R425). -/
def execDjnz (z : SizeBW) (r : RegOp z.size) (d : Byte) (s : State) : Result :=
  let v := s.readOp r - 1
  let s1 := s.writeOp r v
  .next (if v = 0 then s1 else { s1 with pc := s1.pc + d.signExtend 32 })

/-- `CALL #16` (R430). -/
def execCall16 (a : Word) (s : State) : Result := .next (s.callTo (a.setWidth 32))

/-- `CALL #24` (R431). -/
def execCall24 (a : Addr) (s : State) : Result := .next (s.callTo (a.setWidth 32))

/-- `CALL [cc,]mem`: the address is computed before XSP moves, and nothing is pushed when the condition is false
(R432). -/
def execCallMem (cc : Cond) (m : MemOp) (s : State) : Result :=
  .next (if condHolds cc s.flags then { s.callPush m with pc := s.ea m } else s)

/-- `CALR $+3+d16` (R433). -/
def execCalr (d : Word) (s : State) : Result := .next (s.callTo (s.pc + d.signExtend 32))

/-- `RET` (R435). -/
def execRet (s : State) : Result := .next s.returnPc

/-- `RET cc` (R436). -/
def execRetCc (cc : Cond) (s : State) : Result := .next (if condHolds cc s.flags then s.returnPc else s)

/-- `RETD d16`: RET, then `XSP <- XSP + d16` (R437). -/
def execRetd (d : Word) (s : State) : Result :=
  .next { s.returnPc with xsp := s.returnPc.xsp + d.signExtend 32 }

/-- `RETI` (R440). -/
def execReti (s : State) : Result := .next s.returnFromException

end Sys2Proof.Machine
end

