-- ==== Sys2Proof/Machine/Load.lean ====
section
/-! DEFINITION. The load instructions: LD, PUSH, POP, LDA, LDAR (spec/40_load.md). PC is already the address of the next
instruction when a meaning runs (R101). No flag changes but by POP F (R160). -/

namespace Sys2Proof.Machine

/-! ## Shared operations -/

/-- `R <- #` for a current register (R164). -/
def State.ldCurImm (s : State) (sz : Size) (R : BitVec 3) (imm : BitVec sz.bits) : State := s.setCur sz R imm

/-- `MemWrite(EA, nb, v)` with the register steps of the mode, for a value that is no register operand (R169, R171). -/
def State.storeVal (s : State) (nb : Nat) (m : MemOp) (v : BitVec (8 * nb)) : State :=
  ((s.preStep m).memWrite nb (s.ea m) v).postStep m

/-- `LD (mem),R` (R167). -/
def State.storeCur (s : State) (sz : Size) (m : MemOp) (R : BitVec 3) : State :=
  let l := curLoc s.rfp sz R
  let s1 := s.preStep m
  ((s1.dataDrawn m l).memWrite sz.bytes (s.ea m) (s1.dataLoc m l)).postStep m

/-- `LD R,(mem)` (R166). -/
def State.loadCur (s : State) (sz : Size) (R : BitVec 3) (m : MemOp) : State :=
  let l := curLoc s.rfp sz R
  let s1 := s.preStep m
  ((s1.noteRead sz.bytes (s.ea m)).writeLoc l (s1.memRead sz.bytes (s.ea m))).postStepInto m l

/-- `LDA R,mem`: the effective address, cut to the register, is loaded without any memory access (R185). -/
def State.ldaCur (s : State) (sz : Size) (R : BitVec 3) (m : MemOp) : State :=
  let l := curLoc s.rfp sz R
  ((s.addrStep m).writeLoc l ((s.ea m).setWidth sz.bits)).addrStepInto m l

/-- `LDAR R,$+4+d16`, an instruction of 5 bytes that starts at `$` (R186). -/
def State.ldarCur (s : State) (sz : Size) (R : BitVec 3) (d : Word) : State :=
  let start := s.pc - 5
  s.setCur sz R ((start + 4 + d.signExtend 32).setWidth sz.bits)

/-! ## LD -/

/-- `LD R,r`: `R <- r` (R161). -/
def execLdCurReg (sz : Size) (R : BitVec 3) (r : RegOp sz) (s : State) : Result := .next (s.setCur sz R (s.readOp r))

/-- `LD r,R`: `r <- R` (R162). -/
def execLdRegCur (sz : Size) (r : RegOp sz) (R : BitVec 3) (s : State) : Result := .next (s.writeOp r (s.cur sz R))

/-- `LD r,#3`: the value 0 to 7, zero-extended (R163). -/
def execLdRegImm3 (sz : Size) (r : RegOp sz) (imm : BitVec 3) (s : State) : Result :=
  .next (s.writeOp r (imm.setWidth sz.bits))

/-- `LD R,#`, byte (R164). -/
def execLdCurImmB (R : BitVec 3) (imm : Byte) (s : State) : Result := .next (s.ldCurImm .b R imm)

/-- `LD R,#`, word (R164). -/
def execLdCurImmW (R : BitVec 3) (imm : Word) (s : State) : Result := .next (s.ldCurImm .w R imm)

/-- `LD R,#`, long (R164). -/
def execLdCurImmL (R : BitVec 3) (imm : Long) (s : State) : Result := .next (s.ldCurImm .l R imm)

/-- `LD r,#` (R165). -/
def execLdRegImm (sz : Size) (r : RegOp sz) (imm : BitVec sz.bits) (s : State) : Result := .next (s.writeOp r imm)

/-- `LD R,(mem)` (R166). -/
def execLdCurMem (sz : Size) (R : BitVec 3) (m : MemOp) (s : State) : Result := .next (s.loadCur sz R m)

/-- `LD (mem),R`, byte (R167). -/
def execLdMemCurB (m : MemOp) (R : BitVec 3) (s : State) : Result := .next (s.storeCur .b m R)

/-- `LD (mem),R`, word (R167). -/
def execLdMemCurW (m : MemOp) (R : BitVec 3) (s : State) : Result := .next (s.storeCur .w m R)

/-- `LD (mem),R`, long (R167). -/
def execLdMemCurL (m : MemOp) (R : BitVec 3) (s : State) : Result := .next (s.storeCur .l m R)

/-- `LD (#8),#` (R168). -/
def execLdAbs8ImmB (a : Byte) (imm : Byte) (s : State) : Result := .next (s.memWrite 1 (a.setWidth 32) imm)

/-- `LDW (#8),#` (R168). -/
def execLdAbs8ImmW (a : Byte) (imm : Word) (s : State) : Result := .next (s.memWrite 2 (a.setWidth 32) imm)

/-- `LD (mem),#` (R169). -/
def execLdMemImmB (m : MemOp) (imm : Byte) (s : State) : Result := .next (s.storeVal 1 m imm)

/-- `LDW (mem),#` (R169). -/
def execLdMemImmW (m : MemOp) (imm : Word) (s : State) : Result := .next (s.storeVal 2 m imm)

/-- `LD<W> (#16),(mem)`: read at EA, write at the zero-extended #16 (R170). -/
def execLdAbs16Mem (z : SizeBW) (a : Word) (m : MemOp) (s : State) : Result :=
  let s1 := s.preStep m
  let s2 := s1.noteRead z.size.bytes (s.ea m)
  .next ((s2.memWrite z.size.bytes (a.setWidth 32) (s1.memRead z.size.bytes (s.ea m))).postStep m)

/-- `LD (mem),(#16)`: read at the zero-extended #16, write at EA (R171). -/
def execLdMemAbs16B (m : MemOp) (a : Word) (s : State) : Result :=
  .next ((s.noteRead 1 (a.setWidth 32)).storeVal 1 m (s.memRead 1 (a.setWidth 32)))

/-- `LDW (mem),(#16)` (R171). -/
def execLdMemAbs16W (m : MemOp) (a : Word) (s : State) : Result :=
  .next ((s.noteRead 2 (a.setWidth 32)).storeVal 2 m (s.memRead 2 (a.setWidth 32)))

/-! ## PUSH and POP -/

/-- `PUSH F` (R173). -/
def execPushF (s : State) : Result := .next (s.push 1 s.flags.toByte)

/-- `PUSH A` (R174). -/
def execPushA (s : State) : Result := .next (s.push 1 s.a)

/-- `PUSH R`, word (R175). -/
def execPushCurW (R : BitVec 3) (s : State) : Result := .next (s.pushLoc (curLoc s.rfp .w R))

/-- `PUSH R`, long (R175). -/
def execPushCurL (R : BitVec 3) (s : State) : Result := .next (s.pushLoc (curLoc s.rfp .l R))

/-- `PUSH r` (R176). -/
def execPushReg (sz : Size) (r : RegOp sz) (s : State) : Result := .next (s.pushLoc (opLoc s.rfp r))

/-- `PUSH #` (R177). -/
def execPushImmB (imm : Byte) (s : State) : Result := .next (s.push 1 imm)

/-- `PUSHW #` (R177). -/
def execPushImmW (imm : Word) (s : State) : Result := .next (s.push 2 imm)

/-- `PUSH<W> (mem)` (R179). -/
def execPushMem (z : SizeBW) (m : MemOp) (s : State) : Result := .next (s.pushMemOp z m)

/-- `POP F`: all six flags are loaded (R180). -/
def execPopF (s : State) : Result := .next { s.popped 1 with flags := Flags.ofByte (s.stackTop 1) }

/-- `POP A` (R181). -/
def execPopA (s : State) : Result := .next ((s.popped 1).writeLoc (aLoc s.rfp) (s.stackTop 1))

/-- `POP R`, word (R182). -/
def execPopCurW (R : BitVec 3) (s : State) : Result := .next (s.popLoc (curLoc s.rfp .w R))

/-- `POP R`, long (R182). -/
def execPopCurL (R : BitVec 3) (s : State) : Result := .next (s.popLoc (curLoc s.rfp .l R))

/-- `POP r` (R183). -/
def execPopReg (sz : Size) (r : RegOp sz) (s : State) : Result := .next (s.popLoc (opLoc s.rfp r))

/-- `POP (mem)` (R184). -/
def execPopMemB (m : MemOp) (s : State) : Result := .next (s.popMemOp .b m)

/-- `POPW (mem)` (R184). -/
def execPopMemW (m : MemOp) (s : State) : Result := .next (s.popMemOp .w m)

/-! ## LDA and LDAR -/

/-- `LDA R,mem`, word (R185). -/
def execLdaW (R : BitVec 3) (m : MemOp) (s : State) : Result := .next (s.ldaCur .w R m)

/-- `LDA R,mem`, long (R185). -/
def execLdaL (R : BitVec 3) (m : MemOp) (s : State) : Result := .next (s.ldaCur .l R m)

/-- `LDAR R,$+4+d16`, word (R186). -/
def execLdarW (R : BitVec 3) (d : Word) (s : State) : Result := .next (s.ldarCur .w R d)

/-- `LDAR R,$+4+d16`, long (R186). -/
def execLdarL (R : BitVec 3) (d : Word) (s : State) : Result := .next (s.ldarCur .l R d)

end Sys2Proof.Machine
end

