-- ==== Sys2Proof/Machine/Logic.lean ====
section
/-! DEFINITION. The logical and bit instructions: AND, OR, XOR, CPL, LDCF, STCF, ANDCF, ORCF, XORCF, RCF, SCF, CCF, ZCF,
BIT, RES, SET, CHG, TSET, BS1F, BS1B (spec/43_logical_bit.md). -/

namespace Sys2Proof.Machine

/-! ## AND, OR, XOR, CPL -/

/-- `AND R,r` (R301). -/
def execAndCurReg (sz : Size) (R : BitVec 3) (r : RegOp sz) (s : State) : Result := .next (s.aluCurReg .and sz R r)

/-- `AND r,#` (R301). -/
def execAndRegImm (sz : Size) (r : RegOp sz) (imm : BitVec sz.bits) (s : State) : Result :=
  .next (s.aluRegImm .and sz r imm)

/-- `AND R,(mem)` (R301). -/
def execAndCurMem (sz : Size) (R : BitVec 3) (m : MemOp) (s : State) : Result := .next (s.aluCurMem .and sz R m)

/-- `AND (mem),R` (R301). -/
def execAndMemCur (sz : Size) (m : MemOp) (R : BitVec 3) (s : State) : Result := .next (s.aluMemCur .and sz m R)

/-- `AND<W> (mem),#` (R301). -/
def execAndMemImm (z : SizeBW) (m : MemOp) (imm : BitVec z.size.bits) (s : State) : Result :=
  .next (s.aluMemImm .and z m imm)

/-- `OR R,r` (R302). -/
def execOrCurReg (sz : Size) (R : BitVec 3) (r : RegOp sz) (s : State) : Result := .next (s.aluCurReg .or sz R r)

/-- `OR r,#` (R302). -/
def execOrRegImm (sz : Size) (r : RegOp sz) (imm : BitVec sz.bits) (s : State) : Result :=
  .next (s.aluRegImm .or sz r imm)

/-- `OR R,(mem)` (R302). -/
def execOrCurMem (sz : Size) (R : BitVec 3) (m : MemOp) (s : State) : Result := .next (s.aluCurMem .or sz R m)

/-- `OR (mem),R` (R302). -/
def execOrMemCur (sz : Size) (m : MemOp) (R : BitVec 3) (s : State) : Result := .next (s.aluMemCur .or sz m R)

/-- `OR<W> (mem),#` (R302). -/
def execOrMemImm (z : SizeBW) (m : MemOp) (imm : BitVec z.size.bits) (s : State) : Result :=
  .next (s.aluMemImm .or z m imm)

/-- `XOR R,r` (R303). -/
def execXorCurReg (sz : Size) (R : BitVec 3) (r : RegOp sz) (s : State) : Result := .next (s.aluCurReg .xor sz R r)

/-- `XOR r,#` (R303). -/
def execXorRegImm (sz : Size) (r : RegOp sz) (imm : BitVec sz.bits) (s : State) : Result :=
  .next (s.aluRegImm .xor sz r imm)

/-- `XOR R,(mem)` (R303). -/
def execXorCurMem (sz : Size) (R : BitVec 3) (m : MemOp) (s : State) : Result := .next (s.aluCurMem .xor sz R m)

/-- `XOR (mem),R` (R303). -/
def execXorMemCur (sz : Size) (m : MemOp) (R : BitVec 3) (s : State) : Result := .next (s.aluMemCur .xor sz m R)

/-- `XOR<W> (mem),#` (R303). -/
def execXorMemImm (z : SizeBW) (m : MemOp) (imm : BitVec z.size.bits) (s : State) : Result :=
  .next (s.aluMemImm .xor z m imm)

/-- `CPL r`: ones' complement; H 1, N 1 (R304). -/
def execCpl (z : SizeBW) (r : RegOp z.size) (s : State) : Result :=
  .next { s.writeOp r (~~~(s.readOp r)) with flags := { s.flags with h := true, n := true } }

/-! ## Carry-flag bit operations -/

/-- The carry-flag operations that read a bit (R311, R313 to R315). -/
inductive CarryOp
  | ldcf | andcf | orcf | xorcf
deriving DecidableEq, Repr

/-- The carry after, from the carry before and the bit. -/
def carryResult (op : CarryOp) (c bit : Bool) : Bool :=
  match op with
  | .ldcf => bit
  | .andcf => c && bit
  | .orcf => c || bit
  | .xorcf => c ^^ bit

/-- The bit number of the A forms: the lower 4 bits of A (R310). -/
def bitNumber (a : Byte) : Nat := a.toNat % 16

/-- C from bit `k` of an operand; when `k` is 8 to 15 and the operand a byte, C is undefined (R310). -/
def State.carryBit {n : Nat} (s : State) (op : CarryOp) (v : BitVec n) (k : Nat) : State :=
  if k < n then { s with flags := { s.flags with c := carryResult op s.flags.c (v.getLsbD k) } }
  else { s.drawn with flags := { s.flags with c := s.freeBit } }

/-- The form `A,(mem)`: the byte is read once and not written (R311). -/
def State.carryBitMemA (s : State) (op : CarryOp) (m : MemOp) : State :=
  let s1 := s.preStep m
  let k := bitNumber (s1.dataLoc m (aLoc s.rfp))
  let s2 := (s1.noteRead 1 (s.ea m)).dataDrawn m (aLoc s.rfp)
  (s2.carryBit op (s1.memRead 1 (s.ea m)) k).postStep m

/-- The form `#3,(mem)`. -/
def State.carryBitMem (s : State) (op : CarryOp) (num : BitVec 3) (m : MemOp) : State :=
  let s1 := s.preStep m
  ((s1.noteRead 1 (s.ea m)).carryBit op (s1.memRead 1 (s.ea m)) num.toNat).postStep m

/-- `LDCF #4,r` (R311). -/
def execLdcfImmReg (z : SizeBW) (r : RegOp z.size) (num : BitVec 4) (s : State) : Result :=
  .next (s.carryBit .ldcf (s.readOp r) num.toNat)

/-- `LDCF A,r` (R311). -/
def execLdcfAReg (z : SizeBW) (r : RegOp z.size) (s : State) : Result :=
  .next (s.carryBit .ldcf (s.readOp r) (bitNumber s.a))

/-- `LDCF A,(mem)` (R311). -/
def execLdcfAMem (m : MemOp) (s : State) : Result := .next (s.carryBitMemA .ldcf m)

/-- `LDCF #3,(mem)` (R311). -/
def execLdcfImmMem (num : BitVec 3) (m : MemOp) (s : State) : Result := .next (s.carryBitMem .ldcf num m)

/-- `STCF #4,r` (R312): nothing changes when the bit number is no bit of the operand. -/
def execStcfImmReg (z : SizeBW) (r : RegOp z.size) (num : BitVec 4) (s : State) : Result :=
  .next (s.writeOp r (putBit (s.readOp r) num.toNat s.flags.c))

/-- `STCF A,r` (R312). -/
def execStcfAReg (z : SizeBW) (r : RegOp z.size) (s : State) : Result :=
  .next (s.writeOp r (putBit (s.readOp r) (bitNumber s.a) s.flags.c))

/-- `STCF A,(mem)` (R312): a read of the byte followed by a write of the byte. -/
def execStcfAMem (m : MemOp) (s : State) : Result :=
  let s1 := s.preStep m
  let k := bitNumber (s1.dataLoc m (aLoc s.rfp))
  let s2 := (s1.noteRead 1 (s.ea m)).dataDrawn m (aLoc s.rfp)
  .next ((s2.memWrite 1 (s.ea m) (putBit (s1.memRead 1 (s.ea m)) k s.flags.c)).postStep m)

/-- `STCF #3,(mem)` (R312). -/
def execStcfImmMem (num : BitVec 3) (m : MemOp) (s : State) : Result :=
  let s1 := s.preStep m
  let s2 := s1.noteRead 1 (s.ea m)
  .next ((s2.memWrite 1 (s.ea m) (putBit (s1.memRead 1 (s.ea m)) num.toNat s.flags.c)).postStep m)

/-- `ANDCF #4,r` (R313). -/
def execAndcfImmReg (z : SizeBW) (r : RegOp z.size) (num : BitVec 4) (s : State) : Result :=
  .next (s.carryBit .andcf (s.readOp r) num.toNat)

/-- `ANDCF A,r` (R313). -/
def execAndcfAReg (z : SizeBW) (r : RegOp z.size) (s : State) : Result :=
  .next (s.carryBit .andcf (s.readOp r) (bitNumber s.a))

/-- `ANDCF A,(mem)` (R313). -/
def execAndcfAMem (m : MemOp) (s : State) : Result := .next (s.carryBitMemA .andcf m)

/-- `ANDCF #3,(mem)` (R313). -/
def execAndcfImmMem (num : BitVec 3) (m : MemOp) (s : State) : Result := .next (s.carryBitMem .andcf num m)

/-- `ORCF #4,r` (R314). -/
def execOrcfImmReg (z : SizeBW) (r : RegOp z.size) (num : BitVec 4) (s : State) : Result :=
  .next (s.carryBit .orcf (s.readOp r) num.toNat)

/-- `ORCF A,r` (R314). -/
def execOrcfAReg (z : SizeBW) (r : RegOp z.size) (s : State) : Result :=
  .next (s.carryBit .orcf (s.readOp r) (bitNumber s.a))

/-- `ORCF A,(mem)` (R314). -/
def execOrcfAMem (m : MemOp) (s : State) : Result := .next (s.carryBitMemA .orcf m)

/-- `ORCF #3,(mem)` (R314). -/
def execOrcfImmMem (num : BitVec 3) (m : MemOp) (s : State) : Result := .next (s.carryBitMem .orcf num m)

/-- `XORCF #4,r` (R315). -/
def execXorcfImmReg (z : SizeBW) (r : RegOp z.size) (num : BitVec 4) (s : State) : Result :=
  .next (s.carryBit .xorcf (s.readOp r) num.toNat)

/-- `XORCF A,r` (R315). -/
def execXorcfAReg (z : SizeBW) (r : RegOp z.size) (s : State) : Result :=
  .next (s.carryBit .xorcf (s.readOp r) (bitNumber s.a))

/-- `XORCF A,(mem)` (R315). -/
def execXorcfAMem (m : MemOp) (s : State) : Result := .next (s.carryBitMemA .xorcf m)

/-- `XORCF #3,(mem)` (R315). -/
def execXorcfImmMem (num : BitVec 3) (m : MemOp) (s : State) : Result := .next (s.carryBitMem .xorcf num m)

/-- `RCF` (R320). -/
def execRcf (s : State) : Result := .next { s with flags := { s.flags with h := false, n := false, c := false } }

/-- `SCF` (R321). -/
def execScf (s : State) : Result := .next { s with flags := { s.flags with h := false, n := false, c := true } }

/-- `CCF`: H is undefined (R322). -/
def execCcf (s : State) : Result :=
  .next { s.drawn with flags := { s.flags with h := s.freeBit, n := false, c := !s.flags.c } }

/-- `ZCF`: H is undefined (R323). -/
def execZcf (s : State) : Result :=
  .next { s.drawn with flags := { s.flags with h := s.freeBit, n := false, c := !s.flags.z } }

/-! ## Bit test and modify -/

/-- RES, SET, CHG, TSET (R331 to R334). -/
inductive BitOp
  | res | set | chg | tset
deriving DecidableEq, Repr

/-- The bit after, from the bit before. -/
def bitResult (op : BitOp) (bit : Bool) : Bool :=
  match op with
  | .res => false
  | .set => true
  | .chg => !bit
  | .tset => true

/-- The flags after: RES, SET and CHG change none; TSET those of BIT, with S and V undefined (R334). -/
def State.bitModFlags (s : State) (op : BitOp) (bit : Bool) : State :=
  match op with
  | .res => s
  | .set => s
  | .chg => s
  | .tset => { s.drawn with flags := bitFlags bit s.freeBit ((s.freeBits 2).getLsbD 1) s.flags }

/-- The register form. Bit numbers 8 to 15 of a byte register have no stated effect (R335): the register, and the bit
that TSET tests, are then free values (D22, assumption 8). -/
def State.bitModReg (s : State) (op : BitOp) (z : SizeBW) (r : RegOp z.size) (num : BitVec 4) : State :=
  let v := s.readOp r
  if num.toNat < z.size.bits then
    (s.writeOp r (putBit v num.toNat (bitResult op (v.getLsbD num.toNat)))).bitModFlags op (v.getLsbD num.toNat)
  else ((s.writeOp r (s.freeBits z.size.bits)).drawn.bitModFlags op (s.drawn.freeBits 3 |>.getLsbD 2))

/-- The memory form: a read of the byte, then a write of the byte (R331, R334). -/
def State.bitModMem (s : State) (op : BitOp) (num : BitVec 3) (m : MemOp) : State :=
  let s1 := s.preStep m
  let v := s1.memRead 1 (s.ea m)
  let s2 := (s1.noteRead 1 (s.ea m)).memWrite 1 (s.ea m) (putBit v num.toNat (bitResult op (v.getLsbD num.toNat)))
  (s2.bitModFlags op (v.getLsbD num.toNat)).postStep m

/-- BIT on a bit (R330). -/
def State.testBit (s : State) (bit : Bool) : State :=
  { s.drawn with flags := bitFlags bit s.freeBit ((s.freeBits 2).getLsbD 1) s.flags }

/-- `BIT #4,r` (R330). Bit numbers 8 to 15 of a byte register have no stated effect (R335): the bit tested is then a
free value (D22, assumption 8). -/
def execBitReg (z : SizeBW) (r : RegOp z.size) (num : BitVec 4) (s : State) : Result :=
  .next (s.testBit (if num.toNat < z.size.bits then (s.readOp r).getLsbD num.toNat else (s.freeBits 3).getLsbD 2))

/-- `BIT #3,(mem)` (R330). -/
def execBitMem (num : BitVec 3) (m : MemOp) (s : State) : Result :=
  let s1 := s.preStep m
  .next (((s1.noteRead 1 (s.ea m)).testBit ((s1.memRead 1 (s.ea m)).getLsbD num.toNat)).postStep m)

/-- `RES #4,r` (R331). -/
def execResReg (z : SizeBW) (r : RegOp z.size) (num : BitVec 4) (s : State) : Result := .next (s.bitModReg .res z r num)

/-- `RES #3,(mem)` (R331). -/
def execResMem (num : BitVec 3) (m : MemOp) (s : State) : Result := .next (s.bitModMem .res num m)

/-- `SET #4,r` (R332). -/
def execSetReg (z : SizeBW) (r : RegOp z.size) (num : BitVec 4) (s : State) : Result := .next (s.bitModReg .set z r num)

/-- `SET #3,(mem)` (R332). -/
def execSetMem (num : BitVec 3) (m : MemOp) (s : State) : Result := .next (s.bitModMem .set num m)

/-- `CHG #4,r` (R333). -/
def execChgReg (z : SizeBW) (r : RegOp z.size) (num : BitVec 4) (s : State) : Result := .next (s.bitModReg .chg z r num)

/-- `CHG #3,(mem)` (R333). -/
def execChgMem (num : BitVec 3) (m : MemOp) (s : State) : Result := .next (s.bitModMem .chg num m)

/-- `TSET #4,r` (R334). -/
def execTsetReg (z : SizeBW) (r : RegOp z.size) (num : BitVec 4) (s : State) : Result := .next (s.bitModReg .tset z r num)

/-- `TSET #3,(mem)` (R334). -/
def execTsetMem (num : BitVec 3) (m : MemOp) (s : State) : Result := .next (s.bitModMem .tset num m)

/-! ## Bit search -/

/-- The end of BS1F and BS1B: A is the bit number and V 0, or V 1 and A undefined when no bit is set (R340, R341). -/
def State.bitFound (s : State) (found : Option Nat) : State :=
  match found with
  | some i => { s.writeLoc (aLoc s.rfp) (BitVec.ofNat 8 i) with flags := { s.flags with v := false } }
  | none => { (s.writeLoc (aLoc s.rfp) (s.freeBits 8)).drawn with flags := { s.flags with v := true } }

/-- `BS1F A,r` (R340). -/
def execBs1f (r : RegOp .w) (s : State) : Result := .next (s.bitFound (lowestBit (s.readOp r)))

/-- `BS1B A,r` (R341). -/
def execBs1b (r : RegOp .w) (s : State) : Result := .next (s.bitFound (highestBit (s.readOp r)))

end Sys2Proof.Machine
end

