-- ==== Sys2Proof/Machine/Shift.lean ====
section
/-! DEFINITION. The rotate and shift instructions: RLC, RRC, RL, RR, SLA, SRA, SLL, SRL, RLD, RRD
(spec/45_rotate_shift.md). -/

namespace Sys2Proof.Machine

/-- A rotate or shift of a register by the count of a 4-bit field, 0 meaning 16 (R391); V is undefined for a long
register (R392). -/
def State.shiftReg (s : State) (op : ShiftOp) (sz : Size) (r : RegOp sz) (num : BitVec 4) : State :=
  let out := shiftSteps op (count16 num) (s.readOp r, s.flags.c)
  { (s.drawnLong sz).writeOp r out.1 with flags := shiftFlags out.1 out.2 s.freeBit }

/-- A rotate or shift of memory: one step (R391, R392). -/
def State.shiftMem (s : State) (op : ShiftOp) (z : SizeBW) (m : MemOp) : State :=
  let s1 := s.preStep m
  let out := shiftStep op (s1.memRead z.size.bytes (s.ea m), s.flags.c)
  let s2 := { s1.noteRead z.size.bytes (s.ea m) with flags := shiftFlags out.1 out.2 s1.freeBit }
  (s2.memWrite z.size.bytes (s.ea m) out.1).postStep m

/-- `RLC #4,r` (R393). -/
def execRlcImmReg (sz : Size) (r : RegOp sz) (num : BitVec 4) (s : State) : Result :=
  .next (s.shiftReg .rlc sz r num)

/-- `RLC A,r` (R393). -/
def execRlcAReg (sz : Size) (r : RegOp sz) (s : State) : Result := .next (s.shiftReg .rlc sz r (s.a.setWidth 4))

/-- `RLC<W> (mem)` (R393). -/
def execRlcMem (z : SizeBW) (m : MemOp) (s : State) : Result := .next (s.shiftMem .rlc z m)

/-- `RRC #4,r` (R394). -/
def execRrcImmReg (sz : Size) (r : RegOp sz) (num : BitVec 4) (s : State) : Result :=
  .next (s.shiftReg .rrc sz r num)

/-- `RRC A,r` (R394). -/
def execRrcAReg (sz : Size) (r : RegOp sz) (s : State) : Result := .next (s.shiftReg .rrc sz r (s.a.setWidth 4))

/-- `RRC<W> (mem)` (R394). -/
def execRrcMem (z : SizeBW) (m : MemOp) (s : State) : Result := .next (s.shiftMem .rrc z m)

/-- `RL #4,r` (R395). -/
def execRlImmReg (sz : Size) (r : RegOp sz) (num : BitVec 4) (s : State) : Result :=
  .next (s.shiftReg .rl sz r num)

/-- `RL A,r` (R395). -/
def execRlAReg (sz : Size) (r : RegOp sz) (s : State) : Result := .next (s.shiftReg .rl sz r (s.a.setWidth 4))

/-- `RL<W> (mem)` (R395). -/
def execRlMem (z : SizeBW) (m : MemOp) (s : State) : Result := .next (s.shiftMem .rl z m)

/-- `RR #4,r` (R396). -/
def execRrImmReg (sz : Size) (r : RegOp sz) (num : BitVec 4) (s : State) : Result :=
  .next (s.shiftReg .rr sz r num)

/-- `RR A,r` (R396). -/
def execRrAReg (sz : Size) (r : RegOp sz) (s : State) : Result := .next (s.shiftReg .rr sz r (s.a.setWidth 4))

/-- `RR<W> (mem)` (R396). -/
def execRrMem (z : SizeBW) (m : MemOp) (s : State) : Result := .next (s.shiftMem .rr z m)

/-- `SLA #4,r` (R397). -/
def execSlaImmReg (sz : Size) (r : RegOp sz) (num : BitVec 4) (s : State) : Result :=
  .next (s.shiftReg .sla sz r num)

/-- `SLA A,r` (R397). -/
def execSlaAReg (sz : Size) (r : RegOp sz) (s : State) : Result := .next (s.shiftReg .sla sz r (s.a.setWidth 4))

/-- `SLA<W> (mem)` (R397). -/
def execSlaMem (z : SizeBW) (m : MemOp) (s : State) : Result := .next (s.shiftMem .sla z m)

/-- `SRA #4,r` (R398). -/
def execSraImmReg (sz : Size) (r : RegOp sz) (num : BitVec 4) (s : State) : Result :=
  .next (s.shiftReg .sra sz r num)

/-- `SRA A,r` (R398). -/
def execSraAReg (sz : Size) (r : RegOp sz) (s : State) : Result := .next (s.shiftReg .sra sz r (s.a.setWidth 4))

/-- `SRA<W> (mem)` (R398). -/
def execSraMem (z : SizeBW) (m : MemOp) (s : State) : Result := .next (s.shiftMem .sra z m)

/-- `SLL #4,r` (R399). -/
def execSllImmReg (sz : Size) (r : RegOp sz) (num : BitVec 4) (s : State) : Result :=
  .next (s.shiftReg .sll sz r num)

/-- `SLL A,r` (R399). -/
def execSllAReg (sz : Size) (r : RegOp sz) (s : State) : Result := .next (s.shiftReg .sll sz r (s.a.setWidth 4))

/-- `SLL<W> (mem)` (R399). -/
def execSllMem (z : SizeBW) (m : MemOp) (s : State) : Result := .next (s.shiftMem .sll z m)

/-- `SRL #4,r` (R400). -/
def execSrlImmReg (sz : Size) (r : RegOp sz) (num : BitVec 4) (s : State) : Result :=
  .next (s.shiftReg .srl sz r num)

/-- `SRL A,r` (R400). -/
def execSrlAReg (sz : Size) (r : RegOp sz) (s : State) : Result := .next (s.shiftReg .srl sz r (s.a.setWidth 4))

/-- `SRL<W> (mem)` (R400). -/
def execSrlMem (z : SizeBW) (m : MemOp) (s : State) : Result := .next (s.shiftMem .srl z m)

/-- A digit rotate: A and the memory byte after, from `a` and `m` before (R410, R411). -/
def digitRotate (left : Bool) (a m : Byte) : Byte × Byte :=
  if left then (a.extractLsb' 4 4 ++ m.extractLsb' 4 4, m.extractLsb' 0 4 ++ a.extractLsb' 0 4)
  else (a.extractLsb' 4 4 ++ m.extractLsb' 0 4, a.extractLsb' 0 4 ++ m.extractLsb' 4 4)

/-- RLD and RRD (R410, R411). -/
def State.digitRotateMem (s : State) (left : Bool) (m : MemOp) : State :=
  let l := aLoc s.rfp
  let s1 := s.preStep m
  let out := digitRotate left (s1.dataLoc m l) (s1.memRead 1 (s.ea m))
  let s2 := (s1.noteRead 1 (s.ea m)).dataDrawn m l
  let s3 := { s2.memWrite 1 (s.ea m) out.2 with flags := digitFlags out.1 s.flags }
  (s3.writeLoc l out.1).postStepInto m l

/-- `RLD [A,](mem)` (R410). -/
def execRld (m : MemOp) (s : State) : Result := .next (s.digitRotateMem true m)

/-- `RRD [A,](mem)` (R411). -/
def execRrd (m : MemOp) (s : State) : Result := .next (s.digitRotateMem false m)

end Sys2Proof.Machine
end

