-- ==== Sys2Proof/Machine/Dispatch.lean ====
section
/-! DEFINITION. The dispatch: one arm for each instruction. -/

namespace Sys2Proof.Machine

/-- The meaning of an instruction, on a state whose PC is the address of the next instruction (R101). -/
def exec (i : Instr) (s : State) : Host.Outcome State Fault Refusal :=
  match i with
  | .nop => Sys2Proof.Machine.execNop s
  | .pushSr => Sys2Proof.Machine.execPushSr s
  | .popSr => Sys2Proof.Machine.execPopSr s
  | .halt => Sys2Proof.Machine.execHalt s
  | .ei num => Sys2Proof.Machine.execEi num s
  | .di => Sys2Proof.Machine.execDi s
  | .reti => Sys2Proof.Machine.execReti s
  | .ldAbs8ImmB a imm => Sys2Proof.Machine.execLdAbs8ImmB a imm s
  | .pushImmB imm => Sys2Proof.Machine.execPushImmB imm s
  | .ldAbs8ImmW a imm => Sys2Proof.Machine.execLdAbs8ImmW a imm s
  | .pushImmW imm => Sys2Proof.Machine.execPushImmW imm s
  | .incf => Sys2Proof.Machine.execIncf s
  | .decf => Sys2Proof.Machine.execDecf s
  | .ret => Sys2Proof.Machine.execRet s
  | .retd d => Sys2Proof.Machine.execRetd d s
  | .rcf => Sys2Proof.Machine.execRcf s
  | .scf => Sys2Proof.Machine.execScf s
  | .ccf => Sys2Proof.Machine.execCcf s
  | .zcf => Sys2Proof.Machine.execZcf s
  | .pushA => Sys2Proof.Machine.execPushA s
  | .popA => Sys2Proof.Machine.execPopA s
  | .exFF => Sys2Proof.Machine.execExFF s
  | .ldf num => Sys2Proof.Machine.execLdf num s
  | .pushF => Sys2Proof.Machine.execPushF s
  | .popF => Sys2Proof.Machine.execPopF s
  | .jp16 a => Sys2Proof.Machine.execJp16 a s
  | .jp24 a => Sys2Proof.Machine.execJp24 a s
  | .call16 a => Sys2Proof.Machine.execCall16 a s
  | .call24 a => Sys2Proof.Machine.execCall24 a s
  | .calr d => Sys2Proof.Machine.execCalr d s
  | .ldCurImmB R imm => Sys2Proof.Machine.execLdCurImmB R imm s
  | .pushCurW R => Sys2Proof.Machine.execPushCurW R s
  | .ldCurImmW R imm => Sys2Proof.Machine.execLdCurImmW R imm s
  | .pushCurL R => Sys2Proof.Machine.execPushCurL R s
  | .ldCurImmL R imm => Sys2Proof.Machine.execLdCurImmL R imm s
  | .popCurW R => Sys2Proof.Machine.execPopCurW R s
  | .popCurL R => Sys2Proof.Machine.execPopCurL R s
  | .jr cc d => Sys2Proof.Machine.execJr cc d s
  | .jrl cc d => Sys2Proof.Machine.execJrl cc d s
  | .swi num => Sys2Proof.Machine.execSwi num s
  | .ldRegImm sz r imm => Sys2Proof.Machine.execLdRegImm sz r imm s
  | .pushReg sz r => Sys2Proof.Machine.execPushReg sz r s
  | .popReg sz r => Sys2Proof.Machine.execPopReg sz r s
  | .cpl z r => Sys2Proof.Machine.execCpl z r s
  | .neg z r => Sys2Proof.Machine.execNeg z r s
  | .mulImm z rr imm => Sys2Proof.Machine.execMulImm z rr imm s
  | .mulsImm z rr imm => Sys2Proof.Machine.execMulsImm z rr imm s
  | .divImm z rr imm => Sys2Proof.Machine.execDivImm z rr imm s
  | .divsImm z rr imm => Sys2Proof.Machine.execDivsImm z rr imm s
  | .link r d => Sys2Proof.Machine.execLink r d s
  | .unlk r => Sys2Proof.Machine.execUnlk r s
  | .bs1f r => Sys2Proof.Machine.execBs1f r s
  | .bs1b r => Sys2Proof.Machine.execBs1b r s
  | .daa r => Sys2Proof.Machine.execDaa r s
  | .extz z r => Sys2Proof.Machine.execExtz z r s
  | .exts z r => Sys2Proof.Machine.execExts z r s
  | .paa z r => Sys2Proof.Machine.execPaa z r s
  | .mirr r => Sys2Proof.Machine.execMirr r s
  | .mula rr => Sys2Proof.Machine.execMula rr s
  | .djnz z r d => Sys2Proof.Machine.execDjnz z r d s
  | .andcfImmReg z r num => Sys2Proof.Machine.execAndcfImmReg z r num s
  | .andcfAReg z r => Sys2Proof.Machine.execAndcfAReg z r s
  | .orcfImmReg z r num => Sys2Proof.Machine.execOrcfImmReg z r num s
  | .orcfAReg z r => Sys2Proof.Machine.execOrcfAReg z r s
  | .xorcfImmReg z r num => Sys2Proof.Machine.execXorcfImmReg z r num s
  | .xorcfAReg z r => Sys2Proof.Machine.execXorcfAReg z r s
  | .ldcfImmReg z r num => Sys2Proof.Machine.execLdcfImmReg z r num s
  | .ldcfAReg z r => Sys2Proof.Machine.execLdcfAReg z r s
  | .stcfImmReg z r num => Sys2Proof.Machine.execStcfImmReg z r num s
  | .stcfAReg z r => Sys2Proof.Machine.execStcfAReg z r s
  | .ldcToCr cr r => Sys2Proof.Machine.execLdcToCr cr r s
  | .ldcFromCr cr r => Sys2Proof.Machine.execLdcFromCr cr r s
  | .resReg z r num => Sys2Proof.Machine.execResReg z r num s
  | .setReg z r num => Sys2Proof.Machine.execSetReg z r num s
  | .chgReg z r num => Sys2Proof.Machine.execChgReg z r num s
  | .bitReg z r num => Sys2Proof.Machine.execBitReg z r num s
  | .tsetReg z r num => Sys2Proof.Machine.execTsetReg z r num s
  | .minc1 r field => Sys2Proof.Machine.execMinc1 r field s
  | .minc2 r field => Sys2Proof.Machine.execMinc2 r field s
  | .minc4 r field => Sys2Proof.Machine.execMinc4 r field s
  | .mdec1 r field => Sys2Proof.Machine.execMdec1 r field s
  | .mdec2 r field => Sys2Proof.Machine.execMdec2 r field s
  | .mdec4 r field => Sys2Proof.Machine.execMdec4 r field s
  | .mulReg z RR r => Sys2Proof.Machine.execMulReg z RR r s
  | .mulsReg z RR r => Sys2Proof.Machine.execMulsReg z RR r s
  | .divReg z RR r => Sys2Proof.Machine.execDivReg z RR r s
  | .divsReg z RR r => Sys2Proof.Machine.execDivsReg z RR r s
  | .incReg sz r num => Sys2Proof.Machine.execIncReg sz r num s
  | .decReg sz r num => Sys2Proof.Machine.execDecReg sz r num s
  | .scc z r cc => Sys2Proof.Machine.execScc z r cc s
  | .addCurReg sz R r => Sys2Proof.Machine.execAddCurReg sz R r s
  | .addRegImm sz r imm => Sys2Proof.Machine.execAddRegImm sz r imm s
  | .adcCurReg sz R r => Sys2Proof.Machine.execAdcCurReg sz R r s
  | .adcRegImm sz r imm => Sys2Proof.Machine.execAdcRegImm sz r imm s
  | .subCurReg sz R r => Sys2Proof.Machine.execSubCurReg sz R r s
  | .subRegImm sz r imm => Sys2Proof.Machine.execSubRegImm sz r imm s
  | .sbcCurReg sz R r => Sys2Proof.Machine.execSbcCurReg sz R r s
  | .sbcRegImm sz r imm => Sys2Proof.Machine.execSbcRegImm sz r imm s
  | .andCurReg sz R r => Sys2Proof.Machine.execAndCurReg sz R r s
  | .andRegImm sz r imm => Sys2Proof.Machine.execAndRegImm sz r imm s
  | .xorCurReg sz R r => Sys2Proof.Machine.execXorCurReg sz R r s
  | .xorRegImm sz r imm => Sys2Proof.Machine.execXorRegImm sz r imm s
  | .orCurReg sz R r => Sys2Proof.Machine.execOrCurReg sz R r s
  | .orRegImm sz r imm => Sys2Proof.Machine.execOrRegImm sz r imm s
  | .cpCurReg sz R r => Sys2Proof.Machine.execCpCurReg sz R r s
  | .cpRegImm sz r imm => Sys2Proof.Machine.execCpRegImm sz r imm s
  | .ldCurReg sz R r => Sys2Proof.Machine.execLdCurReg sz R r s
  | .ldRegCur sz r R => Sys2Proof.Machine.execLdRegCur sz r R s
  | .ldRegImm3 sz r imm => Sys2Proof.Machine.execLdRegImm3 sz r imm s
  | .exCurReg z R r => Sys2Proof.Machine.execExCurReg z R r s
  | .cpRegImm3 z r imm => Sys2Proof.Machine.execCpRegImm3 z r imm s
  | .rlcImmReg sz r num => Sys2Proof.Machine.execRlcImmReg sz r num s
  | .rlcAReg sz r => Sys2Proof.Machine.execRlcAReg sz r s
  | .rrcImmReg sz r num => Sys2Proof.Machine.execRrcImmReg sz r num s
  | .rrcAReg sz r => Sys2Proof.Machine.execRrcAReg sz r s
  | .rlImmReg sz r num => Sys2Proof.Machine.execRlImmReg sz r num s
  | .rlAReg sz r => Sys2Proof.Machine.execRlAReg sz r s
  | .rrImmReg sz r num => Sys2Proof.Machine.execRrImmReg sz r num s
  | .rrAReg sz r => Sys2Proof.Machine.execRrAReg sz r s
  | .slaImmReg sz r num => Sys2Proof.Machine.execSlaImmReg sz r num s
  | .slaAReg sz r => Sys2Proof.Machine.execSlaAReg sz r s
  | .sraImmReg sz r num => Sys2Proof.Machine.execSraImmReg sz r num s
  | .sraAReg sz r => Sys2Proof.Machine.execSraAReg sz r s
  | .sllImmReg sz r num => Sys2Proof.Machine.execSllImmReg sz r num s
  | .sllAReg sz r => Sys2Proof.Machine.execSllAReg sz r s
  | .srlImmReg sz r num => Sys2Proof.Machine.execSrlImmReg sz r num s
  | .srlAReg sz r => Sys2Proof.Machine.execSrlAReg sz r s
  | .pushMem z m => Sys2Proof.Machine.execPushMem z m s
  | .rld m => Sys2Proof.Machine.execRld m s
  | .rrd m => Sys2Proof.Machine.execRrd m s
  | .ldi z p => Sys2Proof.Machine.execLdi z p s
  | .ldir z p => Sys2Proof.Machine.execLdir z p s
  | .ldd z p => Sys2Proof.Machine.execLdd z p s
  | .lddr z p => Sys2Proof.Machine.execLddr z p s
  | .cpi z R => Sys2Proof.Machine.execCpi z R s
  | .cpir z R => Sys2Proof.Machine.execCpir z R s
  | .cpd z R => Sys2Proof.Machine.execCpd z R s
  | .cpdr z R => Sys2Proof.Machine.execCpdr z R s
  | .ldAbs16Mem z a m => Sys2Proof.Machine.execLdAbs16Mem z a m s
  | .ldCurMem sz R m => Sys2Proof.Machine.execLdCurMem sz R m s
  | .exMemCur z m R => Sys2Proof.Machine.execExMemCur z m R s
  | .addMemImm z m imm => Sys2Proof.Machine.execAddMemImm z m imm s
  | .addCurMem sz R m => Sys2Proof.Machine.execAddCurMem sz R m s
  | .addMemCur sz m R => Sys2Proof.Machine.execAddMemCur sz m R s
  | .adcMemImm z m imm => Sys2Proof.Machine.execAdcMemImm z m imm s
  | .adcCurMem sz R m => Sys2Proof.Machine.execAdcCurMem sz R m s
  | .adcMemCur sz m R => Sys2Proof.Machine.execAdcMemCur sz m R s
  | .subMemImm z m imm => Sys2Proof.Machine.execSubMemImm z m imm s
  | .subCurMem sz R m => Sys2Proof.Machine.execSubCurMem sz R m s
  | .subMemCur sz m R => Sys2Proof.Machine.execSubMemCur sz m R s
  | .sbcMemImm z m imm => Sys2Proof.Machine.execSbcMemImm z m imm s
  | .sbcCurMem sz R m => Sys2Proof.Machine.execSbcCurMem sz R m s
  | .sbcMemCur sz m R => Sys2Proof.Machine.execSbcMemCur sz m R s
  | .andMemImm z m imm => Sys2Proof.Machine.execAndMemImm z m imm s
  | .andCurMem sz R m => Sys2Proof.Machine.execAndCurMem sz R m s
  | .andMemCur sz m R => Sys2Proof.Machine.execAndMemCur sz m R s
  | .xorMemImm z m imm => Sys2Proof.Machine.execXorMemImm z m imm s
  | .xorCurMem sz R m => Sys2Proof.Machine.execXorCurMem sz R m s
  | .xorMemCur sz m R => Sys2Proof.Machine.execXorMemCur sz m R s
  | .orMemImm z m imm => Sys2Proof.Machine.execOrMemImm z m imm s
  | .orCurMem sz R m => Sys2Proof.Machine.execOrCurMem sz R m s
  | .orMemCur sz m R => Sys2Proof.Machine.execOrMemCur sz m R s
  | .cpMemImm z m imm => Sys2Proof.Machine.execCpMemImm z m imm s
  | .cpCurMem sz R m => Sys2Proof.Machine.execCpCurMem sz R m s
  | .cpMemCur sz m R => Sys2Proof.Machine.execCpMemCur sz m R s
  | .mulMem z RR m => Sys2Proof.Machine.execMulMem z RR m s
  | .mulsMem z RR m => Sys2Proof.Machine.execMulsMem z RR m s
  | .divMem z RR m => Sys2Proof.Machine.execDivMem z RR m s
  | .divsMem z RR m => Sys2Proof.Machine.execDivsMem z RR m s
  | .incMem z num m => Sys2Proof.Machine.execIncMem z num m s
  | .decMem z num m => Sys2Proof.Machine.execDecMem z num m s
  | .rlcMem z m => Sys2Proof.Machine.execRlcMem z m s
  | .rrcMem z m => Sys2Proof.Machine.execRrcMem z m s
  | .rlMem z m => Sys2Proof.Machine.execRlMem z m s
  | .rrMem z m => Sys2Proof.Machine.execRrMem z m s
  | .slaMem z m => Sys2Proof.Machine.execSlaMem z m s
  | .sraMem z m => Sys2Proof.Machine.execSraMem z m s
  | .sllMem z m => Sys2Proof.Machine.execSllMem z m s
  | .srlMem z m => Sys2Proof.Machine.execSrlMem z m s
  | .ldMemImmB m imm => Sys2Proof.Machine.execLdMemImmB m imm s
  | .ldMemImmW m imm => Sys2Proof.Machine.execLdMemImmW m imm s
  | .popMemB m => Sys2Proof.Machine.execPopMemB m s
  | .popMemW m => Sys2Proof.Machine.execPopMemW m s
  | .ldMemAbs16B m a => Sys2Proof.Machine.execLdMemAbs16B m a s
  | .ldMemAbs16W m a => Sys2Proof.Machine.execLdMemAbs16W m a s
  | .ldaW R m => Sys2Proof.Machine.execLdaW R m s
  | .ldaL R m => Sys2Proof.Machine.execLdaL R m s
  | .andcfAMem m => Sys2Proof.Machine.execAndcfAMem m s
  | .andcfImmMem num m => Sys2Proof.Machine.execAndcfImmMem num m s
  | .orcfAMem m => Sys2Proof.Machine.execOrcfAMem m s
  | .orcfImmMem num m => Sys2Proof.Machine.execOrcfImmMem num m s
  | .xorcfAMem m => Sys2Proof.Machine.execXorcfAMem m s
  | .xorcfImmMem num m => Sys2Proof.Machine.execXorcfImmMem num m s
  | .ldcfAMem m => Sys2Proof.Machine.execLdcfAMem m s
  | .ldcfImmMem num m => Sys2Proof.Machine.execLdcfImmMem num m s
  | .stcfAMem m => Sys2Proof.Machine.execStcfAMem m s
  | .stcfImmMem num m => Sys2Proof.Machine.execStcfImmMem num m s
  | .ldMemCurB m R => Sys2Proof.Machine.execLdMemCurB m R s
  | .ldMemCurW m R => Sys2Proof.Machine.execLdMemCurW m R s
  | .ldMemCurL m R => Sys2Proof.Machine.execLdMemCurL m R s
  | .tsetMem num m => Sys2Proof.Machine.execTsetMem num m s
  | .resMem num m => Sys2Proof.Machine.execResMem num m s
  | .setMem num m => Sys2Proof.Machine.execSetMem num m s
  | .chgMem num m => Sys2Proof.Machine.execChgMem num m s
  | .bitMem num m => Sys2Proof.Machine.execBitMem num m s
  | .jpMem cc m => Sys2Proof.Machine.execJpMem cc m s
  | .callMem cc m => Sys2Proof.Machine.execCallMem cc m s
  | .retCc cc => Sys2Proof.Machine.execRetCc cc s
  | .ldarW R d => Sys2Proof.Machine.execLdarW R d s
  | .ldarL R d => Sys2Proof.Machine.execLdarL R d s

end Sys2Proof.Machine
end

