-- ==== Sys2Proof/Machine/Cycle.lean ====
section
/-! DEFINITION. One cycle of the machine: the host is sampled, and an instruction is fetched, decoded and run, or an
interrupt is entered, or reset takes place (R101, R452, R456, R490, spec/93_implementation_defined.md). Also the placing
of an instruction where the next cycle fetches it. -/

namespace Sys2Proof.Machine

/-- The `n` bytes from an address on, as fetch reads them: only 24 bits of PC are output (R71, R72). -/
def State.fetchBytes (s : State) : (n : Nat) → Long → List Byte
  | 0, _ => []
  | n + 1, a => s.readByte (busAddr a) :: s.fetchBytes n (a + 1)

/-- Whether one of the `n` bytes from an address on has been written since reset (R90). -/
def State.selfModified (s : State) : (n : Nat) → Long → Bool
  | 0, _ => false
  | n + 1, a => s.written.contains (busAddr a).toNat || s.selfModified n (a + 1)

/-- The stop that the spec gives bytes that are no instruction, at address `pc` (R452, R111, R126, R129, R134, R270,
R53). -/
def stopFor (e : DecodeError) (pc : Long) : Result :=
  match e with
  | .undefinedOp => .fault (.undefinedInstruction pc)
  | .dummyOp => .fault (.dummyInstruction pc)
  | .size => .fault (.undefinedSize pc)
  | .firstByte => .fault (.undefinedFirstByte pc)
  | .mode => .fault (.undefinedMode pc)
  | .registerCode => .refused (.registerCode pc)
  | .fixedZeroBits => .refused (.fixedZeroBits pc)
  | .doubleRegister => .refused (.doubleRegister pc)
  | .controlRegister => .refused (.controlRegister pc)
  | .truncated => .refused (.truncatedInstruction pc)

/-- Whether one of the `n` bytes from an address on lies in `ioRegion` (R82). -/
def reachesIo : (n : Nat) → Long → Bool
  | 0, _ => false
  | n + 1, a => Config.ioRegion (busAddr a) || reachesIo n (a + 1)

/-- The capacity of the instruction queue, which is how far fetching may run ahead (R5, R55, R82). -/
def queueLength : Nat := 12

/-- Where an instruction may branch to, with PC at the next instruction: a destination that the 900/H2 fetches "even when
not branch" (R5, R82). -/
def State.branchTarget (s : State) (i : Instr) : Option Long :=
  match i with
  | .jp16 a => some (a.setWidth 32)
  | .jp24 a => some (a.setWidth 32)
  | .jpMem _ m => some (s.ea m)
  | .jr _ d => some (s.pc + d.signExtend 32)
  | .jrl _ d => some (s.pc + d.signExtend 32)
  | .djnz _ _ d => some (s.pc + d.signExtend 32)
  | .call16 a => some (a.setWidth 32)
  | .call24 a => some (a.setWidth 32)
  | .callMem _ m => some (s.ea m)
  | .calr d => some (s.pc + d.signExtend 32)
  | .retCc _ => some (s.stackTop 4)
  | _ => none

/-- Whether the prefetch of a branch destination may read `ioRegion` (R82, D26). -/
def State.branchReachesIo (s : State) (i : Instr) : Bool :=
  match s.branchTarget i with
  | some a => reachesIo queueLength a
  | none => false

/-- Run an instruction of `len` bytes that lies at PC: PC is first the address of the next instruction (R101). A byte of
it that has been written since reset is refused (R90, D9), and so is a branch whose destination is fetched from
`ioRegion` (R82, D26). A block compare that was under way goes on in `exec`. -/
def State.runDecoded (s : State) (i : Instr) (len : Nat) : Result :=
  let s1 := { s with pc := s.pc + BitVec.ofNat 32 len, comparing := false }
  if s.selfModified len s.pc then .refused (.selfModifiedCode s.pc)
  else if s1.branchReachesIo i then .refused (.prefetchRegion s.pc)
  else exec i s1

/-- Fetch, decode and run the instruction at PC, when `ioRegion` is out of the reach of the fetch: an instruction and the
queue behind it (R82, D26, R90). Where several stops hold, the spec does not order them. DESIGN CHOICE: the reach of the
fetch is looked at first; then bytes that are no instruction fault (D6), without a look at the record of written
addresses, which is there for bytes that are an instruction (D9); then a branch into the region's reach (assumption 12). -/
def State.runInstr (s : State) : Result :=
  if reachesIo (maxLength + queueLength) s.pc then .refused (.prefetchRegion s.pc)
  else
    match decode (s.fetchBytes maxLength s.pc) with
    | .ok (i, rest) => s.runDecoded i (maxLength - rest.length)
    | .error e => stopFor e s.pc

/-- What the machine does at a sampling point that brings no accepted event: the next instruction, or nothing while it
is halted (R357, D13). -/
def State.resume (s : State) : Result := if s.halted then .next s else s.runInstr

/-- What the machine does when a request is presented: an accepted one is taken before the next instruction (R458), and
one that is not accepted changes nothing. -/
def State.onRequest (s : State) (level : IrqLevel) (entry : BitVec 6) : Result :=
  if s.accepts level then .next (s.enterInterrupt s.pc level entry) else s.resume

/-- Reset in the middle of what the machine does next, `run`, worked out with its stores recorded. Reset wins over every
other event (R490), over a stop too: a step that stops has stored nothing. -/
def State.resetDuring (s : State) (rest : List HostEvent) (run : State → Result) : State :=
  match run { s with host := [], trail := some [] } with
  | .next t => { t.resetWithin with host := rest }
  | .fault _ => { s with host := rest }.resetEvent
  | .refused _ => { s with host := rest }.resetEvent

/-- One cycle: the host is sampled before the next instruction is fetched (R456), and reset wins over everything
(R490). -/
def State.cycle (s : State) : Result :=
  match s.host with
  | [] => s.resume
  | .idle :: rest => { s with host := rest }.resume
  | .irq level entry :: rest => { s with host := rest }.onRequest level entry
  | .reset :: rest => .next { s with host := rest }.resetEvent
  | .resetWithin (some (level, entry)) :: rest => .next (s.resetDuring rest fun t => t.onRequest level entry)
  | .resetWithin none :: rest => .next (s.resetDuring rest State.resume)

/-! ## Placing an instruction -/

/-- Bytes placed in memory from an address on by a loader outside the machine: they do not count as written by the
program (R90). -/
def State.placeBytes (s : State) : List Byte → Long → State
  | [], _ => s
  | b :: t, a =>
    { s with
      mem := s.mem.write (busAddr a).toNat b
      written := s.written.filter (· != (busAddr a).toNat) }.placeBytes t (a + 1)

/-- The state with an instruction placed at PC, not halted, and with nothing presented at the next sampling point, so
that the next cycle runs that instruction (assumption 3). -/
def State.placeInstr (s : State) (nbits w : Nat) : State :=
  { s.placeBytes (tableBytes nbits w) s.pc with
    halted := false
    host := match s.host with
      | [] => []
      | e :: t => .idle :: e :: t }

end Sys2Proof.Machine
end

