-- ==== Sys2Proof/Machine/Step.lean ====
section
/-! DEFINITION. The step of the machine, and the state in which a given instruction is the next one. -/

namespace Sys2Proof.Machine

/-- One step: one cycle of Sys2Proof/Machine/Cycle.lean. -/
def step (s : State) : Host.Outcome State Fault Refusal := s.cycle

/-- `s` with the instruction whose bits are `w` (bit 0 the least significant bit of its first byte, every bit above
`nbits` 0) where `step` fetches next. -/
def State.withFetchWord (s : State) (nbits w : Nat) : State := s.placeInstr nbits w

end Sys2Proof.Machine
end

