-- ==== Sys2Proof/Safety.lean ====
section
/-! DEFINITION. What claims about the machine are said with: what a step leaves as it was, what a state must be like for
the machine's invariant to hold, and the effects that several instructions share, each written from the rules of the spec
and not from the meanings. -/

namespace Sys2Proof.Machine

/-! ## The invariant -/

/-- The invariant of the machine: memory is in its canonical form, and so is every earlier memory on the trail; and the
record of written addresses rises and stays in the 24-bit address space. -/
def State.Inv (s : State) : Prop :=
  s.mem.wf = true ∧ s.written.Pairwise (· < ·) ∧ (∀ a ∈ s.written, a < 2 ^ 24) ∧
    ∀ l ∈ s.trail, ∀ x ∈ l, Memory.wf x.mem = true

/-! ## What the host presents, and what a reset finds -/

/-- The host presents nothing at the next sampling point: its stream is empty or says so (R455). -/
def State.Quiet (s : State) : Prop := s.host = [] ∨ ∃ rest, s.host = .idle :: rest

/-- Memory after one access: a store outside `ioRegion` changes its byte, and nothing else changes memory (R82, R86). -/
def Access.apply (x : Access) (m : Memory) : Memory :=
  match x with
  | .read _ => m
  | .write a v => if Config.ioRegion a then m else m.write a.toNat v

/-- The moments of a trail, the last one first, lead one to the next from memory `m0` to memory `m`, each by its own
access (R86). -/
def LeadsTo (m0 m : Memory) : List Moment → Prop
  | [] => m = m0
  | x :: l => m = x.next.apply x.mem ∧ LeadsTo m0 x.mem l

/-- The stores of `nb` bytes of a value, in order of increasing address (R74, R84). -/
def storesOf (nb : Nat) (ea : Long) (v : BitVec (8 * nb)) : List Access :=
  (List.range nb).map fun i => .write (busAddr (ea + BitVec.ofNat 32 i)) (v.extractLsb' (8 * i) 8)

/-- While stores are recorded, what is recorded between two states is these stores, in this order (R86). -/
def Records (s t : State) (stores : List Access) : Prop :=
  t.trail.map (List.map Moment.next) = s.trail.map fun l => stores.reverse ++ l.map Moment.next

/-- The values that R491 states, with PC from the three bytes at the vector base address (its upper byte 0 is the spec's
decision D4), no instruction under way, and the events to come. -/
structure ResetValues (t : State) (rest : List HostEvent) : Prop where
  xsp : t.xsp = 0
  iff : t.iff = 7
  rfp : t.rfp = 0
  halted : t.halted = false
  comparing : t.comparing = false
  pc : t.pc = (0#8 ++ t.readByte 0xFFFF02 ++ t.readByte 0xFFFF01 ++ t.readByte 0xFFFF00 : Long)
  written : t.written = []
  host : t.host = rest

/-! ## Encodings that are no instruction (R140) -/

/-- The sizes that R131 gives a second op code of the `reg` class; none for the blank and the dummy codes. -/
def regSizes (op : Byte) : List Size :=
  let n := op.toNat
  if n ∈ [0x00, 0x01, 0x02, 0x11, 0x15, 0x17, 0x18, 0x1A, 0x1B, 0x1D, 0x1E, 0x1F, 0x25, 0x26, 0x27, 0x2D, 0x35, 0x36,
    0x37, 0x3B, 0x3F] then []
  else if n = 0x10 then [.b]
  else if n ∈ [0x0E, 0x0F, 0x16, 0x19, 0x38, 0x39, 0x3A, 0x3C, 0x3D, 0x3E] then [.w]
  else if n ∈ [0x0C, 0x0D] then [.l]
  else if n ∈ [0x12, 0x13, 0x14] then [.w, .l]
  else if n ∈ [0x06, 0x07, 0x08, 0x09, 0x0A, 0x0B, 0x1C, 0x20, 0x21, 0x22, 0x23, 0x24, 0x28, 0x29, 0x2A, 0x2B, 0x2C,
    0x30, 0x31, 0x32, 0x33, 0x34] ∨ (0x40 ≤ n ∧ n ≤ 0x5F) ∨ (0x70 ≤ n ∧ n ≤ 0x7F) ∨ (0xB8 ≤ n ∧ n ≤ 0xBF) ∨
    (0xD8 ≤ n ∧ n ≤ 0xDF) then [.b, .w]
  else [.b, .w, .l]

/-- The sizes that R132 gives a second op code of the `src` class; none for the blank codes. -/
def srcSizes (op : Byte) : List Size :=
  let n := op.toNat
  if n ≤ 0x03 ∨ n = 0x05 ∨ (0x08 ≤ n ∧ n ≤ 0x0F) ∨ n = 0x18 ∨ (0x1A ≤ n ∧ n ≤ 0x1F) ∨ (0x28 ≤ n ∧ n ≤ 0x2F) ∨
    (0x70 ≤ n ∧ n ≤ 0x77) then []
  else if n ∈ [0x06, 0x07] then [.b]
  else if n < 0x20 ∨ (0x30 ≤ n ∧ n ≤ 0x7F) then [.b, .w]
  else [.b, .w, .l]

/-- The second op codes of the `dst` class that R133 leaves blank, and the dummy ones. -/
def dstBlank (op : Byte) : Prop :=
  let n := op.toNat
  n ∈ [0x01, 0x03, 0x05, 0x15] ∨ (0x07 ≤ n ∧ n ≤ 0x13) ∨ (0x17 ≤ n ∧ n ≤ 0x1F) ∨ (0x2D ≤ n ∧ n ≤ 0x2F) ∨
    (0x38 ≤ n ∧ n ≤ 0x3F) ∨ (0x48 ≤ n ∧ n ≤ 0x4F) ∨ (0x58 ≤ n ∧ n ≤ 0x5F) ∨ (0x68 ≤ n ∧ n ≤ 0x7F)

/-- The register codes that R111 excludes at a size. -/
def ExcludedCode (sz : Size) (code : Byte) : Prop :=
  (0x40 ≤ code.toNat ∧ code.toNat ≤ 0xCF) ∨ code.toNat % sz.bytes ≠ 0

/-- The width of the control register with a code, if it has one (R50, R53). -/
def ctrlSize (code : Byte) : Option Size :=
  let n := code.toNat
  if n < 0x40 ∧ n % 4 = 0 then some .l
  else if (0x40 ≤ n ∧ n < 0x60 ∧ n % 4 = 0) ∨ n = 0x7C then some .w
  else if 0x40 ≤ n ∧ n < 0x60 ∧ n % 4 = 2 then some .b
  else none

/-! ## What stays as it was -/

/-- Byte `k` of a general register, byte 0 the least significant (R22). -/
def State.regByte (s : State) (g : GReg) (k : BitVec 2) : Byte := (s.reg g).extractLsb' (8 * k.toNat) 8

/-- Byte `k` of register `g` belongs to the place `l`. -/
def Loc.covers {sz : Size} (l : Loc sz) (g : GReg) (k : BitVec 2) : Prop :=
  g = l.g ∧ k.toNat / sz.bytes = l.part.toNat

/-- Every general register is as it was. -/
def SameRegs (s t : State) : Prop := ∀ g, t.reg g = s.reg g

/-- Every byte of every general register outside one place is as it was (R22). -/
def SameRegsBut {sz : Size} (s t : State) (l : Loc sz) : Prop :=
  ∀ g k, ¬ l.covers g k → t.regByte g k = s.regByte g k

/-- Every general register that is not listed is as it was. -/
def SameRegsExcept (s t : State) (gs : List GReg) : Prop := ∀ g, g ∉ gs → t.reg g = s.reg g

/-- Every byte of memory is as it was, and none has been written. -/
def SameMemory (s t : State) : Prop := (∀ a, t.readByte a = s.readByte a) ∧ t.written = s.written

/-- Every byte of memory outside the `nb` bytes at an effective address is as it was. -/
def SameMemoryBut (s t : State) (nb : Nat) (ea : Long) : Prop :=
  ∀ a, (∀ i < nb, a ≠ busAddr (ea + BitVec.ofNat 32 i)) → t.readByte a = s.readByte a

/-- The mask, the bank pointer, the alternate flags, the control registers, the halt bit, the sign of a block compare
under way and the host's stream are as they were. -/
structure SameRest (s t : State) : Prop where
  iff : t.iff = s.iff
  rfp : t.rfp = s.rfp
  flagsAlt : t.flagsAlt = s.flagsAlt
  dmas : t.dmas = s.dmas
  dmad : t.dmad = s.dmad
  dmac : t.dmac = s.dmac
  dmam : t.dmam = s.dmam
  intnest : t.intnest = s.intnest
  halted : t.halted = s.halted
  comparing : t.comparing = s.comparing
  host : t.host = s.host

/-- Nothing but memory, general registers and free values may have changed. -/
def SameOutside (s t : State) : Prop := t.flags = s.flags ∧ t.pc = s.pc ∧ SameRest s t

/-! ## Memory operands -/

/-- By how much a mode moves its register (R123, R124). -/
def moveAmount : MemOp → Long
  | .preDec _ st => stepAmount st
  | .postInc _ st => stepAmount st
  | _ => 0

/-- A general register after the pre-decrement or post-increment of a mode (R123, R124). -/
def State.movedReg (s : State) (m : MemOp) (g : GReg) : Long :=
  if preReg s.rfp m = some g then s.reg g - moveAmount m
  else if postReg s.rfp m = some g then s.reg g + moveAmount m
  else s.reg g

/-- Every general register is as it was but for the step of the mode. -/
def MovedRegs (s t : State) (m : MemOp) : Prop := ∀ g, t.reg g = s.movedReg m g

/-- The same outside one place; the register that the mode steps is left out when the place is part of it, for which the
spec has no order (R505). -/
def MovedRegsBut {sz : Size} (s t : State) (m : MemOp) (l : Loc sz) : Prop :=
  ∀ g k, ¬ l.covers g k → (autoReg s.rfp m = some l.g → g ≠ l.g) →
    t.regByte g k = (s.movedReg m g).extractLsb' (8 * k.toNat) 8

/-! ## Effects that several instructions share -/

/-- A register place is loaded, and nothing else changes but memory's and free values' bookkeeping. -/
def LoadsReg {sz : Size} (s t : State) (l : Loc sz) (v : BitVec sz.bits) : Prop :=
  t.readLoc l = v ∧ SameRegsBut s t l ∧ SameMemory s t ∧ SameOutside s t

/-- A register place is loaded and the flags take a value that satisfies `P`. -/
def LoadsRegFlags {sz : Size} (s t : State) (l : Loc sz) (v : BitVec sz.bits) (P : Flags → Prop) : Prop :=
  t.readLoc l = v ∧ SameRegsBut s t l ∧ SameMemory s t ∧ P t.flags ∧ t.pc = s.pc ∧ SameRest s t

/-- `nb` bytes are pushed: XSP goes down by `nb`, no other register changes, and no byte of memory outside the `nb` bytes
at the new XSP (R172). -/
def PushesBytes (s t : State) (nb : Nat) : Prop :=
  t.xsp = s.xsp - BitVec.ofNat 32 nb ∧ SameRegsExcept s t [.xsp] ∧
    SameMemoryBut s t nb (s.xsp - BitVec.ofNat 32 nb)

/-- `push_n(v)`: `nb` bytes are pushed, and the value lies at the new XSP (R172). -/
def Pushes (s t : State) (nb : Nat) (v : BitVec (8 * nb)) : Prop :=
  PushesBytes s t nb ∧ t.memRead nb (s.xsp - BitVec.ofNat 32 nb) = v

/-- A value of `nb` bytes is stored at the effective address of a memory operand, whose register steps; nothing else
changes (R167, R169). -/
def Stores (s t : State) (m : MemOp) (nb : Nat) (v : BitVec (8 * nb)) : Prop :=
  t.memRead nb (s.ea m) = v ∧ SameMemoryBut s t nb (s.ea m) ∧ MovedRegs s t m ∧ SameOutside s t

/-- `pop_n()` to a register place: the place takes the value at XSP, and XSP goes up; a place in XSP itself is left out,
since the spec has no order for it (R178, R505). -/
def PopsInto {sz : Size} (s t : State) (l : Loc sz) : Prop :=
  (l.g ≠ .xsp → t.readLoc l = s.memRead sz.bytes s.xsp ∧ t.xsp = s.xsp + BitVec.ofNat 32 sz.bytes) ∧
    (∀ g k, g ≠ .xsp → ¬ l.covers g k → t.regByte g k = s.regByte g k) ∧ SameMemory s t ∧ SameOutside s t

/-- The registers after an operation that writes its result into a place, or, for CP, writes no register. -/
def AluRegs {sz : Size} (op : AluOp) (s t : State) (l : Loc sz) (r : BitVec sz.bits) : Prop :=
  if op = .cp then SameRegs s t else t.readLoc l = r ∧ SameRegsBut s t l

/-- The memory after an operation that writes its result at an address, or, for CP, writes none. -/
def AluMemory (op : AluOp) (s t : State) (nb : Nat) (ea : Long) (r : BitVec (8 * nb)) : Prop :=
  if op = .cp then SameMemory s t else t.memRead nb ea = r ∧ SameMemoryBut s t nb ea

/-- A pointer after `k` items of `nb` bytes, upward or downward (R205). -/
def pointerAfter (up : Bool) (nb k : Nat) (p : Long) : Long :=
  if up then p + BitVec.ofNat 32 (nb * k) else p - BitVec.ofNat 32 (nb * k)

/-- XBC after one item of a block compare whose pointer it is: it is moved, and then its lower half, BC, counts down
(R210 to R214, in the order they are written). -/
def countedPointer (up : Bool) (nb : Nat) (p : Long) : Long :=
  (pointerAfter up nb 1 p).extractLsb' 16 16 ++ ((pointerAfter up nb 1 p).extractLsb' 0 16 - 1)

/-- The pointer of a block compare after `j` items: one that is XBC counts as well (R210). -/
def comparePointerAfter (R : BitVec 3) (up : Bool) (nb : Nat) : Nat → Long → Long
  | 0, p => p
  | j + 1, p =>
    let q := comparePointerAfter R up nb j p
    if R = 1 then countedPointer up nb q else pointerAfter up nb 1 q

/-- The register that an assigned register code names, from its place in the register map (R24, R27). -/
def codeRegister (rfp : BitVec 2) (code : Byte) : GReg :=
  if code.toNat < 0x40 then .bank (code.extractLsb' 2 4)
  else if code.toNat < 0xE0 then .bank ((rfp - 1) ++ code.extractLsb' 2 2)
  else if code.toNat < 0xF0 then .bank (rfp ++ code.extractLsb' 2 2)
  else if code.toNat < 0xF4 then .xix
  else if code.toNat < 0xF8 then .xiy
  else if code.toNat < 0xFC then .xiz
  else .xsp

/-- The number of items of a repeat instruction: BC, with 0 standing for 65536 (R207). -/
def State.blockCount (s : State) : Nat := if s.bc.toNat = 0 then 65536 else s.bc.toNat

/-- A number from 1 to 8 in a 3-bit field, 0 standing for 8 (R128). -/
def fieldCount8 (num : BitVec 3) : Nat := if num = 0 then 8 else num.toNat

/-- A number from 1 to 16 in a 4-bit field, 0 standing for 16 (R128). -/
def fieldCount16 (num : BitVec 4) : Nat := if num = 0 then 16 else num.toNat

/-- The two decimal digits of a byte in binary-coded decimal, as a number. -/
def decimalOf (b : Byte) : Nat := 10 * (b.toNat / 16) + b.toNat % 16

/-- Both digits of a byte are decimal. -/
def IsDecimal (b : Byte) : Prop := b.toNat / 16 ≤ 9 ∧ b.toNat % 16 ≤ 9

/-! ## Flags from the operands (R11, R36, R300, R392) -/

/-- The flags of an addition with carry-in: `***V0*`; H is not told at 32 bits (R11, R231, R232). -/
structure AddFlags {w : Nat} (a b : BitVec w) (cin : Bool) (f : Flags) : Prop where
  s : f.s = (a + b + (BitVec.ofBool cin).setWidth w).msb
  z : f.z = true ↔ a + b + (BitVec.ofBool cin).setWidth w = 0
  h : w ≠ 32 → (f.h = true ↔ 15 < a.toNat % 16 + b.toNat % 16 + cin.toNat)
  v : f.v = true ↔ (a + b + (BitVec.ofBool cin).setWidth w).toInt ≠ a.toInt + b.toInt + cin.toNat
  n : f.n = false
  c : f.c = true ↔ 2 ^ w ≤ a.toNat + b.toNat + cin.toNat

/-- The flags of a subtraction with borrow-in: `***V1*`; H is not told at 32 bits (R11, R233, R234). -/
structure SubFlags {w : Nat} (a b : BitVec w) (bin : Bool) (f : Flags) : Prop where
  s : f.s = (a - b - (BitVec.ofBool bin).setWidth w).msb
  z : f.z = true ↔ a - b - (BitVec.ofBool bin).setWidth w = 0
  h : w ≠ 32 → (f.h = true ↔ a.toNat % 16 < b.toNat % 16 + bin.toNat)
  v : f.v = true ↔ (a - b - (BitVec.ofBool bin).setWidth w).toInt ≠ a.toInt - b.toInt - bin.toNat
  n : f.n = true
  c : f.c = true ↔ a.toNat < b.toNat + bin.toNat

/-- Whether the number of 1 bits is even (R36, R300). -/
def EvenParity {n : Nat} (v : BitVec n) : Prop := Even ((List.range n).countP fun i => v.getLsbD i)

/-- The flags of a logical operation: `**1P00` or `**0P00`; V is not told at 32 bits (R300). -/
structure LogicFlags {w : Nat} (r : BitVec w) (half : Bool) (f : Flags) : Prop where
  s : f.s = r.msb
  z : f.z = true ↔ r = 0
  h : f.h = half
  v : w ≠ 32 → (f.v = true ↔ EvenParity r)
  n : f.n = false
  c : f.c = false

/-- The flags of a rotate or shift with the carry `c`: `**0P0*`; V is not told at 32 bits (R392). -/
structure ShiftFlags {w : Nat} (r : BitVec w) (carry : Bool) (f : Flags) : Prop where
  s : f.s = r.msb
  z : f.z = true ↔ r = 0
  h : f.h = false
  v : w ≠ 32 → (f.v = true ↔ EvenParity r)
  n : f.n = false
  c : f.c = carry

/-- The result and the flags of an operation of the two-operand group on the operands and the carry before (R231 to
R235, R301 to R303). CP has the result of SUB, which it does not write. -/
def TwoOperand {n : Nat} (op : AluOp) (dst src : BitVec n) (c : Bool) (r : BitVec n) (f : Flags) : Prop :=
  match op with
  | .add => r = dst + src ∧ AddFlags dst src false f
  | .adc => r = dst + src + (BitVec.ofBool c).setWidth n ∧ AddFlags dst src c f
  | .sub => r = dst - src ∧ SubFlags dst src false f
  | .sbc => r = dst - src - (BitVec.ofBool c).setWidth n ∧ SubFlags dst src c f
  | .and => r = dst &&& src ∧ LogicFlags r true f
  | .xor => r = dst ^^^ src ∧ LogicFlags r false f
  | .or => r = dst ||| src ∧ LogicFlags r false f
  | .cp => r = dst - src ∧ SubFlags dst src false f

/-! ## The instructions of the two-operand group, by operation -/

/-- `op R,r`. -/
def AluOp.curReg (op : AluOp) (sz : Size) (R : BitVec 3) (r : RegOp sz) : Instr :=
  match op with
  | .add => .addCurReg sz R r
  | .adc => .adcCurReg sz R r
  | .sub => .subCurReg sz R r
  | .sbc => .sbcCurReg sz R r
  | .and => .andCurReg sz R r
  | .xor => .xorCurReg sz R r
  | .or => .orCurReg sz R r
  | .cp => .cpCurReg sz R r

/-- `op r,#`. -/
def AluOp.regImm (op : AluOp) (sz : Size) (r : RegOp sz) (imm : BitVec sz.bits) : Instr :=
  match op with
  | .add => .addRegImm sz r imm
  | .adc => .adcRegImm sz r imm
  | .sub => .subRegImm sz r imm
  | .sbc => .sbcRegImm sz r imm
  | .and => .andRegImm sz r imm
  | .xor => .xorRegImm sz r imm
  | .or => .orRegImm sz r imm
  | .cp => .cpRegImm sz r imm

/-- `op R,(mem)`. -/
def AluOp.curMem (op : AluOp) (sz : Size) (R : BitVec 3) (m : MemOp) : Instr :=
  match op with
  | .add => .addCurMem sz R m
  | .adc => .adcCurMem sz R m
  | .sub => .subCurMem sz R m
  | .sbc => .sbcCurMem sz R m
  | .and => .andCurMem sz R m
  | .xor => .xorCurMem sz R m
  | .or => .orCurMem sz R m
  | .cp => .cpCurMem sz R m

/-- `op (mem),R`. -/
def AluOp.memCur (op : AluOp) (sz : Size) (m : MemOp) (R : BitVec 3) : Instr :=
  match op with
  | .add => .addMemCur sz m R
  | .adc => .adcMemCur sz m R
  | .sub => .subMemCur sz m R
  | .sbc => .sbcMemCur sz m R
  | .and => .andMemCur sz m R
  | .xor => .xorMemCur sz m R
  | .or => .orMemCur sz m R
  | .cp => .cpMemCur sz m R

/-- `op<W> (mem),#`. -/
def AluOp.memImm (op : AluOp) (z : SizeBW) (m : MemOp) (imm : BitVec z.size.bits) : Instr :=
  match op with
  | .add => .addMemImm z m imm
  | .adc => .adcMemImm z m imm
  | .sub => .subMemImm z m imm
  | .sbc => .sbcMemImm z m imm
  | .and => .andMemImm z m imm
  | .xor => .xorMemImm z m imm
  | .or => .orMemImm z m imm
  | .cp => .cpMemImm z m imm

/-! ## Rotates and shifts, by operation -/

/-- `op #4,r`. -/
def ShiftOp.immReg (op : ShiftOp) (sz : Size) (r : RegOp sz) (num : BitVec 4) : Instr :=
  match op with
  | .rlc => .rlcImmReg sz r num
  | .rrc => .rrcImmReg sz r num
  | .rl => .rlImmReg sz r num
  | .rr => .rrImmReg sz r num
  | .sla => .slaImmReg sz r num
  | .sra => .sraImmReg sz r num
  | .sll => .sllImmReg sz r num
  | .srl => .srlImmReg sz r num

/-- `op A,r`. -/
def ShiftOp.aReg (op : ShiftOp) (sz : Size) (r : RegOp sz) : Instr :=
  match op with
  | .rlc => .rlcAReg sz r
  | .rrc => .rrcAReg sz r
  | .rl => .rlAReg sz r
  | .rr => .rrAReg sz r
  | .sla => .slaAReg sz r
  | .sra => .sraAReg sz r
  | .sll => .sllAReg sz r
  | .srl => .srlAReg sz r

/-- `op<W> (mem)`. -/
def ShiftOp.mem (op : ShiftOp) (z : SizeBW) (m : MemOp) : Instr :=
  match op with
  | .rlc => .rlcMem z m
  | .rrc => .rrcMem z m
  | .rl => .rlMem z m
  | .rr => .rrMem z m
  | .sla => .slaMem z m
  | .sra => .sraMem z m
  | .sll => .sllMem z m
  | .srl => .srlMem z m

/-- The operand and the carry after `k` single-bit steps, in closed form: RLC and RRC rotate the operand, RL and RR the
operand and the carry together, the shifts move the operand with 0 or the sign entering; the carry is the bit that left
last (R393 to R400). `k` is at least 1. -/
def ShiftResult {n : Nat} (op : ShiftOp) (k : Nat) (v : BitVec n) (c : Bool) (r : BitVec n) (c' : Bool) : Prop :=
  match op with
  | .rlc => r = v.rotateLeft (k % n) ∧ c' = r.getLsbD 0
  | .rrc => r = v.rotateRight (k % n) ∧ c' = r.msb
  | .rl => BitVec.ofBool c' ++ r = (BitVec.ofBool c ++ v).rotateLeft (k % (1 + n))
  | .rr => BitVec.ofBool c' ++ r = (BitVec.ofBool c ++ v).rotateRight (k % (1 + n))
  | .sla => r = v <<< k ∧ c' = (decide (k ≤ n) && v.getLsbD (n - k))
  | .sra => r = v.sshiftRight k ∧ c' = (if k ≤ n then v.getLsbD (k - 1) else v.msb)
  | .sll => r = v <<< k ∧ c' = (decide (k ≤ n) && v.getLsbD (n - k))
  | .srl => r = v >>> k ∧ c' = v.getLsbD (k - 1)

/-! ## Carry-flag bit operations, by operation -/

/-- `op #4,r`. -/
def CarryOp.immReg (op : CarryOp) (z : SizeBW) (r : RegOp z.size) (num : BitVec 4) : Instr :=
  match op with
  | .ldcf => .ldcfImmReg z r num
  | .andcf => .andcfImmReg z r num
  | .orcf => .orcfImmReg z r num
  | .xorcf => .xorcfImmReg z r num

/-- `op A,r`. -/
def CarryOp.aReg (op : CarryOp) (z : SizeBW) (r : RegOp z.size) : Instr :=
  match op with
  | .ldcf => .ldcfAReg z r
  | .andcf => .andcfAReg z r
  | .orcf => .orcfAReg z r
  | .xorcf => .xorcfAReg z r

/-- `op A,(mem)`. -/
def CarryOp.aMem (op : CarryOp) (m : MemOp) : Instr :=
  match op with
  | .ldcf => .ldcfAMem m
  | .andcf => .andcfAMem m
  | .orcf => .orcfAMem m
  | .xorcf => .xorcfAMem m

/-- `op #3,(mem)`. -/
def CarryOp.immMem (op : CarryOp) (num : BitVec 3) (m : MemOp) : Instr :=
  match op with
  | .ldcf => .ldcfImmMem num m
  | .andcf => .andcfImmMem num m
  | .orcf => .orcfImmMem num m
  | .xorcf => .xorcfImmMem num m

/-- The carry from the bit with number `k` of an operand, when the operand has that bit (R311, R313 to R315); every other
flag is as it was. -/
def CarryFromBit {n : Nat} (op : CarryOp) (v : BitVec n) (k : Nat) (f f' : Flags) : Prop :=
  f' = { f with c := f'.c } ∧
    (k < n →
      f'.c = match op with
        | .ldcf => v.getLsbD k
        | .andcf => f.c && v.getLsbD k
        | .orcf => f.c || v.getLsbD k
        | .xorcf => f.c ^^ v.getLsbD k)

/-! ## Bit test and modify, by operation -/

/-- `op #4,r`. -/
def BitOp.reg (op : BitOp) (z : SizeBW) (r : RegOp z.size) (num : BitVec 4) : Instr :=
  match op with
  | .res => .resReg z r num
  | .set => .setReg z r num
  | .chg => .chgReg z r num
  | .tset => .tsetReg z r num

/-- `op #3,(mem)`. -/
def BitOp.mem (op : BitOp) (num : BitVec 3) (m : MemOp) : Instr :=
  match op with
  | .res => .resMem num m
  | .set => .setMem num m
  | .chg => .chgMem num m
  | .tset => .tsetMem num m

/-- The value after: bit `k` is cleared, set, inverted or set, and every other bit is as it was (R331 to R334). -/
def BitModified {n : Nat} (op : BitOp) (k : Nat) (v r : BitVec n) : Prop :=
  (∀ i, i ≠ k → r.getLsbD i = v.getLsbD i) ∧
    r.getLsbD k = match op with
      | .res => false
      | .set => true
      | .chg => !v.getLsbD k
      | .tset => true

/-- The flags of BIT and TSET on a bit: `X*1X0-`, S and V not told (R330, R334). -/
def BitTested (bit : Bool) (f f' : Flags) : Prop := f'.z = !bit ∧ f'.h = true ∧ f'.n = false ∧ f'.c = f.c

/-- The flags of RES, SET and CHG are as they were; those of TSET tell the bit (R331 to R334). -/
def BitOpFlags (op : BitOp) (bit : Bool) (f f' : Flags) : Prop :=
  match op with
  | .res => f' = f
  | .set => f' = f
  | .chg => f' = f
  | .tset => BitTested bit f f'

/-! ## Multiply and divide, by operation -/

/-- `op RR,r`. -/
def MulOp.reg (op : MulOp) (z : SizeBW) (RR : BitVec z.dblBits) (r : RegOp z.size) : Instr :=
  match op with
  | .mul => .mulReg z RR r
  | .muls => .mulsReg z RR r
  | .div => .divReg z RR r
  | .divs => .divsReg z RR r

/-- `op rr,#`. -/
def MulOp.imm (op : MulOp) (z : SizeBW) (rr : DblOp z) (imm : BitVec z.size.bits) : Instr :=
  match op with
  | .mul => .mulImm z rr imm
  | .muls => .mulsImm z rr imm
  | .div => .divImm z rr imm
  | .divs => .divsImm z rr imm

/-- `op RR,(mem)`. -/
def MulOp.mem (op : MulOp) (z : SizeBW) (RR : BitVec z.dblBits) (m : MemOp) : Instr :=
  match op with
  | .mul => .mulMem z RR m
  | .muls => .mulsMem z RR m
  | .div => .divMem z RR m
  | .divs => .divsMem z RR m

/-- The result and the flags of a multiply or divide with an operation size of `m` bits, the double register holding
`dst` before and `r` after (R271 to R275). The result of a division that sets V is not told. -/
def MulDiv {m w : Nat} (op : MulOp) (dst : BitVec w) (src : BitVec m) (r : BitVec w) (f f' : Flags) : Prop :=
  match op with
  | .mul => r.toNat = (dst.setWidth m).toNat * src.toNat ∧ f' = f
  | .muls => r.toInt = (dst.setWidth m).toInt * src.toInt ∧ f' = f
  | .div =>
    f' = { f with v := f'.v } ∧ (f'.v = true ↔ src = 0 ∨ 2 ^ m ≤ dst.toNat / src.toNat) ∧
      (f'.v = false → dst.toNat = (r.extractLsb' 0 m).toNat * src.toNat + (r.extractLsb' m m).toNat ∧
        (r.extractLsb' m m).toNat < src.toNat)
  | .divs =>
    f' = { f with v := f'.v } ∧
      (f'.v = true ↔ src = 0 ∨ dst.toInt.tdiv src.toInt < -2 ^ (m - 1) ∨ 2 ^ (m - 1) ≤ dst.toInt.tdiv src.toInt) ∧
      (f'.v = false → (r.extractLsb' 0 m).toInt = dst.toInt.tdiv src.toInt ∧
        (r.extractLsb' m m).toInt = dst.toInt.tmod src.toInt)

/-! ## Modulo steps, by operation -/

/-- MINC1, MINC2, MINC4 (`up`) and MDEC1, MDEC2, MDEC4, by the step: 1, 2 and otherwise 4. -/
def moduloInstr (up : Bool) (st : Step) (r : RegOp .w) (field : Word) : Instr :=
  match up, st with
  | true, .one => .minc1 r field
  | true, .two => .minc2 r field
  | true, .four => .minc4 r field
  | false, .one => .mdec1 r field
  | false, .two => .mdec2 r field
  | false, .four => .mdec4 r field

end Sys2Proof.Machine
end

