-- ==== Sys2Proof/Certificates/Slice0/Obligations.lean ====
section
/-! DEFINITION. The statements for the provers. PC is the address of the next instruction when an instruction's own
effect runs (R101): `$` is PC less the length of the instruction. -/

open Sys2Proof Sys2Proof.Machine

/-! ## Encoding -/

/-- R104 to R106, R131 to R133: the decoder reads every well-formed instruction back from its bytes, with every operand
at every value, and leaves the bytes after it. -/
def Obligations.DecodeEncodeRoundTrip : Prop :=
  ∀ (i : Instr) (rest : List Byte), i.wf = true → decode (encode i ++ rest) = .ok (i, rest)

/-- R104 to R106: whatever the decoder accepts is the encoding of a well-formed instruction, so no bit of an accepted
encoding is ignored and no instruction has two encodings. -/
def Obligations.EncodeOfDecode : Prop :=
  ∀ (bs rest : List Byte) (i : Instr), decode bs = .ok (i, rest) → encode i ++ rest = bs ∧ i.wf = true

/-- Words written out from the encodings of the spec decode to the instructions they stand for: examples of R164, R186,
R201, R231, R271, R311, R355, R360, R393, R423. -/
def Obligations.DecodeKnownWords : Prop :=
  decode [0x33, 0x78, 0x56] = .ok (.ldCurImmW 3 0x5678, []) ∧
  decode [0xF3, 0x13, 0x41, 0x13, 0x34] = .ok (.ldarL 4 0x1341, []) ∧
  decode [0xCA, 0xB9] = .ok (.exCurReg .b 1 (.short 2), []) ∧
  decode [0xDC, 0x83] = .ok (.addCurReg .w 3 (.short 4), []) ∧
  decode [0xDD, 0x44] = .ok (.mulReg .w 4 (.short 5), []) ∧
  decode [0xF1, 0x00, 0x01, 0x9E] = .ok (.ldcfImmMem 6 (.abs16 0x100), []) ∧
  decode [0xFD] = .ok (.swi 5, []) ∧
  decode [0xD8, 0x2E, 0x40] = .ok (.ldcToCr (.dmac 0) (.short 0), []) ∧
  decode [0xDB, 0xE8, 0x04] = .ok (.rlcImmReg .w (.short 3) 4, []) ∧
  decode [0x68, 0x76] = .ok (.jr .t 0x76, [])

/-- R24, R27, R107, R110, R111: the register that each 3-bit code and each register code byte names, at each size; the
codes that are not assigned, or no multiple of the size, name none. And the names that other statements use for registers:
A and BC, the double registers (R270), the pointers and the counter of the block instructions (R205), what a block compare
compares with (R210), and the register that a mode steps (R123, R124). -/
def Obligations.RegisterNames : Prop :=
  (∀ s : State, s.a = s.readLoc (curLoc s.rfp .b 1) ∧ s.bc = s.readLoc (curLoc s.rfp .w 1)) ∧
  (∀ rfp : BitVec 2,
    bcLoc rfp = curLoc rfp .w 1 ∧
    blockDst rfp .deHl = (curLoc rfp .l 2).g ∧ blockSrc rfp .deHl = (curLoc rfp .l 3).g ∧
    blockDst rfp .ixIy = .xix ∧ blockSrc rfp .ixIy = .xiy ∧
    compareLoc rfp .b = curLoc rfp .b 1 ∧ compareLoc rfp .w = curLoc rfp .w 0 ∧
    (∀ c : BitVec 2, dblLoc rfp .b c = curLoc rfp .w (0#1 ++ c)) ∧ (∀ c : BitVec 3, dblLoc rfp .w c = curLoc rfp .l c) ∧
    (∀ (sz : Size) (c : BitVec 3), opLoc rfp (.short c : RegOp sz) = curLoc rfp sz c) ∧
    (∀ (z : SizeBW) (c : BitVec z.dblBits), dblOpLoc rfp (.short c) = dblLoc rfp z c) ∧
    (∀ (z : SizeBW) (r : Reg32) (part : BitVec z.double.partBits),
      dblOpLoc rfp (.ext r part : DblOp z) = opLoc rfp (.ext r part : RegOp z.double)) ∧
    (∀ (r : Reg32) (st : Step),
      preReg rfp (.preDec r st) = some (opLoc rfp (.ext r 0 : RegOp .l)).g ∧ postReg rfp (.preDec r st) = none ∧
      postReg rfp (.postInc r st) = some (opLoc rfp (.ext r 0 : RegOp .l)).g ∧ preReg rfp (.postInc r st) = none) ∧
    ∀ m : MemOp, autoReg rfp m = (preReg rfp m).or (postReg rfp m) ∧
      ((∀ r st, m ≠ .preDec r st) → (∀ r st, m ≠ .postInc r st) → autoReg rfp m = none)) ∧
  (∀ (rfp : BitVec 2) (c : BitVec 3),
    curLoc rfp .b c = ⟨.bank (rfp ++ c.extractLsb' 1 2), if c.toNat % 2 = 1 then 0 else 1⟩ ∧
    (c.toNat < 4 → curLoc rfp .w c = ⟨.bank (rfp ++ c.extractLsb' 0 2), 0⟩ ∧
      curLoc rfp .l c = ⟨.bank (rfp ++ c.extractLsb' 0 2), 0⟩)) ∧
  (∀ rfp : BitVec 2,
    curLoc rfp .w 4 = ⟨.xix, 0⟩ ∧ curLoc rfp .w 5 = ⟨.xiy, 0⟩ ∧ curLoc rfp .w 6 = ⟨.xiz, 0⟩ ∧
    curLoc rfp .w 7 = ⟨.xsp, 0⟩ ∧ curLoc rfp .l 4 = ⟨.xix, 0⟩ ∧ curLoc rfp .l 5 = ⟨.xiy, 0⟩ ∧
    curLoc rfp .l 6 = ⟨.xiz, 0⟩ ∧ curLoc rfp .l 7 = ⟨.xsp, 0⟩) ∧
  ∀ (sz : Size) (code : Byte),
    (ExcludedCode sz code → regOp sz (.ext code) = .error .registerCode) ∧
    (¬ ExcludedCode sz code →
      ∃ r, regOp sz (.ext code) = .ok r ∧ ∀ rfp : BitVec 2,
        (opLoc rfp r).g = codeRegister rfp code ∧ (opLoc rfp r).part.toNat = code.toNat % 4 / sz.bytes)

/-- R140, R141, R452 with R111, R126, R129, R131 to R134, R53, R270: bytes that are no instruction stop the machine, each
kind under its own name and with the address, and these bytes are of these kinds. At the step: what each error of the
decoder stops with. First bytes: blank, dummy, and the bits that EI and LDF draw as 0. Second op codes, after any register
or memory operand: blank, dummy, and defined ones under a size or a first byte that they do not have. Mode bytes that are
undefined, register codes among them. Register codes, #4 bytes, double registers and control registers; where two of these
kinds hold of one encoding, which one is named is the model's choice (assumption 25). -/
def Obligations.ForbiddenBytesStop : Prop :=
  (∀ s : State, s.Quiet → s.halted = false →
    (decode (s.fetchBytes maxLength s.pc) = .error .undefinedOp → step s = .fault (.undefinedInstruction s.pc)) ∧
    (decode (s.fetchBytes maxLength s.pc) = .error .dummyOp → step s = .fault (.dummyInstruction s.pc)) ∧
    (decode (s.fetchBytes maxLength s.pc) = .error .size → step s = .fault (.undefinedSize s.pc)) ∧
    (decode (s.fetchBytes maxLength s.pc) = .error .firstByte → step s = .fault (.undefinedFirstByte s.pc)) ∧
    (decode (s.fetchBytes maxLength s.pc) = .error .mode → step s = .fault (.undefinedMode s.pc)) ∧
    (decode (s.fetchBytes maxLength s.pc) = .error .registerCode → step s = .refused (.registerCode s.pc)) ∧
    (decode (s.fetchBytes maxLength s.pc) = .error .fixedZeroBits → step s = .refused (.fixedZeroBits s.pc)) ∧
    (decode (s.fetchBytes maxLength s.pc) = .error .doubleRegister → step s = .refused (.doubleRegister s.pc)) ∧
    (decode (s.fetchBytes maxLength s.pc) = .error .controlRegister → step s = .refused (.controlRegister s.pc))) ∧
  ∀ rest : List Byte,
    (∀ b ∈ ([0x01, 0x04, 0x50, 0x51, 0x52, 0x53, 0x54, 0x55, 0x56, 0x57, 0xC6, 0xD6, 0xE6, 0xF6, 0xF7] : List Byte),
      decode (b :: rest) = .error .undefinedOp) ∧
    decode (0x1F :: rest) = .error .dummyOp ∧
    (∀ b : Byte, 8 ≤ b.toNat → decode (0x06 :: b :: rest) = .error .fixedZeroBits) ∧
    (∀ b : Byte, 4 ≤ b.toNat → decode (0x17 :: b :: rest) = .error .fixedZeroBits) ∧
    (∀ (sz : Size) (r : RegOp sz) (op : Byte), sz ∉ regSizes op →
      decode (encodeRegOp r ++ op :: rest) = .error
        (if op ∈ ([0x1A, 0x1B, 0x1D, 0x1E, 0x1F, 0x3B, 0x3F] : List Byte) then .dummyOp
         else if regSizes op = [] then .undefinedOp else .size)) ∧
    (∀ (sz : Size) (m : MemOp) (op : Byte), sz ∉ srcSizes op →
      decode (encodeMem (sizeCode sz) m ++ op :: rest) = .error (if srcSizes op = [] then .undefinedOp else .size)) ∧
    (∀ (m : MemOp) (op : Byte), dstBlank op →
      decode (encodeMem 3 m ++ op :: rest) = .error
        (if op ∈ ([0x01, 0x05, 0x15] : List Byte) then .dummyOp else .undefinedOp)) ∧
    (∀ (z : SizeBW) (m : MemOp), m ≠ .ind 3 → m ≠ .ind 5 → ∀ op ∈ ([0x10, 0x11, 0x12, 0x13] : List Byte),
      decode (encodeMem (sizeCode z.size) m ++ op :: rest) = .error .firstByte) ∧
    (∀ (z : SizeBW) (m : MemOp), (∀ c, m ≠ .ind c) → ∀ op ∈ ([0x14, 0x15, 0x16, 0x17] : List Byte),
      decode (encodeMem (sizeCode z.size) m ++ op :: rest) = .error .firstByte) ∧
    (∀ (m : MemOp) (op : Byte), m ≠ .ind 0 → 0xF0 ≤ op.toNat →
      decode (encodeMem 3 m ++ op :: rest) = .error .firstByte) ∧
    (∀ d0 d1 op : Byte, op.toNat / 8 ≠ 4 → op.toNat / 8 ≠ 6 →
      decode (0xF3 :: 0x13 :: d0 :: d1 :: op :: rest) = .error .firstByte) ∧
    (∀ (zz : BitVec 2) (b : Byte), ¬ (zz = 3 ∧ b = 0x13) →
      (b.toNat % 4 = 2 ∨ (b.toNat % 4 = 3 ∧ b ≠ 0x03 ∧ b ≠ 0x07) ∨
        (b.toNat % 4 < 2 ∧ 0x40 ≤ b.toNat ∧ b.toNat ≤ 0xCF)) →
      decode (opByte (3#2 ++ zz ++ 0#1) 3 :: b :: rest) = .error .mode) ∧
    (∀ (zz : BitVec 2) (b c1 c2 : Byte), (b = 0x03 ∧ ExcludedCode .b c2) ∨ (b = 0x07 ∧ ExcludedCode .w c2) ∨
        ((b = 0x03 ∨ b = 0x07) ∧ ExcludedCode .l c1) →
      decode (opByte (3#2 ++ zz ++ 0#1) 3 :: b :: c1 :: c2 :: rest) = .error .mode) ∧
    (∀ (zz : BitVec 2) (k : BitVec 3) (b : Byte), k = 4 ∨ k = 5 →
      (b.toNat % 4 = 3 ∨ (0x40 ≤ b.toNat ∧ b.toNat ≤ 0xCF)) →
      decode (opByte (3#2 ++ zz ++ 0#1) k :: b :: rest) = .error .mode) ∧
    (∀ (sz : Size) (code op : Byte), ExcludedCode sz code → sz ∈ regSizes op → op ≠ 0x2E → op ≠ 0x2F →
      decode (opByte (3#2 ++ sizeCode sz ++ 0#1) 7 :: code :: op :: rest) = .error
        (if sz = .b ∧ 0x40 ≤ op.toNat ∧ op.toNat ≤ 0x5F ∧ op.toNat % 2 = 0 then .doubleRegister else .registerCode)) ∧
    (∀ (sz : Size) (code op cr : Byte), ExcludedCode sz code → op = 0x2E ∨ op = 0x2F →
      decode (opByte (3#2 ++ sizeCode sz ++ 0#1) 7 :: code :: op :: cr :: rest) = .error
        (if ctrlSize cr = some sz then .registerCode else .controlRegister)) ∧
    (∀ code : Byte, ExcludedCode .l code → ∀ op ∈ ([0x08, 0x09, 0x0A, 0x0B, 0x19] : List Byte),
      decode (0xD7 :: code :: op :: rest) = .error .registerCode) ∧
    (∀ (sz : Size) (r : RegOp sz) (op b : Byte), sz ∈ regSizes op →
      (op.toNat / 8 = 0x1D ∨ op ∈ ([0x20, 0x21, 0x22, 0x23, 0x24, 0x30, 0x31, 0x32, 0x33, 0x34] : List Byte)) →
      16 ≤ b.toNat → decode (encodeRegOp r ++ op :: b :: rest) = .error .fixedZeroBits) ∧
    (∀ (r : RegOp .b) (op : Byte), 0x40 ≤ op.toNat → op.toNat ≤ 0x5F → op.toNat % 2 = 0 →
      decode (encodeRegOp r ++ op :: rest) = .error .doubleRegister) ∧
    (∀ (m : MemOp) (op : Byte), 0x40 ≤ op.toNat → op.toNat ≤ 0x5F → op.toNat % 2 = 0 →
      decode (encodeMem (sizeCode .b) m ++ op :: rest) = .error .doubleRegister) ∧
    (∀ op ∈ ([0x08, 0x09, 0x0A, 0x0B] : List Byte),
      (∀ c : BitVec 3, c.toNat % 2 = 0 → decode (opByte 0x19 c :: op :: rest) = .error .doubleRegister) ∧
      ∀ code : Byte, ¬ ExcludedCode .b code → code.toNat % 2 = 1 →
        decode (0xC7 :: code :: op :: rest) = .error .doubleRegister) ∧
    ∀ (sz : Size) (r : RegOp sz) (op cr : Byte), op = 0x2E ∨ op = 0x2F → ctrlSize cr ≠ some sz →
      decode (encodeRegOp r ++ op :: cr :: rest) = .error .controlRegister

/-! ## The step -/

/-- R101, R456: with no request presented, and not halted, a step runs the instruction that the bytes at PC decode to,
with PC moved past the bytes that the decoder has used and the sampling point used up, when no byte of it counts as
written (assumption 12). A block compare that was under way is what runs on. -/
def Obligations.StepRunsDecodedInstruction : Prop :=
  ∀ (s : State) (i : Instr) (rest : List Byte),
    s.Quiet → s.halted = false → decode (s.fetchBytes maxLength s.pc) = .ok (i, rest) →
    (∀ k < maxLength - rest.length, (busAddr (s.pc + BitVec.ofNat 32 k)).toNat ∉ s.written) →
    step s = exec i { s with
      pc := s.pc + BitVec.ofNat 32 (maxLength - rest.length), comparing := false, host := s.host.tail }

/-- R90: an instruction one of whose bytes has been written since reset is refused (the spec's decision D9, assumption
12). -/
def Obligations.SelfModifiedCodeRefused : Prop :=
  ∀ (s : State) (i : Instr) (rest : List Byte) (k : Nat),
    s.Quiet → s.halted = false → decode (s.fetchBytes maxLength s.pc) = .ok (i, rest) →
    k < maxLength - rest.length → (busAddr (s.pc + BitVec.ofNat 32 k)).toNat ∈ s.written →
    step s = .refused (.selfModifiedCode s.pc)

/-- R357, R456, R215: a halted machine stays as it is while nothing is accepted, and a request whose level the mask turns
away, or any request inside CPIR and CPDR (the spec's decision D25), has the effect of no request, halted or not. -/
def Obligations.HaltAndMaskedRequests : Prop :=
  (∀ s : State, s.halted = true → s.host = [] → step s = .next s) ∧
  (∀ (s : State) (rest : List HostEvent), s.halted = true → s.host = .idle :: rest →
    step s = .next { s with host := rest }) ∧
  ∀ (s : State) (level : IrqLevel) (entry : BitVec 6) (rest : List HostEvent),
    s.host = .irq level entry :: rest → level.toNat < max s.iff.toNat 1 ∨ s.comparing = true →
    step s = step { s with host := .idle :: rest }

/-- R457: interrupt entry at a sampling point, at an instruction boundary and after HALT alike (inside LDIR and LDDR:
BlockTransferInterrupted; inside CPIR and CPDR there is none). PC and SR lie in the frame as RETI expects them, the mask
is one above the level, INTNEST is incremented, PC comes from the vector, and nothing else changes. The bytes of PC are
stored first, then those of SR (R86). -/
def Obligations.InterruptEntry : Prop :=
  ∀ (s : State) (level : IrqLevel) (entry : BitVec 6) (rest : List HostEvent),
    s.host = .irq level entry :: rest → max s.iff.toNat 1 ≤ level.toNat → s.comparing = false →
    ∃ t, step s = .next t ∧
      t.xsp = s.xsp - 6 ∧ t.memRead 2 (s.xsp - 6) = s.sr ∧ t.memRead 4 (s.xsp - 4) = s.pc ∧
      SameMemoryBut s t 6 (s.xsp - 6) ∧ SameRegsExcept s t [.xsp] ∧
      t.iff.toNat = min (level.toNat + 1) 7 ∧ t.intnest = s.intnest + 1 ∧
      Records s t (storesOf 4 (s.xsp - 4) s.pc ++ storesOf 2 (s.xsp - 6) s.sr) ∧
      t.pc = t.memRead 4 (0xFFFF00 + 4 * entry.setWidth 32) ∧ t.halted = false ∧
      t.comparing = false ∧ t.host = rest ∧ t.rfp = s.rfp ∧ t.flags = s.flags ∧ t.flagsAlt = s.flagsAlt ∧
      t.dmas = s.dmas ∧ t.dmad = s.dmad ∧ t.dmac = s.dmac ∧ t.dmam = s.dmam

/-- R490, R491: reset wins over everything; XSP, IFF, RFP, PC and the halt bit take their values, PC from the three bytes
at the vector base address (its upper byte 0 is the spec's decision D4). Two clauses are the model's choice and not the
rules': that every byte of memory stays (assumption 14; D5, U18 and R491 give memory no value after reset), and that the
record of written addresses is empty (assumption 12). -/
def Obligations.ResetEvent : Prop :=
  ∀ (s : State) (rest : List HostEvent), s.host = .reset :: rest →
    ∃ t, step s = .next t ∧ ResetValues t rest ∧ ∀ a, t.readByte a = s.readByte a

/-- R490, R86: a reset in the middle of what the machine does next, an instruction or the entry of an accepted request.
`u` is what it reaches, with the moment before each of its stores on the trail `l`, the last one first: memory is that of
one of these moments or of `u`, so no store stands without the earlier ones; each moment leads to the next by the very
store that it names, from the memory before to that of `u`; and a byte to which the run stores nothing stays. Which moment
it is is free: assumption 11. A stop that would have come is overtaken by the reset. XSP, IFF, RFP, PC and the halt bit
take their reset values (memory staying and the empty record are assumptions 14 and 12). -/
def Obligations.ResetWithinInstruction : Prop :=
  ∀ (s : State) (req : Option (IrqLevel × BitVec 6)) (rest : List HostEvent),
    s.host = .resetWithin req :: rest →
    ∃ t, step s = .next t ∧ ResetValues t rest ∧
      let presented := match req with
        | some (level, entry) => [HostEvent.irq level entry]
        | none => []
      let s' := { s with host := presented, trail := some [] }
      (∀ u, step s' = .next u → ∃ l, u.trail = some l ∧ LeadsTo s.mem u.mem l ∧
        t.mem ∈ u.mem :: l.map Moment.mem ∧
        ∀ a, (∀ v, Access.write a v ∉ l.map Moment.next) → t.readByte a = s.readByte a) ∧
      ((∀ v, step s' ≠ .next v) → t.mem = s.mem)

/-- R60, R491: the state after reset has the values that the spec states, PC being what its memory holds at the vector
base address (0 everywhere, as the model chooses: assumption 2), nothing in it has been written, no event is presented
(assumption 13), and it meets the machine's invariant. -/
def Obligations.ResetState : Prop :=
  State.reset.xsp = 0 ∧ State.reset.iff = 7 ∧ State.reset.rfp = 0 ∧ State.reset.halted = false ∧
  State.reset.pc = (0#8 ++ State.reset.readByte 0xFFFF02 ++ State.reset.readByte 0xFFFF01 ++
    State.reset.readByte 0xFFFF00 : Long) ∧
  State.reset.written = [] ∧ State.reset.host = [] ∧ State.reset.Inv

/-- Every step keeps the machine's invariant: memory stays in its canonical form, and the record of written addresses
rising and within the 24-bit space of R70. -/
def Obligations.InvariantKept : Prop :=
  ∀ s t : State, s.Inv → step s = .next t → t.Inv

/-- R200, R50, R52, R440: with no event presented, no instruction but EX F,F' changes F', none but LDC changes a micro
DMA register, and none but LDC and RETI changes INTNEST. -/
def Obligations.AlternateAndControlWriters : Prop :=
  ∀ (i : Instr) (s t : State), s.host = [] → exec i s = .next t →
    (i ≠ .exFF → t.flagsAlt = s.flagsAlt) ∧
    ((∀ cr r, i ≠ .ldcToCr cr r) →
      t.dmas = s.dmas ∧ t.dmad = s.dmad ∧ t.dmac = s.dmac ∧ t.dmam = s.dmam ∧
      (i ≠ .reti → t.intnest = s.intnest))

/-- R32, R33, R56: with no event presented, no instruction but EI, DI, POP SR and RETI changes the mask, none but LDF,
INCF, DECF, POP SR and RETI the bank pointer, and none but HALT the halt bit. -/
def Obligations.MaskBankHaltWriters : Prop :=
  ∀ (i : Instr) (s t : State), s.host = [] → exec i s = .next t →
    (i ≠ .di → i ≠ .popSr → i ≠ .reti → (∀ num, i ≠ .ei num) → t.iff = s.iff) ∧
    (i ≠ .incf → i ≠ .decf → i ≠ .popSr → i ≠ .reti → (∀ num, i ≠ .ldf num) → t.rfp = s.rfp) ∧
    (i ≠ .halt → t.halted = s.halted)

/-- R90: with no event presented, every byte of memory that an instruction changes is recorded as written, and nothing is
struck from the record. -/
def Obligations.StoresAreRecorded : Prop :=
  ∀ (i : Instr) (s t : State), s.host = [] → exec i s = .next t →
    (∀ a : Addr, t.readByte a ≠ s.readByte a → a.toNat ∈ t.written) ∧ ∀ a ∈ s.written, a ∈ t.written

/-- R355, R440, R454: RETI undoes SWI. From any state that has the frame of the SWI at its XSP, RETI gives back PC, XSP,
the mask, the bank pointer and the flags. -/
def Obligations.SoftwareInterruptReturn : Prop :=
  ∀ (num : BitVec 3) (s t u : State), exec (.swi num) s = .next t → u.xsp = t.xsp →
    u.memRead 2 u.xsp = t.memRead 2 t.xsp → u.memRead 4 (u.xsp + 2) = t.memRead 4 (t.xsp + 2) →
    ∃ v, exec .reti u = .next v ∧ v.pc = s.pc ∧ v.xsp = s.xsp ∧ v.iff = s.iff ∧ v.rfp = s.rfp ∧
      v.flags = s.flags ∧ SameRegsExcept u v [.xsp] ∧ SameMemory u v

/-! ## Memory, addresses, the status register, conditions -/

/-- R73, R74: a read of 1, 2 or 4 bytes is little-endian and wraps in the 24-bit space, a write stores its bytes in the
same places, and no other byte changes. -/
def Obligations.MemoryAccess : Prop :=
  ∀ (s : State) (nb : Nat) (addr : Long) (v : BitVec (8 * nb)), nb ∈ [1, 2, 4] →
    (∀ i < nb, (s.memRead nb addr).extractLsb' (8 * i) 8 = s.readByte (busAddr (addr + BitVec.ofNat 32 i)) ∧
      (s.memWrite nb addr v).readByte (busAddr (addr + BitVec.ofNat 32 i)) = v.extractLsb' (8 * i) 8) ∧
    SameMemoryBut s (s.memWrite nb addr v) nb addr ∧ SameRegs s (s.memWrite nb addr v)

/-- R115 to R124: the effective address of each addressing mode, as a sum modulo 2^32. -/
def Obligations.EffectiveAddresses : Prop :=
  ∀ s : State,
    (∀ c, s.ea (.ind c) = s.cur .l c) ∧
    (∀ c d, s.ea (.disp8 c d) = s.cur .l c + d.signExtend 32) ∧
    (∀ a, (s.ea (.abs8 a)).toNat = a.toNat) ∧ (∀ a, (s.ea (.abs16 a)).toNat = a.toNat) ∧
    (∀ a, (s.ea (.abs24 a)).toNat = a.toNat) ∧
    (∀ r, s.ea (.indReg r) = s.readOp (.ext r 0 : RegOp .l)) ∧
    (∀ r d, s.ea (.disp16 r d) = s.readOp (.ext r 0 : RegOp .l) + d.signExtend 32) ∧
    (∀ r x p, s.ea (.index8 r x p) = s.readOp (.ext r 0 : RegOp .l) + BitVec.signExtend 32 (s.readOp (.ext x p : RegOp .b))) ∧
    (∀ r x p, s.ea (.index16 r x p) = s.readOp (.ext r 0 : RegOp .l) + BitVec.signExtend 32 (s.readOp (.ext x p : RegOp .w))) ∧
    (∀ r st, s.ea (.preDec r st) = s.readOp (.ext r 0 : RegOp .l) - stepAmount st) ∧
    (∀ r st, s.ea (.postInc r st) = s.readOp (.ext r 0 : RegOp .l))

/-- R30, R31, R35, R36: the bits of SR, and of F in its low byte, with the constant bits. -/
def Obligations.StatusRegisterLayout : Prop :=
  ∀ s : State,
    s.sr.getLsbD 15 = true ∧ s.sr.extractLsb' 12 3 = s.iff ∧ s.sr.getLsbD 11 = true ∧ s.sr.getLsbD 10 = false ∧
    s.sr.extractLsb' 8 2 = s.rfp ∧ s.sr.extractLsb' 0 8 = s.flags.toByte ∧
    s.sr.getLsbD 7 = s.flags.s ∧ s.sr.getLsbD 6 = s.flags.z ∧ s.sr.getLsbD 5 = false ∧ s.sr.getLsbD 4 = s.flags.h ∧
    s.sr.getLsbD 3 = false ∧ s.sr.getLsbD 2 = s.flags.v ∧ s.sr.getLsbD 1 = s.flags.n ∧ s.sr.getLsbD 0 = s.flags.c

/-- R130, R235: the sixteen conditions as functions of the flags, and, after a comparison of `a` with `b`, what they say
of `a` and `b`, signed and unsigned. -/
def Obligations.CompareConditions : Prop :=
  (∀ f : Flags,
    condHolds .f f = false ∧ condHolds .lt f = (f.s ^^ f.v) ∧ condHolds .le f = (f.z || (f.s ^^ f.v)) ∧
    condHolds .ule f = (f.c || f.z) ∧ condHolds .ov f = f.v ∧ condHolds .mi f = f.s ∧ condHolds .z f = f.z ∧
    condHolds .c f = f.c ∧ condHolds .t f = true ∧ condHolds .ge f = !(f.s ^^ f.v) ∧
    condHolds .gt f = !(f.z || (f.s ^^ f.v)) ∧ condHolds .ugt f = !(f.c || f.z) ∧ condHolds .nov f = !f.v ∧
    condHolds .pl f = !f.s ∧ condHolds .nz f = !f.z ∧ condHolds .nc f = !f.c) ∧
  ∀ (n : Nat) (a b : BitVec n) (f : Flags), 0 < n → SubFlags a b false f →
    (condHolds .z f = true ↔ a = b) ∧ (condHolds .nz f = true ↔ a ≠ b) ∧
    (condHolds .c f = true ↔ a.toNat < b.toNat) ∧ (condHolds .nc f = true ↔ b.toNat ≤ a.toNat) ∧
    (condHolds .ule f = true ↔ a.toNat ≤ b.toNat) ∧ (condHolds .ugt f = true ↔ b.toNat < a.toNat) ∧
    (condHolds .lt f = true ↔ a.toInt < b.toInt) ∧ (condHolds .ge f = true ↔ b.toInt ≤ a.toInt) ∧
    (condHolds .le f = true ↔ a.toInt ≤ b.toInt) ∧ (condHolds .gt f = true ↔ b.toInt < a.toInt) ∧
    (condHolds .ov f = true ↔ (a - b).toInt ≠ a.toInt - b.toInt) ∧
    (condHolds .nov f = true ↔ (a - b).toInt = a.toInt - b.toInt) ∧
    (condHolds .mi f = true ↔ (a - b).toInt < 0) ∧ (condHolds .pl f = true ↔ 0 ≤ (a - b).toInt) ∧
    condHolds .t f = true ∧ condHolds .f f = false

/-! ## Loads -/

/-- R161 to R165: the loads of a register from a register or an immediate. -/
def Obligations.LoadRegister : Prop :=
  ∀ s : State,
    (∀ (sz : Size) (R : BitVec 3) (r : RegOp sz), ∃ t, exec (.ldCurReg sz R r) s = .next t ∧
      LoadsReg s t (curLoc s.rfp sz R) (s.readLoc (opLoc s.rfp r))) ∧
    (∀ (sz : Size) (r : RegOp sz) (R : BitVec 3), ∃ t, exec (.ldRegCur sz r R) s = .next t ∧
      LoadsReg s t (opLoc s.rfp r) (s.readLoc (curLoc s.rfp sz R))) ∧
    (∀ (sz : Size) (r : RegOp sz) (imm : BitVec 3), ∃ t, exec (.ldRegImm3 sz r imm) s = .next t ∧
      LoadsReg s t (opLoc s.rfp r) (imm.setWidth sz.bits)) ∧
    (∀ (R : BitVec 3) (imm : Byte), ∃ t, exec (.ldCurImmB R imm) s = .next t ∧ LoadsReg s t (curLoc s.rfp .b R) imm) ∧
    (∀ (R : BitVec 3) (imm : Word), ∃ t, exec (.ldCurImmW R imm) s = .next t ∧ LoadsReg s t (curLoc s.rfp .w R) imm) ∧
    (∀ (R : BitVec 3) (imm : Long), ∃ t, exec (.ldCurImmL R imm) s = .next t ∧ LoadsReg s t (curLoc s.rfp .l R) imm) ∧
    ∀ (sz : Size) (r : RegOp sz) (imm : BitVec sz.bits), ∃ t, exec (.ldRegImm sz r imm) s = .next t ∧
      LoadsReg s t (opLoc s.rfp r) imm

/-- R166: a register is loaded from memory, and the register of the mode steps. Where the mode steps the register that is
loaded, before or after, the spec gives no value (R166, R505, D19, assumption 5). -/
def Obligations.LoadFromMemory : Prop :=
  ∀ (s : State) (sz : Size) (R : BitVec 3) (m : MemOp), ∃ t, exec (.ldCurMem sz R m) s = .next t ∧
    (autoReg s.rfp m ≠ some (curLoc s.rfp sz R).g →
      t.readLoc (curLoc s.rfp sz R) = s.memRead sz.bytes (s.ea m)) ∧
    MovedRegsBut s t m (curLoc s.rfp sz R) ∧ SameMemory s t ∧ SameOutside s t

/-- R167, R168, R169: the stores of a current register and of an immediate. Where the mode pre-decrements the register
that is stored, the spec gives no value (R505, assumption 5). -/
def Obligations.StoreToMemory : Prop :=
  ∀ s : State,
    (∀ (m : MemOp) (R : BitVec 3), ∃ t v, exec (.ldMemCurB m R) s = .next t ∧ Stores s t m 1 v ∧
      (preReg s.rfp m ≠ some (curLoc s.rfp .b R).g → v = s.readLoc (curLoc s.rfp .b R))) ∧
    (∀ (m : MemOp) (R : BitVec 3), ∃ t v, exec (.ldMemCurW m R) s = .next t ∧ Stores s t m 2 v ∧
      (preReg s.rfp m ≠ some (curLoc s.rfp .w R).g → v = s.readLoc (curLoc s.rfp .w R))) ∧
    (∀ (m : MemOp) (R : BitVec 3), ∃ t v, exec (.ldMemCurL m R) s = .next t ∧ Stores s t m 4 v ∧
      (preReg s.rfp m ≠ some (curLoc s.rfp .l R).g → v = s.readLoc (curLoc s.rfp .l R))) ∧
    (∀ (a imm : Byte), ∃ t, exec (.ldAbs8ImmB a imm) s = .next t ∧ Stores s t (.abs8 a) 1 imm) ∧
    (∀ (a : Byte) (imm : Word), ∃ t, exec (.ldAbs8ImmW a imm) s = .next t ∧ Stores s t (.abs8 a) 2 imm) ∧
    (∀ (m : MemOp) (imm : Byte), ∃ t, exec (.ldMemImmB m imm) s = .next t ∧ Stores s t m 1 imm) ∧
    ∀ (m : MemOp) (imm : Word), ∃ t, exec (.ldMemImmW m imm) s = .next t ∧ Stores s t m 2 imm

/-- R170, R171: the two loads from memory to memory. -/
def Obligations.MemoryToMemory : Prop :=
  ∀ s : State,
    (∀ (z : SizeBW) (a : Word) (m : MemOp), ∃ t, exec (.ldAbs16Mem z a m) s = .next t ∧
      t.memRead z.size.bytes (a.setWidth 32) = s.memRead z.size.bytes (s.ea m) ∧
      SameMemoryBut s t z.size.bytes (a.setWidth 32) ∧ MovedRegs s t m ∧ SameOutside s t) ∧
    (∀ (m : MemOp) (a : Word), ∃ t, exec (.ldMemAbs16B m a) s = .next t ∧
      Stores s t m 1 (s.memRead 1 (a.setWidth 32))) ∧
    ∀ (m : MemOp) (a : Word), ∃ t, exec (.ldMemAbs16W m a) s = .next t ∧
      Stores s t m 2 (s.memRead 2 (a.setWidth 32))

/-- R172 to R177, R353: the pushes of F, SR, registers and immediates. The value of a pushed part of XSP is not given by
the spec (R175, R505, assumption 5). -/
def Obligations.PushValues : Prop :=
  ∀ s : State,
    (∃ t, exec .pushF s = .next t ∧ Pushes s t 1 s.flags.toByte ∧ SameOutside s t) ∧
    (∃ t, exec .pushSr s = .next t ∧ Pushes s t 2 s.sr ∧ SameOutside s t) ∧
    (∃ t, exec .pushA s = .next t ∧ Pushes s t 1 (s.readLoc (curLoc s.rfp .b 1)) ∧ SameOutside s t) ∧
    (∀ R : BitVec 3, ∃ t, exec (.pushCurW R) s = .next t ∧ PushesBytes s t 2 ∧ SameOutside s t ∧
      ((curLoc s.rfp .w R).g ≠ .xsp → Pushes s t 2 (s.readLoc (curLoc s.rfp .w R)))) ∧
    (∀ R : BitVec 3, ∃ t, exec (.pushCurL R) s = .next t ∧ PushesBytes s t 4 ∧ SameOutside s t ∧
      ((curLoc s.rfp .l R).g ≠ .xsp → Pushes s t 4 (s.readLoc (curLoc s.rfp .l R)))) ∧
    (∀ (sz : Size) (r : RegOp sz), ∃ t, exec (.pushReg sz r) s = .next t ∧ PushesBytes s t sz.bytes ∧
      SameOutside s t ∧ ((opLoc s.rfp r).g ≠ .xsp → Pushes s t sz.bytes (s.readLoc (opLoc s.rfp r)))) ∧
    (∀ imm : Byte, ∃ t, exec (.pushImmB imm) s = .next t ∧ Pushes s t 1 imm ∧ SameOutside s t) ∧
    ∀ imm : Word, ∃ t, exec (.pushImmW imm) s = .next t ∧ Pushes s t 2 imm ∧ SameOutside s t

/-- R178, R180 to R183, R354: the pops of F, SR, A and registers. A pop to a part of XSP is not given a value by the spec
(R182, R505, assumption 5). -/
def Obligations.PopValues : Prop :=
  ∀ s : State,
    (∃ t, exec .popF s = .next t ∧ t.xsp = s.xsp + 1 ∧
      t.flags.s = (s.readByte (busAddr s.xsp)).getLsbD 7 ∧ t.flags.z = (s.readByte (busAddr s.xsp)).getLsbD 6 ∧
      t.flags.h = (s.readByte (busAddr s.xsp)).getLsbD 4 ∧ t.flags.v = (s.readByte (busAddr s.xsp)).getLsbD 2 ∧
      t.flags.n = (s.readByte (busAddr s.xsp)).getLsbD 1 ∧ t.flags.c = (s.readByte (busAddr s.xsp)).getLsbD 0 ∧
      SameRegsExcept s t [.xsp] ∧ SameMemory s t ∧ t.pc = s.pc ∧ SameRest s t) ∧
    (∃ t, exec .popSr s = .next t ∧ t.xsp = s.xsp + 2 ∧
      t.iff = (s.readByte (busAddr (s.xsp + 1))).extractLsb' 4 3 ∧
      t.rfp = (s.readByte (busAddr (s.xsp + 1))).extractLsb' 0 2 ∧
      t.flags.toByte = s.readByte (busAddr s.xsp) &&& 0xD7 ∧
      SameRegsExcept s t [.xsp] ∧ SameMemory s t ∧ t.pc = s.pc ∧ t.flagsAlt = s.flagsAlt ∧ t.dmas = s.dmas ∧
      t.dmad = s.dmad ∧ t.dmac = s.dmac ∧ t.dmam = s.dmam ∧ t.intnest = s.intnest ∧ t.halted = s.halted ∧
      t.host = s.host) ∧
    (∃ t, exec .popA s = .next t ∧ PopsInto s t (curLoc s.rfp .b 1)) ∧
    (∀ R : BitVec 3, ∃ t, exec (.popCurW R) s = .next t ∧ PopsInto s t (curLoc s.rfp .w R)) ∧
    (∀ R : BitVec 3, ∃ t, exec (.popCurL R) s = .next t ∧ PopsInto s t (curLoc s.rfp .l R)) ∧
    ∀ (sz : Size) (r : RegOp sz), ∃ t, exec (.popReg sz r) s = .next t ∧ PopsInto s t (opLoc s.rfp r)

/-- R179, R184: the push of a memory operand and the pop to one. XSP ends at its value after the step of the mode, moved
by the operand; with `(-XSP)` and `(XSP+)` the spec has no order of the two, and the access to the stack is at XSP before
or after the step (R505, D19, assumption 5). -/
def Obligations.PushPopMemory : Prop :=
  ∀ s : State,
    (∀ (z : SizeBW) (m : MemOp), ∃ t p, exec (.pushMem z m) s = .next t ∧
      t.xsp = s.movedReg m .xsp - BitVec.ofNat 32 z.size.bytes ∧ (∀ g, g ≠ .xsp → t.reg g = s.movedReg m g) ∧
      (p = s.movedReg m .xsp - BitVec.ofNat 32 z.size.bytes ∨
        (autoReg s.rfp m = some .xsp ∧ p = s.xsp - BitVec.ofNat 32 z.size.bytes)) ∧
      t.memRead z.size.bytes p = s.memRead z.size.bytes (s.ea m) ∧ SameMemoryBut s t z.size.bytes p ∧
      SameOutside s t) ∧
    (∀ m : MemOp, ∃ t q, exec (.popMemB m) s = .next t ∧
      t.xsp = s.movedReg m .xsp + 1 ∧ (∀ g, g ≠ .xsp → t.reg g = s.movedReg m g) ∧
      (q = s.movedReg m .xsp ∨ (autoReg s.rfp m = some .xsp ∧ q = s.xsp)) ∧
      t.memRead 1 (s.ea m) = s.memRead 1 q ∧ SameMemoryBut s t 1 (s.ea m) ∧ SameOutside s t) ∧
    ∀ m : MemOp, ∃ t q, exec (.popMemW m) s = .next t ∧
      t.xsp = s.movedReg m .xsp + 2 ∧ (∀ g, g ≠ .xsp → t.reg g = s.movedReg m g) ∧
      (q = s.movedReg m .xsp ∨ (autoReg s.rfp m = some .xsp ∧ q = s.xsp)) ∧
      t.memRead 2 (s.ea m) = s.memRead 2 q ∧ SameMemoryBut s t 2 (s.ea m) ∧ SameOutside s t

/-- R185, R186: the effective address, cut to the register, is loaded, and memory is not accessed. Whether `(-r32)` and
`(r32+)` step their register here the spec does not say (D29, assumption 6), and a register loaded that the mode moves is
not told (D19, assumption 5). -/
def Obligations.LoadAddress : Prop :=
  ∀ s : State,
    (∀ (R : BitVec 3) (m : MemOp), ∃ t, exec (.ldaW R m) s = .next t ∧
      (autoReg s.rfp m ≠ some (curLoc s.rfp .w R).g →
        t.readLoc (curLoc s.rfp .w R) = (s.ea m).setWidth 16 ∧
        ∀ k, ¬ (curLoc s.rfp .w R).covers (curLoc s.rfp .w R).g k →
          t.regByte (curLoc s.rfp .w R).g k = s.regByte (curLoc s.rfp .w R).g k) ∧
      (∀ g, g ≠ (curLoc s.rfp .w R).g → t.reg g = s.reg g ∨ t.reg g = s.movedReg m g) ∧
      SameMemory s t ∧ SameOutside s t) ∧
    (∀ (R : BitVec 3) (m : MemOp), ∃ t, exec (.ldaL R m) s = .next t ∧
      (autoReg s.rfp m ≠ some (curLoc s.rfp .l R).g →
        t.readLoc (curLoc s.rfp .l R) = s.ea m) ∧
      (∀ g, g ≠ (curLoc s.rfp .l R).g → t.reg g = s.reg g ∨ t.reg g = s.movedReg m g) ∧
      SameMemory s t ∧ SameOutside s t) ∧
    (∀ (R : BitVec 3) (d : Word), ∃ t, exec (.ldarW R d) s = .next t ∧
      LoadsReg s t (curLoc s.rfp .w R) ((s.pc - 5 + 4 + d.signExtend 32).setWidth 16)) ∧
    ∀ (R : BitVec 3) (d : Word), ∃ t, exec (.ldarL R d) s = .next t ∧
      LoadsReg s t (curLoc s.rfp .l R) (s.pc - 5 + 4 + d.signExtend 32)

/-! ## Exchange, block transfer, block compare -/

/-- R201, R202: two registers, or a register and memory, exchange their contents. Where the mode of EX (mem),R moves the
register of R itself, the spec gives no order and refuses the form (R505, D19); that it runs, with free values in place of
the ones not told here, is assumption 5. -/
def Obligations.ExchangeOperands : Prop :=
  ∀ s : State,
    (∀ (z : SizeBW) (R : BitVec 3) (r : RegOp z.size), ∃ t, exec (.exCurReg z R r) s = .next t ∧
      t.readLoc (curLoc s.rfp z.size R) = s.readLoc (opLoc s.rfp r) ∧
      t.readLoc (opLoc s.rfp r) = s.readLoc (curLoc s.rfp z.size R) ∧
      (∀ g k, ¬ (curLoc s.rfp z.size R).covers g k → ¬ (opLoc s.rfp r).covers g k → t.regByte g k = s.regByte g k) ∧
      SameMemory s t ∧ SameOutside s t) ∧
    ∀ (z : SizeBW) (m : MemOp) (R : BitVec 3), ∃ t, exec (.exMemCur z m R) s = .next t ∧
      (autoReg s.rfp m ≠ some (curLoc s.rfp z.size R).g →
        t.readLoc (curLoc s.rfp z.size R) = s.memRead z.size.bytes (s.ea m)) ∧
      (preReg s.rfp m ≠ some (curLoc s.rfp z.size R).g →
        t.memRead z.size.bytes (s.ea m) = s.readLoc (curLoc s.rfp z.size R)) ∧
      SameMemoryBut s t z.size.bytes (s.ea m) ∧ MovedRegsBut s t m (curLoc s.rfp z.size R) ∧ SameOutside s t

/-- R205, R206, R208: one item is copied from where the source pointer points to where the destination pointer points,
both pointers move, BC counts down, H and N are 0 and V tells whether BC is not 0. -/
def Obligations.BlockTransferOnce : Prop :=
  ∀ (s : State) (z : SizeBW) (p : BlockPair) (up : Bool),
    ∃ t, exec (if up then .ldi z p else .ldd z p) s = .next t ∧
      t.memRead z.size.bytes (s.reg (blockDst s.rfp p)) = s.memRead z.size.bytes (s.reg (blockSrc s.rfp p)) ∧
      SameMemoryBut s t z.size.bytes (s.reg (blockDst s.rfp p)) ∧
      t.reg (blockDst s.rfp p) = pointerAfter up z.size.bytes 1 (s.reg (blockDst s.rfp p)) ∧
      t.reg (blockSrc s.rfp p) = pointerAfter up z.size.bytes 1 (s.reg (blockSrc s.rfp p)) ∧
      t.bc = s.bc - 1 ∧
      (∀ g k, g ≠ blockDst s.rfp p → g ≠ blockSrc s.rfp p → ¬ (bcLoc s.rfp).covers g k →
        t.regByte g k = s.regByte g k) ∧
      t.flags = { s.flags with h := false, v := t.bc != 0, n := false } ∧ t.pc = s.pc ∧ SameRest s t

/-- R207, R209: with no event presented, LDIR and LDDR copy BC items (65536 when BC is 0): the pointers move over all of
them, BC ends at 0, H, V and N are 0, no byte outside the destination changes, when source and destination are disjoint
every byte arrives, and, overlapping or not, with more than one item to do the instruction is LDI or LDD followed by
itself. -/
def Obligations.BlockTransferRepeat : Prop :=
  ∀ (s : State) (z : SizeBW) (p : BlockPair) (up : Bool), s.host = [] →
    ∃ t, exec (if up then .ldir z p else .lddr z p) s = .next t ∧
      t.reg (blockDst s.rfp p) = pointerAfter up z.size.bytes s.blockCount (s.reg (blockDst s.rfp p)) ∧
      t.reg (blockSrc s.rfp p) = pointerAfter up z.size.bytes s.blockCount (s.reg (blockSrc s.rfp p)) ∧
      t.bc = 0 ∧
      (∀ g k, g ≠ blockDst s.rfp p → g ≠ blockSrc s.rfp p → ¬ (bcLoc s.rfp).covers g k →
        t.regByte g k = s.regByte g k) ∧
      t.flags = { s.flags with h := false, v := false, n := false } ∧ t.pc = s.pc ∧ SameRest s t ∧
      (∀ a, (∀ j < s.blockCount, ∀ i < z.size.bytes,
          a ≠ busAddr (pointerAfter up z.size.bytes j (s.reg (blockDst s.rfp p)) + BitVec.ofNat 32 i)) →
        t.readByte a = s.readByte a) ∧
      ((∀ j < s.blockCount, ∀ j' < s.blockCount, ∀ i < z.size.bytes, ∀ i' < z.size.bytes,
          busAddr (pointerAfter up z.size.bytes j (s.reg (blockDst s.rfp p)) + BitVec.ofNat 32 i) ≠
          busAddr (pointerAfter up z.size.bytes j' (s.reg (blockSrc s.rfp p)) + BitVec.ofNat 32 i')) →
        ∀ j < s.blockCount,
          t.memRead z.size.bytes (pointerAfter up z.size.bytes j (s.reg (blockDst s.rfp p))) =
          s.memRead z.size.bytes (pointerAfter up z.size.bytes j (s.reg (blockSrc s.rfp p)))) ∧
      ∀ u, s.bc ≠ 1 → exec (if up then .ldi z p else .ldd z p) s = .next u →
        exec (if up then .ldir z p else .lddr z p) u = .next t

/-- R215, R457: a request that is accepted after the first of several items enters the interrupt with the progress made
in memory and the registers and, as the model chooses with the spec's default (D25, assumption 10), the address of the
block instruction itself as the saved PC; H, V and N of the saved SR are not told. Nothing else changes. -/
def Obligations.BlockTransferInterrupted : Prop :=
  ∀ (s : State) (z : SizeBW) (p : BlockPair) (up : Bool) (level : IrqLevel) (entry : BitVec 6) (rest : List HostEvent),
    s.host = .irq level entry :: rest → max s.iff.toNat 1 ≤ level.toNat → s.comparing = false → s.bc ≠ 1 →
    ∃ t, exec (if up then .ldir z p else .lddr z p) s = .next t ∧
      t.reg (blockDst s.rfp p) = pointerAfter up z.size.bytes 1 (s.reg (blockDst s.rfp p)) ∧
      t.reg (blockSrc s.rfp p) = pointerAfter up z.size.bytes 1 (s.reg (blockSrc s.rfp p)) ∧
      t.bc = s.bc - 1 ∧ t.xsp = s.xsp - 6 ∧ t.memRead 4 (s.xsp - 4) = s.pc - 2 ∧
      (t.memRead 2 (s.xsp - 6) &&& 0xFFE9) = (s.sr &&& 0xFFE9) ∧
      t.iff.toNat = min (level.toNat + 1) 7 ∧ t.intnest = s.intnest + 1 ∧
      t.pc = t.memRead 4 (0xFFFF00 + 4 * entry.setWidth 32) ∧ t.host = rest ∧ t.rfp = s.rfp ∧
      t.flags.s = s.flags.s ∧ t.flags.z = s.flags.z ∧ t.flags.c = s.flags.c ∧ t.flagsAlt = s.flagsAlt ∧
      t.dmas = s.dmas ∧ t.dmad = s.dmad ∧ t.dmac = s.dmac ∧ t.dmam = s.dmam ∧ t.halted = false ∧
      t.comparing = false ∧
      (∀ g k, g ≠ .xsp → g ≠ blockDst s.rfp p → g ≠ blockSrc s.rfp p → ¬ (bcLoc s.rfp).covers g k →
        t.regByte g k = s.regByte g k) ∧
      (∀ i < z.size.bytes, (∀ j < 6, busAddr (s.reg (blockDst s.rfp p) + BitVec.ofNat 32 i) ≠
          busAddr (s.xsp - 6 + BitVec.ofNat 32 j)) →
        t.readByte (busAddr (s.reg (blockDst s.rfp p) + BitVec.ofNat 32 i)) =
          s.readByte (busAddr (s.reg (blockSrc s.rfp p) + BitVec.ofNat 32 i))) ∧
      ∀ a, (∀ i < z.size.bytes, a ≠ busAddr (s.reg (blockDst s.rfp p) + BitVec.ofNat 32 i)) →
        (∀ i < 6, a ≠ busAddr (s.xsp - 6 + BitVec.ofNat 32 i)) → t.readByte a = s.readByte a

/-- R210, R211, R213: A or WA is compared with the item at the pointer, the pointer moves and BC counts down; when the
pointer is XBC both happen to it, in this order (read from the order of the text: assumption 7). -/
def Obligations.BlockCompareOnce : Prop :=
  ∀ (s : State) (z : SizeBW) (R : BitVec 3) (up : Bool),
    ∃ t, exec (if up then .cpi z R else .cpd z R) s = .next t ∧
      t.readLoc (curLoc s.rfp .l R) = comparePointerAfter R up z.size.bytes 1 (s.readLoc (curLoc s.rfp .l R)) ∧
      (R ≠ 1 → t.bc = s.bc - 1) ∧
      (∀ g k, g ≠ (curLoc s.rfp .l R).g → ¬ (bcLoc s.rfp).covers g k → t.regByte g k = s.regByte g k) ∧
      t.flags.s = (s.readLoc (compareLoc s.rfp z) - s.memRead z.size.bytes (s.readLoc (curLoc s.rfp .l R))).msb ∧
      (t.flags.z = true ↔ s.readLoc (compareLoc s.rfp z) = s.memRead z.size.bytes (s.readLoc (curLoc s.rfp .l R))) ∧
      (t.flags.h = true ↔ (s.readLoc (compareLoc s.rfp z)).toNat % 16 <
        (s.memRead z.size.bytes (s.readLoc (curLoc s.rfp .l R))).toNat % 16) ∧
      (t.flags.v = true ↔ t.bc ≠ 0) ∧ t.flags.n = true ∧ t.flags.c = s.flags.c ∧
      SameMemory s t ∧ t.pc = s.pc ∧ SameRest s t

/-- R212, R214: CPIR and CPDR compare item after item, until one is equal to A or WA (which moves along when XWA is the
pointer) or BC is 0. BC counts down by 1 an item, but when XBC is the pointer BC is its lower half and moves with it, so
that neither need ever happen: after 65536 items the instruction is then still under way, at PC (assumption 7). -/
def Obligations.BlockCompareRepeat : Prop :=
  ∀ (s : State) (z : SizeBW) (R : BitVec 3) (up : Bool),
    let item := fun j => comparePointerAfter R up z.size.bytes j (s.readLoc (curLoc s.rfp .l R))
    let src1 := fun j : Nat => if R = 0 then (item j).setWidth z.size.bits else s.readLoc (compareLoc s.rfp z)
    let count := fun j : Nat => if R = 1 then (item j).setWidth 16 else s.bc - BitVec.ofNat 16 j
    let last := fun j : Nat => s.memRead z.size.bytes (item j) = src1 j ∨ count (j + 1) = 0
    ∃ t k, exec (if up then .cpir z R else .cpdr z R) s = .next t ∧
      k < 65536 ∧ t.readLoc (curLoc s.rfp .l R) = item (k + 1) ∧ t.bc = count (k + 1) ∧ (∀ j < k, ¬ last j) ∧
      (last k → t.pc = s.pc ∧ t.comparing = s.comparing) ∧
      (¬ last k → R = 1 ∧ k = 65535 ∧ t.pc = s.pc - 2 ∧ t.comparing = true) ∧
      (t.flags.z = true ↔ s.memRead z.size.bytes (item k) = src1 k) ∧
      t.flags.s = (src1 k - s.memRead z.size.bytes (item k)).msb ∧
      (t.flags.h = true ↔ (src1 k).toNat % 16 < (s.memRead z.size.bytes (item k)).toNat % 16) ∧
      (t.flags.v = true ↔ t.bc ≠ 0) ∧
      (∀ g k, g ≠ (curLoc s.rfp .l R).g → ¬ (bcLoc s.rfp).covers g k → t.regByte g k = s.regByte g k) ∧
      t.flags.n = true ∧ t.flags.c = s.flags.c ∧ SameMemory s t ∧ SameRest s { t with comparing := s.comparing }

/-! ## Arithmetic and logic -/

/-- R230 to R235, R300 to R303: the forms `op R,r` and `op r,#` of ADD, ADC, SUB, SBC, AND, XOR, OR, CP, and
`CP r,#3`. -/
def Obligations.TwoOperandRegister : Prop :=
  ∀ s : State,
    (∀ (op : AluOp) (sz : Size) (R : BitVec 3) (r : RegOp sz), ∃ t v, exec (op.curReg sz R r) s = .next t ∧
      TwoOperand op (s.readLoc (curLoc s.rfp sz R)) (s.readLoc (opLoc s.rfp r)) s.flags.c v t.flags ∧
      AluRegs op s t (curLoc s.rfp sz R) v ∧ SameMemory s t ∧ t.pc = s.pc ∧ SameRest s t) ∧
    (∀ (op : AluOp) (sz : Size) (r : RegOp sz) (imm : BitVec sz.bits), ∃ t v, exec (op.regImm sz r imm) s = .next t ∧
      TwoOperand op (s.readLoc (opLoc s.rfp r)) imm s.flags.c v t.flags ∧
      AluRegs op s t (opLoc s.rfp r) v ∧ SameMemory s t ∧ t.pc = s.pc ∧ SameRest s t) ∧
    ∀ (z : SizeBW) (r : RegOp z.size) (imm : BitVec 3), ∃ t, exec (.cpRegImm3 z r imm) s = .next t ∧
      SubFlags (s.readLoc (opLoc s.rfp r)) (imm.setWidth z.size.bits) false t.flags ∧
      SameRegs s t ∧ SameMemory s t ∧ t.pc = s.pc ∧ SameRest s t

/-- R230 to R235, R300 to R303: the forms `op R,(mem)`, `op (mem),R` and `op<W> (mem),#`. Where the mode moves the
register operand itself, the spec gives no order (R505, assumption 5), and its value and the flags, or the value it is
left with, are not told. -/
def Obligations.TwoOperandMemory : Prop :=
  ∀ s : State,
    (∀ (op : AluOp) (sz : Size) (R : BitVec 3) (m : MemOp), ∃ t v, exec (op.curMem sz R m) s = .next t ∧
      (preReg s.rfp m ≠ some (curLoc s.rfp sz R).g →
        TwoOperand op (s.readLoc (curLoc s.rfp sz R)) (s.memRead sz.bytes (s.ea m)) s.flags.c v t.flags) ∧
      (if op = .cp then MovedRegs s t m
       else (autoReg s.rfp m ≠ some (curLoc s.rfp sz R).g → t.readLoc (curLoc s.rfp sz R) = v) ∧
        MovedRegsBut s t m (curLoc s.rfp sz R)) ∧
      SameMemory s t ∧ t.pc = s.pc ∧ SameRest s t) ∧
    (∀ (op : AluOp) (sz : Size) (m : MemOp) (R : BitVec 3), ∃ t v, exec (op.memCur sz m R) s = .next t ∧
      (preReg s.rfp m ≠ some (curLoc s.rfp sz R).g →
        TwoOperand op (s.memRead sz.bytes (s.ea m)) (s.readLoc (curLoc s.rfp sz R)) s.flags.c v t.flags) ∧
      AluMemory op s t sz.bytes (s.ea m) v ∧ MovedRegs s t m ∧ t.pc = s.pc ∧ SameRest s t) ∧
    ∀ (op : AluOp) (z : SizeBW) (m : MemOp) (imm : BitVec z.size.bits), ∃ t v, exec (op.memImm z m imm) s = .next t ∧
      TwoOperand op (s.memRead z.size.bytes (s.ea m)) imm s.flags.c v t.flags ∧
      AluMemory op s t z.size.bytes (s.ea m) v ∧ MovedRegs s t m ∧ t.pc = s.pc ∧ SameRest s t

/-- R236, R237: INC and DEC by 1 to 8, of registers, where only a byte changes the flags, and of memory; C never
changes. -/
def Obligations.IncrementDecrement : Prop :=
  ∀ s : State,
    (∀ (sz : Size) (r : RegOp sz) (num : BitVec 3),
      (∃ t, exec (.incReg sz r num) s = .next t ∧
        LoadsRegFlags s t (opLoc s.rfp r) (s.readLoc (opLoc s.rfp r) + BitVec.ofNat sz.bits (fieldCount8 num)) fun f =>
          if sz = .b then ∃ f', AddFlags (s.readLoc (opLoc s.rfp r)) (BitVec.ofNat sz.bits (fieldCount8 num)) false f' ∧
            f = { f' with c := s.flags.c }
          else f = s.flags) ∧
      ∃ t, exec (.decReg sz r num) s = .next t ∧
        LoadsRegFlags s t (opLoc s.rfp r) (s.readLoc (opLoc s.rfp r) - BitVec.ofNat sz.bits (fieldCount8 num)) fun f =>
          if sz = .b then ∃ f', SubFlags (s.readLoc (opLoc s.rfp r)) (BitVec.ofNat sz.bits (fieldCount8 num)) false f' ∧
            f = { f' with c := s.flags.c }
          else f = s.flags) ∧
    ∀ (z : SizeBW) (num : BitVec 3) (m : MemOp),
      (∃ t f, exec (.incMem z num m) s = .next t ∧
        t.memRead z.size.bytes (s.ea m) =
          s.memRead z.size.bytes (s.ea m) + BitVec.ofNat z.size.bits (fieldCount8 num) ∧
        AddFlags (s.memRead z.size.bytes (s.ea m)) (BitVec.ofNat z.size.bits (fieldCount8 num)) false f ∧
        t.flags = { f with c := s.flags.c } ∧
        SameMemoryBut s t z.size.bytes (s.ea m) ∧ MovedRegs s t m ∧ t.pc = s.pc ∧ SameRest s t) ∧
      ∃ t f, exec (.decMem z num m) s = .next t ∧
        t.memRead z.size.bytes (s.ea m) =
          s.memRead z.size.bytes (s.ea m) - BitVec.ofNat z.size.bits (fieldCount8 num) ∧
        SubFlags (s.memRead z.size.bytes (s.ea m)) (BitVec.ofNat z.size.bits (fieldCount8 num)) false f ∧
        t.flags = { f with c := s.flags.c } ∧
        SameMemoryBut s t z.size.bytes (s.ea m) ∧ MovedRegs s t m ∧ t.pc = s.pc ∧ SameRest s t

/-- R203, R238 to R241, R304: NEG, CPL, EXTZ, EXTS, PAA and MIRR. -/
def Obligations.UnaryRegister : Prop :=
  ∀ s : State,
    (∀ (z : SizeBW) (r : RegOp z.size), ∃ t, exec (.neg z r) s = .next t ∧
      LoadsRegFlags s t (opLoc s.rfp r) (-s.readLoc (opLoc s.rfp r)) (SubFlags 0 (s.readLoc (opLoc s.rfp r)) false)) ∧
    (∀ (z : SizeBW) (r : RegOp z.size), ∃ t, exec (.cpl z r) s = .next t ∧
      LoadsRegFlags s t (opLoc s.rfp r) (~~~s.readLoc (opLoc s.rfp r)) (· = { s.flags with h := true, n := true })) ∧
    (∀ (z : SizeWL) (r : RegOp z.size), ∃ t v, exec (.extz z r) s = .next t ∧ LoadsReg s t (opLoc s.rfp r) v ∧
      v.toNat = (s.readLoc (opLoc s.rfp r)).toNat % 2 ^ (z.size.bits / 2)) ∧
    (∀ (z : SizeWL) (r : RegOp z.size), ∃ t v, exec (.exts z r) s = .next t ∧ LoadsReg s t (opLoc s.rfp r) v ∧
      v.toInt = ((s.readLoc (opLoc s.rfp r)).setWidth (z.size.bits / 2)).toInt) ∧
    (∀ (z : SizeWL) (r : RegOp z.size), ∃ t, exec (.paa z r) s = .next t ∧
      LoadsReg s t (opLoc s.rfp r)
        (if (s.readLoc (opLoc s.rfp r)).toNat % 2 = 1 then s.readLoc (opLoc s.rfp r) + 1
         else s.readLoc (opLoc s.rfp r))) ∧
    ∀ r : RegOp .w, ∃ t v, exec (.mirr r) s = .next t ∧ LoadsReg s t (opLoc s.rfp r) v ∧
      ∀ i < 16, v.getLsbD i = (s.readLoc (opLoc s.rfp r)).getLsbD (15 - i)

/-- R242, R243: DAA adds the adjustment of the row that covers the operand and the flags N, C and H before, and sets the
flags from it; N never changes, and outside the table the result and the other flags are not told. -/
def Obligations.DecimalAdjust : Prop :=
  ∀ (s : State) (r : RegOp .b), ∃ t, exec (.daa r) s = .next t ∧
    (∀ row ∈ daaTable, row.covers (s.readLoc (opLoc s.rfp r)) s.flags = true →
      t.readLoc (opLoc s.rfp r) = s.readLoc (opLoc s.rfp r) + row.adj ∧ t.flags.c = row.cAfter ∧
      t.flags.s = (t.readLoc (opLoc s.rfp r)).msb ∧ (t.flags.z = true ↔ t.readLoc (opLoc s.rfp r) = 0) ∧
      (t.flags.h = true ↔ 15 < (s.readLoc (opLoc s.rfp r)).toNat % 16 + row.adj.toNat % 16) ∧
      (t.flags.v = true ↔ EvenParity (t.readLoc (opLoc s.rfp r)))) ∧
    t.flags.n = s.flags.n ∧ SameRegsBut s t (opLoc s.rfp r) ∧ SameMemory s t ∧ t.pc = s.pc ∧ SameRest s t

/-- R232, R234, R242, R243: DAA after ADC or SBC of two decimal bytes leaves the decimal sum or difference modulo 100 in
A, with the decimal carry or borrow in C. -/
def Obligations.DecimalArithmetic : Prop :=
  ∀ (s : State) (imm : Byte), IsDecimal s.a → IsDecimal imm →
    (∃ t u, exec (.adcRegImm .b (.short 1) imm) s = .next t ∧ exec (.daa (.short 1)) t = .next u ∧ IsDecimal u.a ∧
      decimalOf u.a + 100 * u.flags.c.toNat = decimalOf s.a + decimalOf imm + s.flags.c.toNat) ∧
    ∃ t u, exec (.sbcRegImm .b (.short 1) imm) s = .next t ∧ exec (.daa (.short 1)) t = .next u ∧ IsDecimal u.a ∧
      decimalOf u.a + decimalOf imm + s.flags.c.toNat = decimalOf s.a + 100 * u.flags.c.toNat

/-- R270 to R275: MUL, MULS, DIV, DIVS with a register or an immediate. -/
def Obligations.MultiplyDivideRegister : Prop :=
  ∀ (s : State) (op : MulOp) (z : SizeBW),
    (∀ (RR : BitVec z.dblBits) (r : RegOp z.size), ∃ t, exec (op.reg z RR r) s = .next t ∧
      MulDiv op (s.readLoc (dblLoc s.rfp z RR)) (s.readLoc (opLoc s.rfp r)) (t.readLoc (dblLoc s.rfp z RR))
        s.flags t.flags ∧
      SameRegsBut s t (dblLoc s.rfp z RR) ∧ SameMemory s t ∧ t.pc = s.pc ∧ SameRest s t) ∧
    ∀ (rr : DblOp z) (imm : BitVec z.size.bits), ∃ t, exec (op.imm z rr imm) s = .next t ∧
      MulDiv op (s.readLoc (dblOpLoc s.rfp rr)) imm (t.readLoc (dblOpLoc s.rfp rr)) s.flags t.flags ∧
      SameRegsBut s t (dblOpLoc s.rfp rr) ∧ SameMemory s t ∧ t.pc = s.pc ∧ SameRest s t

/-- R270 to R275: MUL, MULS, DIV, DIVS with a memory operand. Where the mode moves the register operand itself, the spec
gives no order (R505, assumption 5). -/
def Obligations.MultiplyDivideMemory : Prop :=
  ∀ (s : State) (op : MulOp) (z : SizeBW) (RR : BitVec z.dblBits) (m : MemOp), ∃ t v,
    exec (op.mem z RR m) s = .next t ∧
    (preReg s.rfp m ≠ some (dblLoc s.rfp z RR).g →
      MulDiv op (s.readLoc (dblLoc s.rfp z RR)) (s.memRead z.size.bytes (s.ea m)) v s.flags t.flags) ∧
    (autoReg s.rfp m ≠ some (dblLoc s.rfp z RR).g → t.readLoc (dblLoc s.rfp z RR) = v) ∧
    MovedRegsBut s t m (dblLoc s.rfp z RR) ∧ SameMemory s t ∧ t.pc = s.pc ∧ SameRest s t

/-- R276: the signed product of the words at XDE and XHL is added to rr, and XHL goes down by 2 after that, also when it
is rr; S, Z and V tell of the sum. -/
def Obligations.MultiplyAccumulate : Prop :=
  ∀ (s : State) (rr : DblOp .w), ∃ (t : State) (a p : Int) (v : Long),
    exec (.mula rr) s = .next t ∧ a = (s.readLoc (dblOpLoc s.rfp rr)).toInt ∧
    p = (s.memRead 2 (s.readLoc (curLoc s.rfp .l 2))).toInt * (s.memRead 2 (s.readLoc (curLoc s.rfp .l 3))).toInt ∧
    v = BitVec.ofInt 32 (a + p) ∧
    t.readLoc (dblOpLoc s.rfp rr) = (if (dblOpLoc s.rfp rr).g = (curLoc s.rfp .l 3).g then v - 2 else v) ∧
    ((dblOpLoc s.rfp rr).g ≠ (curLoc s.rfp .l 3).g →
      t.readLoc (curLoc s.rfp .l 3) = s.readLoc (curLoc s.rfp .l 3) - 2) ∧
    t.flags = { s.flags with s := v.msb, z := v == 0, v := t.flags.v } ∧ (t.flags.v = true ↔ v.toInt ≠ a + p) ∧
    SameRegsExcept s t [(dblOpLoc s.rfp rr).g, (curLoc s.rfp .l 3).g] ∧ SameMemory s t ∧ t.pc = s.pc ∧ SameRest s t

/-- R285 to R291: MINC and MDEC by 1, 2 or 4 step a word register within a table whose size, the encoded field plus the
step, is a power of two; for another field the spec does not say what the register is left with (D23, assumption 8). -/
def Obligations.ModuloSteps : Prop :=
  ∀ (s : State) (st : Step) (r : RegOp .w) (field : Word),
    (∃ t v, exec (moduloInstr true st r field) s = .next t ∧ LoadsReg s t (opLoc s.rfp r) v ∧
      ∀ e num k, num = 2 ^ e → num ≤ 2 ^ 15 → k = (stepAmount st).toNat → k < num → num = field.toNat + k →
        v = if (s.readLoc (opLoc s.rfp r)).toNat % num = num - k
          then s.readLoc (opLoc s.rfp r) - BitVec.ofNat 16 (num - k)
          else s.readLoc (opLoc s.rfp r) + BitVec.ofNat 16 k) ∧
    ∃ t v, exec (moduloInstr false st r field) s = .next t ∧ LoadsReg s t (opLoc s.rfp r) v ∧
      ∀ e num k, num = 2 ^ e → num ≤ 2 ^ 15 → k = (stepAmount st).toNat → k < num → num = field.toNat + k →
        v = if (s.readLoc (opLoc s.rfp r)).toNat % num = 0
          then s.readLoc (opLoc s.rfp r) + BitVec.ofNat 16 (num - k)
          else s.readLoc (opLoc s.rfp r) - BitVec.ofNat 16 k

/-- R310, R311, R313 to R315: LDCF, ANDCF, ORCF and XORCF in their four forms; C is not told when a byte has no bit with
the number. Where the mode of the form A,(mem) pre-decrements XWA, of which A is part, the spec gives no order and refuses
the form (R505, D19); that it runs, with a free bit number, is assumption 5. -/
def Obligations.CarryFromBits : Prop :=
  ∀ (s : State) (op : CarryOp),
    (∀ (z : SizeBW) (r : RegOp z.size) (num : BitVec 4), ∃ t, exec (op.immReg z r num) s = .next t ∧
      CarryFromBit op (s.readLoc (opLoc s.rfp r)) num.toNat s.flags t.flags ∧
      SameRegs s t ∧ SameMemory s t ∧ t.pc = s.pc ∧ SameRest s t) ∧
    (∀ (z : SizeBW) (r : RegOp z.size), ∃ t, exec (op.aReg z r) s = .next t ∧
      CarryFromBit op (s.readLoc (opLoc s.rfp r)) ((s.readLoc (curLoc s.rfp .b 1)).toNat % 16) s.flags t.flags ∧
      SameRegs s t ∧ SameMemory s t ∧ t.pc = s.pc ∧ SameRest s t) ∧
    (∀ m : MemOp, ∃ t k, exec (op.aMem m) s = .next t ∧
      CarryFromBit op (s.memRead 1 (s.ea m)) k s.flags t.flags ∧
      (preReg s.rfp m ≠ some (curLoc s.rfp .b 1).g → k = (s.readLoc (curLoc s.rfp .b 1)).toNat % 16) ∧
      MovedRegs s t m ∧ SameMemory s t ∧ t.pc = s.pc ∧ SameRest s t) ∧
    ∀ (num : BitVec 3) (m : MemOp), ∃ t, exec (op.immMem num m) s = .next t ∧
      CarryFromBit op (s.memRead 1 (s.ea m)) num.toNat s.flags t.flags ∧
      MovedRegs s t m ∧ SameMemory s t ∧ t.pc = s.pc ∧ SameRest s t

/-- R310, R312: STCF in its four forms stores C in one bit of a register or of a byte of memory and leaves the others; a
byte has no bit with a number above 7. Where the mode of STCF A,(mem) pre-decrements XWA, of which A is part, the spec gives
no order and refuses the form (R505, D19); that it runs, with a free bit number, is assumption 5. -/
def Obligations.StoreCarry : Prop :=
  ∀ s : State,
    (∀ (z : SizeBW) (r : RegOp z.size) (num : BitVec 4), ∃ t v, exec (.stcfImmReg z r num) s = .next t ∧
      LoadsReg s t (opLoc s.rfp r) v ∧ ∀ i < z.size.bits,
        v.getLsbD i = if i = num.toNat then s.flags.c else (s.readLoc (opLoc s.rfp r)).getLsbD i) ∧
    (∀ (z : SizeBW) (r : RegOp z.size), ∃ t v, exec (.stcfAReg z r) s = .next t ∧
      LoadsReg s t (opLoc s.rfp r) v ∧ ∀ i < z.size.bits,
        v.getLsbD i = if i = (s.readLoc (curLoc s.rfp .b 1)).toNat % 16 then s.flags.c
          else (s.readLoc (opLoc s.rfp r)).getLsbD i) ∧
    (∀ m : MemOp, ∃ t v k, exec (.stcfAMem m) s = .next t ∧ Stores s t m 1 v ∧
      (preReg s.rfp m ≠ some (curLoc s.rfp .b 1).g → k = (s.readLoc (curLoc s.rfp .b 1)).toNat % 16) ∧
      ∀ i < 8, v.getLsbD i = if i = k then s.flags.c else (s.memRead 1 (s.ea m)).getLsbD i) ∧
    ∀ (num : BitVec 3) (m : MemOp), ∃ t v, exec (.stcfImmMem num m) s = .next t ∧ Stores s t m 1 v ∧
      ∀ i < 8, v.getLsbD i = if i = num.toNat then s.flags.c else (s.memRead 1 (s.ea m)).getLsbD i

/-- R330 to R335: BIT, RES, SET, CHG and TSET in their two forms. For a bit number that a byte register does not have,
the register, or the bit tested, is not told (D22, assumption 8). -/
def Obligations.BitOperations : Prop :=
  ∀ s : State,
    (∀ (op : BitOp) (z : SizeBW) (r : RegOp z.size) (num : BitVec 4), ∃ t bit, exec (op.reg z r num) s = .next t ∧
      (num.toNat < z.size.bits → bit = (s.readLoc (opLoc s.rfp r)).getLsbD num.toNat ∧
        BitModified op num.toNat (s.readLoc (opLoc s.rfp r)) (t.readLoc (opLoc s.rfp r))) ∧
      BitOpFlags op bit s.flags t.flags ∧
      SameRegsBut s t (opLoc s.rfp r) ∧ SameMemory s t ∧ t.pc = s.pc ∧ SameRest s t) ∧
    (∀ (op : BitOp) (num : BitVec 3) (m : MemOp), ∃ t, exec (op.mem num m) s = .next t ∧
      BitModified op num.toNat (s.memRead 1 (s.ea m)) (t.memRead 1 (s.ea m)) ∧
      BitOpFlags op ((s.memRead 1 (s.ea m)).getLsbD num.toNat) s.flags t.flags ∧
      SameMemoryBut s t 1 (s.ea m) ∧ MovedRegs s t m ∧ t.pc = s.pc ∧ SameRest s t) ∧
    (∀ (z : SizeBW) (r : RegOp z.size) (num : BitVec 4), ∃ t bit, exec (.bitReg z r num) s = .next t ∧
      (num.toNat < z.size.bits → bit = (s.readLoc (opLoc s.rfp r)).getLsbD num.toNat) ∧
      BitTested bit s.flags t.flags ∧ SameRegs s t ∧ SameMemory s t ∧ t.pc = s.pc ∧ SameRest s t) ∧
    ∀ (num : BitVec 3) (m : MemOp), ∃ t, exec (.bitMem num m) s = .next t ∧
      BitTested ((s.memRead 1 (s.ea m)).getLsbD num.toNat) s.flags t.flags ∧
      MovedRegs s t m ∧ SameMemory s t ∧ t.pc = s.pc ∧ SameRest s t

/-- R340, R341: A is the number of the lowest or the highest bit set and V is 0; with no bit set V is 1 and A is not
told. -/
def Obligations.BitSearch : Prop :=
  ∀ (s : State) (r : RegOp .w),
    (∃ t, exec (.bs1f r) s = .next t ∧
      (s.readLoc (opLoc s.rfp r) = 0 → t.flags.v = true) ∧
      (s.readLoc (opLoc s.rfp r) ≠ 0 → t.flags.v = false ∧
        (s.readLoc (opLoc s.rfp r)).getLsbD (t.readLoc (curLoc s.rfp .b 1)).toNat = true ∧
        ∀ i < (t.readLoc (curLoc s.rfp .b 1)).toNat, (s.readLoc (opLoc s.rfp r)).getLsbD i = false) ∧
      t.flags = { s.flags with v := t.flags.v } ∧
      SameRegsBut s t (curLoc s.rfp .b 1) ∧ SameMemory s t ∧ t.pc = s.pc ∧ SameRest s t) ∧
    ∃ t, exec (.bs1b r) s = .next t ∧
      (s.readLoc (opLoc s.rfp r) = 0 → t.flags.v = true) ∧
      (s.readLoc (opLoc s.rfp r) ≠ 0 → t.flags.v = false ∧
        (s.readLoc (opLoc s.rfp r)).getLsbD (t.readLoc (curLoc s.rfp .b 1)).toNat = true ∧
        ∀ i, (t.readLoc (curLoc s.rfp .b 1)).toNat < i → (s.readLoc (opLoc s.rfp r)).getLsbD i = false) ∧
      t.flags = { s.flags with v := t.flags.v } ∧
      SameRegsBut s t (curLoc s.rfp .b 1) ∧ SameMemory s t ∧ t.pc = s.pc ∧ SameRest s t

/-! ## Rotates and shifts -/

/-- R390 to R400: the rotates and shifts of registers by a count of 1 to 16, from the field or from A, in closed form. -/
def Obligations.ShiftRegister : Prop :=
  ∀ (s : State) (op : ShiftOp) (sz : Size) (r : RegOp sz),
    (∀ num : BitVec 4, ∃ t v c, exec (op.immReg sz r num) s = .next t ∧
      ShiftResult op (fieldCount16 num) (s.readLoc (opLoc s.rfp r)) s.flags.c v c ∧
      LoadsRegFlags s t (opLoc s.rfp r) v (ShiftFlags v c)) ∧
    ∃ t v c, exec (op.aReg sz r) s = .next t ∧
      ShiftResult op (fieldCount16 ((s.readLoc (curLoc s.rfp .b 1)).setWidth 4)) (s.readLoc (opLoc s.rfp r))
        s.flags.c v c ∧
      LoadsRegFlags s t (opLoc s.rfp r) v (ShiftFlags v c)

/-- R390 to R400, R410, R411: the rotates and shifts of memory by one step, and the digit rotates of A and a byte of
memory. Where the mode moves XWA, of which A is part, the spec gives no order (R505, assumption 5). -/
def Obligations.ShiftMemory : Prop :=
  ∀ s : State,
    (∀ (op : ShiftOp) (z : SizeBW) (m : MemOp), ∃ t v c, exec (op.mem z m) s = .next t ∧
      ShiftResult op 1 (s.memRead z.size.bytes (s.ea m)) s.flags.c v c ∧
      t.memRead z.size.bytes (s.ea m) = v ∧ ShiftFlags v c t.flags ∧
      SameMemoryBut s t z.size.bytes (s.ea m) ∧ MovedRegs s t m ∧ t.pc = s.pc ∧ SameRest s t) ∧
    ∀ (left : Bool) (m : MemOp), ∃ t a' m', exec (if left then .rld m else .rrd m) s = .next t ∧
      (preReg s.rfp m ≠ some (curLoc s.rfp .b 1).g →
        let a := (s.readLoc (curLoc s.rfp .b 1)).toNat
        let b := (s.memRead 1 (s.ea m)).toNat
        if left then a'.toNat = a / 16 * 16 + b / 16 ∧ m'.toNat = b % 16 * 16 + a % 16
        else a'.toNat = a / 16 * 16 + b % 16 ∧ m'.toNat = a % 16 * 16 + b / 16) ∧
      (autoReg s.rfp m ≠ some (curLoc s.rfp .b 1).g → t.readLoc (curLoc s.rfp .b 1) = a') ∧
      t.memRead 1 (s.ea m) = m' ∧ ShiftFlags a' s.flags.c t.flags ∧
      SameMemoryBut s t 1 (s.ea m) ∧ MovedRegsBut s t m (curLoc s.rfp .b 1) ∧ t.pc = s.pc ∧ SameRest s t

/-! ## Control -/

/-- R200, R320 to R323: the one-byte flag instructions, their encodings and all they change; H after CCF and ZCF is not
told. -/
def Obligations.FlagInstructions : Prop :=
  (∀ rest : List Byte, decode (0x10 :: rest) = .ok (.rcf, rest) ∧ decode (0x11 :: rest) = .ok (.scf, rest) ∧
    decode (0x12 :: rest) = .ok (.ccf, rest) ∧ decode (0x13 :: rest) = .ok (.zcf, rest) ∧
    decode (0x16 :: rest) = .ok (.exFF, rest)) ∧
  ∀ s : State,
    exec .rcf s = .next { s with flags := { s.flags with h := false, n := false, c := false } } ∧
    exec .scf s = .next { s with flags := { s.flags with h := false, n := false, c := true } } ∧
    (∃ h k, exec .ccf s =
      .next { s with flags := { s.flags with h := h, n := false, c := !s.flags.c }, freeCount := k }) ∧
    (∃ h k, exec .zcf s =
      .next { s with flags := { s.flags with h := h, n := false, c := !s.flags.z }, freeCount := k }) ∧
    exec .exFF s = .next { s with flags := s.flagsAlt, flagsAlt := s.flags }

/-- R370, R371, R372: LDF, INCF and DECF, their encodings and all they change. -/
def Obligations.BankInstructions : Prop :=
  (∀ (num : BitVec 2) (rest : List Byte), decode (0x17 :: (0#6 ++ num : Byte) :: rest) = .ok (.ldf num, rest)) ∧
  (∀ rest : List Byte, decode (0x0C :: rest) = .ok (.incf, rest) ∧ decode (0x0D :: rest) = .ok (.decf, rest)) ∧
  ∀ s : State, (∀ num, exec (.ldf num) s = .next { s with rfp := num }) ∧
    (∃ t, exec .incf s = .next t ∧ t = { s with rfp := t.rfp } ∧ t.rfp.toNat = (s.rfp.toNat + 1) % 4) ∧
    ∃ t, exec .decf s = .next t ∧ t = { s with rfp := t.rfp } ∧ t.rfp.toNat = (s.rfp.toNat + 3) % 4

/-- R350, R351, R352, R357: NOP, EI, DI and HALT, all they change. -/
def Obligations.MaskAndHaltInstructions : Prop :=
  ∀ s : State, exec .nop s = .next s ∧ (∀ num, exec (.ei num) s = .next { s with iff := num }) ∧
    exec .di s = .next { s with iff := 7 } ∧ exec .halt s = .next { s with halted := true }

/-- R375, R360, R361, R50: SCC, and LDC to and from each control register. -/
def Obligations.ConditionAndControlLoads : Prop :=
  ∀ s : State,
    (∀ (z : SizeBW) (r : RegOp z.size) (cc : Cond), ∃ t, exec (.scc z r cc) s = .next t ∧
      LoadsReg s t (opLoc s.rfp r) (if condHolds cc s.flags then 1 else 0)) ∧
    (∀ (cr : CtrlReg) (r : RegOp cr.size), ∃ t, exec (.ldcToCr cr r) s = .next t ∧
      t.readCr cr = s.readLoc (opLoc s.rfp r) ∧ (∀ cr', cr' ≠ cr → t.readCr cr' = s.readCr cr') ∧
      SameRegs s t ∧ SameMemory s t ∧ t.flags = s.flags ∧ t.flagsAlt = s.flagsAlt ∧ t.pc = s.pc ∧ t.iff = s.iff ∧
      t.rfp = s.rfp ∧ t.halted = s.halted ∧ t.host = s.host) ∧
    ∀ (cr : CtrlReg) (r : RegOp cr.size), ∃ t, exec (.ldcFromCr cr r) s = .next t ∧
      LoadsReg s t (opLoc s.rfp r) (s.readCr cr)

/-- R365, R366: LINK saves r, points it at the saved value and makes room; UNLK undoes that. With XSP as r the spec gives
no order (R505, assumption 5). -/
def Obligations.LinkUnlink : Prop :=
  ∀ (s : State) (r : RegOp .l),
    (∀ d : Word, ∃ t, exec (.link r d) s = .next t ∧
      ((opLoc s.rfp r).g ≠ .xsp → t.xsp = s.xsp - 4 + d.signExtend 32 ∧
        t.readLoc (opLoc s.rfp r) = s.xsp - 4 ∧ t.memRead 4 (s.xsp - 4) = s.readLoc (opLoc s.rfp r)) ∧
      SameMemoryBut s t 4 (s.xsp - 4) ∧ SameRegsExcept s t [.xsp, (opLoc s.rfp r).g] ∧ SameOutside s t) ∧
    ∃ t, exec (.unlk r) s = .next t ∧
      ((opLoc s.rfp r).g ≠ .xsp →
        t.readLoc (opLoc s.rfp r) = s.memRead 4 (s.readLoc (opLoc s.rfp r)) ∧
        t.xsp = s.readLoc (opLoc s.rfp r) + 4) ∧
      SameRegsExcept s t [.xsp, (opLoc s.rfp r).g] ∧ SameMemory s t ∧ SameOutside s t

/-- R355, R453, R454: SWI pushes SR and the address of the next instruction, in this order of stores, loads PC from its
entry of the vector table, and changes neither the mask, nor the bank pointer, nor INTNEST. -/
def Obligations.SoftwareInterrupt : Prop :=
  ∀ (s : State) (num : BitVec 3), ∃ t, exec (.swi num) s = .next t ∧
    t.xsp = s.xsp - 6 ∧ t.memRead 2 (s.xsp - 6) = s.sr ∧ t.memRead 4 (s.xsp - 4) = s.pc ∧
    Records s t (storesOf 2 (s.xsp - 6) s.sr ++ storesOf 4 (s.xsp - 4) s.pc) ∧
    t.pc = t.memRead 4 (0xFFFF00 + 4 * num.setWidth 32) ∧
    SameMemoryBut s t 6 (s.xsp - 6) ∧ SameRegsExcept s t [.xsp] ∧ t.flags = s.flags ∧ SameRest s t

/-! ## Jumps, calls, returns -/

/-- R420 to R425: JP, JR, JRL and DJNZ. A relative target is the address of the next instruction plus the displacement; a
condition that is false changes nothing. Whether `(-r32)` and `(r32+)` step their register in JP the spec does not say
(D29, assumption 6). -/
def Obligations.Jumps : Prop :=
  ∀ s : State,
    (∀ a : Word, exec (.jp16 a) s = .next { s with pc := a.setWidth 32 }) ∧
    (∀ a : Addr, exec (.jp24 a) s = .next { s with pc := a.setWidth 32 }) ∧
    (∀ (cc : Cond) (m : MemOp), ∃ t, exec (.jpMem cc m) s = .next t ∧
      (condHolds cc s.flags = false → t = s) ∧
      (condHolds cc s.flags = true → t.pc = s.ea m ∧ (∀ g, t.reg g = s.reg g ∨ t.reg g = s.movedReg m g) ∧
        SameMemory s t ∧ t.flags = s.flags ∧ SameRest s t)) ∧
    (∀ (cc : Cond) (d : Byte), exec (.jr cc d) s =
      .next { s with pc := if condHolds cc s.flags then s.pc + d.signExtend 32 else s.pc }) ∧
    (∀ (cc : Cond) (d : Word), exec (.jrl cc d) s =
      .next { s with pc := if condHolds cc s.flags then s.pc + d.signExtend 32 else s.pc }) ∧
    ∀ (z : SizeBW) (r : RegOp z.size) (d : Byte), ∃ t, exec (.djnz z r d) s = .next t ∧
      t.readLoc (opLoc s.rfp r) = s.readLoc (opLoc s.rfp r) - 1 ∧
      t.pc = (if s.readLoc (opLoc s.rfp r) = 1 then s.pc else s.pc + d.signExtend 32) ∧
      SameRegsBut s t (opLoc s.rfp r) ∧ SameMemory s t ∧ t.flags = s.flags ∧ SameRest s t

/-- R430 to R433: the calls push the address of the next instruction and load PC; CALL with a false condition changes
nothing. With a mode that moves XSP the spec does not say whether XSP steps, nor in what order (D29, assumption 6). -/
def Obligations.Calls : Prop :=
  ∀ s : State,
    (∀ a : Word, ∃ t, exec (.call16 a) s = .next t ∧ Pushes s t 4 s.pc ∧ t.pc = a.setWidth 32 ∧
      t.flags = s.flags ∧ SameRest s t) ∧
    (∀ a : Addr, ∃ t, exec (.call24 a) s = .next t ∧ Pushes s t 4 s.pc ∧ t.pc = a.setWidth 32 ∧
      t.flags = s.flags ∧ SameRest s t) ∧
    (∀ d : Word, ∃ t, exec (.calr d) s = .next t ∧ Pushes s t 4 s.pc ∧ t.pc = s.pc + d.signExtend 32 ∧
      t.flags = s.flags ∧ SameRest s t) ∧
    ∀ (cc : Cond) (m : MemOp), ∃ t, exec (.callMem cc m) s = .next t ∧
      (condHolds cc s.flags = false → t = s) ∧
      (condHolds cc s.flags = true → t.pc = s.ea m ∧
        (∀ g, g ≠ .xsp → t.reg g = s.reg g ∨ t.reg g = s.movedReg m g) ∧
        (t.xsp = s.xsp - 4 ∨ t.xsp = s.movedReg m .xsp - 4) ∧
        (∃ p, (p = s.xsp - 4 ∨ p = s.movedReg m .xsp - 4) ∧ t.memRead 4 p = s.pc ∧ SameMemoryBut s t 4 p) ∧
        t.flags = s.flags ∧ SameRest s t)

/-- R435, R436, R437, R440: the returns pop PC, RETD moves XSP further, RET with a false condition changes nothing, and
RETI pops SR as well and, as the model chooses with the spec's default (D11, assumption 9), decrements INTNEST. -/
def Obligations.Returns : Prop :=
  ∀ s : State,
    (∃ t, exec .ret s = .next t ∧ t.pc = s.memRead 4 s.xsp ∧ t.xsp = s.xsp + 4 ∧
      SameRegsExcept s t [.xsp] ∧ SameMemory s t ∧ t.flags = s.flags ∧ SameRest s t) ∧
    (∀ cc : Cond, ∃ t, exec (.retCc cc) s = .next t ∧ (condHolds cc s.flags = false → t = s) ∧
      (condHolds cc s.flags = true → t.pc = s.memRead 4 s.xsp ∧ t.xsp = s.xsp + 4 ∧
        SameRegsExcept s t [.xsp] ∧ SameMemory s t ∧ t.flags = s.flags ∧ SameRest s t)) ∧
    (∀ d : Word, ∃ t, exec (.retd d) s = .next t ∧ t.pc = s.memRead 4 s.xsp ∧
      t.xsp = s.xsp + 4 + d.signExtend 32 ∧ SameRegsExcept s t [.xsp] ∧ SameMemory s t ∧ t.flags = s.flags ∧
      SameRest s t) ∧
    ∃ t, exec .reti s = .next t ∧ t.pc = s.memRead 4 (s.xsp + 2) ∧ t.xsp = s.xsp + 6 ∧
      t.iff = (s.memRead 2 s.xsp).extractLsb' 12 3 ∧ t.rfp = (s.memRead 2 s.xsp).extractLsb' 8 2 ∧
      t.flags.toByte = (s.memRead 2 s.xsp).extractLsb' 0 8 &&& 0xD7 ∧ t.intnest = s.intnest - 1 ∧
      SameRegsExcept s t [.xsp] ∧ SameMemory s t ∧ t.flagsAlt = s.flagsAlt ∧ t.dmas = s.dmas ∧ t.dmad = s.dmad ∧
      t.dmac = s.dmac ∧ t.dmam = s.dmam ∧ t.halted = s.halted ∧ t.host = s.host
end

