-- ==== Sys2Proof/Laws/State.lean ====
section
/-! SUPPORT. What each update of the state leaves alone: one lemma for each field and each named update, so that no later
proof unfolds an update. -/

namespace Sys2Proof.Machine

-- One theorem at a time: each `by cases` below would hold a thread of its own.
set_option Elab.async false

/-! ## `ioRegion` at its default (R82, D26): every access is to plain storage -/

@[simp] theorem ioRegion_eq (a : Addr) : Config.ioRegion a = false := rfl

theorem State.readByte_eq (s : State) (a : Addr) : s.readByte a = s.mem.read a.toNat := rfl

@[simp] theorem State.noteByte_eq (s : State) (a : Addr) : s.noteByte a = s := rfl

@[simp] theorem State.noteRead_eq (s : State) (nb : Nat) (ea : Long) : s.noteRead nb ea = s := by
  induction nb generalizing s ea with
  | zero => rfl
  | succ nb ih => rw [State.noteRead, ih, State.noteByte_eq]

@[simp] theorem reachesIo_eq (n : Nat) (a : Long) : reachesIo n a = false := by
  induction n generalizing a with
  | zero => rfl
  | succ n ih => rw [reachesIo, ih, ioRegion_eq]; rfl

@[simp] theorem State.branchReachesIo_eq (s : State) (i : Instr) : s.branchReachesIo i = false := by
  rw [State.branchReachesIo]; split <;> simp

/-! ## `setReg` -/

@[simp] theorem State.setReg_iff (s : State) (g : GReg) (v : Long) : (s.setReg g v).iff = s.iff := by cases g <;> rfl
@[simp] theorem State.setReg_rfp (s : State) (g : GReg) (v : Long) : (s.setReg g v).rfp = s.rfp := by cases g <;> rfl
@[simp] theorem State.setReg_flags (s : State) (g : GReg) (v : Long) : (s.setReg g v).flags = s.flags := by cases g <;> rfl
@[simp] theorem State.setReg_flagsAlt (s : State) (g : GReg) (v : Long) : (s.setReg g v).flagsAlt = s.flagsAlt := by cases g <;> rfl
@[simp] theorem State.setReg_pc (s : State) (g : GReg) (v : Long) : (s.setReg g v).pc = s.pc := by cases g <;> rfl
@[simp] theorem State.setReg_dmas (s : State) (g : GReg) (v : Long) : (s.setReg g v).dmas = s.dmas := by cases g <;> rfl
@[simp] theorem State.setReg_dmad (s : State) (g : GReg) (v : Long) : (s.setReg g v).dmad = s.dmad := by cases g <;> rfl
@[simp] theorem State.setReg_dmac (s : State) (g : GReg) (v : Long) : (s.setReg g v).dmac = s.dmac := by cases g <;> rfl
@[simp] theorem State.setReg_dmam (s : State) (g : GReg) (v : Long) : (s.setReg g v).dmam = s.dmam := by cases g <;> rfl
@[simp] theorem State.setReg_intnest (s : State) (g : GReg) (v : Long) : (s.setReg g v).intnest = s.intnest := by cases g <;> rfl
@[simp] theorem State.setReg_halted (s : State) (g : GReg) (v : Long) : (s.setReg g v).halted = s.halted := by cases g <;> rfl
@[simp] theorem State.setReg_mem (s : State) (g : GReg) (v : Long) : (s.setReg g v).mem = s.mem := by cases g <;> rfl
@[simp] theorem State.setReg_written (s : State) (g : GReg) (v : Long) : (s.setReg g v).written = s.written := by cases g <;> rfl
@[simp] theorem State.setReg_host (s : State) (g : GReg) (v : Long) : (s.setReg g v).host = s.host := by cases g <;> rfl
@[simp] theorem State.setReg_comparing (s : State) (g : GReg) (v : Long) : (s.setReg g v).comparing = s.comparing := by cases g <;> rfl
@[simp] theorem State.setReg_ioLog (s : State) (g : GReg) (v : Long) : (s.setReg g v).ioLog = s.ioLog := by cases g <;> rfl
@[simp] theorem State.setReg_trail (s : State) (g : GReg) (v : Long) : (s.setReg g v).trail = s.trail := by cases g <;> rfl
@[simp] theorem State.setReg_freeCount (s : State) (g : GReg) (v : Long) : (s.setReg g v).freeCount = s.freeCount := by cases g <;> rfl

/-! ## `drawn` -/

@[simp] theorem State.drawn_banks (s : State) : (s.drawn).banks = s.banks := rfl
@[simp] theorem State.drawn_xix (s : State) : (s.drawn).xix = s.xix := rfl
@[simp] theorem State.drawn_xiy (s : State) : (s.drawn).xiy = s.xiy := rfl
@[simp] theorem State.drawn_xiz (s : State) : (s.drawn).xiz = s.xiz := rfl
@[simp] theorem State.drawn_xsp (s : State) : (s.drawn).xsp = s.xsp := rfl
@[simp] theorem State.drawn_iff (s : State) : (s.drawn).iff = s.iff := rfl
@[simp] theorem State.drawn_rfp (s : State) : (s.drawn).rfp = s.rfp := rfl
@[simp] theorem State.drawn_flags (s : State) : (s.drawn).flags = s.flags := rfl
@[simp] theorem State.drawn_flagsAlt (s : State) : (s.drawn).flagsAlt = s.flagsAlt := rfl
@[simp] theorem State.drawn_pc (s : State) : (s.drawn).pc = s.pc := rfl
@[simp] theorem State.drawn_dmas (s : State) : (s.drawn).dmas = s.dmas := rfl
@[simp] theorem State.drawn_dmad (s : State) : (s.drawn).dmad = s.dmad := rfl
@[simp] theorem State.drawn_dmac (s : State) : (s.drawn).dmac = s.dmac := rfl
@[simp] theorem State.drawn_dmam (s : State) : (s.drawn).dmam = s.dmam := rfl
@[simp] theorem State.drawn_intnest (s : State) : (s.drawn).intnest = s.intnest := rfl
@[simp] theorem State.drawn_halted (s : State) : (s.drawn).halted = s.halted := rfl
@[simp] theorem State.drawn_mem (s : State) : (s.drawn).mem = s.mem := rfl
@[simp] theorem State.drawn_written (s : State) : (s.drawn).written = s.written := rfl
@[simp] theorem State.drawn_host (s : State) : (s.drawn).host = s.host := rfl

@[simp] theorem State.drawn_comparing (s : State) : (s.drawn).comparing = s.comparing := rfl

@[simp] theorem State.drawn_ioLog (s : State) : (s.drawn).ioLog = s.ioLog := rfl

@[simp] theorem State.drawn_trail (s : State) : (s.drawn).trail = s.trail := rfl

/-! ## `drawnLong` -/

@[simp] theorem State.drawnLong_banks (s : State) (sz : Size) : (s.drawnLong sz).banks = s.banks := by cases sz <;> rfl
@[simp] theorem State.drawnLong_xix (s : State) (sz : Size) : (s.drawnLong sz).xix = s.xix := by cases sz <;> rfl
@[simp] theorem State.drawnLong_xiy (s : State) (sz : Size) : (s.drawnLong sz).xiy = s.xiy := by cases sz <;> rfl
@[simp] theorem State.drawnLong_xiz (s : State) (sz : Size) : (s.drawnLong sz).xiz = s.xiz := by cases sz <;> rfl
@[simp] theorem State.drawnLong_xsp (s : State) (sz : Size) : (s.drawnLong sz).xsp = s.xsp := by cases sz <;> rfl
@[simp] theorem State.drawnLong_iff (s : State) (sz : Size) : (s.drawnLong sz).iff = s.iff := by cases sz <;> rfl
@[simp] theorem State.drawnLong_rfp (s : State) (sz : Size) : (s.drawnLong sz).rfp = s.rfp := by cases sz <;> rfl
@[simp] theorem State.drawnLong_flags (s : State) (sz : Size) : (s.drawnLong sz).flags = s.flags := by cases sz <;> rfl
@[simp] theorem State.drawnLong_flagsAlt (s : State) (sz : Size) : (s.drawnLong sz).flagsAlt = s.flagsAlt := by cases sz <;> rfl
@[simp] theorem State.drawnLong_pc (s : State) (sz : Size) : (s.drawnLong sz).pc = s.pc := by cases sz <;> rfl
@[simp] theorem State.drawnLong_dmas (s : State) (sz : Size) : (s.drawnLong sz).dmas = s.dmas := by cases sz <;> rfl
@[simp] theorem State.drawnLong_dmad (s : State) (sz : Size) : (s.drawnLong sz).dmad = s.dmad := by cases sz <;> rfl
@[simp] theorem State.drawnLong_dmac (s : State) (sz : Size) : (s.drawnLong sz).dmac = s.dmac := by cases sz <;> rfl
@[simp] theorem State.drawnLong_dmam (s : State) (sz : Size) : (s.drawnLong sz).dmam = s.dmam := by cases sz <;> rfl
@[simp] theorem State.drawnLong_intnest (s : State) (sz : Size) : (s.drawnLong sz).intnest = s.intnest := by cases sz <;> rfl
@[simp] theorem State.drawnLong_halted (s : State) (sz : Size) : (s.drawnLong sz).halted = s.halted := by cases sz <;> rfl
@[simp] theorem State.drawnLong_mem (s : State) (sz : Size) : (s.drawnLong sz).mem = s.mem := by cases sz <;> rfl
@[simp] theorem State.drawnLong_written (s : State) (sz : Size) : (s.drawnLong sz).written = s.written := by cases sz <;> rfl
@[simp] theorem State.drawnLong_host (s : State) (sz : Size) : (s.drawnLong sz).host = s.host := by cases sz <;> rfl

@[simp] theorem State.drawnLong_comparing (s : State) (sz : Size) : (s.drawnLong sz).comparing = s.comparing := by cases sz <;> rfl

@[simp] theorem State.drawnLong_ioLog (s : State) (sz : Size) : (s.drawnLong sz).ioLog = s.ioLog := by cases sz <;> rfl

@[simp] theorem State.drawnLong_trail (s : State) (sz : Size) : (s.drawnLong sz).trail = s.trail := by cases sz <;> rfl

/-! ## `setSr` -/

@[simp] theorem State.setSr_banks (s : State) (v : Word) : (s.setSr v).banks = s.banks := rfl
@[simp] theorem State.setSr_xix (s : State) (v : Word) : (s.setSr v).xix = s.xix := rfl
@[simp] theorem State.setSr_xiy (s : State) (v : Word) : (s.setSr v).xiy = s.xiy := rfl
@[simp] theorem State.setSr_xiz (s : State) (v : Word) : (s.setSr v).xiz = s.xiz := rfl
@[simp] theorem State.setSr_xsp (s : State) (v : Word) : (s.setSr v).xsp = s.xsp := rfl
@[simp] theorem State.setSr_flagsAlt (s : State) (v : Word) : (s.setSr v).flagsAlt = s.flagsAlt := rfl
@[simp] theorem State.setSr_pc (s : State) (v : Word) : (s.setSr v).pc = s.pc := rfl
@[simp] theorem State.setSr_dmas (s : State) (v : Word) : (s.setSr v).dmas = s.dmas := rfl
@[simp] theorem State.setSr_dmad (s : State) (v : Word) : (s.setSr v).dmad = s.dmad := rfl
@[simp] theorem State.setSr_dmac (s : State) (v : Word) : (s.setSr v).dmac = s.dmac := rfl
@[simp] theorem State.setSr_dmam (s : State) (v : Word) : (s.setSr v).dmam = s.dmam := rfl
@[simp] theorem State.setSr_intnest (s : State) (v : Word) : (s.setSr v).intnest = s.intnest := rfl
@[simp] theorem State.setSr_halted (s : State) (v : Word) : (s.setSr v).halted = s.halted := rfl
@[simp] theorem State.setSr_mem (s : State) (v : Word) : (s.setSr v).mem = s.mem := rfl
@[simp] theorem State.setSr_written (s : State) (v : Word) : (s.setSr v).written = s.written := rfl
@[simp] theorem State.setSr_host (s : State) (v : Word) : (s.setSr v).host = s.host := rfl
@[simp] theorem State.setSr_comparing (s : State) (v : Word) : (s.setSr v).comparing = s.comparing := rfl
@[simp] theorem State.setSr_ioLog (s : State) (v : Word) : (s.setSr v).ioLog = s.ioLog := rfl
@[simp] theorem State.setSr_trail (s : State) (v : Word) : (s.setSr v).trail = s.trail := rfl
@[simp] theorem State.setSr_freeCount (s : State) (v : Word) : (s.setSr v).freeCount = s.freeCount := rfl

/-! ## `writeByte` -/

@[simp] theorem State.writeByte_banks (s : State) (a : Addr) (v : Byte) : (s.writeByte a v).banks = s.banks := rfl
@[simp] theorem State.writeByte_xix (s : State) (a : Addr) (v : Byte) : (s.writeByte a v).xix = s.xix := rfl
@[simp] theorem State.writeByte_xiy (s : State) (a : Addr) (v : Byte) : (s.writeByte a v).xiy = s.xiy := rfl
@[simp] theorem State.writeByte_xiz (s : State) (a : Addr) (v : Byte) : (s.writeByte a v).xiz = s.xiz := rfl
@[simp] theorem State.writeByte_xsp (s : State) (a : Addr) (v : Byte) : (s.writeByte a v).xsp = s.xsp := rfl
@[simp] theorem State.writeByte_iff (s : State) (a : Addr) (v : Byte) : (s.writeByte a v).iff = s.iff := rfl
@[simp] theorem State.writeByte_rfp (s : State) (a : Addr) (v : Byte) : (s.writeByte a v).rfp = s.rfp := rfl
@[simp] theorem State.writeByte_flags (s : State) (a : Addr) (v : Byte) : (s.writeByte a v).flags = s.flags := rfl
@[simp] theorem State.writeByte_flagsAlt (s : State) (a : Addr) (v : Byte) : (s.writeByte a v).flagsAlt = s.flagsAlt := rfl
@[simp] theorem State.writeByte_pc (s : State) (a : Addr) (v : Byte) : (s.writeByte a v).pc = s.pc := rfl
@[simp] theorem State.writeByte_dmas (s : State) (a : Addr) (v : Byte) : (s.writeByte a v).dmas = s.dmas := rfl
@[simp] theorem State.writeByte_dmad (s : State) (a : Addr) (v : Byte) : (s.writeByte a v).dmad = s.dmad := rfl
@[simp] theorem State.writeByte_dmac (s : State) (a : Addr) (v : Byte) : (s.writeByte a v).dmac = s.dmac := rfl
@[simp] theorem State.writeByte_dmam (s : State) (a : Addr) (v : Byte) : (s.writeByte a v).dmam = s.dmam := rfl
@[simp] theorem State.writeByte_intnest (s : State) (a : Addr) (v : Byte) : (s.writeByte a v).intnest = s.intnest := rfl
@[simp] theorem State.writeByte_halted (s : State) (a : Addr) (v : Byte) : (s.writeByte a v).halted = s.halted := rfl
@[simp] theorem State.writeByte_host (s : State) (a : Addr) (v : Byte) : (s.writeByte a v).host = s.host := rfl
@[simp] theorem State.writeByte_comparing (s : State) (a : Addr) (v : Byte) : (s.writeByte a v).comparing = s.comparing := rfl
@[simp] theorem State.writeByte_ioLog (s : State) (a : Addr) (v : Byte) : (s.writeByte a v).ioLog = s.ioLog := rfl
@[simp] theorem State.writeByte_freeCount (s : State) (a : Addr) (v : Byte) : (s.writeByte a v).freeCount = s.freeCount := rfl

theorem State.writeByte_mem (s : State) (a : Addr) (v : Byte) : (s.writeByte a v).mem = s.mem.write a.toNat v := rfl

theorem State.writeByte_written (s : State) (a : Addr) (v : Byte) :
    (s.writeByte a v).written = insertAddr s.written a.toNat := rfl

/-- While stores are recorded, a store puts the moment before it on the trail (R490). -/
theorem State.writeByte_trail (s : State) (a : Addr) (v : Byte) :
    (s.writeByte a v).trail = s.trail.map (⟨s.mem, s.ioLog, .write a v⟩ :: ·) := rfl

/-! ## `memWrite` -/

@[simp] theorem State.memWrite_banks (s : State) (nb : Nat) (ea : Long) (v : BitVec (8 * nb)) :
    (s.memWrite nb ea v).banks = s.banks := by
  induction nb generalizing s ea with
  | zero => rfl
  | succ nb ih => simp only [State.memWrite, ih, State.writeByte_banks]

@[simp] theorem State.memWrite_xix (s : State) (nb : Nat) (ea : Long) (v : BitVec (8 * nb)) :
    (s.memWrite nb ea v).xix = s.xix := by
  induction nb generalizing s ea with
  | zero => rfl
  | succ nb ih => simp only [State.memWrite, ih, State.writeByte_xix]

@[simp] theorem State.memWrite_xiy (s : State) (nb : Nat) (ea : Long) (v : BitVec (8 * nb)) :
    (s.memWrite nb ea v).xiy = s.xiy := by
  induction nb generalizing s ea with
  | zero => rfl
  | succ nb ih => simp only [State.memWrite, ih, State.writeByte_xiy]

@[simp] theorem State.memWrite_xiz (s : State) (nb : Nat) (ea : Long) (v : BitVec (8 * nb)) :
    (s.memWrite nb ea v).xiz = s.xiz := by
  induction nb generalizing s ea with
  | zero => rfl
  | succ nb ih => simp only [State.memWrite, ih, State.writeByte_xiz]

@[simp] theorem State.memWrite_xsp (s : State) (nb : Nat) (ea : Long) (v : BitVec (8 * nb)) :
    (s.memWrite nb ea v).xsp = s.xsp := by
  induction nb generalizing s ea with
  | zero => rfl
  | succ nb ih => simp only [State.memWrite, ih, State.writeByte_xsp]

@[simp] theorem State.memWrite_iff (s : State) (nb : Nat) (ea : Long) (v : BitVec (8 * nb)) :
    (s.memWrite nb ea v).iff = s.iff := by
  induction nb generalizing s ea with
  | zero => rfl
  | succ nb ih => simp only [State.memWrite, ih, State.writeByte_iff]

@[simp] theorem State.memWrite_rfp (s : State) (nb : Nat) (ea : Long) (v : BitVec (8 * nb)) :
    (s.memWrite nb ea v).rfp = s.rfp := by
  induction nb generalizing s ea with
  | zero => rfl
  | succ nb ih => simp only [State.memWrite, ih, State.writeByte_rfp]

@[simp] theorem State.memWrite_flags (s : State) (nb : Nat) (ea : Long) (v : BitVec (8 * nb)) :
    (s.memWrite nb ea v).flags = s.flags := by
  induction nb generalizing s ea with
  | zero => rfl
  | succ nb ih => simp only [State.memWrite, ih, State.writeByte_flags]

@[simp] theorem State.memWrite_flagsAlt (s : State) (nb : Nat) (ea : Long) (v : BitVec (8 * nb)) :
    (s.memWrite nb ea v).flagsAlt = s.flagsAlt := by
  induction nb generalizing s ea with
  | zero => rfl
  | succ nb ih => simp only [State.memWrite, ih, State.writeByte_flagsAlt]

@[simp] theorem State.memWrite_pc (s : State) (nb : Nat) (ea : Long) (v : BitVec (8 * nb)) :
    (s.memWrite nb ea v).pc = s.pc := by
  induction nb generalizing s ea with
  | zero => rfl
  | succ nb ih => simp only [State.memWrite, ih, State.writeByte_pc]

@[simp] theorem State.memWrite_dmas (s : State) (nb : Nat) (ea : Long) (v : BitVec (8 * nb)) :
    (s.memWrite nb ea v).dmas = s.dmas := by
  induction nb generalizing s ea with
  | zero => rfl
  | succ nb ih => simp only [State.memWrite, ih, State.writeByte_dmas]

@[simp] theorem State.memWrite_dmad (s : State) (nb : Nat) (ea : Long) (v : BitVec (8 * nb)) :
    (s.memWrite nb ea v).dmad = s.dmad := by
  induction nb generalizing s ea with
  | zero => rfl
  | succ nb ih => simp only [State.memWrite, ih, State.writeByte_dmad]

@[simp] theorem State.memWrite_dmac (s : State) (nb : Nat) (ea : Long) (v : BitVec (8 * nb)) :
    (s.memWrite nb ea v).dmac = s.dmac := by
  induction nb generalizing s ea with
  | zero => rfl
  | succ nb ih => simp only [State.memWrite, ih, State.writeByte_dmac]

@[simp] theorem State.memWrite_dmam (s : State) (nb : Nat) (ea : Long) (v : BitVec (8 * nb)) :
    (s.memWrite nb ea v).dmam = s.dmam := by
  induction nb generalizing s ea with
  | zero => rfl
  | succ nb ih => simp only [State.memWrite, ih, State.writeByte_dmam]

@[simp] theorem State.memWrite_intnest (s : State) (nb : Nat) (ea : Long) (v : BitVec (8 * nb)) :
    (s.memWrite nb ea v).intnest = s.intnest := by
  induction nb generalizing s ea with
  | zero => rfl
  | succ nb ih => simp only [State.memWrite, ih, State.writeByte_intnest]

@[simp] theorem State.memWrite_halted (s : State) (nb : Nat) (ea : Long) (v : BitVec (8 * nb)) :
    (s.memWrite nb ea v).halted = s.halted := by
  induction nb generalizing s ea with
  | zero => rfl
  | succ nb ih => simp only [State.memWrite, ih, State.writeByte_halted]

@[simp] theorem State.memWrite_host (s : State) (nb : Nat) (ea : Long) (v : BitVec (8 * nb)) :
    (s.memWrite nb ea v).host = s.host := by
  induction nb generalizing s ea with
  | zero => rfl
  | succ nb ih => simp only [State.memWrite, ih, State.writeByte_host]

@[simp] theorem State.memWrite_comparing (s : State) (nb : Nat) (ea : Long) (v : BitVec (8 * nb)) :
    (s.memWrite nb ea v).comparing = s.comparing := by
  induction nb generalizing s ea with
  | zero => rfl
  | succ nb ih => simp only [State.memWrite, ih, State.writeByte_comparing]

@[simp] theorem State.memWrite_ioLog (s : State) (nb : Nat) (ea : Long) (v : BitVec (8 * nb)) :
    (s.memWrite nb ea v).ioLog = s.ioLog := by
  induction nb generalizing s ea with
  | zero => rfl
  | succ nb ih => simp only [State.memWrite, ih, State.writeByte_ioLog]

@[simp] theorem State.memWrite_freeCount (s : State) (nb : Nat) (ea : Long) (v : BitVec (8 * nb)) :
    (s.memWrite nb ea v).freeCount = s.freeCount := by
  induction nb generalizing s ea with
  | zero => rfl
  | succ nb ih => simp only [State.memWrite, ih, State.writeByte_freeCount]

/-! ## `push` and `popped` -/

@[simp] theorem State.push_banks (s : State) (nb : Nat) (v : BitVec (8 * nb)) : (s.push nb v).banks = s.banks := by
  simp [State.push]
@[simp] theorem State.push_xix (s : State) (nb : Nat) (v : BitVec (8 * nb)) : (s.push nb v).xix = s.xix := by
  simp [State.push]
@[simp] theorem State.push_xiy (s : State) (nb : Nat) (v : BitVec (8 * nb)) : (s.push nb v).xiy = s.xiy := by
  simp [State.push]
@[simp] theorem State.push_xiz (s : State) (nb : Nat) (v : BitVec (8 * nb)) : (s.push nb v).xiz = s.xiz := by
  simp [State.push]
@[simp] theorem State.push_iff (s : State) (nb : Nat) (v : BitVec (8 * nb)) : (s.push nb v).iff = s.iff := by
  simp [State.push]
@[simp] theorem State.push_rfp (s : State) (nb : Nat) (v : BitVec (8 * nb)) : (s.push nb v).rfp = s.rfp := by
  simp [State.push]
@[simp] theorem State.push_flags (s : State) (nb : Nat) (v : BitVec (8 * nb)) : (s.push nb v).flags = s.flags := by
  simp [State.push]
@[simp] theorem State.push_flagsAlt (s : State) (nb : Nat) (v : BitVec (8 * nb)) : (s.push nb v).flagsAlt = s.flagsAlt := by
  simp [State.push]
@[simp] theorem State.push_pc (s : State) (nb : Nat) (v : BitVec (8 * nb)) : (s.push nb v).pc = s.pc := by
  simp [State.push]
@[simp] theorem State.push_dmas (s : State) (nb : Nat) (v : BitVec (8 * nb)) : (s.push nb v).dmas = s.dmas := by
  simp [State.push]
@[simp] theorem State.push_dmad (s : State) (nb : Nat) (v : BitVec (8 * nb)) : (s.push nb v).dmad = s.dmad := by
  simp [State.push]
@[simp] theorem State.push_dmac (s : State) (nb : Nat) (v : BitVec (8 * nb)) : (s.push nb v).dmac = s.dmac := by
  simp [State.push]
@[simp] theorem State.push_dmam (s : State) (nb : Nat) (v : BitVec (8 * nb)) : (s.push nb v).dmam = s.dmam := by
  simp [State.push]
@[simp] theorem State.push_intnest (s : State) (nb : Nat) (v : BitVec (8 * nb)) : (s.push nb v).intnest = s.intnest := by
  simp [State.push]
@[simp] theorem State.push_halted (s : State) (nb : Nat) (v : BitVec (8 * nb)) : (s.push nb v).halted = s.halted := by
  simp [State.push]
@[simp] theorem State.push_host (s : State) (nb : Nat) (v : BitVec (8 * nb)) : (s.push nb v).host = s.host := by
  simp [State.push]
@[simp] theorem State.push_comparing (s : State) (nb : Nat) (v : BitVec (8 * nb)) : (s.push nb v).comparing = s.comparing := by
  simp [State.push]
@[simp] theorem State.push_ioLog (s : State) (nb : Nat) (v : BitVec (8 * nb)) : (s.push nb v).ioLog = s.ioLog := by
  simp [State.push]
@[simp] theorem State.push_freeCount (s : State) (nb : Nat) (v : BitVec (8 * nb)) : (s.push nb v).freeCount = s.freeCount := by
  simp [State.push]
@[simp] theorem State.push_xsp (s : State) (nb : Nat) (v : BitVec (8 * nb)) :
    (s.push nb v).xsp = s.xsp - BitVec.ofNat 32 nb := by simp [State.push]
@[simp] theorem State.popped_banks (s : State) (nb : Nat) : (s.popped nb).banks = s.banks := by simp [State.popped]
@[simp] theorem State.popped_xix (s : State) (nb : Nat) : (s.popped nb).xix = s.xix := by simp [State.popped]
@[simp] theorem State.popped_xiy (s : State) (nb : Nat) : (s.popped nb).xiy = s.xiy := by simp [State.popped]
@[simp] theorem State.popped_xiz (s : State) (nb : Nat) : (s.popped nb).xiz = s.xiz := by simp [State.popped]
@[simp] theorem State.popped_iff (s : State) (nb : Nat) : (s.popped nb).iff = s.iff := by simp [State.popped]
@[simp] theorem State.popped_rfp (s : State) (nb : Nat) : (s.popped nb).rfp = s.rfp := by simp [State.popped]
@[simp] theorem State.popped_flags (s : State) (nb : Nat) : (s.popped nb).flags = s.flags := by simp [State.popped]
@[simp] theorem State.popped_flagsAlt (s : State) (nb : Nat) : (s.popped nb).flagsAlt = s.flagsAlt := by simp [State.popped]
@[simp] theorem State.popped_pc (s : State) (nb : Nat) : (s.popped nb).pc = s.pc := by simp [State.popped]
@[simp] theorem State.popped_dmas (s : State) (nb : Nat) : (s.popped nb).dmas = s.dmas := by simp [State.popped]
@[simp] theorem State.popped_dmad (s : State) (nb : Nat) : (s.popped nb).dmad = s.dmad := by simp [State.popped]
@[simp] theorem State.popped_dmac (s : State) (nb : Nat) : (s.popped nb).dmac = s.dmac := by simp [State.popped]
@[simp] theorem State.popped_dmam (s : State) (nb : Nat) : (s.popped nb).dmam = s.dmam := by simp [State.popped]
@[simp] theorem State.popped_intnest (s : State) (nb : Nat) : (s.popped nb).intnest = s.intnest := by simp [State.popped]
@[simp] theorem State.popped_halted (s : State) (nb : Nat) : (s.popped nb).halted = s.halted := by simp [State.popped]
@[simp] theorem State.popped_mem (s : State) (nb : Nat) : (s.popped nb).mem = s.mem := by simp [State.popped]
@[simp] theorem State.popped_written (s : State) (nb : Nat) : (s.popped nb).written = s.written := by simp [State.popped]
@[simp] theorem State.popped_host (s : State) (nb : Nat) : (s.popped nb).host = s.host := by simp [State.popped]
@[simp] theorem State.popped_comparing (s : State) (nb : Nat) : (s.popped nb).comparing = s.comparing := by simp [State.popped]
@[simp] theorem State.popped_ioLog (s : State) (nb : Nat) : (s.popped nb).ioLog = s.ioLog := by simp [State.popped]
@[simp] theorem State.popped_trail (s : State) (nb : Nat) : (s.popped nb).trail = s.trail := by simp [State.popped]
@[simp] theorem State.popped_freeCount (s : State) (nb : Nat) : (s.popped nb).freeCount = s.freeCount := by simp [State.popped]
@[simp] theorem State.popped_xsp (s : State) (nb : Nat) : (s.popped nb).xsp = s.xsp + BitVec.ofNat 32 nb := by simp [State.popped]

/-! ## `writeLoc` -/

@[simp] theorem State.writeLoc_iff {sz : Size} (s : State) (l : Loc sz) (v : BitVec sz.bits) : (s.writeLoc l v).iff = s.iff := by simp [State.writeLoc]
@[simp] theorem State.writeLoc_rfp {sz : Size} (s : State) (l : Loc sz) (v : BitVec sz.bits) : (s.writeLoc l v).rfp = s.rfp := by simp [State.writeLoc]
@[simp] theorem State.writeLoc_flags {sz : Size} (s : State) (l : Loc sz) (v : BitVec sz.bits) : (s.writeLoc l v).flags = s.flags := by simp [State.writeLoc]
@[simp] theorem State.writeLoc_flagsAlt {sz : Size} (s : State) (l : Loc sz) (v : BitVec sz.bits) : (s.writeLoc l v).flagsAlt = s.flagsAlt := by simp [State.writeLoc]
@[simp] theorem State.writeLoc_pc {sz : Size} (s : State) (l : Loc sz) (v : BitVec sz.bits) : (s.writeLoc l v).pc = s.pc := by simp [State.writeLoc]
@[simp] theorem State.writeLoc_dmas {sz : Size} (s : State) (l : Loc sz) (v : BitVec sz.bits) : (s.writeLoc l v).dmas = s.dmas := by simp [State.writeLoc]
@[simp] theorem State.writeLoc_dmad {sz : Size} (s : State) (l : Loc sz) (v : BitVec sz.bits) : (s.writeLoc l v).dmad = s.dmad := by simp [State.writeLoc]
@[simp] theorem State.writeLoc_dmac {sz : Size} (s : State) (l : Loc sz) (v : BitVec sz.bits) : (s.writeLoc l v).dmac = s.dmac := by simp [State.writeLoc]
@[simp] theorem State.writeLoc_dmam {sz : Size} (s : State) (l : Loc sz) (v : BitVec sz.bits) : (s.writeLoc l v).dmam = s.dmam := by simp [State.writeLoc]
@[simp] theorem State.writeLoc_intnest {sz : Size} (s : State) (l : Loc sz) (v : BitVec sz.bits) : (s.writeLoc l v).intnest = s.intnest := by simp [State.writeLoc]
@[simp] theorem State.writeLoc_halted {sz : Size} (s : State) (l : Loc sz) (v : BitVec sz.bits) : (s.writeLoc l v).halted = s.halted := by simp [State.writeLoc]
@[simp] theorem State.writeLoc_mem {sz : Size} (s : State) (l : Loc sz) (v : BitVec sz.bits) : (s.writeLoc l v).mem = s.mem := by simp [State.writeLoc]
@[simp] theorem State.writeLoc_written {sz : Size} (s : State) (l : Loc sz) (v : BitVec sz.bits) : (s.writeLoc l v).written = s.written := by simp [State.writeLoc]
@[simp] theorem State.writeLoc_host {sz : Size} (s : State) (l : Loc sz) (v : BitVec sz.bits) : (s.writeLoc l v).host = s.host := by simp [State.writeLoc]
@[simp] theorem State.writeLoc_comparing {sz : Size} (s : State) (l : Loc sz) (v : BitVec sz.bits) : (s.writeLoc l v).comparing = s.comparing := by simp [State.writeLoc]
@[simp] theorem State.writeLoc_ioLog {sz : Size} (s : State) (l : Loc sz) (v : BitVec sz.bits) : (s.writeLoc l v).ioLog = s.ioLog := by simp [State.writeLoc]
@[simp] theorem State.writeLoc_trail {sz : Size} (s : State) (l : Loc sz) (v : BitVec sz.bits) : (s.writeLoc l v).trail = s.trail := by simp [State.writeLoc]
@[simp] theorem State.writeLoc_freeCount {sz : Size} (s : State) (l : Loc sz) (v : BitVec sz.bits) : (s.writeLoc l v).freeCount = s.freeCount := by simp [State.writeLoc]

/-! ## `setCur` -/

@[simp] theorem State.setCur_iff (s : State) (sz : Size) (c : BitVec 3) (v : BitVec sz.bits) : (s.setCur sz c v).iff = s.iff := by simp [State.setCur]
@[simp] theorem State.setCur_rfp (s : State) (sz : Size) (c : BitVec 3) (v : BitVec sz.bits) : (s.setCur sz c v).rfp = s.rfp := by simp [State.setCur]
@[simp] theorem State.setCur_flags (s : State) (sz : Size) (c : BitVec 3) (v : BitVec sz.bits) : (s.setCur sz c v).flags = s.flags := by simp [State.setCur]
@[simp] theorem State.setCur_flagsAlt (s : State) (sz : Size) (c : BitVec 3) (v : BitVec sz.bits) : (s.setCur sz c v).flagsAlt = s.flagsAlt := by simp [State.setCur]
@[simp] theorem State.setCur_pc (s : State) (sz : Size) (c : BitVec 3) (v : BitVec sz.bits) : (s.setCur sz c v).pc = s.pc := by simp [State.setCur]
@[simp] theorem State.setCur_dmas (s : State) (sz : Size) (c : BitVec 3) (v : BitVec sz.bits) : (s.setCur sz c v).dmas = s.dmas := by simp [State.setCur]
@[simp] theorem State.setCur_dmad (s : State) (sz : Size) (c : BitVec 3) (v : BitVec sz.bits) : (s.setCur sz c v).dmad = s.dmad := by simp [State.setCur]
@[simp] theorem State.setCur_dmac (s : State) (sz : Size) (c : BitVec 3) (v : BitVec sz.bits) : (s.setCur sz c v).dmac = s.dmac := by simp [State.setCur]
@[simp] theorem State.setCur_dmam (s : State) (sz : Size) (c : BitVec 3) (v : BitVec sz.bits) : (s.setCur sz c v).dmam = s.dmam := by simp [State.setCur]
@[simp] theorem State.setCur_intnest (s : State) (sz : Size) (c : BitVec 3) (v : BitVec sz.bits) : (s.setCur sz c v).intnest = s.intnest := by simp [State.setCur]
@[simp] theorem State.setCur_halted (s : State) (sz : Size) (c : BitVec 3) (v : BitVec sz.bits) : (s.setCur sz c v).halted = s.halted := by simp [State.setCur]
@[simp] theorem State.setCur_mem (s : State) (sz : Size) (c : BitVec 3) (v : BitVec sz.bits) : (s.setCur sz c v).mem = s.mem := by simp [State.setCur]
@[simp] theorem State.setCur_written (s : State) (sz : Size) (c : BitVec 3) (v : BitVec sz.bits) : (s.setCur sz c v).written = s.written := by simp [State.setCur]
@[simp] theorem State.setCur_host (s : State) (sz : Size) (c : BitVec 3) (v : BitVec sz.bits) : (s.setCur sz c v).host = s.host := by simp [State.setCur]
@[simp] theorem State.setCur_comparing (s : State) (sz : Size) (c : BitVec 3) (v : BitVec sz.bits) : (s.setCur sz c v).comparing = s.comparing := by simp [State.setCur]
@[simp] theorem State.setCur_ioLog (s : State) (sz : Size) (c : BitVec 3) (v : BitVec sz.bits) : (s.setCur sz c v).ioLog = s.ioLog := by simp [State.setCur]
@[simp] theorem State.setCur_trail (s : State) (sz : Size) (c : BitVec 3) (v : BitVec sz.bits) : (s.setCur sz c v).trail = s.trail := by simp [State.setCur]
@[simp] theorem State.setCur_freeCount (s : State) (sz : Size) (c : BitVec 3) (v : BitVec sz.bits) : (s.setCur sz c v).freeCount = s.freeCount := by simp [State.setCur]

/-! ## `writeOp` -/

@[simp] theorem State.writeOp_iff {sz : Size} (s : State) (r : RegOp sz) (v : BitVec sz.bits) : (s.writeOp r v).iff = s.iff := by simp [State.writeOp]
@[simp] theorem State.writeOp_rfp {sz : Size} (s : State) (r : RegOp sz) (v : BitVec sz.bits) : (s.writeOp r v).rfp = s.rfp := by simp [State.writeOp]
@[simp] theorem State.writeOp_flags {sz : Size} (s : State) (r : RegOp sz) (v : BitVec sz.bits) : (s.writeOp r v).flags = s.flags := by simp [State.writeOp]
@[simp] theorem State.writeOp_flagsAlt {sz : Size} (s : State) (r : RegOp sz) (v : BitVec sz.bits) : (s.writeOp r v).flagsAlt = s.flagsAlt := by simp [State.writeOp]
@[simp] theorem State.writeOp_pc {sz : Size} (s : State) (r : RegOp sz) (v : BitVec sz.bits) : (s.writeOp r v).pc = s.pc := by simp [State.writeOp]
@[simp] theorem State.writeOp_dmas {sz : Size} (s : State) (r : RegOp sz) (v : BitVec sz.bits) : (s.writeOp r v).dmas = s.dmas := by simp [State.writeOp]
@[simp] theorem State.writeOp_dmad {sz : Size} (s : State) (r : RegOp sz) (v : BitVec sz.bits) : (s.writeOp r v).dmad = s.dmad := by simp [State.writeOp]
@[simp] theorem State.writeOp_dmac {sz : Size} (s : State) (r : RegOp sz) (v : BitVec sz.bits) : (s.writeOp r v).dmac = s.dmac := by simp [State.writeOp]
@[simp] theorem State.writeOp_dmam {sz : Size} (s : State) (r : RegOp sz) (v : BitVec sz.bits) : (s.writeOp r v).dmam = s.dmam := by simp [State.writeOp]
@[simp] theorem State.writeOp_intnest {sz : Size} (s : State) (r : RegOp sz) (v : BitVec sz.bits) : (s.writeOp r v).intnest = s.intnest := by simp [State.writeOp]
@[simp] theorem State.writeOp_halted {sz : Size} (s : State) (r : RegOp sz) (v : BitVec sz.bits) : (s.writeOp r v).halted = s.halted := by simp [State.writeOp]
@[simp] theorem State.writeOp_mem {sz : Size} (s : State) (r : RegOp sz) (v : BitVec sz.bits) : (s.writeOp r v).mem = s.mem := by simp [State.writeOp]
@[simp] theorem State.writeOp_written {sz : Size} (s : State) (r : RegOp sz) (v : BitVec sz.bits) : (s.writeOp r v).written = s.written := by simp [State.writeOp]
@[simp] theorem State.writeOp_host {sz : Size} (s : State) (r : RegOp sz) (v : BitVec sz.bits) : (s.writeOp r v).host = s.host := by simp [State.writeOp]
@[simp] theorem State.writeOp_comparing {sz : Size} (s : State) (r : RegOp sz) (v : BitVec sz.bits) : (s.writeOp r v).comparing = s.comparing := by simp [State.writeOp]
@[simp] theorem State.writeOp_ioLog {sz : Size} (s : State) (r : RegOp sz) (v : BitVec sz.bits) : (s.writeOp r v).ioLog = s.ioLog := by simp [State.writeOp]
@[simp] theorem State.writeOp_trail {sz : Size} (s : State) (r : RegOp sz) (v : BitVec sz.bits) : (s.writeOp r v).trail = s.trail := by simp [State.writeOp]
@[simp] theorem State.writeOp_freeCount {sz : Size} (s : State) (r : RegOp sz) (v : BitVec sz.bits) : (s.writeOp r v).freeCount = s.freeCount := by simp [State.writeOp]

/-! ## `writeCr` -/

@[simp] theorem State.writeCr_banks (s : State) (cr : CtrlReg) (v : BitVec cr.size.bits) : (s.writeCr cr v).banks = s.banks := by cases cr <;> rfl
@[simp] theorem State.writeCr_xix (s : State) (cr : CtrlReg) (v : BitVec cr.size.bits) : (s.writeCr cr v).xix = s.xix := by cases cr <;> rfl
@[simp] theorem State.writeCr_xiy (s : State) (cr : CtrlReg) (v : BitVec cr.size.bits) : (s.writeCr cr v).xiy = s.xiy := by cases cr <;> rfl
@[simp] theorem State.writeCr_xiz (s : State) (cr : CtrlReg) (v : BitVec cr.size.bits) : (s.writeCr cr v).xiz = s.xiz := by cases cr <;> rfl
@[simp] theorem State.writeCr_xsp (s : State) (cr : CtrlReg) (v : BitVec cr.size.bits) : (s.writeCr cr v).xsp = s.xsp := by cases cr <;> rfl
@[simp] theorem State.writeCr_iff (s : State) (cr : CtrlReg) (v : BitVec cr.size.bits) : (s.writeCr cr v).iff = s.iff := by cases cr <;> rfl
@[simp] theorem State.writeCr_rfp (s : State) (cr : CtrlReg) (v : BitVec cr.size.bits) : (s.writeCr cr v).rfp = s.rfp := by cases cr <;> rfl
@[simp] theorem State.writeCr_flags (s : State) (cr : CtrlReg) (v : BitVec cr.size.bits) : (s.writeCr cr v).flags = s.flags := by cases cr <;> rfl
@[simp] theorem State.writeCr_flagsAlt (s : State) (cr : CtrlReg) (v : BitVec cr.size.bits) : (s.writeCr cr v).flagsAlt = s.flagsAlt := by cases cr <;> rfl
@[simp] theorem State.writeCr_pc (s : State) (cr : CtrlReg) (v : BitVec cr.size.bits) : (s.writeCr cr v).pc = s.pc := by cases cr <;> rfl
@[simp] theorem State.writeCr_halted (s : State) (cr : CtrlReg) (v : BitVec cr.size.bits) : (s.writeCr cr v).halted = s.halted := by cases cr <;> rfl
@[simp] theorem State.writeCr_mem (s : State) (cr : CtrlReg) (v : BitVec cr.size.bits) : (s.writeCr cr v).mem = s.mem := by cases cr <;> rfl
@[simp] theorem State.writeCr_written (s : State) (cr : CtrlReg) (v : BitVec cr.size.bits) : (s.writeCr cr v).written = s.written := by cases cr <;> rfl
@[simp] theorem State.writeCr_host (s : State) (cr : CtrlReg) (v : BitVec cr.size.bits) : (s.writeCr cr v).host = s.host := by cases cr <;> rfl
@[simp] theorem State.writeCr_comparing (s : State) (cr : CtrlReg) (v : BitVec cr.size.bits) : (s.writeCr cr v).comparing = s.comparing := by cases cr <;> rfl
@[simp] theorem State.writeCr_ioLog (s : State) (cr : CtrlReg) (v : BitVec cr.size.bits) : (s.writeCr cr v).ioLog = s.ioLog := by cases cr <;> rfl
@[simp] theorem State.writeCr_trail (s : State) (cr : CtrlReg) (v : BitVec cr.size.bits) : (s.writeCr cr v).trail = s.trail := by cases cr <;> rfl
@[simp] theorem State.writeCr_freeCount (s : State) (cr : CtrlReg) (v : BitVec cr.size.bits) : (s.writeCr cr v).freeCount = s.freeCount := by cases cr <;> rfl

/-! ## `preStep` -/

@[simp] theorem State.preStep_iff (s : State) (m : MemOp) : (s.preStep m).iff = s.iff := by cases m <;> simp [State.preStep]
@[simp] theorem State.preStep_rfp (s : State) (m : MemOp) : (s.preStep m).rfp = s.rfp := by cases m <;> simp [State.preStep]
@[simp] theorem State.preStep_flags (s : State) (m : MemOp) : (s.preStep m).flags = s.flags := by cases m <;> simp [State.preStep]
@[simp] theorem State.preStep_flagsAlt (s : State) (m : MemOp) : (s.preStep m).flagsAlt = s.flagsAlt := by cases m <;> simp [State.preStep]
@[simp] theorem State.preStep_pc (s : State) (m : MemOp) : (s.preStep m).pc = s.pc := by cases m <;> simp [State.preStep]
@[simp] theorem State.preStep_dmas (s : State) (m : MemOp) : (s.preStep m).dmas = s.dmas := by cases m <;> simp [State.preStep]
@[simp] theorem State.preStep_dmad (s : State) (m : MemOp) : (s.preStep m).dmad = s.dmad := by cases m <;> simp [State.preStep]
@[simp] theorem State.preStep_dmac (s : State) (m : MemOp) : (s.preStep m).dmac = s.dmac := by cases m <;> simp [State.preStep]
@[simp] theorem State.preStep_dmam (s : State) (m : MemOp) : (s.preStep m).dmam = s.dmam := by cases m <;> simp [State.preStep]
@[simp] theorem State.preStep_intnest (s : State) (m : MemOp) : (s.preStep m).intnest = s.intnest := by cases m <;> simp [State.preStep]
@[simp] theorem State.preStep_halted (s : State) (m : MemOp) : (s.preStep m).halted = s.halted := by cases m <;> simp [State.preStep]
@[simp] theorem State.preStep_mem (s : State) (m : MemOp) : (s.preStep m).mem = s.mem := by cases m <;> simp [State.preStep]
@[simp] theorem State.preStep_written (s : State) (m : MemOp) : (s.preStep m).written = s.written := by cases m <;> simp [State.preStep]
@[simp] theorem State.preStep_host (s : State) (m : MemOp) : (s.preStep m).host = s.host := by cases m <;> simp [State.preStep]
@[simp] theorem State.preStep_comparing (s : State) (m : MemOp) : (s.preStep m).comparing = s.comparing := by cases m <;> simp [State.preStep]
@[simp] theorem State.preStep_ioLog (s : State) (m : MemOp) : (s.preStep m).ioLog = s.ioLog := by cases m <;> simp [State.preStep]
@[simp] theorem State.preStep_trail (s : State) (m : MemOp) : (s.preStep m).trail = s.trail := by cases m <;> simp [State.preStep]
@[simp] theorem State.preStep_freeCount (s : State) (m : MemOp) : (s.preStep m).freeCount = s.freeCount := by cases m <;> simp [State.preStep]

/-! ## `postStep` -/

@[simp] theorem State.postStep_iff (s : State) (m : MemOp) : (s.postStep m).iff = s.iff := by cases m <;> simp [State.postStep]
@[simp] theorem State.postStep_rfp (s : State) (m : MemOp) : (s.postStep m).rfp = s.rfp := by cases m <;> simp [State.postStep]
@[simp] theorem State.postStep_flags (s : State) (m : MemOp) : (s.postStep m).flags = s.flags := by cases m <;> simp [State.postStep]
@[simp] theorem State.postStep_flagsAlt (s : State) (m : MemOp) : (s.postStep m).flagsAlt = s.flagsAlt := by cases m <;> simp [State.postStep]
@[simp] theorem State.postStep_pc (s : State) (m : MemOp) : (s.postStep m).pc = s.pc := by cases m <;> simp [State.postStep]
@[simp] theorem State.postStep_dmas (s : State) (m : MemOp) : (s.postStep m).dmas = s.dmas := by cases m <;> simp [State.postStep]
@[simp] theorem State.postStep_dmad (s : State) (m : MemOp) : (s.postStep m).dmad = s.dmad := by cases m <;> simp [State.postStep]
@[simp] theorem State.postStep_dmac (s : State) (m : MemOp) : (s.postStep m).dmac = s.dmac := by cases m <;> simp [State.postStep]
@[simp] theorem State.postStep_dmam (s : State) (m : MemOp) : (s.postStep m).dmam = s.dmam := by cases m <;> simp [State.postStep]
@[simp] theorem State.postStep_intnest (s : State) (m : MemOp) : (s.postStep m).intnest = s.intnest := by cases m <;> simp [State.postStep]
@[simp] theorem State.postStep_halted (s : State) (m : MemOp) : (s.postStep m).halted = s.halted := by cases m <;> simp [State.postStep]
@[simp] theorem State.postStep_mem (s : State) (m : MemOp) : (s.postStep m).mem = s.mem := by cases m <;> simp [State.postStep]
@[simp] theorem State.postStep_written (s : State) (m : MemOp) : (s.postStep m).written = s.written := by cases m <;> simp [State.postStep]
@[simp] theorem State.postStep_host (s : State) (m : MemOp) : (s.postStep m).host = s.host := by cases m <;> simp [State.postStep]
@[simp] theorem State.postStep_comparing (s : State) (m : MemOp) : (s.postStep m).comparing = s.comparing := by cases m <;> simp [State.postStep]
@[simp] theorem State.postStep_ioLog (s : State) (m : MemOp) : (s.postStep m).ioLog = s.ioLog := by cases m <;> simp [State.postStep]
@[simp] theorem State.postStep_trail (s : State) (m : MemOp) : (s.postStep m).trail = s.trail := by cases m <;> simp [State.postStep]
@[simp] theorem State.postStep_freeCount (s : State) (m : MemOp) : (s.postStep m).freeCount = s.freeCount := by cases m <;> simp [State.postStep]

end Sys2Proof.Machine
end

