-- ==== Sys2Proof/Laws/Memory.lean ====
section
/-! SUPPORT. The laws of memory: a byte written reads back, the others stay, every operation keeps the canonical form,
and what a stored value of several bytes reads as. -/

namespace Sys2Proof.Machine

/-! ## One byte -/

theorem Memory.read_erase (m : Memory) (a b : Nat) :
    Memory.read (m.erase a) b = if b = a then Memory.unlisted else Memory.read m b := by
  induction m with
  | nil => simp [Memory.erase, Memory.read]
  | cons c t ih =>
    obtain ⟨k, w⟩ := c
    simp only [Memory.erase]
    by_cases hk : k = a
    · subst hk
      rw [if_pos rfl, ih]
      by_cases hb : b = k
      · simp [hb]
      · simp [Memory.read, hb, Ne.symm hb]
    · rw [if_neg hk]
      simp only [Memory.read, ih]
      by_cases hb : b = a
      · subst hb; simp [hk]
      · simp [hb]

theorem Memory.read_insert (m : Memory) (a : Nat) (v : Byte) (b : Nat) (h : b = a → Memory.read m a = Memory.unlisted)
    (hk : ∀ c ∈ m, c.1 ≠ a) : Memory.read (m.insert a v) b = if b = a then v else Memory.read m b := by
  induction m with
  | nil => by_cases hb : b = a <;> simp [Memory.insert, Memory.read, hb, Ne.symm]
  | cons c t ih =>
    obtain ⟨k, w⟩ := c
    have hka : k ≠ a := hk (k, w) (by simp)
    simp only [Memory.insert]
    split
    · by_cases hb : b = a
      · simp [Memory.read, hb]
      · simp [Memory.read, hb, Ne.symm hb]
    · simp only [Memory.read]
      by_cases hb : k = b
      · have : ¬ b = a := fun e => hka (hb.trans e)
        simp [hb, this]
      · simp only [hb, if_false]
        apply ih
        · intro e; have := h e; simpa [Memory.read, hka] using this
        · exact fun c hc => hk c (List.mem_cons_of_mem _ hc)

theorem Memory.erase_keys (m : Memory) (a : Nat) : ∀ c ∈ m.erase a, c.1 ≠ a := by
  induction m with
  | nil => simp [Memory.erase]
  | cons c t ih =>
    obtain ⟨k, w⟩ := c
    simp only [Memory.erase]
    split
    · exact ih
    · next hk =>
      intro c hc
      rcases List.mem_cons.mp hc with rfl | hc
      · exact hk
      · exact ih c hc

/-- A byte written reads back, and every other byte stays. -/
theorem Memory.read_write (m : Memory) (a : Nat) (v : Byte) (b : Nat) :
    Memory.read (m.write a v) b = if b = a then v else Memory.read m b := by
  simp only [Memory.write]
  split
  · next hv => rw [Memory.read_erase, hv]
  · rw [Memory.read_insert _ _ _ _ (fun _ => by simp [Memory.read_erase]) (Memory.erase_keys m a), Memory.read_erase]
    by_cases hb : b = a <;> simp [hb]

theorem Memory.wfFrom_weaken (m : Memory) (l l' : Nat) (hl : l' ≤ l) (h : Memory.wfFrom l m = true) :
    Memory.wfFrom l' m = true := by
  cases m with
  | nil => rfl
  | cons c t =>
    obtain ⟨k, w⟩ := c
    simp only [Memory.wfFrom, Bool.and_eq_true, decide_eq_true_eq] at h ⊢
    exact ⟨⟨⟨by omega, h.1.1.2⟩, h.1.2⟩, h.2⟩

theorem Memory.wfFrom_erase (m : Memory) (a lo : Nat) (h : Memory.wfFrom lo m = true) :
    Memory.wfFrom lo (m.erase a) = true := by
  induction m generalizing lo with
  | nil => rfl
  | cons c t ih =>
    obtain ⟨k, w⟩ := c
    simp only [Memory.wfFrom, Bool.and_eq_true, decide_eq_true_eq] at h
    simp only [Memory.erase]
    split
    · exact Memory.wfFrom_weaken _ (k + 1) lo (by omega) (ih _ h.2)
    · simp only [Memory.wfFrom, Bool.and_eq_true, decide_eq_true_eq]
      exact ⟨h.1, ih _ h.2⟩

theorem Memory.wfFrom_insert (m : Memory) (a : Nat) (v : Byte) (lo : Nat) (hlo : lo ≤ a) (ha : a < 2 ^ 24)
    (hv : v ≠ Memory.unlisted) (hk : ∀ c ∈ m, c.1 ≠ a) (h : Memory.wfFrom lo m = true) :
    Memory.wfFrom lo (m.insert a v) = true := by
  induction m generalizing lo with
  | nil =>
    simp only [Memory.insert, Memory.wfFrom, Bool.and_eq_true, decide_eq_true_eq]
    exact ⟨⟨⟨hlo, ha⟩, hv⟩, trivial⟩
  | cons c t ih =>
    obtain ⟨k, w⟩ := c
    have hka : k ≠ a := hk (k, w) (by simp)
    simp only [Memory.wfFrom, Bool.and_eq_true, decide_eq_true_eq] at h
    simp only [Memory.insert]
    split <;> simp only [Memory.wfFrom, Bool.and_eq_true, decide_eq_true_eq]
    · exact ⟨⟨⟨hlo, ha⟩, hv⟩, ⟨⟨by omega, h.1.1.2⟩, h.1.2⟩, h.2⟩
    · exact ⟨h.1, ih (k + 1) (by omega) (fun c hc => hk c (List.mem_cons_of_mem _ hc)) h.2⟩

/-- A write keeps the canonical form. -/
theorem Memory.wf_write (m : Memory) (a : Nat) (v : Byte) (ha : a < 2 ^ 24) (h : m.wf = true) :
    (m.write a v).wf = true := by
  simp only [Memory.write]
  split
  · exact Memory.wfFrom_erase m a 0 h
  · next hv =>
    exact Memory.wfFrom_insert _ a v 0 (Nat.zero_le a) ha hv (Memory.erase_keys m a) (Memory.wfFrom_erase m a 0 h)

/-- An address below a memory in canonical form is not listed. -/
theorem Memory.read_below (m : Memory) (lo b : Nat) (h : Memory.wfFrom lo m = true) (hb : b < lo) :
    Memory.read m b = Memory.unlisted := by
  induction m generalizing lo with
  | nil => rfl
  | cons c t ih =>
    obtain ⟨k, w⟩ := c
    simp only [Memory.wfFrom, Bool.and_eq_true, decide_eq_true_eq] at h
    have : ¬ k = b := by omega
    simp only [Memory.read, this, if_false]
    exact ih (k + 1) h.2 (by omega)

/-- Equal readings mean equal memories: the form is canonical. -/
theorem Memory.eq_of_read (m m' : Memory) (lo : Nat) (h : Memory.wfFrom lo m = true) (h' : Memory.wfFrom lo m' = true)
    (hr : ∀ a, Memory.read m a = Memory.read m' a) : m = m' := by
  induction m generalizing lo m' with
  | nil =>
    cases m' with
    | nil => rfl
    | cons c t =>
      obtain ⟨k, w⟩ := c
      simp only [Memory.wfFrom, Bool.and_eq_true, decide_eq_true_eq] at h'
      have := hr k
      simp [Memory.read] at this
      exact absurd this.symm h'.1.2
  | cons c t ih =>
    obtain ⟨k, w⟩ := c
    have hc := h
    simp only [Memory.wfFrom, Bool.and_eq_true, decide_eq_true_eq] at hc
    cases m' with
    | nil =>
      have := hr k
      simp [Memory.read] at this
      exact absurd this hc.1.2
    | cons c' t' =>
      obtain ⟨k', w'⟩ := c'
      have hc' := h'
      simp only [Memory.wfFrom, Bool.and_eq_true, decide_eq_true_eq] at hc'
      have hk : k = k' := by
        rcases Nat.lt_trichotomy k k' with hlt | he | hgt
        · have h1 := hr k
          have h2 := Memory.read_below ((k', w') :: t') k' k (by simp only [Memory.wfFrom, Bool.and_eq_true, decide_eq_true_eq]; exact ⟨⟨⟨le_rfl, hc'.1.1.2⟩, hc'.1.2⟩, hc'.2⟩) hlt
          rw [h2] at h1; simp [Memory.read] at h1
          exact absurd h1 hc.1.2
        · exact he
        · have h1 := hr k'
          have h2 := Memory.read_below ((k, w) :: t) k k' (by simp only [Memory.wfFrom, Bool.and_eq_true, decide_eq_true_eq]; exact ⟨⟨⟨le_rfl, hc.1.1.2⟩, hc.1.2⟩, hc.2⟩) hgt
          rw [h2] at h1; simp [Memory.read] at h1
          exact absurd h1.symm hc'.1.2
      subst hk
      have hw : w = w' := by have := hr k; simpa [Memory.read] using this
      subst hw
      congr 1
      apply ih t' (k + 1) hc.2 hc'.2
      intro a
      by_cases ha : k = a
      · subst ha; rw [Memory.read_below t _ k hc.2 (by omega), Memory.read_below t' _ k hc'.2 (by omega)]
      · have := hr a; simpa [Memory.read, ha] using this

/-! ## The record of written addresses -/

theorem mem_insertAddr (l : List Nat) (a b : Nat) : b ∈ insertAddr l a ↔ b = a ∨ b ∈ l := by
  induction l with
  | nil => simp [insertAddr]
  | cons k t ih =>
    simp only [insertAddr]
    split
    · simp
    · split
      · next h => subst h; simp
      · simp only [List.mem_cons, ih]; tauto

/-- Adding an address keeps the list rising. -/
theorem insertAddr_rising (l : List Nat) (a : Nat) (h : l.Pairwise (· < ·)) : (insertAddr l a).Pairwise (· < ·) := by
  induction l with
  | nil => simp [insertAddr]
  | cons k t ih =>
    simp only [insertAddr]
    split
    · next hak =>
      refine List.Pairwise.cons ?_ h
      intro b hb
      rcases List.mem_cons.mp hb with rfl | hb
      · exact hak
      · exact lt_trans hak ((List.pairwise_cons.mp h).1 b hb)
    · split
      · exact h
      · next h1 h2 =>
        refine List.Pairwise.cons ?_ (ih (List.pairwise_cons.mp h).2)
        intro b hb
        rcases (mem_insertAddr t a b).mp hb with rfl | hb
        · omega
        · exact (List.pairwise_cons.mp h).1 b hb

/-! ## Values of several bytes -/

theorem busAddr_lt (ea : Long) : (busAddr ea).toNat < 2 ^ 24 := (busAddr ea).isLt

theorem State.readByte_writeByte (s : State) (a b : Addr) (v : Byte) :
    (s.writeByte a v).readByte b = if b = a then v else s.readByte b := by
  simp only [State.readByte_eq, State.writeByte_mem, Memory.read_write]
  by_cases hb : b = a
  · simp [hb]
  · have : ¬ b.toNat = a.toNat := fun e => hb (BitVec.eq_of_toNat_eq e)
    simp [hb, this]

theorem State.writeByte_wf (s : State) (a : Addr) (v : Byte) (h : s.mem.wf = true) :
    (s.writeByte a v).mem.wf = true :=
  Memory.wf_write s.mem a.toNat v a.isLt h

theorem State.memWrite_wf (s : State) (nb : Nat) (ea : Long) (v : BitVec (8 * nb)) (h : s.mem.wf = true) :
    (s.memWrite nb ea v).mem.wf = true := by
  induction nb generalizing s ea with
  | zero => exact h
  | succ nb ih => exact ih _ _ _ (State.writeByte_wf _ _ _ h)

/-- The address of a later byte of an access. -/
theorem addr_succ (ea : Long) (i : Nat) : ea + BitVec.ofNat 32 (i + 1) = ea + 1 + BitVec.ofNat 32 i := by
  apply BitVec.eq_of_toNat_eq
  have h1 : (1 : Long).toNat = 1 := rfl
  simp only [BitVec.toNat_add, BitVec.toNat_ofNat, h1]
  omega

/-- A byte that a store does not reach stays. -/
theorem State.readByte_memWrite_other (s : State) (nb : Nat) (ea : Long) (v : BitVec (8 * nb)) (a : Addr)
    (h : ∀ i < nb, a ≠ busAddr (ea + BitVec.ofNat 32 i)) :
    (s.memWrite nb ea v).readByte a = s.readByte a := by
  induction nb generalizing s ea with
  | zero => rfl
  | succ nb ih =>
    rw [State.memWrite, ih, State.readByte_writeByte]
    · have := h 0 (by omega)
      simp at this
      simp [this]
    · intro i hi
      have := h (i + 1) (by omega)
      rwa [addr_succ] at this

/-- Two bytes of one access of at most 2^24 bytes lie at different addresses. -/
theorem busAddr_add_ne (ea : Long) (i j : Nat) (hi : i < 2 ^ 24) (hj : j < 2 ^ 24) (h : i ≠ j) :
    busAddr (ea + BitVec.ofNat 32 i) ≠ busAddr (ea + BitVec.ofNat 32 j) := by
  intro e
  have e := congrArg BitVec.toNat e
  simp only [busAddr, BitVec.toNat_setWidth, BitVec.toNat_add, BitVec.toNat_ofNat] at e
  omega

/-- A byte that a store reaches holds its byte of the value. -/
theorem State.readByte_memWrite_same (s : State) (nb : Nat) (ea : Long) (v : BitVec (8 * nb)) (i : Nat)
    (hnb : nb < 2 ^ 24) (hi : i < nb) :
    (s.memWrite nb ea v).readByte (busAddr (ea + BitVec.ofNat 32 i)) = v.extractLsb' (8 * i) 8 := by
  induction nb generalizing s ea i with
  | zero => omega
  | succ nb ih =>
    rw [State.memWrite]
    cases i with
    | zero =>
      rw [State.readByte_memWrite_other, State.readByte_writeByte]
      · apply BitVec.eq_of_getLsbD_eq
        intro k hk
        simp [hk]
      · intro k hk
        have := busAddr_add_ne ea 0 (k + 1) (by omega) (by omega) (by omega)
        rwa [addr_succ] at this
    | succ i =>
      rw [addr_succ, ih _ _ _ _ (by omega) (by omega)]
      apply BitVec.eq_of_getLsbD_eq
      intro k hk
      simp only [BitVec.getLsbD_extractLsb']
      have h1 : 8 * i + k < 8 * nb := by omega
      simp [hk, h1]
      congr 1
      omega

/-- The bytes of a value read from memory. -/
theorem State.extract_memRead (s : State) (nb : Nat) (ea : Long) (i : Nat) (hi : i < nb) :
    (s.memRead nb ea).extractLsb' (8 * i) 8 = s.readByte (busAddr (ea + BitVec.ofNat 32 i)) := by
  induction nb generalizing ea i with
  | zero => omega
  | succ nb ih =>
    cases i with
    | zero =>
      apply BitVec.eq_of_getLsbD_eq
      intro k hk
      simp only [State.memRead, BitVec.getLsbD_extractLsb', BitVec.getLsbD_append]
      simp [hk]
    | succ i =>
      rw [addr_succ, ← ih (ea + 1) i (by omega)]
      apply BitVec.eq_of_getLsbD_eq
      intro k hk
      simp only [State.memRead, BitVec.getLsbD_extractLsb', BitVec.getLsbD_append]
      have h1 : ¬ 8 * (i + 1) + k < 8 := by omega
      simp only [h1, if_false]
      congr 2
      omega

/-- Values whose bytes agree are equal. -/
theorem eq_of_bytes {nb : Nat} {v w : BitVec (8 * nb)}
    (h : ∀ i < nb, v.extractLsb' (8 * i) 8 = w.extractLsb' (8 * i) 8) : v = w := by
  apply BitVec.eq_of_getLsbD_eq
  intro k hk
  have h1 := congrArg (·.getLsbD (k % 8)) (h (k / 8) (by omega))
  simp only [BitVec.getLsbD_extractLsb'] at h1
  have h2 : k % 8 < 8 := by omega
  have h3 : 8 * (k / 8) + k % 8 = k := by omega
  simpa [h2, h3] using h1

/-- A value is read from states whose bytes agree alike. -/
theorem State.memRead_congr {s t : State} (nb : Nat) (ea : Long)
    (h : ∀ i < nb, t.readByte (busAddr (ea + BitVec.ofNat 32 i)) = s.readByte (busAddr (ea + BitVec.ofNat 32 i))) :
    t.memRead nb ea = s.memRead nb ea :=
  eq_of_bytes fun i hi => by rw [State.extract_memRead _ _ _ _ hi, State.extract_memRead _ _ _ _ hi, h i hi]

/-- A value stored reads back (R73, R74). -/
theorem State.memRead_memWrite_same (s : State) (nb : Nat) (ea : Long) (v : BitVec (8 * nb))
    (hnb : nb < 2 ^ 24) : (s.memWrite nb ea v).memRead nb ea = v :=
  eq_of_bytes fun i hi => by
    rw [State.extract_memRead _ _ _ _ hi, State.readByte_memWrite_same _ _ _ _ _ hnb hi]

/-- A read that no byte of a store reaches gives what it gave. -/
theorem State.memRead_memWrite_other (s : State) (nb : Nat) (ea : Long) (v : BitVec (8 * nb)) (nb' : Nat) (ea' : Long)
    (h : ∀ i < nb', ∀ j < nb, busAddr (ea' + BitVec.ofNat 32 i) ≠ busAddr (ea + BitVec.ofNat 32 j)) :
    (s.memWrite nb ea v).memRead nb' ea' = s.memRead nb' ea' :=
  State.memRead_congr nb' ea' fun i hi => State.readByte_memWrite_other _ _ _ _ _ (h i hi)

/-- Memory is all that a read of it depends on. -/
theorem State.memRead_eq_of_mem {s t : State} (h : t.mem = s.mem) (nb : Nat) (ea : Long) :
    t.memRead nb ea = s.memRead nb ea :=
  State.memRead_congr nb ea fun _ _ => by simp [State.readByte, h]

/-- A store records the addresses it reaches, and no other, as written (R90). -/
theorem State.mem_written_memWrite (s : State) (nb : Nat) (ea : Long) (v : BitVec (8 * nb)) (b : Nat) :
    b ∈ (s.memWrite nb ea v).written ↔ (∃ i < nb, b = (busAddr (ea + BitVec.ofNat 32 i)).toNat) ∨ b ∈ s.written := by
  induction nb generalizing s ea with
  | zero => simp [State.memWrite]
  | succ nb ih =>
    rw [State.memWrite, ih]
    simp only [State.writeByte_written, mem_insertAddr]
    constructor
    · rintro (⟨i, hi, rfl⟩ | rfl | h)
      · exact .inl ⟨i + 1, by omega, by rw [addr_succ]⟩
      · exact .inl ⟨0, by omega, by simp⟩
      · exact .inr h
    · rintro (⟨i, hi, rfl⟩ | h)
      · cases i with
        | zero => exact .inr (.inl (by simp))
        | succ i => exact .inl ⟨i, by omega, by rw [addr_succ]⟩
      · exact .inr (.inr h)

/-- A store keeps the canonical form of every earlier memory on the trail (R490). -/
theorem State.memWrite_trail_wf (s : State) (nb : Nat) (ea : Long) (v : BitVec (8 * nb)) (h : s.mem.wf = true)
    (ht : ∀ l ∈ s.trail, ∀ x ∈ l, Memory.wf x.mem = true) :
    ∀ l ∈ (s.memWrite nb ea v).trail, ∀ x ∈ l, Memory.wf x.mem = true := by
  induction nb generalizing s ea with
  | zero => exact ht
  | succ nb ih =>
    refine ih _ _ _ (State.writeByte_wf _ _ _ h) fun l hl m hm => ?_
    rw [State.writeByte_trail, Option.mem_map] at hl
    obtain ⟨l', hl', rfl⟩ := hl
    rcases List.mem_cons.1 hm with rfl | hm
    · exact h
    · exact ht l' hl' m hm

theorem State.memWrite_rising (s : State) (nb : Nat) (ea : Long) (v : BitVec (8 * nb))
    (h : s.written.Pairwise (· < ·)) : (s.memWrite nb ea v).written.Pairwise (· < ·) := by
  induction nb generalizing s ea with
  | zero => exact h
  | succ nb ih => exact ih _ _ _ (insertAddr_rising _ _ h)

end Sys2Proof.Machine
end

