-- ==== Sys2Proof/Laws/Registers.lean ====
section
/-! SUPPORT. Reading a register after writing one: general registers, parts of them, and the operands that name them. -/

namespace Sys2Proof.Machine

/-! ## Whole registers -/

theorem State.reg_setReg (s : State) (g g' : GReg) (v : Long) :
    (s.setReg g v).reg g' = if g' = g then v else s.reg g' := by
  cases g with
  | bank i =>
    cases g' with
    | bank j =>
      simp only [State.setReg, State.reg, Vector.getElem_set, GReg.bank.injEq]
      by_cases h : i = j
      · simp [h]
      · have : i.toNat ≠ j.toNat := fun e => h (BitVec.eq_of_toNat_eq e)
        simp [this, Ne.symm h]
    | _ => simp [State.setReg, State.reg]
  | _ => cases g' <;> simp [State.setReg, State.reg]

@[simp] theorem State.reg_setReg_same (s : State) (g : GReg) (v : Long) : (s.setReg g v).reg g = v := by
  simp [State.reg_setReg]

theorem State.reg_setReg_ne (s : State) {g g' : GReg} (v : Long) (h : g' ≠ g) :
    (s.setReg g v).reg g' = s.reg g' := by
  simp [State.reg_setReg, h]

/-- The general registers are the five fields that hold them: states that agree there read alike. -/
theorem State.reg_eq_of_fields {s t : State} (hb : t.banks = s.banks) (hx : t.xix = s.xix) (hy : t.xiy = s.xiy)
    (hz : t.xiz = s.xiz) (hsp : t.xsp = s.xsp) (g : GReg) : t.reg g = s.reg g := by
  cases g <;> simp [State.reg, *]

@[simp] theorem State.reg_xsp (s : State) : s.reg .xsp = s.xsp := rfl

@[simp] theorem State.reg_drawn (s : State) (g : GReg) : s.drawn.reg g = s.reg g := by cases g <;> rfl

@[simp] theorem State.reg_drawnLong (s : State) (sz : Size) (g : GReg) : (s.drawnLong sz).reg g = s.reg g := by
  cases sz <;> cases g <;> rfl

@[simp] theorem State.reg_setSr (s : State) (v : Word) (g : GReg) : (s.setSr v).reg g = s.reg g := by cases g <;> rfl

@[simp] theorem State.reg_memWrite (s : State) (nb : Nat) (ea : Long) (v : BitVec (8 * nb)) (g : GReg) :
    (s.memWrite nb ea v).reg g = s.reg g :=
  State.reg_eq_of_fields (by simp) (by simp) (by simp) (by simp) (by simp) g

@[simp] theorem State.reg_writeCr (s : State) (cr : CtrlReg) (v : BitVec cr.size.bits) (g : GReg) :
    (s.writeCr cr v).reg g = s.reg g :=
  State.reg_eq_of_fields (by simp) (by simp) (by simp) (by simp) (by simp) g

theorem State.reg_popped (s : State) (nb : Nat) (g : GReg) :
    (s.popped nb).reg g = if g = .xsp then s.xsp + BitVec.ofNat 32 nb else s.reg g := by
  cases g <;> simp [State.popped, State.reg]

theorem State.reg_push (s : State) (nb : Nat) (v : BitVec (8 * nb)) (g : GReg) :
    (s.push nb v).reg g = if g = .xsp then s.xsp - BitVec.ofNat 32 nb else s.reg g := by
  rw [State.push, State.reg_memWrite]
  cases g <;> simp [State.reg]

/-! Updates of fields that hold no general register. -/

@[simp] theorem State.reg_with_flags (s : State) (f : Flags) (g : GReg) : ({ s with flags := f } : State).reg g = s.reg g := by
  cases g <;> rfl

@[simp] theorem State.reg_with_flags_drawn (s : State) (f : Flags) (k : Nat) (g : GReg) :
    ({ s with flags := f, freeCount := k } : State).reg g = s.reg g := by
  cases g <;> rfl

@[simp] theorem State.reg_with_exchanged (s : State) (f f' : Flags) (g : GReg) :
    ({ s with flags := f, flagsAlt := f' } : State).reg g = s.reg g := by
  cases g <;> rfl

@[simp] theorem State.reg_with_pc (s : State) (a : Long) (g : GReg) : ({ s with pc := a } : State).reg g = s.reg g := by
  cases g <;> rfl

@[simp] theorem State.reg_with_host (s : State) (h : List HostEvent) (g : GReg) :
    ({ s with host := h } : State).reg g = s.reg g := by
  cases g <;> rfl

@[simp] theorem State.reg_with_freeCount (s : State) (k : Nat) (g : GReg) :
    ({ s with freeCount := k } : State).reg g = s.reg g := by
  cases g <;> rfl

theorem State.reg_with_xsp (s : State) (v : Long) (g : GReg) :
    ({ s with xsp := v } : State).reg g = if g = .xsp then v else s.reg g := by
  cases g <;> simp [State.reg]

/-! ## Parts of a register (R22) -/

/-- Bit `i` after bits have been replaced. -/
theorem getLsbD_insertBits {n : Nat} (old : Long) (lo : Nat) (v : BitVec n) (i : Nat) :
    (insertBits old lo v).getLsbD i =
      if decide (i < 32) && decide (lo ≤ i) && decide (i < lo + n) then v.getLsbD (i - lo) else old.getLsbD i := by
  simp only [insertBits, BitVec.getLsbD_or, BitVec.getLsbD_and, BitVec.getLsbD_not, BitVec.getLsbD_shiftLeft,
    BitVec.getLsbD_setWidth, BitVec.getLsbD_allOnes]
  by_cases h32 : i < 32
  · by_cases hlo : lo ≤ i
    · by_cases hn : i < lo + n
      · have h1 : i - lo < n := by omega
        have h2 : ¬ i < lo := by omega
        have h3 : i - lo < 32 := by omega
        simp [h32, hlo, hn, h1, h2, h3]
      · have h1 : ¬ i - lo < n := by omega
        have h2 : v.getLsbD (i - lo) = false := BitVec.getLsbD_of_ge v _ (by omega)
        simp [h32, hn, h1, h2]
    · have h2 : i < lo := by omega
      simp [h32, hlo, h2]
  · have h1 : old.getLsbD i = false := BitVec.getLsbD_of_ge old _ (by omega)
    simp [h32, h1]

/-- What has been inserted reads back. -/
theorem extract_insertBits_same {n : Nat} (old : Long) (lo : Nat) (v : BitVec n) (h : lo + n ≤ 32) :
    (insertBits old lo v).extractLsb' lo n = v := by
  apply BitVec.eq_of_getLsbD_eq
  intro i hi
  rw [BitVec.getLsbD_extractLsb', getLsbD_insertBits]
  have h1 : lo + i < 32 := by omega
  have h2 : lo + i < lo + n := by omega
  simp [hi, h1]

/-- Bits outside the inserted ones stay. -/
theorem extract_insertBits_other {n : Nat} (old : Long) (lo : Nat) (v : BitVec n) (lo' n' : Nat)
    (h : lo' + n' ≤ lo ∨ lo + n ≤ lo') : (insertBits old lo v).extractLsb' lo' n' = old.extractLsb' lo' n' := by
  apply BitVec.eq_of_getLsbD_eq
  intro i hi
  rw [BitVec.getLsbD_extractLsb', BitVec.getLsbD_extractLsb', getLsbD_insertBits]
  have : ¬ (lo ≤ lo' + i ∧ lo' + i < lo + n) := by omega
  by_cases h1 : lo ≤ lo' + i
  · have h2 : ¬ lo' + i < lo + n := fun h2 => this ⟨h1, h2⟩
    simp [h2]
  · simp [h1]

/-- The part of a place lies in its register. -/
theorem Loc.part_le {sz : Size} (l : Loc sz) : l.part.toNat * sz.bits + sz.bits ≤ 32 := by
  have := l.part.isLt
  cases sz <;> simp [Size.partBits, Size.bits, Size.bytes] at * <;> omega

@[simp] theorem State.readLoc_writeLoc_same {sz : Size} (s : State) (l : Loc sz) (v : BitVec sz.bits) :
    (s.writeLoc l v).readLoc l = v := by
  simp [State.readLoc, State.writeLoc, extract_insertBits_same _ _ _ l.part_le]

theorem State.reg_writeLoc (s : State) {sz : Size} (l : Loc sz) (v : BitVec sz.bits) (g : GReg) :
    (s.writeLoc l v).reg g =
      if g = l.g then insertBits (s.reg l.g) (l.part.toNat * sz.bits) v else s.reg g := by
  simp [State.writeLoc, State.reg_setReg]

theorem State.reg_writeLoc_ne {sz : Size} (s : State) (l : Loc sz) (v : BitVec sz.bits) {g : GReg} (h : g ≠ l.g) :
    (s.writeLoc l v).reg g = s.reg g := by
  simp [State.reg_writeLoc, h]

/-- Bytes of a register outside the place that is written stay. -/
theorem State.byte_writeLoc_other {sz : Size} (s : State) (l : Loc sz) (v : BitVec sz.bits) (g : GReg) (k : BitVec 2)
    (h : ¬ (g = l.g ∧ k.toNat / sz.bytes = l.part.toNat)) :
    ((s.writeLoc l v).reg g).extractLsb' (8 * k.toNat) 8 = (s.reg g).extractLsb' (8 * k.toNat) 8 := by
  rw [State.reg_writeLoc]
  split
  · next hg =>
    subst hg
    apply extract_insertBits_other
    have hk := k.isLt
    have hp := l.part.isLt
    have h' : k.toNat / sz.bytes ≠ l.part.toNat := fun e => h ⟨rfl, e⟩
    cases sz <;> simp [Size.partBits, Size.bits, Size.bytes] at * <;> omega
  · rfl

theorem State.readLoc_eq_of_reg {sz : Size} {s t : State} (l : Loc sz) (h : t.reg l.g = s.reg l.g) :
    t.readLoc l = s.readLoc l := by
  simp [State.readLoc, h]

/-- A write to a place shows in no place of another register. -/
theorem State.readLoc_writeLoc_ne {sz sz' : Size} (s : State) (l : Loc sz) (v : BitVec sz.bits) (l' : Loc sz')
    (h : l'.g ≠ l.g) : (s.writeLoc l v).readLoc l' = s.readLoc l' :=
  State.readLoc_eq_of_reg l' (State.reg_writeLoc_ne s l v h)

/-! ## Control registers (R50) -/

@[simp] theorem State.readCr_writeCr_same (s : State) (cr : CtrlReg) (v : BitVec cr.size.bits) :
    (s.writeCr cr v).readCr cr = v := by
  cases cr <;> simp [State.writeCr, State.readCr]

theorem State.readCr_writeCr_ne (s : State) (cr cr' : CtrlReg) (v : BitVec cr.size.bits) (h : cr' ≠ cr) :
    (s.writeCr cr v).readCr cr' = s.readCr cr' := by
  have key : ∀ n m : BitVec 3, n ≠ m → ¬ n.toNat = m.toNat := fun n m h e => h (BitVec.eq_of_toNat_eq e)
  cases cr <;> cases cr' <;> simp_all [State.writeCr, State.readCr, Vector.getElem_set] <;>
    exact fun e => absurd e.symm (key _ _ h)

end Sys2Proof.Machine
end

