-- ==== Sys2Proof/Laws/Operands.lean ====
section
/-! SUPPORT. What the operand operations can do, each said once: memory reads after updates that do not touch memory, the
register steps of the memory operands, and the effect of a register write on the bytes of all registers. -/

namespace Sys2Proof.Machine

/-! ## Memory after updates that do not touch it -/

theorem State.readByte_of_mem {s t : State} (h : t.mem = s.mem) (a : Addr) : t.readByte a = s.readByte a := by
  simp [State.readByte, h]

@[simp] theorem State.readByte_setReg (s : State) (g : GReg) (v : Long) (a : Addr) :
    (s.setReg g v).readByte a = s.readByte a := State.readByte_of_mem (by simp) a

@[simp] theorem State.readByte_writeLoc {sz : Size} (s : State) (l : Loc sz) (v : BitVec sz.bits) (a : Addr) :
    (s.writeLoc l v).readByte a = s.readByte a := State.readByte_of_mem (by simp) a

@[simp] theorem State.readByte_preStep (s : State) (m : MemOp) (a : Addr) :
    (s.preStep m).readByte a = s.readByte a := State.readByte_of_mem (by simp) a

@[simp] theorem State.readByte_postStep (s : State) (m : MemOp) (a : Addr) :
    (s.postStep m).readByte a = s.readByte a := State.readByte_of_mem (by simp) a

@[simp] theorem State.memRead_setReg (s : State) (g : GReg) (v : Long) (nb : Nat) (ea : Long) :
    (s.setReg g v).memRead nb ea = s.memRead nb ea := State.memRead_eq_of_mem (by simp) nb ea

@[simp] theorem State.memRead_writeLoc {sz : Size} (s : State) (l : Loc sz) (v : BitVec sz.bits) (nb : Nat) (ea : Long) :
    (s.writeLoc l v).memRead nb ea = s.memRead nb ea := State.memRead_eq_of_mem (by simp) nb ea

@[simp] theorem State.memRead_preStep (s : State) (m : MemOp) (nb : Nat) (ea : Long) :
    (s.preStep m).memRead nb ea = s.memRead nb ea := State.memRead_eq_of_mem (by simp) nb ea

@[simp] theorem State.memRead_postStep (s : State) (m : MemOp) (nb : Nat) (ea : Long) :
    (s.postStep m).memRead nb ea = s.memRead nb ea := State.memRead_eq_of_mem (by simp) nb ea

@[simp] theorem State.memRead_drawn (s : State) (nb : Nat) (ea : Long) :
    s.drawn.memRead nb ea = s.memRead nb ea := State.memRead_eq_of_mem (by simp) nb ea

@[simp] theorem State.memRead_with_flags (s : State) (f : Flags) (nb : Nat) (ea : Long) :
    ({ s with flags := f } : State).memRead nb ea = s.memRead nb ea :=
  State.memRead_eq_of_mem (s := s) (t := { s with flags := f }) rfl nb ea

@[simp] theorem State.memRead_with_pc (s : State) (p : Long) (nb : Nat) (ea : Long) :
    ({ s with pc := p } : State).memRead nb ea = s.memRead nb ea :=
  State.memRead_eq_of_mem (s := s) (t := { s with pc := p }) rfl nb ea

@[simp] theorem State.memRead_writeCr (s : State) (cr : CtrlReg) (v : BitVec cr.size.bits) (nb : Nat) (ea : Long) :
    (s.writeCr cr v).memRead nb ea = s.memRead nb ea := State.memRead_eq_of_mem (by simp) nb ea

@[simp] theorem State.memRead_popped (s : State) (nb' : Nat) (nb : Nat) (ea : Long) :
    (s.popped nb').memRead nb ea = s.memRead nb ea := State.memRead_eq_of_mem (by simp) nb ea

@[simp] theorem State.readLoc_with_flags {sz : Size} (s : State) (f : Flags) (l : Loc sz) :
    ({ s with flags := f } : State).readLoc l = s.readLoc l := State.readLoc_eq_of_reg l (by simp)

@[simp] theorem State.readLoc_with_pc {sz : Size} (s : State) (p : Long) (l : Loc sz) :
    ({ s with pc := p } : State).readLoc l = s.readLoc l := State.readLoc_eq_of_reg l (by simp)

@[simp] theorem State.readLoc_drawn {sz : Size} (s : State) (l : Loc sz) : s.drawn.readLoc l = s.readLoc l :=
  State.readLoc_eq_of_reg l (by simp)

@[simp] theorem State.readLoc_drawnLong {sz sz' : Size} (s : State) (l : Loc sz) :
    (s.drawnLong sz').readLoc l = s.readLoc l := State.readLoc_eq_of_reg l (by simp)

@[simp] theorem State.readLoc_memWrite {sz : Size} (s : State) (nb : Nat) (ea : Long) (v : BitVec (8 * nb)) (l : Loc sz) :
    (s.memWrite nb ea v).readLoc l = s.readLoc l := State.readLoc_eq_of_reg l (by simp)

/-! ## The register steps of memory operands (R123, R124) -/

theorem State.reg_preStep (s : State) (m : MemOp) (g : GReg) :
    (s.preStep m).reg g = if preReg s.rfp m = some g then s.reg g - moveAmount m else s.reg g := by
  cases m <;> simp only [State.preStep, preReg, moveAmount, reduceCtorEq, if_false]
  rw [State.reg_setReg]
  simp only [Option.some.injEq, State.reg32, eq_comm (a := g)]
  split
  · next h => rw [h]
  · rfl

theorem State.reg_postStep (s : State) (m : MemOp) (g : GReg) :
    (s.postStep m).reg g = if postReg s.rfp m = some g then s.reg g + moveAmount m else s.reg g := by
  cases m <;> simp only [State.postStep, postReg, moveAmount, reduceCtorEq, if_false]
  rw [State.reg_setReg]
  simp only [Option.some.injEq, State.reg32, eq_comm (a := g)]
  split
  · next h => rw [h]
  · rfl

theorem preReg_eq_none_of_post {rfp : BitVec 2} {m : MemOp} {g : GReg} (h : postReg rfp m = some g) :
    preReg rfp m = none := by
  cases m <;> simp_all [postReg, preReg]

/-- After both steps, whatever happened between them to anything but the registers, each register has stepped. -/
theorem State.reg_stepped {s t : State} (m : MemOp) (hr : t.rfp = s.rfp) (g : GReg)
    (h : t.reg g = (s.preStep m).reg g) : (t.postStep m).reg g = s.movedReg m g := by
  rw [State.reg_postStep, h, State.reg_preStep, hr, State.movedReg]
  by_cases h1 : preReg s.rfp m = some g
  · have h2 : postReg s.rfp m ≠ some g := fun e => by rw [preReg_eq_none_of_post e] at h1; exact nomatch h1
    simp [h1, h2]
  · simp [h1]

/-- A register that a mode does not step is neither stepped before nor after. -/
theorem preReg_ne_of_auto {rfp : BitVec 2} {m : MemOp} {g : GReg} (h : autoReg rfp m ≠ some g) :
    preReg rfp m ≠ some g := by
  cases m <;> simp_all [autoReg, preReg]

theorem postReg_ne_of_auto {rfp : BitVec 2} {m : MemOp} {g : GReg} (h : autoReg rfp m ≠ some g) :
    postReg rfp m ≠ some g := by
  cases m <;> simp_all [autoReg, postReg]

theorem movedReg_of_not_auto (s : State) (m : MemOp) (g : GReg) (h : autoReg s.rfp m ≠ some g) :
    s.movedReg m g = s.reg g := by
  simp [State.movedReg, preReg_ne_of_auto h, postReg_ne_of_auto h]

@[simp] theorem State.modeStep_eq (s : State) (m : MemOp) : s.modeStep m = (s.preStep m).postStep m := rfl

/-- The step of a mode, from a state that differs from `s` by `d` in a register. -/
theorem State.reg_modeStep_add {s t : State} (m : MemOp) (hr : t.rfp = s.rfp) (g : GReg) (d : Long)
    (h : t.reg g = s.reg g + d) : ((t.preStep m).postStep m).reg g = s.movedReg m g + d := by
  rw [State.reg_stepped (s := t) m (by simp) g rfl, State.movedReg, State.movedReg, hr, h]
  split_ifs
  · rw [BitVec.sub_eq_add_neg, BitVec.sub_eq_add_neg]; ac_rfl
  · ac_rfl
  · rfl

theorem State.reg_modeStep {s t : State} (m : MemOp) (hr : t.rfp = s.rfp) (g : GReg) (h : t.reg g = s.reg g) :
    ((t.preStep m).postStep m).reg g = s.movedReg m g := by
  simpa using State.reg_modeStep_add m hr g 0 (by simpa using h)

/-- The pre-decrement does not change the value of a place outside the register it moves. -/
theorem State.readLoc_preStep {sz : Size} (s : State) (m : MemOp) (l : Loc sz) (h : preReg s.rfp m ≠ some l.g) :
    (s.preStep m).readLoc l = s.readLoc l :=
  State.readLoc_eq_of_reg l (by simp [State.reg_preStep, h])

/-! ## Bytes of registers -/

theorem State.regByte_of_reg {s t : State} {g : GReg} (h : t.reg g = s.reg g) (k : BitVec 2) :
    t.regByte g k = s.regByte g k := by
  simp [State.regByte, h]

/-- A write to a place leaves every byte outside it. -/
theorem sameRegsBut_writeLoc {sz : Size} (s : State) (l : Loc sz) (v : BitVec sz.bits) :
    SameRegsBut s (s.writeLoc l v) l :=
  fun g k h => State.byte_writeLoc_other s l v g k h

/-- The places of two operands of one size are the same or share no byte (R201). -/
theorem Loc.eq_or_disjoint {sz : Size} (l l' : Loc sz) : l = l' ∨ ∀ g k, ¬ (l.covers g k ∧ l'.covers g k) := by
  by_cases h : l = l'
  · exact .inl h
  · refine .inr fun g k hc => h ?_
    obtain ⟨⟨h1, h2⟩, h3, h4⟩ := hc
    obtain ⟨g1, p1⟩ := l
    obtain ⟨g2, p2⟩ := l'
    simp only at h1 h2 h3 h4
    subst h1; subst h3
    rw [BitVec.eq_of_toNat_eq (h2.symm.trans h4)]

/-- A place is determined by its bytes. -/
theorem State.readLoc_eq_of_bytes {sz : Size} {s t : State} (l : Loc sz)
    (h : ∀ k, l.covers l.g k → t.regByte l.g k = s.regByte l.g k) : t.readLoc l = s.readLoc l := by
  apply BitVec.eq_of_getLsbD_eq
  intro i hi
  simp only [State.readLoc, BitVec.getLsbD_extractLsb', hi, decide_true, Bool.true_and]
  have hb : 0 < sz.bytes := by cases sz <;> decide
  have hp := l.part_le
  have h8 : sz.bits = 8 * sz.bytes := rfl
  have hk : (l.part.toNat * sz.bits + i) / 8 < 4 := by omega
  have hcov : l.covers l.g (BitVec.ofNat 2 ((l.part.toNat * sz.bits + i) / 8)) := by
    refine ⟨rfl, ?_⟩
    have hmod : ((l.part.toNat * sz.bits + i) / 8) % 2 ^ 2 = (l.part.toNat * sz.bits + i) / 8 := by omega
    rw [BitVec.toNat_ofNat, hmod]
    have h1 : (l.part.toNat * sz.bits + i) / 8 = l.part.toNat * sz.bytes + i / 8 := by
      rw [h8, show l.part.toNat * (8 * sz.bytes) + i = i + 8 * (l.part.toNat * sz.bytes) by ring,
        Nat.add_mul_div_left _ _ (by omega)]
      omega
    have h2 : i / 8 < sz.bytes := by omega
    rw [h1, Nat.add_comm, Nat.add_mul_div_right _ _ hb, Nat.div_eq_of_lt h2, Nat.zero_add]
  have := congrArg (·.getLsbD ((l.part.toNat * sz.bits + i) % 8)) (h _ hcov)
  have hmod : ((l.part.toNat * sz.bits + i) / 8) % 2 ^ 2 = (l.part.toNat * sz.bits + i) / 8 := by omega
  have hlt : (l.part.toNat * sz.bits + i) % 8 < 8 := by omega
  have hsum : 8 * ((l.part.toNat * sz.bits + i) / 8) + (l.part.toNat * sz.bits + i) % 8 =
      l.part.toNat * sz.bits + i := by omega
  simpa only [State.regByte, BitVec.getLsbD_extractLsb', BitVec.toNat_ofNat, hmod, hlt, decide_true, Bool.true_and,
    hsum] using this

/-- A write to a place that shares no byte with another does not show there. -/
theorem State.readLoc_writeLoc_disjoint {sz sz' : Size} (s : State) (l : Loc sz) (v : BitVec sz.bits) (l' : Loc sz')
    (h : ∀ g k, ¬ (l.covers g k ∧ l'.covers g k)) : (s.writeLoc l v).readLoc l' = s.readLoc l' :=
  State.readLoc_eq_of_bytes l' fun k hk => sameRegsBut_writeLoc s l v l'.g k fun hl => h l'.g k ⟨hl, hk⟩

/-! ## `postStepInto`, `addrStep` and the data of an overlapping operand -/

@[simp] theorem State.postStepInto_iff {sz : Size} (s : State) (m : MemOp) (l : Loc sz) :
    (s.postStepInto m l).iff = s.iff := by
  unfold State.postStepInto; split <;> simp

@[simp] theorem State.postStepInto_rfp {sz : Size} (s : State) (m : MemOp) (l : Loc sz) :
    (s.postStepInto m l).rfp = s.rfp := by
  unfold State.postStepInto; split <;> simp

@[simp] theorem State.postStepInto_flags {sz : Size} (s : State) (m : MemOp) (l : Loc sz) :
    (s.postStepInto m l).flags = s.flags := by
  unfold State.postStepInto; split <;> simp

@[simp] theorem State.postStepInto_flagsAlt {sz : Size} (s : State) (m : MemOp) (l : Loc sz) :
    (s.postStepInto m l).flagsAlt = s.flagsAlt := by
  unfold State.postStepInto; split <;> simp

@[simp] theorem State.postStepInto_pc {sz : Size} (s : State) (m : MemOp) (l : Loc sz) :
    (s.postStepInto m l).pc = s.pc := by
  unfold State.postStepInto; split <;> simp

@[simp] theorem State.postStepInto_dmas {sz : Size} (s : State) (m : MemOp) (l : Loc sz) :
    (s.postStepInto m l).dmas = s.dmas := by
  unfold State.postStepInto; split <;> simp

@[simp] theorem State.postStepInto_dmad {sz : Size} (s : State) (m : MemOp) (l : Loc sz) :
    (s.postStepInto m l).dmad = s.dmad := by
  unfold State.postStepInto; split <;> simp

@[simp] theorem State.postStepInto_dmac {sz : Size} (s : State) (m : MemOp) (l : Loc sz) :
    (s.postStepInto m l).dmac = s.dmac := by
  unfold State.postStepInto; split <;> simp

@[simp] theorem State.postStepInto_dmam {sz : Size} (s : State) (m : MemOp) (l : Loc sz) :
    (s.postStepInto m l).dmam = s.dmam := by
  unfold State.postStepInto; split <;> simp

@[simp] theorem State.postStepInto_intnest {sz : Size} (s : State) (m : MemOp) (l : Loc sz) :
    (s.postStepInto m l).intnest = s.intnest := by
  unfold State.postStepInto; split <;> simp

@[simp] theorem State.postStepInto_halted {sz : Size} (s : State) (m : MemOp) (l : Loc sz) :
    (s.postStepInto m l).halted = s.halted := by
  unfold State.postStepInto; split <;> simp

@[simp] theorem State.postStepInto_mem {sz : Size} (s : State) (m : MemOp) (l : Loc sz) :
    (s.postStepInto m l).mem = s.mem := by
  unfold State.postStepInto; split <;> simp

@[simp] theorem State.postStepInto_written {sz : Size} (s : State) (m : MemOp) (l : Loc sz) :
    (s.postStepInto m l).written = s.written := by
  unfold State.postStepInto; split <;> simp

@[simp] theorem State.postStepInto_host {sz : Size} (s : State) (m : MemOp) (l : Loc sz) :
    (s.postStepInto m l).host = s.host := by
  unfold State.postStepInto; split <;> simp

@[simp] theorem State.postStepInto_comparing {sz : Size} (s : State) (m : MemOp) (l : Loc sz) :
    (s.postStepInto m l).comparing = s.comparing := by
  unfold State.postStepInto; split <;> simp

@[simp] theorem State.postStepInto_ioLog {sz : Size} (s : State) (m : MemOp) (l : Loc sz) :
    (s.postStepInto m l).ioLog = s.ioLog := by
  unfold State.postStepInto; split <;> simp

@[simp] theorem State.postStepInto_trail {sz : Size} (s : State) (m : MemOp) (l : Loc sz) :
    (s.postStepInto m l).trail = s.trail := by
  unfold State.postStepInto; split <;> simp

@[simp] theorem State.dataDrawn_banks {sz : Size} (s : State) (m : MemOp) (l : Loc sz) :
    (s.dataDrawn m l).banks = s.banks := by
  unfold State.dataDrawn; split <;> rfl

@[simp] theorem State.dataDrawn_xix {sz : Size} (s : State) (m : MemOp) (l : Loc sz) :
    (s.dataDrawn m l).xix = s.xix := by
  unfold State.dataDrawn; split <;> rfl

@[simp] theorem State.dataDrawn_xiy {sz : Size} (s : State) (m : MemOp) (l : Loc sz) :
    (s.dataDrawn m l).xiy = s.xiy := by
  unfold State.dataDrawn; split <;> rfl

@[simp] theorem State.dataDrawn_xiz {sz : Size} (s : State) (m : MemOp) (l : Loc sz) :
    (s.dataDrawn m l).xiz = s.xiz := by
  unfold State.dataDrawn; split <;> rfl

@[simp] theorem State.dataDrawn_xsp {sz : Size} (s : State) (m : MemOp) (l : Loc sz) :
    (s.dataDrawn m l).xsp = s.xsp := by
  unfold State.dataDrawn; split <;> rfl

@[simp] theorem State.dataDrawn_iff {sz : Size} (s : State) (m : MemOp) (l : Loc sz) :
    (s.dataDrawn m l).iff = s.iff := by
  unfold State.dataDrawn; split <;> rfl

@[simp] theorem State.dataDrawn_rfp {sz : Size} (s : State) (m : MemOp) (l : Loc sz) :
    (s.dataDrawn m l).rfp = s.rfp := by
  unfold State.dataDrawn; split <;> rfl

@[simp] theorem State.dataDrawn_flags {sz : Size} (s : State) (m : MemOp) (l : Loc sz) :
    (s.dataDrawn m l).flags = s.flags := by
  unfold State.dataDrawn; split <;> rfl

@[simp] theorem State.dataDrawn_flagsAlt {sz : Size} (s : State) (m : MemOp) (l : Loc sz) :
    (s.dataDrawn m l).flagsAlt = s.flagsAlt := by
  unfold State.dataDrawn; split <;> rfl

@[simp] theorem State.dataDrawn_pc {sz : Size} (s : State) (m : MemOp) (l : Loc sz) :
    (s.dataDrawn m l).pc = s.pc := by
  unfold State.dataDrawn; split <;> rfl

@[simp] theorem State.dataDrawn_dmas {sz : Size} (s : State) (m : MemOp) (l : Loc sz) :
    (s.dataDrawn m l).dmas = s.dmas := by
  unfold State.dataDrawn; split <;> rfl

@[simp] theorem State.dataDrawn_dmad {sz : Size} (s : State) (m : MemOp) (l : Loc sz) :
    (s.dataDrawn m l).dmad = s.dmad := by
  unfold State.dataDrawn; split <;> rfl

@[simp] theorem State.dataDrawn_dmac {sz : Size} (s : State) (m : MemOp) (l : Loc sz) :
    (s.dataDrawn m l).dmac = s.dmac := by
  unfold State.dataDrawn; split <;> rfl

@[simp] theorem State.dataDrawn_dmam {sz : Size} (s : State) (m : MemOp) (l : Loc sz) :
    (s.dataDrawn m l).dmam = s.dmam := by
  unfold State.dataDrawn; split <;> rfl

@[simp] theorem State.dataDrawn_intnest {sz : Size} (s : State) (m : MemOp) (l : Loc sz) :
    (s.dataDrawn m l).intnest = s.intnest := by
  unfold State.dataDrawn; split <;> rfl

@[simp] theorem State.dataDrawn_halted {sz : Size} (s : State) (m : MemOp) (l : Loc sz) :
    (s.dataDrawn m l).halted = s.halted := by
  unfold State.dataDrawn; split <;> rfl

@[simp] theorem State.dataDrawn_mem {sz : Size} (s : State) (m : MemOp) (l : Loc sz) :
    (s.dataDrawn m l).mem = s.mem := by
  unfold State.dataDrawn; split <;> rfl

@[simp] theorem State.dataDrawn_written {sz : Size} (s : State) (m : MemOp) (l : Loc sz) :
    (s.dataDrawn m l).written = s.written := by
  unfold State.dataDrawn; split <;> rfl

@[simp] theorem State.dataDrawn_host {sz : Size} (s : State) (m : MemOp) (l : Loc sz) :
    (s.dataDrawn m l).host = s.host := by
  unfold State.dataDrawn; split <;> rfl

@[simp] theorem State.dataDrawn_comparing {sz : Size} (s : State) (m : MemOp) (l : Loc sz) :
    (s.dataDrawn m l).comparing = s.comparing := by
  unfold State.dataDrawn; split <;> rfl

@[simp] theorem State.dataDrawn_ioLog {sz : Size} (s : State) (m : MemOp) (l : Loc sz) :
    (s.dataDrawn m l).ioLog = s.ioLog := by
  unfold State.dataDrawn; split <;> rfl

@[simp] theorem State.dataDrawn_trail {sz : Size} (s : State) (m : MemOp) (l : Loc sz) :
    (s.dataDrawn m l).trail = s.trail := by
  unfold State.dataDrawn; split <;> rfl

@[simp] theorem State.addrStep_iff (s : State) (m : MemOp) : (s.addrStep m).iff = s.iff := by
  unfold State.addrStep; split_ifs <;> simp

@[simp] theorem State.addrStep_rfp (s : State) (m : MemOp) : (s.addrStep m).rfp = s.rfp := by
  unfold State.addrStep; split_ifs <;> simp

@[simp] theorem State.addrStep_flags (s : State) (m : MemOp) : (s.addrStep m).flags = s.flags := by
  unfold State.addrStep; split_ifs <;> simp

@[simp] theorem State.addrStep_flagsAlt (s : State) (m : MemOp) : (s.addrStep m).flagsAlt = s.flagsAlt := by
  unfold State.addrStep; split_ifs <;> simp

@[simp] theorem State.addrStep_pc (s : State) (m : MemOp) : (s.addrStep m).pc = s.pc := by
  unfold State.addrStep; split_ifs <;> simp

@[simp] theorem State.addrStep_dmas (s : State) (m : MemOp) : (s.addrStep m).dmas = s.dmas := by
  unfold State.addrStep; split_ifs <;> simp

@[simp] theorem State.addrStep_dmad (s : State) (m : MemOp) : (s.addrStep m).dmad = s.dmad := by
  unfold State.addrStep; split_ifs <;> simp

@[simp] theorem State.addrStep_dmac (s : State) (m : MemOp) : (s.addrStep m).dmac = s.dmac := by
  unfold State.addrStep; split_ifs <;> simp

@[simp] theorem State.addrStep_dmam (s : State) (m : MemOp) : (s.addrStep m).dmam = s.dmam := by
  unfold State.addrStep; split_ifs <;> simp

@[simp] theorem State.addrStep_intnest (s : State) (m : MemOp) : (s.addrStep m).intnest = s.intnest := by
  unfold State.addrStep; split_ifs <;> simp

@[simp] theorem State.addrStep_halted (s : State) (m : MemOp) : (s.addrStep m).halted = s.halted := by
  unfold State.addrStep; split_ifs <;> simp

@[simp] theorem State.addrStep_mem (s : State) (m : MemOp) : (s.addrStep m).mem = s.mem := by
  unfold State.addrStep; split_ifs <;> simp

@[simp] theorem State.addrStep_written (s : State) (m : MemOp) : (s.addrStep m).written = s.written := by
  unfold State.addrStep; split_ifs <;> simp

@[simp] theorem State.addrStep_host (s : State) (m : MemOp) : (s.addrStep m).host = s.host := by
  unfold State.addrStep; split_ifs <;> simp

@[simp] theorem State.addrStep_comparing (s : State) (m : MemOp) : (s.addrStep m).comparing = s.comparing := by
  unfold State.addrStep; split_ifs <;> simp

@[simp] theorem State.addrStep_ioLog (s : State) (m : MemOp) : (s.addrStep m).ioLog = s.ioLog := by
  unfold State.addrStep; split_ifs <;> simp

@[simp] theorem State.addrStep_trail (s : State) (m : MemOp) : (s.addrStep m).trail = s.trail := by
  unfold State.addrStep; split_ifs <;> simp

@[simp] theorem State.addrStepInto_iff {sz : Size} (s : State) (m : MemOp) (l : Loc sz) :
    (s.addrStepInto m l).iff = s.iff := by
  unfold State.addrStepInto; split <;> simp

@[simp] theorem State.addrStepInto_rfp {sz : Size} (s : State) (m : MemOp) (l : Loc sz) :
    (s.addrStepInto m l).rfp = s.rfp := by
  unfold State.addrStepInto; split <;> simp

@[simp] theorem State.addrStepInto_flags {sz : Size} (s : State) (m : MemOp) (l : Loc sz) :
    (s.addrStepInto m l).flags = s.flags := by
  unfold State.addrStepInto; split <;> simp

@[simp] theorem State.addrStepInto_flagsAlt {sz : Size} (s : State) (m : MemOp) (l : Loc sz) :
    (s.addrStepInto m l).flagsAlt = s.flagsAlt := by
  unfold State.addrStepInto; split <;> simp

@[simp] theorem State.addrStepInto_pc {sz : Size} (s : State) (m : MemOp) (l : Loc sz) :
    (s.addrStepInto m l).pc = s.pc := by
  unfold State.addrStepInto; split <;> simp

@[simp] theorem State.addrStepInto_dmas {sz : Size} (s : State) (m : MemOp) (l : Loc sz) :
    (s.addrStepInto m l).dmas = s.dmas := by
  unfold State.addrStepInto; split <;> simp

@[simp] theorem State.addrStepInto_dmad {sz : Size} (s : State) (m : MemOp) (l : Loc sz) :
    (s.addrStepInto m l).dmad = s.dmad := by
  unfold State.addrStepInto; split <;> simp

@[simp] theorem State.addrStepInto_dmac {sz : Size} (s : State) (m : MemOp) (l : Loc sz) :
    (s.addrStepInto m l).dmac = s.dmac := by
  unfold State.addrStepInto; split <;> simp

@[simp] theorem State.addrStepInto_dmam {sz : Size} (s : State) (m : MemOp) (l : Loc sz) :
    (s.addrStepInto m l).dmam = s.dmam := by
  unfold State.addrStepInto; split <;> simp

@[simp] theorem State.addrStepInto_intnest {sz : Size} (s : State) (m : MemOp) (l : Loc sz) :
    (s.addrStepInto m l).intnest = s.intnest := by
  unfold State.addrStepInto; split <;> simp

@[simp] theorem State.addrStepInto_halted {sz : Size} (s : State) (m : MemOp) (l : Loc sz) :
    (s.addrStepInto m l).halted = s.halted := by
  unfold State.addrStepInto; split <;> simp

@[simp] theorem State.addrStepInto_mem {sz : Size} (s : State) (m : MemOp) (l : Loc sz) :
    (s.addrStepInto m l).mem = s.mem := by
  unfold State.addrStepInto; split <;> simp

@[simp] theorem State.addrStepInto_written {sz : Size} (s : State) (m : MemOp) (l : Loc sz) :
    (s.addrStepInto m l).written = s.written := by
  unfold State.addrStepInto; split <;> simp

@[simp] theorem State.addrStepInto_host {sz : Size} (s : State) (m : MemOp) (l : Loc sz) :
    (s.addrStepInto m l).host = s.host := by
  unfold State.addrStepInto; split <;> simp

@[simp] theorem State.addrStepInto_comparing {sz : Size} (s : State) (m : MemOp) (l : Loc sz) :
    (s.addrStepInto m l).comparing = s.comparing := by
  unfold State.addrStepInto; split <;> simp

@[simp] theorem State.addrStepInto_ioLog {sz : Size} (s : State) (m : MemOp) (l : Loc sz) :
    (s.addrStepInto m l).ioLog = s.ioLog := by
  unfold State.addrStepInto; split <;> simp

@[simp] theorem State.addrStepInto_trail {sz : Size} (s : State) (m : MemOp) (l : Loc sz) :
    (s.addrStepInto m l).trail = s.trail := by
  unfold State.addrStepInto; split <;> simp

@[simp] theorem State.reg_dataDrawn {sz : Size} (s : State) (m : MemOp) (l : Loc sz) (g : GReg) :
    (s.dataDrawn m l).reg g = s.reg g :=
  State.reg_eq_of_fields (by simp) (by simp) (by simp) (by simp) (by simp) g

/-- The data of a register operand that the mode does not move is what the register holds. -/
theorem State.dataLoc_eq {sz : Size} (s : State) (m : MemOp) (l : Loc sz) (h : preReg s.rfp m ≠ some l.g) :
    s.dataLoc m l = s.readLoc l := by
  simp [State.dataLoc, h]

/-- What the end of an instruction that has loaded a register leaves of the other bytes of registers. -/
theorem State.movedRegsBut_postStepInto {sz : Size} {s t : State} (m : MemOp) (l : Loc sz) (v : BitVec sz.bits)
    (hr : t.rfp = s.rfp) (h : ∀ g, t.reg g = (s.preStep m).reg g) :
    MovedRegsBut s ((t.writeLoc l v).postStepInto m l) m l := by
  intro g k hc hg
  unfold State.postStepInto
  rw [State.writeLoc_rfp, hr]
  split
  · next hp =>
    have hne := hg hp
    have h1 : autoReg s.rfp m ≠ some g := by rw [hp]; simpa using Ne.symm hne
    have e : ((((t.writeLoc l v).setReg l.g ((t.writeLoc l v).freeBits 32)).drawn).reg g) = s.movedReg m g := by
      rw [State.reg_drawn, State.reg_setReg_ne _ _ hne, State.reg_writeLoc_ne _ _ _ hne, h, State.reg_preStep]
      simp [movedReg_of_not_auto _ _ _ h1, preReg_ne_of_auto h1]
    simp only [State.regByte, e]
  · next hp =>
    have hp := postReg_ne_of_auto hp
    by_cases hgl : g = l.g
    · subst hgl
      have e : ((t.writeLoc l v).postStep m).reg l.g = (t.writeLoc l v).reg l.g := by
        rw [State.reg_postStep]; simp [hr, hp]
      have hb := State.byte_writeLoc_other t l v l.g k hc
      simp only [State.regByte, e, hb, h, State.reg_preStep, State.movedReg, hp, if_false]
    · have e : ((t.writeLoc l v).postStep m).reg g = s.movedReg m g :=
        State.reg_stepped m (by simp [hr]) g (by rw [State.reg_writeLoc_ne _ _ _ hgl, h])
      simp only [State.regByte, e]

/-- The value loaded is there at the end, unless the mode steps its register. -/
theorem State.readLoc_postStepInto {sz : Size} (t : State) (m : MemOp) (l : Loc sz)
    (hp : autoReg t.rfp m ≠ some l.g) : (t.postStepInto m l).readLoc l = t.readLoc l := by
  refine State.readLoc_eq_of_reg l ?_
  simp [State.postStepInto, hp, State.reg_postStep, postReg_ne_of_auto hp]

/-! ## Reflexivity and composition of what stays -/

theorem SameRest.refl (s : State) : SameRest s s := ⟨rfl, rfl, rfl, rfl, rfl, rfl, rfl, rfl, rfl, rfl, rfl⟩

theorem SameRest.trans {s t u : State} (h : SameRest s t) (h' : SameRest t u) : SameRest s u :=
  ⟨h'.1.trans h.1, h'.2.trans h.2, h'.3.trans h.3, h'.4.trans h.4, h'.5.trans h.5, h'.6.trans h.6, h'.7.trans h.7,
    h'.8.trans h.8, h'.9.trans h.9, h'.10.trans h.10, h'.11.trans h.11⟩

theorem SameMemory.of_fields {s t : State} (hm : t.mem = s.mem) (hw : t.written = s.written) : SameMemory s t :=
  ⟨fun a => State.readByte_of_mem hm a, hw⟩

theorem SameMemory.refl (s : State) : SameMemory s s := ⟨fun _ => rfl, rfl⟩

theorem SameRegs.refl (s : State) : SameRegs s s := fun _ => rfl

/-- A store changes no byte outside its own. -/
theorem sameMemoryBut_memWrite (s : State) (nb : Nat) (ea : Long) (v : BitVec (8 * nb)) :
    SameMemoryBut s (s.memWrite nb ea v) nb ea :=
  fun a h => State.readByte_memWrite_other s nb ea v a h

/-- Loading a register place changes nothing else. -/
theorem loadsReg_writeLoc {sz : Size} (s : State) (l : Loc sz) (v : BitVec sz.bits) : LoadsReg s (s.writeLoc l v) l v :=
  ⟨by simp, sameRegsBut_writeLoc s l v, .of_fields (by simp) (by simp), by simp, by simp, by constructor <;> simp⟩

/-! ## Pushing (R172) -/

/-- What a push does: the value lies at the new XSP, no other register and no other byte of memory changes. -/
theorem State.pushes_push (s : State) (nb : Nat) (v : BitVec (8 * nb)) (hnb : nb < 2 ^ 24) :
    Pushes s (s.push nb v) nb v := by
  refine ⟨⟨by simp, fun g hg => ?_, fun a ha => ?_⟩, ?_⟩
  · simp only [List.mem_cons, List.not_mem_nil, or_false] at hg
    simp [State.reg_push, hg]
  · rw [State.push, State.readByte_memWrite_other _ _ _ _ _ ha]
    rfl
  · rw [State.push, State.memRead_memWrite_same _ _ _ _ hnb]

theorem State.sameRest_push (s : State) (nb : Nat) (v : BitVec (8 * nb)) : SameRest s (s.push nb v) := by
  constructor <;> simp

end Sys2Proof.Machine
end

