-- ==== Sys2Proof/Laws/Effects.lean ====
section
/-! SUPPORT. What each shared operation over the stack, memory operands and the status register does, said once in the
words of Sys2Proof/Safety.lean. -/

namespace Sys2Proof.Machine

theorem sameOutside_preStep (s : State) (m : MemOp) : SameOutside s (s.preStep m) :=
  ⟨by simp, by simp, by constructor <;> simp⟩

/-- A store through a memory operand, from a state `t` that differs from `s` in the pre-decrement only. -/
theorem stores_memWrite {s t : State} (m : MemOp) (nb : Nat) (v : BitVec (8 * nb)) (hnb : nb < 2 ^ 24)
    (hreg : ∀ g, t.reg g = (s.preStep m).reg g) (hmem : t.mem = s.mem) (ho : SameOutside s t) :
    Stores s ((t.memWrite nb (s.ea m) v).postStep m) m nb v := by
  obtain ⟨hf, hp, hr⟩ := ho
  refine ⟨?_, fun a ha => ?_, fun g => ?_, by simp [hf], by simp [hp], ?_⟩
  · simp [State.memRead_memWrite_same _ _ _ _ hnb]
  · simp [State.readByte_memWrite_other _ _ _ _ _ ha, State.readByte_of_mem hmem]
  · exact State.reg_stepped m (by simp [hr.rfp]) g (by simp [hreg])
  · constructor <;> simp [hr.iff, hr.rfp, hr.flagsAlt, hr.dmas, hr.dmad, hr.dmac, hr.dmam, hr.intnest, hr.halted, hr.comparing, hr.host]

/-- Storing a value through a memory operand (R169, R171). -/
theorem State.stores_storeVal (s : State) (nb : Nat) (m : MemOp) (v : BitVec (8 * nb)) (hnb : nb < 2 ^ 24) :
    Stores s (s.storeVal nb m v) m nb v :=
  stores_memWrite m nb v hnb (fun _ => rfl) (by simp) (sameOutside_preStep s m)

theorem State.sameOutside_push (s : State) (nb : Nat) (v : BitVec (8 * nb)) : SameOutside s (s.push nb v) :=
  ⟨by simp, by simp, State.sameRest_push s nb v⟩

/-- PUSH of a register operand (R175, R176): what a push does, and the value unless it is part of XSP. -/
theorem State.pushLoc_spec (s : State) {sz : Size} (l : Loc sz) :
    PushesBytes s (s.pushLoc l) sz.bytes ∧ SameOutside s (s.pushLoc l) ∧
      (l.g ≠ .xsp → Pushes s (s.pushLoc l) sz.bytes (s.readLoc l)) := by
  have hnb : sz.bytes < 2 ^ 24 := by cases sz <;> decide
  unfold State.pushLoc
  split
  · next h =>
    have := State.pushes_push s.drawn sz.bytes (s.freeBits sz.bits) hnb
    refine ⟨⟨by simp, fun g hg => ?_, fun a ha => ?_⟩, ⟨by simp, by simp, by constructor <;> simp⟩,
      fun h' => absurd h h'⟩
    · simpa using this.1.2.1 g hg
    · simpa [State.readByte] using this.1.2.2 a (by simpa using ha)
  · next h =>
    have := State.pushes_push s sz.bytes (s.readLoc l) hnb
    exact ⟨this.1, State.sameOutside_push _ _ _, fun _ => this⟩

/-- POP to a register operand (R182, R183). -/
theorem State.popLoc_spec (s : State) {sz : Size} (l : Loc sz) : PopsInto s (s.popLoc l) l := by
  unfold State.popLoc
  simp only [State.noteRead_eq]
  split
  · next h =>
    refine ⟨fun h' => absurd h h', fun g k hg _ => ?_, .of_fields (by simp) (by simp), by simp, by simp,
      by constructor <;> simp⟩
    have : ({ s.drawn with xsp := s.freeBits 32 } : State).reg g = s.reg g := by
      rw [State.reg_with_xsp, if_neg hg, State.reg_drawn]
    exact State.regByte_of_reg this k
  · next h =>
    refine ⟨fun _ => ⟨by simp; rfl, ?_⟩, fun g k hg hc => ?_, .of_fields (by simp) (by simp), by simp, by simp,
      by constructor <;> simp⟩
    · simpa using State.reg_writeLoc_ne (s.popped sz.bytes) l (s.stackTop sz.bytes) (Ne.symm h)
    · have := State.byte_writeLoc_other (s.popped sz.bytes) l (s.stackTop sz.bytes) g k hc
      simp [State.regByte, this, State.reg_popped, hg]

/-- Six bytes at the new XSP are stored as a word below a long word (R355, R457). -/
theorem sp_plus_two (sp : Long) (j : Nat) : sp - 4 + BitVec.ofNat 32 j = sp - 6 + BitVec.ofNat 32 (j + 2) := by
  rw [BitVec.ofNat_add, BitVec.sub_eq_add_neg, BitVec.sub_eq_add_neg, show sp + -4 = sp + (-6 + 2) from rfl]
  ac_rfl

/-- The frame that SWI and interrupt entry leave, whatever the order of its stores: SR at XSP, the return address at
XSP + 2 (R355, R457). -/
theorem State.pushFrame_spec (s : State) (order : FrameOrder) (r : Long) :
    (s.pushFrame order r).xsp = s.xsp - 6 ∧ (s.pushFrame order r).memRead 2 (s.xsp - 6) = s.sr ∧
      (s.pushFrame order r).memRead 4 (s.xsp - 4) = r ∧ SameMemoryBut s (s.pushFrame order r) 6 (s.xsp - 6) ∧
      SameRegsExcept s (s.pushFrame order r) [.xsp] ∧ SameOutside s (s.pushFrame order r) := by
  cases order with
  | interrupt =>
    have x1 : s.xsp - 4 - 2 = s.xsp - 6 := by
      rw [BitVec.sub_eq_add_neg, BitVec.sub_eq_add_neg, BitVec.sub_eq_add_neg, BitVec.add_assoc]; rfl
    obtain ⟨⟨p1, p2, p3⟩, p4⟩ := State.pushes_push s 4 r (by decide)
    obtain ⟨⟨q1, q2, q3⟩, q4⟩ := State.pushes_push (s.push 4 r) 2 s.sr (by decide)
    simp only [p1] at q1 q3 q4
    change _ = s.xsp - 4 - 2 at q1
    change SameMemoryBut _ _ _ (s.xsp - 4 - 2) at q3
    change State.memRead _ 2 (s.xsp - 4 - 2) = _ at q4
    change SameMemoryBut _ _ _ (s.xsp - 4) at p3
    change State.memRead _ 4 (s.xsp - 4) = _ at p4
    rw [x1] at q1 q3 q4
    have low : ∀ i < 4, (s.pushFrame .interrupt r).readByte (busAddr (s.xsp - 4 + BitVec.ofNat 32 i)) =
        (s.push 4 r).readByte (busAddr (s.xsp - 4 + BitVec.ofNat 32 i)) := fun i hi =>
      q3 _ fun j hj => by
        rw [sp_plus_two]
        exact busAddr_add_ne (s.xsp - 6) (i + 2) j (by omega) (by omega) (by omega)
    refine ⟨q1, q4, (State.memRead_congr 4 _ low).trans p4, fun a ha => ?_, fun g hg => ?_, ?_⟩
    · exact (q3 a fun i hi => ha i (by omega)).trans
        (p3 a fun i hi => by rw [sp_plus_two]; exact ha (i + 2) (by omega))
    · exact (q2 g hg).trans (p2 g hg)
    · exact ⟨by simp [State.pushFrame], by simp [State.pushFrame], by constructor <;> simp [State.pushFrame]⟩
  | software =>
    have x4 : s.xsp - 6 + 2 = s.xsp - 4 := by simpa using (sp_plus_two s.xsp 0).symm
    simp only [State.pushFrame, x4]
    refine ⟨by simp, ?_, State.memRead_memWrite_same _ _ _ _ (by decide), fun a ha => ?_, fun g hg => ?_, ?_⟩
    · rw [State.memRead_memWrite_other, State.memRead_memWrite_same _ _ _ _ (by decide)]
      intro i hi j hj
      rw [sp_plus_two]
      exact busAddr_add_ne (s.xsp - 6) i (j + 2) (by omega) (by omega) (by omega)
    · rw [State.readByte_memWrite_other _ _ _ _ _ fun i hi => by rw [sp_plus_two]; exact ha (i + 2) (by omega),
        State.readByte_memWrite_other _ _ _ _ _ fun i hi => ha i (by omega)]
      rfl
    · simp only [State.reg_memWrite, State.reg_with_xsp, if_neg (by simpa using hg : g ≠ .xsp)]
    · exact ⟨by simp, by simp, by constructor <;> simp⟩

/-- Taking an exception, whatever the order of its stores (R355, R457). -/
theorem State.takeException_spec (s : State) (order : FrameOrder) (r : Long) (entry : BitVec 6) :
    let t := s.takeException order r entry
    t.xsp = s.xsp - 6 ∧ t.memRead 2 (s.xsp - 6) = s.sr ∧ t.memRead 4 (s.xsp - 4) = r ∧
      t.pc = t.memRead 4 (vectorAddr entry) ∧ SameMemoryBut s t 6 (s.xsp - 6) ∧ SameRegsExcept s t [.xsp] ∧
      t.flags = s.flags ∧ SameRest s t := by
  intro t
  obtain ⟨h1, h2, h3, h4, h5, hf, _, hr⟩ := State.pushFrame_spec s order r
  have hm : t.mem = (s.pushFrame order r).mem := by simp [t, State.takeException]
  refine ⟨by simpa [t, State.takeException] using h1, (State.memRead_eq_of_mem hm _ _).trans h2,
    (State.memRead_eq_of_mem hm _ _).trans h3, ?_, fun a ha => (State.readByte_of_mem hm a).trans (h4 a ha),
    fun g hg => ?_, by simpa [t, State.takeException] using hf, ?_⟩
  · rw [State.memRead_eq_of_mem hm]; rfl
  · refine Eq.trans ?_ (h5 g hg)
    exact State.reg_eq_of_fields (by simp [t, State.takeException]) (by simp [t, State.takeException])
      (by simp [t, State.takeException]) (by simp [t, State.takeException]) (by simp [t, State.takeException]) g
  · have e : SameRest (s.pushFrame order r) t := by constructor <;> simp [t, State.takeException]
    exact hr.trans e

/-! ## The bytes of F and of a word on the stack -/

/-- F keeps the six flags of a byte and reads its two constant bits as 0 (R35, R180). -/
theorem Flags.toByte_ofByte (b : Byte) : (Flags.ofByte b).toByte = b &&& 0xD7 := by
  revert b; decide

theorem Flags.ofByte_toByte (f : Flags) : Flags.ofByte f.toByte = f := by
  obtain ⟨s, z, h, v, n, c⟩ := f
  revert s z h v n c; decide

/-- The low byte of a word on the stack. -/
theorem State.stackTop_low (s : State) : (s.stackTop 2).extractLsb' 0 8 = s.readByte (busAddr s.xsp) := by
  have := State.extract_memRead s 2 s.xsp 0 (by decide)
  simpa [State.stackTop] using this

/-- The high byte of a word on the stack. -/
theorem State.stackTop_high (s : State) : (s.stackTop 2).extractLsb' 8 8 = s.readByte (busAddr (s.xsp + 1)) := by
  have := State.extract_memRead s 2 s.xsp 1 (by decide)
  simpa [State.stackTop] using this

theorem State.stackTop_byte (s : State) : s.stackTop 1 = s.readByte (busAddr s.xsp) := by
  have := State.extract_memRead s 1 s.xsp 0 (by decide)
  have h : (s.memRead 1 s.xsp).extractLsb' 0 8 = s.memRead 1 s.xsp := by
    apply BitVec.eq_of_getLsbD_eq
    intro i hi
    simp [hi]
  rw [State.stackTop, ← h]
  simpa using this

end Sys2Proof.Machine
end

