-- ==== Sys2Proof/Laws/Flags.lean ====
section
/-! SUPPORT. The flag computations of Sys2Proof/Machine/Flags.lean in the words of Sys2Proof/Safety.lean. -/

namespace Sys2Proof.Machine

/-! ## Parity -/

theorem parityEven_iff {n : Nat} (v : BitVec n) : parityEven v = true ↔ EvenParity v := by
  have key : ∀ (l : List Nat) (b : Bool), (l.foldl (fun p i => p ^^ v.getLsbD i) b = true) ↔
      (if b then Even (l.countP fun i => v.getLsbD i) else ¬ Even (l.countP fun i => v.getLsbD i)) := by
    intro l
    induction l with
    | nil => intro b; cases b <;> simp
    | cons i t ih =>
      intro b
      rw [List.foldl_cons, ih, List.countP_cons]
      cases b <;> cases v.getLsbD i <;> simp [Nat.even_add_one]
  simpa [parityEven, EvenParity] using key (List.range n) true

/-! ## Addition and subtraction -/

/-- The rule of signs over plain numbers: two operands below `2p` with sign bit `p`. -/
theorem sum_overflow {p x y k r : Nat} (hx : x < 2 * p) (hy : y < 2 * p) (hk : k ≤ 1)
    (hr : r = if x + y + k < 2 * p then x + y + k else x + y + k - 2 * p) :
    ((p ≤ x ↔ p ≤ y) ∧ ¬ (p ≤ r ↔ p ≤ x)) ↔
      ¬ ((if 2 * r < 2 * p then (r : Int) else r - (2 * p : Nat)) =
        (if 2 * x < 2 * p then (x : Int) else x - (2 * p : Nat)) +
          (if 2 * y < 2 * p then (y : Int) else y - (2 * p : Nat)) + k) := by
  split at hr <;> split_ifs <;> omega

/-- The same for a difference. -/
theorem difference_overflow {p x y k r : Nat} (hx : x < 2 * p) (hy : y < 2 * p) (hk : k ≤ 1)
    (hr : r = if y + k ≤ x then x - y - k else x + 2 * p - y - k) :
    (¬ (p ≤ x ↔ p ≤ y) ∧ ¬ (p ≤ r ↔ p ≤ x)) ↔
      ¬ ((if 2 * r < 2 * p then (r : Int) else r - (2 * p : Nat)) =
        (if 2 * x < 2 * p then (x : Int) else x - (2 * p : Nat)) -
          (if 2 * y < 2 * p then (y : Int) else y - (2 * p : Nat)) - k) := by
  split at hr <;> split_ifs <;> omega

theorem toNat_ofBool_setWidth (m : Nat) (c : Bool) : ((BitVec.ofBool c).setWidth (m + 1)).toNat = c.toNat := by
  cases c <;> simp

theorem add_toNat_cases {m : Nat} (a b : BitVec (m + 1)) (c : Bool) :
    (a + b + (BitVec.ofBool c).setWidth (m + 1)).toNat =
      if a.toNat + b.toNat + c.toNat < 2 * 2 ^ m then a.toNat + b.toNat + c.toNat
      else a.toNat + b.toNat + c.toNat - 2 * 2 ^ m := by
  have ha := a.isLt
  have hb := b.isLt
  have hct : c.toNat ≤ 1 := by cases c <;> decide
  simp only [BitVec.toNat_add, toNat_ofBool_setWidth, Nat.mod_add_mod]
  rw [Nat.pow_succ, Nat.mul_comm] at *
  split
  · next h => exact Nat.mod_eq_of_lt h
  · next h => rw [Nat.mod_eq_sub_mod (by omega), Nat.mod_eq_of_lt (by omega)]

theorem sub_toNat_cases {m : Nat} (a b : BitVec (m + 1)) (c : Bool) :
    (a - b - (BitVec.ofBool c).setWidth (m + 1)).toNat =
      if b.toNat + c.toNat ≤ a.toNat then a.toNat - b.toNat - c.toNat
      else a.toNat + 2 * 2 ^ m - b.toNat - c.toNat := by
  have ha := a.isLt
  have hb := b.isLt
  have hct : c.toNat ≤ 1 := by cases c <;> decide
  have hpos : 0 < 2 ^ m := Nat.two_pow_pos m
  simp only [BitVec.toNat_sub, toNat_ofBool_setWidth]
  rw [Nat.pow_succ, Nat.mul_comm] at *
  generalize 2 ^ m = p at *
  generalize a.toNat = x at *
  generalize b.toNat = y at *
  generalize c.toNat = k at *
  by_cases hxy : y ≤ x
  · have e1 : (2 * p - y + x) % (2 * p) = x - y := by
      rw [show 2 * p - y + x = (x - y) + 2 * p by omega, Nat.add_mod_right, Nat.mod_eq_of_lt (by omega)]
    rw [e1]
    split
    · rw [show 2 * p - k + (x - y) = (x - y - k) + 2 * p by omega, Nat.add_mod_right, Nat.mod_eq_of_lt (by omega)]
    · rw [Nat.mod_eq_of_lt (by omega)]
      omega
  · rw [Nat.mod_eq_of_lt (show 2 * p - y + x < 2 * p by omega), if_neg (by omega),
      show 2 * p - k + (2 * p - y + x) = (2 * p - y + x - k) + 2 * p by omega, Nat.add_mod_right,
      Nat.mod_eq_of_lt (by omega)]
    omega

/-- The exact signed sum and the rounded one differ by a multiple of 2^n, and by the rule of signs only then (R11). -/
theorem addOverflow_iff {n : Nat} (hn : 0 < n) (a b : BitVec n) (c : Bool) :
    addOverflow a b (addResult a b c) = true ↔
      (a + b + (BitVec.ofBool c).setWidth n).toInt ≠ a.toInt + b.toInt + c.toNat := by
  obtain ⟨m, rfl⟩ : ∃ m, n = m + 1 := ⟨n - 1, by omega⟩
  have hp : 2 ^ (m + 1) = 2 * 2 ^ m := by rw [Nat.pow_succ, Nat.mul_comm]
  simp only [addOverflow, addResult, Bool.and_eq_true, beq_iff_eq, bne_iff_ne, ne_eq, BitVec.msb_eq_decide,
    BitVec.toInt_eq_toNat_cond, Nat.add_sub_cancel, decide_eq_decide, hp]
  exact sum_overflow (hp ▸ a.isLt) (hp ▸ b.isLt) (by cases c <;> decide) (add_toNat_cases a b c)

/-- The same for a subtraction (R11). -/
theorem subOverflow_iff {n : Nat} (hn : 0 < n) (a b : BitVec n) (c : Bool) :
    subOverflow a b (subResult a b c) = true ↔
      (a - b - (BitVec.ofBool c).setWidth n).toInt ≠ a.toInt - b.toInt - c.toNat := by
  obtain ⟨m, rfl⟩ : ∃ m, n = m + 1 := ⟨n - 1, by omega⟩
  have hp : 2 ^ (m + 1) = 2 * 2 ^ m := by rw [Nat.pow_succ, Nat.mul_comm]
  simp only [subOverflow, subResult, Bool.and_eq_true, bne_iff_ne, ne_eq, BitVec.msb_eq_decide,
    BitVec.toInt_eq_toNat_cond, Nat.add_sub_cancel, decide_eq_decide, hp]
  exact difference_overflow (hp ▸ a.isLt) (hp ▸ b.isLt) (by cases c <;> decide) (sub_toNat_cases a b c)

/-- The flags of an addition (R231, R232). -/
theorem addFlags_spec {n : Nat} (hn : 0 < n) (a b : BitVec n) (c u : Bool) : AddFlags a b c (addFlags a b c u) where
  s := rfl
  z := by simp [addFlags, addResult]
  h := fun h => by simp [addFlags, h, addHalf]
  v := addOverflow_iff hn a b c
  n := rfl
  c := by simp [addFlags, addCarry]

/-- The flags of a subtraction (R233, R234). -/
theorem subFlags_spec {n : Nat} (hn : 0 < n) (a b : BitVec n) (c u : Bool) : SubFlags a b c (subFlags a b c u) where
  s := rfl
  z := by simp [subFlags, subResult]
  h := fun h => by simp [subFlags, h, subHalf]
  v := subOverflow_iff hn a b c
  n := rfl
  c := by simp [subFlags, subBorrow]

/-- The flags of a logical operation (R300). -/
theorem logicFlags_spec {n : Nat} (r : BitVec n) (half u : Bool) : LogicFlags r half (logicFlags r half u) where
  s := rfl
  z := by simp [logicFlags]
  h := rfl
  v := fun h => by simp [logicFlags, h, parityEven_iff]
  n := rfl
  c := rfl

/-- The flags of a rotate or shift (R392). -/
theorem shiftFlags_spec {n : Nat} (r : BitVec n) (carry u : Bool) : ShiftFlags r carry (shiftFlags r carry u) where
  s := rfl
  z := by simp [shiftFlags]
  h := rfl
  v := fun h => by simp [shiftFlags, h, parityEven_iff]
  n := rfl
  c := rfl

/-- The two-operand group (R231 to R235, R301 to R303). -/
theorem alu_spec {n : Nat} (hn : 0 < n) (op : AluOp) (dst src : BitVec n) (f : Flags) (u : Bool) :
    TwoOperand op dst src f.c (alu op dst src f u).1 (alu op dst src f u).2 := by
  cases op
  · exact ⟨by simp [alu, addResult], addFlags_spec hn dst src false u⟩
  · exact ⟨rfl, addFlags_spec hn dst src f.c u⟩
  · exact ⟨by simp [alu, subResult], subFlags_spec hn dst src false u⟩
  · exact ⟨rfl, subFlags_spec hn dst src f.c u⟩
  · exact ⟨rfl, logicFlags_spec _ _ u⟩
  · exact ⟨rfl, logicFlags_spec _ _ u⟩
  · exact ⟨rfl, logicFlags_spec _ _ u⟩
  · exact ⟨by simp [alu, subResult], subFlags_spec hn dst src false u⟩

theorem size_bits_pos (sz : Size) : 0 < sz.bits := by cases sz <;> decide

end Sys2Proof.Machine
end

