-- ==== Sys2Proof/Laws/Bits.lean ====
section
/-! SUPPORT. What the operations on single bits do (R310 to R341), said once. -/

namespace Sys2Proof.Machine

/-- A bit of a value after one bit was replaced (R312, R331 to R334). -/
theorem getLsbD_putBit {n : Nat} (v : BitVec n) (k : Nat) (b : Bool) (i : Nat) (hi : i < n) :
    (putBit v k b).getLsbD i = if i = k then b else v.getLsbD i := by
  simp [putBit, hi]

/-- Replacing a bit by the result of RES, SET, CHG or TSET. -/
theorem bitModified_putBit {n : Nat} (op : BitOp) (k : Nat) (v : BitVec n) (hk : k < n) :
    BitModified op k v (putBit v k (bitResult op (v.getLsbD k))) := by
  refine ⟨fun i hi => ?_, ?_⟩
  · by_cases h : i < n
    · rw [getLsbD_putBit _ _ _ _ h, if_neg hi]
    · rw [BitVec.getLsbD_of_ge _ _ (by omega), BitVec.getLsbD_of_ge _ _ (by omega)]
  · rw [getLsbD_putBit _ _ _ _ hk, if_pos rfl]; cases op <;> rfl

/-- A bit of a mirrored value (R203). -/
theorem getLsbD_mirror {n : Nat} (v : BitVec n) (i : Nat) (hi : i < n) :
    (mirror v).getLsbD i = v.getLsbD (n - 1 - i) := by
  simp [mirror, hi]

/-- The carry-flag operations that read a bit (R310, R311, R313 to R315). -/
theorem State.carryBit_spec {n : Nat} (s : State) (op : CarryOp) (v : BitVec n) (k : Nat) :
    CarryFromBit op v k s.flags (s.carryBit op v k).flags ∧ SameRegs s (s.carryBit op v k) ∧
      (s.carryBit op v k).mem = s.mem ∧ (s.carryBit op v k).written = s.written ∧ (s.carryBit op v k).pc = s.pc ∧
      SameRest s (s.carryBit op v k) := by
  unfold State.carryBit
  split
  · exact ⟨⟨rfl, fun _ => by cases op <;> rfl⟩, fun g => by simp, rfl, rfl, rfl, by constructor <;> simp⟩
  · next h =>
    exact ⟨⟨rfl, fun h' => absurd h' h⟩, fun g => by simp, rfl, rfl, rfl, by constructor <;> simp⟩

/-- BIT on a bit (R330). -/
theorem State.testBit_spec (s : State) (bit : Bool) :
    BitTested bit s.flags (s.testBit bit).flags ∧ SameRegs s (s.testBit bit) ∧ (s.testBit bit).mem = s.mem ∧
      (s.testBit bit).written = s.written ∧ (s.testBit bit).pc = s.pc ∧ SameRest s (s.testBit bit) :=
  ⟨⟨rfl, rfl, rfl, rfl⟩, fun g => by simp [State.testBit], rfl, rfl, rfl, by constructor <;> simp [State.testBit]⟩

/-- The flags of RES, SET, CHG and TSET (R331 to R334). -/
theorem State.bitModFlags_spec (s : State) (op : BitOp) (bit : Bool) :
    BitOpFlags op bit s.flags (s.bitModFlags op bit).flags ∧ SameRegs s (s.bitModFlags op bit) ∧
      (s.bitModFlags op bit).mem = s.mem ∧ (s.bitModFlags op bit).written = s.written ∧
      (s.bitModFlags op bit).pc = s.pc ∧ SameRest s (s.bitModFlags op bit) := by
  cases op
  case tset => exact ⟨⟨rfl, rfl, rfl, rfl⟩, fun g => by simp [State.bitModFlags], rfl, rfl, rfl, by
    constructor <;> simp [State.bitModFlags]⟩
  all_goals exact ⟨rfl, SameRegs.refl s, rfl, rfl, rfl, SameRest.refl s⟩

/-- The number that BS1F finds (R340). -/
theorem lowestBit_spec {n : Nat} (v : BitVec n) :
    (lowestBit v = none → v = 0) ∧
      ∀ k, lowestBit v = some k → k < n ∧ v.getLsbD k = true ∧ ∀ i < k, v.getLsbD i = false := by
  refine ⟨fun h => ?_, fun k h => ?_⟩
  · rw [lowestBit, List.find?_eq_none] at h
    exact BitVec.eq_of_getLsbD_eq fun i hi => by simpa using h i (List.mem_range.2 hi)
  · obtain ⟨h1, h2, h3⟩ := List.find?_range_eq_some.1 h
    exact ⟨List.mem_range.1 h2, h1, fun i hi => by simpa using h3 i hi⟩

end Sys2Proof.Machine
end

