-- ==== Sys2Proof/Laws/Blocks.lean ====
section
/-! SUPPORT. What one item of a block transfer does, and how the pointers of many items compose (R205 to R209). -/

namespace Sys2Proof.Machine

/-- What one item of a block transfer leads to. -/
structure BlockItemDone (s t : State) (z : SizeBW) (p : BlockPair) (up : Bool) : Prop where
  copied : t.memRead z.size.bytes (s.reg (blockDst s.rfp p)) = s.memRead z.size.bytes (s.reg (blockSrc s.rfp p))
  memory : SameMemoryBut s t z.size.bytes (s.reg (blockDst s.rfp p))
  dst : t.reg (blockDst s.rfp p) = movePointer up z.size.bytes (s.reg (blockDst s.rfp p))
  src : t.reg (blockSrc s.rfp p) = movePointer up z.size.bytes (s.reg (blockSrc s.rfp p))
  bc : t.bc = s.bc - 1
  regs : ∀ g k, g ≠ blockDst s.rfp p → g ≠ blockSrc s.rfp p → ¬ (bcLoc s.rfp).covers g k →
    t.regByte g k = s.regByte g k
  flags : t.flags = s.flags
  pc : t.pc = s.pc
  rest : SameRest s t

theorem bankReg_ne {rfp : BitVec 2} {a b : BankReg} (h : a ≠ b) : rfp ++ bankRegCode a ≠ rfp ++ bankRegCode b := by
  cases a <;> cases b <;> revert rfp <;> first | exact absurd rfl h | decide

theorem bcLoc_g (rfp : BitVec 2) : (bcLoc rfp).g = .bank (rfp ++ bankRegCode .xbc) := by revert rfp; decide

theorem blockDst_ne_src (rfp : BitVec 2) (p : BlockPair) : blockDst rfp p ≠ blockSrc rfp p := by
  cases p <;> simp [blockDst, blockSrc, bankReg_ne]

theorem blockDst_ne_bc (rfp : BitVec 2) (p : BlockPair) : blockDst rfp p ≠ (bcLoc rfp).g := by
  rw [bcLoc_g]; cases p <;> simp [blockDst, bankReg_ne]

theorem blockSrc_ne_bc (rfp : BitVec 2) (p : BlockPair) : blockSrc rfp p ≠ (bcLoc rfp).g := by
  rw [bcLoc_g]; cases p <;> simp [blockSrc, bankReg_ne]

theorem blockDst_ne_xsp (rfp : BitVec 2) (p : BlockPair) : blockDst rfp p ≠ .xsp := by cases p <;> simp [blockDst]

theorem blockSrc_ne_xsp (rfp : BitVec 2) (p : BlockPair) : blockSrc rfp p ≠ .xsp := by cases p <;> simp [blockSrc]

@[simp] theorem State.bc_with_flags (s : State) (f : Flags) : ({ s with flags := f } : State).bc = s.bc := by
  simp [State.bc]

/-- One item of a block transfer (R206, R208). -/
theorem State.blockItem_done (s : State) (z : SizeBW) (p : BlockPair) (up : Bool) :
    BlockItemDone s (s.blockItem z p up) z p up := by
  have hnb : z.size.bytes < 2 ^ 24 := by cases z <;> decide
  have e1 := blockDst_ne_src s.rfp p
  have e2 := blockDst_ne_bc s.rfp p
  have e3 := blockSrc_ne_bc s.rfp p
  have hm : (s.blockItem z p up).mem = (s.memWrite z.size.bytes (s.reg (blockDst s.rfp p))
      (s.memRead z.size.bytes (s.reg (blockSrc s.rfp p)))).mem := by simp [State.blockItem, State.countDown]
  constructor
  · rw [State.memRead_eq_of_mem hm, State.memRead_memWrite_same _ _ _ _ hnb]
  · intro a ha
    rw [State.readByte_of_mem hm, State.readByte_memWrite_other _ _ _ _ _ ha]
  · simp only [State.blockItem, State.noteRead_eq, State.countDown, State.setReg_rfp, State.memWrite_rfp]
    rw [State.reg_writeLoc_ne _ _ _ e2, State.reg_setReg_ne _ _ e1, State.reg_setReg_same]
  · simp only [State.blockItem, State.noteRead_eq, State.countDown, State.setReg_rfp, State.memWrite_rfp]
    rw [State.reg_writeLoc_ne _ _ _ e3, State.reg_setReg_same]
  · simp only [State.blockItem, State.noteRead_eq, State.countDown, State.bc, State.writeLoc_rfp, State.setReg_rfp, State.memWrite_rfp]
    rw [State.readLoc_writeLoc_same]
    congr 1
    apply State.readLoc_eq_of_reg
    rw [State.reg_setReg_ne _ _ (Ne.symm e3), State.reg_setReg_ne _ _ (Ne.symm e2), State.reg_memWrite]
  · intro g k h1 h2 h3
    simp only [State.blockItem, State.noteRead_eq, State.countDown, State.setReg_rfp, State.memWrite_rfp]
    rw [State.regByte, State.byte_writeLoc_other _ _ _ _ _ h3, State.reg_setReg_ne _ _ h2, State.reg_setReg_ne _ _ h1,
      State.reg_memWrite]
    rfl
  · simp [State.blockItem, State.countDown]
  · simp [State.blockItem, State.countDown]
  · constructor <;> simp [State.blockItem, State.countDown]

theorem movePointer_eq (up : Bool) (nb : Nat) (p : Long) : movePointer up nb p = pointerAfter up nb 1 p := by
  simp [movePointer, pointerAfter]

@[simp] theorem pointerAfter_zero (up : Bool) (nb : Nat) (p : Long) : pointerAfter up nb 0 p = p := by
  cases up <;> simp [pointerAfter]

/-- The pointer of a later item is the pointer of an earlier one, moved. -/
theorem pointerAfter_move (up : Bool) (nb j : Nat) (p : Long) :
    pointerAfter up nb j (movePointer up nb p) = pointerAfter up nb (j + 1) p := by
  have h : BitVec.ofNat 32 (nb * (j + 1)) = BitVec.ofNat 32 nb + BitVec.ofNat 32 (nb * j) := by
    rw [← BitVec.ofNat_add, Nat.mul_succ, Nat.add_comm]
  cases up
  · simp only [pointerAfter, movePointer, h, Bool.false_eq_true, if_false]
    rw [BitVec.sub_eq_add_neg, BitVec.sub_eq_add_neg, BitVec.sub_eq_add_neg, BitVec.neg_add, BitVec.sub_eq_add_neg]
    ac_rfl
  · simp only [pointerAfter, movePointer, h, if_true]
    ac_rfl

/-- Bytes of different items of one block of at most 2^24 bytes lie at different addresses. -/
theorem busAddr_pointerAfter_ne (up : Bool) (nb : Nat) (p : Long) (j j' i i' : Nat) (hj : nb * j + nb < 2 ^ 23)
    (hj' : nb * j' + nb < 2 ^ 23) (hi : i < nb) (hi' : i' < nb) (h : j ≠ j') :
    busAddr (pointerAfter up nb j p + BitVec.ofNat 32 i) ≠ busAddr (pointerAfter up nb j' p + BitVec.ofNat 32 i') := by
  have hne : nb * j + i ≠ nb * j' + i' ∧ nb * j + i' ≠ nb * j' + i := by
    rcases Nat.lt_or_gt_of_ne h with h | h
    · have h1 : nb * (j + 1) ≤ nb * j' := Nat.mul_le_mul_left _ h
      rw [Nat.mul_add, Nat.mul_one] at h1
      constructor <;> omega
    · have h1 : nb * (j' + 1) ≤ nb * j := Nat.mul_le_mul_left _ h
      rw [Nat.mul_add, Nat.mul_one] at h1
      constructor <;> omega
  cases up
  · have key : ∀ x k : Nat, x < 2 ^ 23 →
        p - BitVec.ofNat 32 x + BitVec.ofNat 32 k = p - BitVec.ofNat 32 (2 ^ 23) + BitVec.ofNat 32 (2 ^ 23 - x + k) := by
      intro x k hx
      have h1 : BitVec.ofNat 32 (2 ^ 23 - x + k) = BitVec.ofNat 32 (2 ^ 23) - BitVec.ofNat 32 x + BitVec.ofNat 32 k := by
        rw [BitVec.ofNat_add, BitVec.ofNat_sub_ofNat_of_le _ _ (by omega) (by omega)]
      rw [h1, ← BitVec.add_assoc, BitVec.sub_eq_add_neg, BitVec.sub_eq_add_neg, BitVec.sub_eq_add_neg]
      rw [show p + -BitVec.ofNat 32 (2 ^ 23) + (BitVec.ofNat 32 (2 ^ 23) + -BitVec.ofNat 32 x) =
        p + -BitVec.ofNat 32 x + (-BitVec.ofNat 32 (2 ^ 23) + BitVec.ofNat 32 (2 ^ 23)) by ac_rfl]
      rw [BitVec.add_left_neg, BitVec.add_zero]
    simp only [pointerAfter, Bool.false_eq_true, if_false]
    rw [key (nb * j) i (by omega), key (nb * j') i' (by omega)]
    generalize nb * j = x at *
    generalize nb * j' = y at *
    exact busAddr_add_ne (p - BitVec.ofNat 32 (2 ^ 23)) (2 ^ 23 - x + i) (2 ^ 23 - y + i') (by omega) (by omega)
      (fun e => hne.2 (by omega))
  · simp only [pointerAfter, if_true]
    rw [BitVec.add_assoc, BitVec.add_assoc, ← BitVec.ofNat_add, ← BitVec.ofNat_add]
    exact busAddr_add_ne p (nb * j + i) (nb * j' + i') (by omega) (by omega) hne.1

end Sys2Proof.Machine
end

