-- ==== Sys2Proof/Laws/Invariant.lean ====
section
/-! SUPPORT. Every operation that touches memory keeps the canonical form of memory and the record of written
addresses. -/

namespace Sys2Proof.Machine

/-- The invariant speaks of memory, the record and the trail alone. -/
theorem State.inv_of_fields {s t : State} (hm : t.mem = s.mem) (hw : t.written = s.written) (ht : t.trail = s.trail)
    (h : s.Inv) : t.Inv := by
  simpa [State.Inv, hm, hw, ht] using h

/-- Ending the trail, or beginning one, keeps the invariant. -/
theorem State.inv_with_trail {s : State} {o : Option (List Moment)} (ho : o = none ∨ o = some []) (h : s.Inv) :
    ({ s with trail := o } : State).Inv := by
  refine ⟨h.1, h.2.1, h.2.2.1, fun l hl m hm => ?_⟩
  rcases ho with rfl | rfl
  · exact nomatch hl
  · obtain rfl : [] = l := Option.some.inj hl
    exact nomatch hm

theorem State.inv_memWrite {s : State} (nb : Nat) (ea : Long) (v : BitVec (8 * nb)) (h : s.Inv) :
    (s.memWrite nb ea v).Inv := by
  obtain ⟨h1, h2, h3, h4⟩ := h
  refine ⟨State.memWrite_wf s nb ea v h1, State.memWrite_rising s nb ea v h2, fun a ha => ?_,
    State.memWrite_trail_wf s nb ea v h1 h4⟩
  rcases (State.mem_written_memWrite s nb ea v a).1 ha with ⟨i, _, rfl⟩ | ha
  · exact busAddr_lt _
  · exact h3 a ha

theorem State.inv_push {s : State} (nb : Nat) (v : BitVec (8 * nb)) (h : s.Inv) : (s.push nb v).Inv :=
  State.inv_memWrite _ _ _ (State.inv_of_fields rfl rfl rfl h)

theorem State.inv_pushFrame {s : State} (order : FrameOrder) (retPc : Long) (h : s.Inv) :
    (s.pushFrame order retPc).Inv := by
  cases order with
  | interrupt => exact State.inv_push _ _ (State.inv_push _ _ h)
  | software =>
    exact State.inv_memWrite _ _ _ (State.inv_memWrite _ _ _ (State.inv_of_fields (s := s) rfl rfl rfl h))

theorem State.inv_takeException {s : State} (order : FrameOrder) (retPc : Long) (entry : BitVec 6) (h : s.Inv) :
    (s.takeException order retPc entry).Inv :=
  State.inv_of_fields (s := s.pushFrame order retPc) (by simp [State.takeException]) (by simp [State.takeException])
    (by simp [State.takeException]) (State.inv_pushFrame order retPc h)

theorem State.inv_enterInterrupt {s : State} (retPc : Long) (level : IrqLevel) (entry : BitVec 6) (h : s.Inv) :
    (s.enterInterrupt retPc level entry).Inv :=
  State.inv_of_fields (s := s.takeException .interrupt retPc entry) rfl rfl rfl (State.inv_takeException _ _ _ h)

theorem State.inv_resetEvent {s : State} (h : s.mem.wf = true) : s.resetEvent.Inv :=
  ⟨h, List.Pairwise.nil, by simp [State.resetEvent], by simp [State.resetEvent]⟩

/-- What a reset in the middle of an instruction is: a reset at one of the moments on the trail, or at the end (R490). -/
theorem State.resetWithin_cases (t : State) : ∃ k,
    (t.resetWithin = ({ t with freeCount := k } : State).resetEvent) ∨
    ∃ l, t.trail = some l ∧ ∃ x ∈ l,
      t.resetWithin = ({ t with mem := x.mem, ioLog := x.ioLog, freeCount := k } : State).resetEvent := by
  refine ⟨t.freeCount + 1, ?_⟩
  unfold State.resetWithin
  dsimp only
  split
  · next x hx =>
    cases ht : t.trail with
    | none => simp [ht] at hx
    | some l => exact .inr ⟨l, rfl, x, List.mem_of_getElem? (by simpa [ht] using hx), rfl⟩
  · exact .inl rfl

/-- Whatever moment a reset in the middle of an instruction falls on, memory is in its canonical form. -/
theorem State.inv_resetWithin {t : State} (h : t.Inv) : t.resetWithin.Inv := by
  obtain ⟨k, e | ⟨l, hl, x, hx, e⟩⟩ := t.resetWithin_cases
  · rw [e]; exact State.inv_resetEvent h.1
  · rw [e]; exact State.inv_resetEvent (h.2.2.2 l hl x hx)

/-! ## What a reset leaves (R490, R491) -/

/-- PC after reset: the three bytes at the vector base address, and 0 above them (R491, D4). -/
theorem State.resetVector_eq (s : State) : s.resetVector =
    (0#8 ++ s.readByte 0xFFFF02 ++ s.readByte 0xFFFF01 ++ s.readByte 0xFFFF00 : Long) := by
  simp only [State.resetVector, State.memRead]
  rw [show busAddr 0xFFFF00 = 0xFFFF00 from rfl, show busAddr (0xFFFF00 + 1) = 0xFFFF01 from rfl,
    show busAddr (0xFFFF00 + 1 + 1) = 0xFFFF02 from rfl]
  generalize s.readByte 0xFFFF02 = a
  generalize s.readByte 0xFFFF01 = b
  generalize s.readByte 0xFFFF00 = c
  apply BitVec.eq_of_getLsbD_eq
  intro i hi
  simp only [BitVec.getLsbD_setWidth, BitVec.getLsbD_append, hi, decide_true, Bool.true_and]
  split <;> [rfl; split <;> [rfl; split <;> simp_all]]

/-- The reset event gives the values of R491. -/
theorem State.resetEvent_values (s : State) : ResetValues s.resetEvent s.host := by
  refine ⟨rfl, rfl, rfl, rfl, rfl, ?_, rfl, rfl⟩
  rw [show s.resetEvent.pc = s.resetVector from rfl, State.resetVector_eq]
  rfl

theorem ResetValues.with_host {t : State} {r : List HostEvent} (h : ResetValues t r) (rest : List HostEvent) :
    ResetValues { t with host := rest } rest :=
  ⟨h.xsp, h.iff, h.rfp, h.halted, h.comparing, h.pc, h.written, rfl⟩

/-- So does a reset in the middle of an instruction. -/
theorem State.resetWithin_values (t : State) (rest : List HostEvent) :
    ResetValues { t.resetWithin with host := rest } rest := by
  obtain ⟨k, e | ⟨l, hl, x, hx, e⟩⟩ := t.resetWithin_cases <;>
  · rw [e]
    exact (State.resetEvent_values _).with_host rest

/-! ## The trail of a reset in the middle of an instruction (R490, R86) -/

/-- The state has its stores on the trail, from the memory `m0` on. -/
def State.TrailFrom (m0 : Memory) (t : State) : Prop := ∃ l, t.trail = some l ∧ LeadsTo m0 t.mem l

/-- A trail that has just begun. -/
theorem State.trailFrom_begin (s : State) : State.TrailFrom s.mem { s with trail := some [] } := ⟨[], rfl, rfl⟩

/-- The trail speaks of memory and itself alone. -/
theorem State.trailFrom_of_fields {m0 : Memory} {s t : State} (hm : t.mem = s.mem) (ht : t.trail = s.trail)
    (h : State.TrailFrom m0 s) : State.TrailFrom m0 t := by
  simpa [State.TrailFrom, hm, ht] using h

theorem State.trailFrom_writeByte {m0 : Memory} {s : State} (a : Addr) (v : Byte) (h : State.TrailFrom m0 s) :
    State.TrailFrom m0 (s.writeByte a v) := by
  obtain ⟨l, hl, h⟩ := h
  exact ⟨⟨s.mem, s.ioLog, .write a v⟩ :: l, by rw [State.writeByte_trail, hl]; rfl, rfl, h⟩

/-- Every store of an access is put on the trail. -/
theorem State.trailFrom_memWrite {m0 : Memory} {s : State} (nb : Nat) (ea : Long) (v : BitVec (8 * nb))
    (h : State.TrailFrom m0 s) : State.TrailFrom m0 (s.memWrite nb ea v) := by
  induction nb generalizing s ea with
  | zero => exact h
  | succ nb ih => exact ih _ _ (State.trailFrom_writeByte _ _ h)

theorem State.trailFrom_push {m0 : Memory} {s : State} (nb : Nat) (v : BitVec (8 * nb)) (h : State.TrailFrom m0 s) :
    State.TrailFrom m0 (s.push nb v) :=
  State.trailFrom_memWrite _ _ _ (State.trailFrom_of_fields rfl rfl h)

theorem State.trailFrom_takeException {m0 : Memory} {s : State} (order : FrameOrder) (retPc : Long) (entry : BitVec 6)
    (h : State.TrailFrom m0 s) : State.TrailFrom m0 (s.takeException order retPc entry) := by
  refine State.trailFrom_of_fields (s := s.pushFrame order retPc) (by simp [State.takeException])
    (by simp [State.takeException]) ?_
  cases order with
  | interrupt => exact State.trailFrom_push _ _ (State.trailFrom_push _ _ h)
  | software =>
    exact State.trailFrom_memWrite _ _ _ (State.trailFrom_memWrite _ _ _ (State.trailFrom_of_fields (s := s) rfl rfl h))

theorem State.trailFrom_enterInterrupt {m0 : Memory} {s : State} (retPc : Long) (level : IrqLevel) (entry : BitVec 6)
    (h : State.TrailFrom m0 s) : State.TrailFrom m0 (s.enterInterrupt retPc level entry) :=
  State.trailFrom_of_fields (s := s.takeException .interrupt retPc entry) rfl rfl (State.trailFrom_takeException _ _ _ h)

/-- The memory that such a reset leaves is one of the memories on the trail, or the present one. -/
theorem State.resetWithin_mem {t : State} {l : List Moment} (h : t.trail = some l) :
    t.resetWithin.mem ∈ t.mem :: l.map Moment.mem := by
  obtain ⟨k, e | ⟨l', hl, x, hx, e⟩⟩ := t.resetWithin_cases
  · rw [e]; exact List.mem_cons_self
  · rw [e]
    obtain rfl : l' = l := Option.some.inj (hl.symm.trans h)
    exact List.mem_cons_of_mem _ (List.mem_map.2 ⟨x, hx, rfl⟩)

/-- On the way from one memory to another, an address to which no access stores keeps its byte throughout. -/
theorem LeadsTo.read_of_not_stored {m0 m : Memory} {l : List Moment} (h : LeadsTo m0 m l) {a : Addr}
    (ha : ∀ v, Access.write a v ∉ l.map Moment.next) :
    ∀ m' ∈ m :: l.map Moment.mem, Memory.read m' a.toNat = Memory.read m0 a.toNat := by
  induction l generalizing m with
  | nil => obtain rfl : m = m0 := h; simp
  | cons x l ih =>
    obtain ⟨hm, hl⟩ := h
    have ih := ih hl fun v hv => ha v (List.mem_cons_of_mem _ hv)
    intro m' hm'
    rcases List.mem_cons.1 hm' with rfl | hm'
    · rw [hm, ← ih x.mem List.mem_cons_self]
      cases hx : x.next with
      | read b => rfl
      | write b v =>
        have hb : ¬ a.toNat = b.toNat := fun e => ha v (by
          rw [BitVec.eq_of_toNat_eq e, ← hx]; exact List.mem_cons_self)
        show Memory.read (Memory.write x.mem b.toNat v) a.toNat = _
        rw [Memory.read_write, if_neg hb]
    · exact ih m' hm'

/-! ## The order of stores -/

theorem storesOf_succ (nb : Nat) (ea : Long) (v : BitVec (8 * (nb + 1))) :
    storesOf (nb + 1) ea v =
      .write (busAddr ea) (v.setWidth 8) :: storesOf nb (ea + 1) (v.extractLsb' 8 (8 * nb)) := by
  rw [storesOf, List.range_succ_eq_map, List.map_cons, List.map_map, storesOf]
  congr 1
  · rw [show ea + BitVec.ofNat 32 0 = ea by simp]
    congr 1
    apply BitVec.eq_of_getLsbD_eq
    intro i hi
    simp [hi]
  · refine List.map_congr_left fun i hi => ?_
    have hi := List.mem_range.1 hi
    simp only [Function.comp_apply]
    rw [addr_succ]
    congr 1
    apply BitVec.eq_of_getLsbD_eq
    intro j hj
    simp only [BitVec.getLsbD_extractLsb', hj, decide_true, Bool.true_and]
    rw [decide_eq_true (by omega : 8 * i + j < 8 * nb), Bool.true_and]
    congr 1
    omega

/-- One access stores its bytes in order of increasing address (R74, R84). -/
theorem State.records_memWrite (s : State) (nb : Nat) (ea : Long) (v : BitVec (8 * nb)) :
    Records s (s.memWrite nb ea v) (storesOf nb ea v) := by
  induction nb generalizing s ea with
  | zero => simp [Records, State.memWrite, storesOf]
  | succ nb ih =>
    have h := ih (s.writeByte (busAddr ea) (v.setWidth 8)) (ea + 1) (v.extractLsb' 8 (8 * nb))
    rw [Records] at h ⊢
    rw [State.memWrite, h, State.writeByte_trail, storesOf_succ]
    cases s.trail <;> simp

/-- Two runs of stores, one after the other. -/
theorem Records.trans {s t u : State} {l l' : List Access} (h : Records s t l) (h' : Records t u l') :
    Records s u (l ++ l') := by
  rw [Records] at *
  rw [h']
  cases hs : s.trail <;> cases ht : t.trail <;> simp_all

theorem Records.of_trail {s t t' : State} {l : List Access} (h : Records s t l) (ht : t'.trail = t.trail) :
    Records s t' l := by
  rwa [Records, ht]

theorem State.records_push (s : State) (nb : Nat) (v : BitVec (8 * nb)) :
    Records s (s.push nb v) (storesOf nb (s.xsp - BitVec.ofNat 32 nb) v) :=
  State.records_memWrite { s with xsp := s.xsp - BitVec.ofNat 32 nb } nb _ v

/-- The order of the stores of a frame: interrupt entry PC and then SR (R457), SWI SR and then PC (R355). -/
theorem State.records_takeException (s : State) (order : FrameOrder) (retPc : Long) (entry : BitVec 6) :
    Records s (s.takeException order retPc entry)
      (match order with
        | .interrupt => storesOf 4 (s.xsp - 4) retPc ++ storesOf 2 (s.xsp - 6) s.sr
        | .software => storesOf 2 (s.xsp - 6) s.sr ++ storesOf 4 (s.xsp - 4) retPc) := by
  refine Records.of_trail (t := s.pushFrame order retPc) ?_ (by simp [State.takeException])
  cases order with
  | interrupt =>
    have h := State.records_push (s.push 4 retPc) 2 s.sr
    rw [show (s.push 4 retPc).xsp - BitVec.ofNat 32 2 = s.xsp - 6 by
      rw [State.push_xsp, BitVec.sub_eq_add_neg, BitVec.sub_eq_add_neg, BitVec.sub_eq_add_neg, BitVec.add_assoc]; rfl] at h
    exact (State.records_push s 4 retPc).trans h
  | software =>
    have x4 : s.xsp - 6 + 2 = s.xsp - 4 := by simpa using (sp_plus_two s.xsp 0).symm
    simp only [State.pushFrame, x4]
    exact (State.records_memWrite { s with xsp := s.xsp - 6 } 2 (s.xsp - 6) s.sr).trans
      (State.records_memWrite _ 4 (s.xsp - 4) retPc)

/-! ## Placing an instruction -/

theorem State.inv_placeBytes {s : State} (l : List Byte) (a : Long) (h : s.Inv) : (s.placeBytes l a).Inv := by
  induction l generalizing s a with
  | nil => exact h
  | cons b t ih =>
    exact ih _ ⟨Memory.wf_write _ _ _ (busAddr_lt a) h.1, h.2.1.filter _, fun c hc =>
      h.2.2.1 c (List.mem_filter.1 hc).1, h.2.2.2⟩

/-- Placing an instruction from outside keeps the invariant. -/
theorem State.inv_withFetchWord {s : State} (nbits w : Nat) (h : s.Inv) : (s.withFetchWord nbits w).Inv :=
  State.inv_of_fields (s := s.placeBytes (tableBytes nbits w) s.pc) rfl rfl rfl (State.inv_placeBytes _ _ h)

end Sys2Proof.Machine
end

