-- ==== Sys2Proof/Laws/PerInstr.lean ====
section
/-! SUPPORT. Statements about every instruction as syntax, one lemma for each constructor of `Instr`. -/

namespace Sys2Proof

theorem length_toLE (nb : Nat) (v : BitVec (8 * nb)) : (toLE nb v).length = nb := by
  induction nb with
  | zero => rfl
  | succ nb ih => simp [toLE, ih]

/-- The first byte and the code byte of a register operand. -/
theorem length_encodeRegOp {sz : Size} (r : RegOp sz) : 1 ≤ (encodeRegOp r).length ∧ (encodeRegOp r).length ≤ 2 := by
  cases r <;> simp [encodeRegOp]

theorem length_encodeDblOp {z : SizeBW} (r : DblOp z) : 1 ≤ (encodeDblOp r).length ∧ (encodeDblOp r).length ≤ 2 := by
  cases r <;> simp [encodeDblOp]

/-- The first byte and the mode bytes of a memory operand. -/
theorem length_encodeMem (zz : BitVec 2) (m : MemOp) : 1 ≤ (encodeMem zz m).length ∧ (encodeMem zz m).length ≤ 4 := by
  cases m <;> simp [encodeMem, length_toLE]

theorem size_bytes_le (sz : Size) : sz.bytes ≤ 4 := by cases sz <;> decide

theorem sizeBW_bytes_le (z : SizeBW) : z.size.bytes ≤ 2 := by cases z <;> decide

end Sys2Proof

/-- The encoding of an instruction has 1 to 7 bytes: no instruction is longer than what the step fetches (R100). -/
def Sys2Proof.Laws.EncodedLength.Statement (i : Sys2Proof.Instr) : Prop :=
  1 ≤ (Sys2Proof.encode i).length ∧ (Sys2Proof.encode i).length ≤ Sys2Proof.maxLength

namespace Sys2Proof.Laws.EncodedLength

theorem of_bytes {i : Instr} {b : List Byte} (e : encode i = b) (h : 1 ≤ b.length ∧ b.length ≤ 7) : Statement i := by
  rw [Statement, e]; exact h

theorem of_reg {i : Instr} {sz : Size} {r : RegOp sz} {b : List Byte} (e : encode i = encodeRegOp r ++ b)
    (h : b.length ≤ 5) : Statement i := by
  have hr := length_encodeRegOp r
  rw [Statement, e, List.length_append, maxLength]
  omega

theorem of_dbl {i : Instr} {z : SizeBW} {r : DblOp z} {b : List Byte} (e : encode i = encodeDblOp r ++ b)
    (h : b.length ≤ 5) : Statement i := by
  have hr := length_encodeDblOp r
  rw [Statement, e, List.length_append, maxLength]
  omega

theorem of_mem {i : Instr} {zz : BitVec 2} {m : MemOp} {b : List Byte} (e : encode i = encodeMem zz m ++ b)
    (h : b.length ≤ 3) : Statement i := by
  have hm := length_encodeMem zz m
  rw [Statement, e, List.length_append, maxLength]
  omega

/-- A byte and an immediate of the size of the operation. -/
theorem imm_le (b : Byte) {sz : Size} (v : BitVec sz.bits) : (b :: toLE sz.bytes v).length ≤ 5 := by
  cases sz <;> simp [length_toLE, Size.bytes]

theorem immBW_le (b : Byte) {z : SizeBW} (v : BitVec z.size.bits) : (b :: toLE z.size.bytes v).length ≤ 3 := by
  cases z <;> simp [length_toLE, SizeBW.size, Size.bytes]

theorem nop : Statement (.nop) := of_bytes (b := [0x00]) rfl (by simp)

theorem pushSr : Statement (.pushSr) := of_bytes (b := [0x02]) rfl (by simp)

theorem popSr : Statement (.popSr) := of_bytes (b := [0x03]) rfl (by simp)

theorem halt : Statement (.halt) := of_bytes (b := [0x05]) rfl (by simp)

theorem ei (num : BitVec 3) : Statement (.ei num) := of_bytes (b := [0x06, 0#5 ++ num]) rfl (by simp)

theorem di : Statement (.di) := of_bytes (b := [0x06, 0x07]) rfl (by simp)

theorem reti : Statement (.reti) := of_bytes (b := [0x07]) rfl (by simp)

theorem ldAbs8ImmB (a : Byte) (imm : Byte) : Statement (.ldAbs8ImmB a imm) :=
  of_bytes (b := 0x08 :: (toLE 1 a ++ toLE 1 imm)) rfl (by simp [length_toLE])

theorem pushImmB (imm : Byte) : Statement (.pushImmB imm) :=
  of_bytes (b := 0x09 :: toLE 1 imm) rfl (by simp [length_toLE])

theorem ldAbs8ImmW (a : Byte) (imm : Word) : Statement (.ldAbs8ImmW a imm) :=
  of_bytes (b := 0x0A :: (toLE 1 a ++ toLE 2 imm)) rfl (by simp [length_toLE])

theorem pushImmW (imm : Word) : Statement (.pushImmW imm) :=
  of_bytes (b := 0x0B :: toLE 2 imm) rfl (by simp [length_toLE])

theorem incf : Statement (.incf) := of_bytes (b := [0x0C]) rfl (by simp)

theorem decf : Statement (.decf) := of_bytes (b := [0x0D]) rfl (by simp)

theorem ret : Statement (.ret) := of_bytes (b := [0x0E]) rfl (by simp)

theorem retd (d : Word) : Statement (.retd d) := of_bytes (b := 0x0F :: toLE 2 d) rfl (by simp [length_toLE])

theorem rcf : Statement (.rcf) := of_bytes (b := [0x10]) rfl (by simp)

theorem scf : Statement (.scf) := of_bytes (b := [0x11]) rfl (by simp)

theorem ccf : Statement (.ccf) := of_bytes (b := [0x12]) rfl (by simp)

theorem zcf : Statement (.zcf) := of_bytes (b := [0x13]) rfl (by simp)

theorem pushA : Statement (.pushA) := of_bytes (b := [0x14]) rfl (by simp)

theorem popA : Statement (.popA) := of_bytes (b := [0x15]) rfl (by simp)

theorem exFF : Statement (.exFF) := of_bytes (b := [0x16]) rfl (by simp)

theorem ldf (num : BitVec 2) : Statement (.ldf num) := of_bytes (b := [0x17, 0#6 ++ num]) rfl (by simp)

theorem pushF : Statement (.pushF) := of_bytes (b := [0x18]) rfl (by simp)

theorem popF : Statement (.popF) := of_bytes (b := [0x19]) rfl (by simp)

theorem jp16 (a : Word) : Statement (.jp16 a) := of_bytes (b := 0x1A :: toLE 2 a) rfl (by simp [length_toLE])

theorem jp24 (a : Addr) : Statement (.jp24 a) := of_bytes (b := 0x1B :: toLE 3 a) rfl (by simp [length_toLE])

theorem call16 (a : Word) : Statement (.call16 a) := of_bytes (b := 0x1C :: toLE 2 a) rfl (by simp [length_toLE])

theorem call24 (a : Addr) : Statement (.call24 a) := of_bytes (b := 0x1D :: toLE 3 a) rfl (by simp [length_toLE])

theorem calr (d : Word) : Statement (.calr d) := of_bytes (b := 0x1E :: toLE 2 d) rfl (by simp [length_toLE])

theorem ldCurImmB (R : BitVec 3) (imm : Byte) : Statement (.ldCurImmB R imm) :=
  of_bytes (b := opByte 0x04 R :: toLE 1 imm) rfl (by simp [length_toLE])

theorem pushCurW (R : BitVec 3) : Statement (.pushCurW R) := of_bytes (b := [opByte 0x05 R]) rfl (by simp)

theorem ldCurImmW (R : BitVec 3) (imm : Word) : Statement (.ldCurImmW R imm) :=
  of_bytes (b := opByte 0x06 R :: toLE 2 imm) rfl (by simp [length_toLE])

theorem pushCurL (R : BitVec 3) : Statement (.pushCurL R) := of_bytes (b := [opByte 0x07 R]) rfl (by simp)

theorem ldCurImmL (R : BitVec 3) (imm : Long) : Statement (.ldCurImmL R imm) :=
  of_bytes (b := opByte 0x08 R :: toLE 4 imm) rfl (by simp [length_toLE])

theorem popCurW (R : BitVec 3) : Statement (.popCurW R) := of_bytes (b := [opByte 0x09 R]) rfl (by simp)

theorem popCurL (R : BitVec 3) : Statement (.popCurL R) := of_bytes (b := [opByte 0x0B R]) rfl (by simp)

theorem jr (cc : Cond) (d : Byte) : Statement (.jr cc d) :=
  of_bytes (b := (0x6#4 ++ condCode cc : Byte) :: toLE 1 d) rfl (by simp [length_toLE])

theorem jrl (cc : Cond) (d : Word) : Statement (.jrl cc d) :=
  of_bytes (b := (0x7#4 ++ condCode cc : Byte) :: toLE 2 d) rfl (by simp [length_toLE])

theorem swi (num : BitVec 3) : Statement (.swi num) := of_bytes (b := [opByte 0x1F num]) rfl (by simp)

theorem ldRegImm (sz : Size) (r : RegOp sz) (imm : BitVec sz.bits) : Statement (.ldRegImm sz r imm) :=
  of_reg rfl (imm_le _ _)

theorem pushReg (sz : Size) (r : RegOp sz) : Statement (.pushReg sz r) := of_reg rfl (by simp)

theorem popReg (sz : Size) (r : RegOp sz) : Statement (.popReg sz r) := of_reg rfl (by simp)

theorem cpl (z : SizeBW) (r : RegOp z.size) : Statement (.cpl z r) := of_reg rfl (by simp)

theorem neg (z : SizeBW) (r : RegOp z.size) : Statement (.neg z r) := of_reg rfl (by simp)

theorem mulImm (z : SizeBW) (rr : DblOp z) (imm : BitVec z.size.bits) : Statement (.mulImm z rr imm) :=
  of_dbl rfl ((immBW_le _ _).trans (by decide))

theorem mulsImm (z : SizeBW) (rr : DblOp z) (imm : BitVec z.size.bits) : Statement (.mulsImm z rr imm) :=
  of_dbl rfl ((immBW_le _ _).trans (by decide))

theorem divImm (z : SizeBW) (rr : DblOp z) (imm : BitVec z.size.bits) : Statement (.divImm z rr imm) :=
  of_dbl rfl ((immBW_le _ _).trans (by decide))

theorem divsImm (z : SizeBW) (rr : DblOp z) (imm : BitVec z.size.bits) : Statement (.divsImm z rr imm) :=
  of_dbl rfl ((immBW_le _ _).trans (by decide))

theorem link (r : RegOp .l) (d : Word) : Statement (.link r d) := of_reg rfl (by simp [length_toLE])

theorem unlk (r : RegOp .l) : Statement (.unlk r) := of_reg rfl (by simp)

theorem bs1f (r : RegOp .w) : Statement (.bs1f r) := of_reg rfl (by simp)

theorem bs1b (r : RegOp .w) : Statement (.bs1b r) := of_reg rfl (by simp)

theorem daa (r : RegOp .b) : Statement (.daa r) := of_reg rfl (by simp)

theorem extz (z : SizeWL) (r : RegOp z.size) : Statement (.extz z r) := of_reg rfl (by simp)

theorem exts (z : SizeWL) (r : RegOp z.size) : Statement (.exts z r) := of_reg rfl (by simp)

theorem paa (z : SizeWL) (r : RegOp z.size) : Statement (.paa z r) := of_reg rfl (by simp)

theorem mirr (r : RegOp .w) : Statement (.mirr r) := of_reg rfl (by simp)

theorem mula (rr : DblOp .w) : Statement (.mula rr) := of_dbl rfl (by simp)

theorem djnz (z : SizeBW) (r : RegOp z.size) (d : Byte) : Statement (.djnz z r d) := of_reg rfl (by simp [length_toLE])

theorem andcfImmReg (z : SizeBW) (r : RegOp z.size) (num : BitVec 4) : Statement (.andcfImmReg z r num) :=
  of_reg rfl (by simp)

theorem andcfAReg (z : SizeBW) (r : RegOp z.size) : Statement (.andcfAReg z r) := of_reg rfl (by simp)

theorem orcfImmReg (z : SizeBW) (r : RegOp z.size) (num : BitVec 4) : Statement (.orcfImmReg z r num) :=
  of_reg rfl (by simp)

theorem orcfAReg (z : SizeBW) (r : RegOp z.size) : Statement (.orcfAReg z r) := of_reg rfl (by simp)

theorem xorcfImmReg (z : SizeBW) (r : RegOp z.size) (num : BitVec 4) : Statement (.xorcfImmReg z r num) :=
  of_reg rfl (by simp)

theorem xorcfAReg (z : SizeBW) (r : RegOp z.size) : Statement (.xorcfAReg z r) := of_reg rfl (by simp)

theorem ldcfImmReg (z : SizeBW) (r : RegOp z.size) (num : BitVec 4) : Statement (.ldcfImmReg z r num) :=
  of_reg rfl (by simp)

theorem ldcfAReg (z : SizeBW) (r : RegOp z.size) : Statement (.ldcfAReg z r) := of_reg rfl (by simp)

theorem stcfImmReg (z : SizeBW) (r : RegOp z.size) (num : BitVec 4) : Statement (.stcfImmReg z r num) :=
  of_reg rfl (by simp)

theorem stcfAReg (z : SizeBW) (r : RegOp z.size) : Statement (.stcfAReg z r) := of_reg rfl (by simp)

theorem ldcToCr (cr : CtrlReg) (r : RegOp cr.size) : Statement (.ldcToCr cr r) := of_reg rfl (by simp)

theorem ldcFromCr (cr : CtrlReg) (r : RegOp cr.size) : Statement (.ldcFromCr cr r) := of_reg rfl (by simp)

theorem resReg (z : SizeBW) (r : RegOp z.size) (num : BitVec 4) : Statement (.resReg z r num) := of_reg rfl (by simp)

theorem setReg (z : SizeBW) (r : RegOp z.size) (num : BitVec 4) : Statement (.setReg z r num) := of_reg rfl (by simp)

theorem chgReg (z : SizeBW) (r : RegOp z.size) (num : BitVec 4) : Statement (.chgReg z r num) := of_reg rfl (by simp)

theorem bitReg (z : SizeBW) (r : RegOp z.size) (num : BitVec 4) : Statement (.bitReg z r num) := of_reg rfl (by simp)

theorem tsetReg (z : SizeBW) (r : RegOp z.size) (num : BitVec 4) : Statement (.tsetReg z r num) := of_reg rfl (by simp)

theorem minc1 (r : RegOp .w) (field : Word) : Statement (.minc1 r field) := of_reg rfl (by simp [length_toLE])

theorem minc2 (r : RegOp .w) (field : Word) : Statement (.minc2 r field) := of_reg rfl (by simp [length_toLE])

theorem minc4 (r : RegOp .w) (field : Word) : Statement (.minc4 r field) := of_reg rfl (by simp [length_toLE])

theorem mdec1 (r : RegOp .w) (field : Word) : Statement (.mdec1 r field) := of_reg rfl (by simp [length_toLE])

theorem mdec2 (r : RegOp .w) (field : Word) : Statement (.mdec2 r field) := of_reg rfl (by simp [length_toLE])

theorem mdec4 (r : RegOp .w) (field : Word) : Statement (.mdec4 r field) := of_reg rfl (by simp [length_toLE])

theorem mulReg (z : SizeBW) (RR : BitVec z.dblBits) (r : RegOp z.size) : Statement (.mulReg z RR r) :=
  of_reg rfl (by simp)

theorem mulsReg (z : SizeBW) (RR : BitVec z.dblBits) (r : RegOp z.size) : Statement (.mulsReg z RR r) :=
  of_reg rfl (by simp)

theorem divReg (z : SizeBW) (RR : BitVec z.dblBits) (r : RegOp z.size) : Statement (.divReg z RR r) :=
  of_reg rfl (by simp)

theorem divsReg (z : SizeBW) (RR : BitVec z.dblBits) (r : RegOp z.size) : Statement (.divsReg z RR r) :=
  of_reg rfl (by simp)

theorem incReg (sz : Size) (r : RegOp sz) (num : BitVec 3) : Statement (.incReg sz r num) := of_reg rfl (by simp)

theorem decReg (sz : Size) (r : RegOp sz) (num : BitVec 3) : Statement (.decReg sz r num) := of_reg rfl (by simp)

theorem scc (z : SizeBW) (r : RegOp z.size) (cc : Cond) : Statement (.scc z r cc) := of_reg rfl (by simp)

theorem addCurReg (sz : Size) (R : BitVec 3) (r : RegOp sz) : Statement (.addCurReg sz R r) := of_reg rfl (by simp)

theorem addRegImm (sz : Size) (r : RegOp sz) (imm : BitVec sz.bits) : Statement (.addRegImm sz r imm) :=
  of_reg rfl (imm_le _ _)

theorem adcCurReg (sz : Size) (R : BitVec 3) (r : RegOp sz) : Statement (.adcCurReg sz R r) := of_reg rfl (by simp)

theorem adcRegImm (sz : Size) (r : RegOp sz) (imm : BitVec sz.bits) : Statement (.adcRegImm sz r imm) :=
  of_reg rfl (imm_le _ _)

theorem subCurReg (sz : Size) (R : BitVec 3) (r : RegOp sz) : Statement (.subCurReg sz R r) := of_reg rfl (by simp)

theorem subRegImm (sz : Size) (r : RegOp sz) (imm : BitVec sz.bits) : Statement (.subRegImm sz r imm) :=
  of_reg rfl (imm_le _ _)

theorem sbcCurReg (sz : Size) (R : BitVec 3) (r : RegOp sz) : Statement (.sbcCurReg sz R r) := of_reg rfl (by simp)

theorem sbcRegImm (sz : Size) (r : RegOp sz) (imm : BitVec sz.bits) : Statement (.sbcRegImm sz r imm) :=
  of_reg rfl (imm_le _ _)

theorem andCurReg (sz : Size) (R : BitVec 3) (r : RegOp sz) : Statement (.andCurReg sz R r) := of_reg rfl (by simp)

theorem andRegImm (sz : Size) (r : RegOp sz) (imm : BitVec sz.bits) : Statement (.andRegImm sz r imm) :=
  of_reg rfl (imm_le _ _)

theorem xorCurReg (sz : Size) (R : BitVec 3) (r : RegOp sz) : Statement (.xorCurReg sz R r) := of_reg rfl (by simp)

theorem xorRegImm (sz : Size) (r : RegOp sz) (imm : BitVec sz.bits) : Statement (.xorRegImm sz r imm) :=
  of_reg rfl (imm_le _ _)

theorem orCurReg (sz : Size) (R : BitVec 3) (r : RegOp sz) : Statement (.orCurReg sz R r) := of_reg rfl (by simp)

theorem orRegImm (sz : Size) (r : RegOp sz) (imm : BitVec sz.bits) : Statement (.orRegImm sz r imm) :=
  of_reg rfl (imm_le _ _)

theorem cpCurReg (sz : Size) (R : BitVec 3) (r : RegOp sz) : Statement (.cpCurReg sz R r) := of_reg rfl (by simp)

theorem cpRegImm (sz : Size) (r : RegOp sz) (imm : BitVec sz.bits) : Statement (.cpRegImm sz r imm) :=
  of_reg rfl (imm_le _ _)

theorem ldCurReg (sz : Size) (R : BitVec 3) (r : RegOp sz) : Statement (.ldCurReg sz R r) := of_reg rfl (by simp)

theorem ldRegCur (sz : Size) (r : RegOp sz) (R : BitVec 3) : Statement (.ldRegCur sz r R) := of_reg rfl (by simp)

theorem ldRegImm3 (sz : Size) (r : RegOp sz) (imm : BitVec 3) : Statement (.ldRegImm3 sz r imm) := of_reg rfl (by simp)

theorem exCurReg (z : SizeBW) (R : BitVec 3) (r : RegOp z.size) : Statement (.exCurReg z R r) := of_reg rfl (by simp)

theorem cpRegImm3 (z : SizeBW) (r : RegOp z.size) (imm : BitVec 3) : Statement (.cpRegImm3 z r imm) :=
  of_reg rfl (by simp)

theorem rlcImmReg (sz : Size) (r : RegOp sz) (num : BitVec 4) : Statement (.rlcImmReg sz r num) := of_reg rfl (by simp)

theorem rlcAReg (sz : Size) (r : RegOp sz) : Statement (.rlcAReg sz r) := of_reg rfl (by simp)

theorem rrcImmReg (sz : Size) (r : RegOp sz) (num : BitVec 4) : Statement (.rrcImmReg sz r num) := of_reg rfl (by simp)

theorem rrcAReg (sz : Size) (r : RegOp sz) : Statement (.rrcAReg sz r) := of_reg rfl (by simp)

theorem rlImmReg (sz : Size) (r : RegOp sz) (num : BitVec 4) : Statement (.rlImmReg sz r num) := of_reg rfl (by simp)

theorem rlAReg (sz : Size) (r : RegOp sz) : Statement (.rlAReg sz r) := of_reg rfl (by simp)

theorem rrImmReg (sz : Size) (r : RegOp sz) (num : BitVec 4) : Statement (.rrImmReg sz r num) := of_reg rfl (by simp)

theorem rrAReg (sz : Size) (r : RegOp sz) : Statement (.rrAReg sz r) := of_reg rfl (by simp)

theorem slaImmReg (sz : Size) (r : RegOp sz) (num : BitVec 4) : Statement (.slaImmReg sz r num) := of_reg rfl (by simp)

theorem slaAReg (sz : Size) (r : RegOp sz) : Statement (.slaAReg sz r) := of_reg rfl (by simp)

theorem sraImmReg (sz : Size) (r : RegOp sz) (num : BitVec 4) : Statement (.sraImmReg sz r num) := of_reg rfl (by simp)

theorem sraAReg (sz : Size) (r : RegOp sz) : Statement (.sraAReg sz r) := of_reg rfl (by simp)

theorem sllImmReg (sz : Size) (r : RegOp sz) (num : BitVec 4) : Statement (.sllImmReg sz r num) := of_reg rfl (by simp)

theorem sllAReg (sz : Size) (r : RegOp sz) : Statement (.sllAReg sz r) := of_reg rfl (by simp)

theorem srlImmReg (sz : Size) (r : RegOp sz) (num : BitVec 4) : Statement (.srlImmReg sz r num) := of_reg rfl (by simp)

theorem srlAReg (sz : Size) (r : RegOp sz) : Statement (.srlAReg sz r) := of_reg rfl (by simp)

theorem pushMem (z : SizeBW) (m : MemOp) : Statement (.pushMem z m) := of_mem rfl (by simp)

theorem rld (m : MemOp) : Statement (.rld m) := of_mem rfl (by simp)

theorem rrd (m : MemOp) : Statement (.rrd m) := of_mem rfl (by simp)

theorem ldi (z : SizeBW) (p : BlockPair) : Statement (.ldi z p) := of_mem rfl (by simp)

theorem ldir (z : SizeBW) (p : BlockPair) : Statement (.ldir z p) := of_mem rfl (by simp)

theorem ldd (z : SizeBW) (p : BlockPair) : Statement (.ldd z p) := of_mem rfl (by simp)

theorem lddr (z : SizeBW) (p : BlockPair) : Statement (.lddr z p) := of_mem rfl (by simp)

theorem cpi (z : SizeBW) (R : BitVec 3) : Statement (.cpi z R) := of_mem rfl (by simp)

theorem cpir (z : SizeBW) (R : BitVec 3) : Statement (.cpir z R) := of_mem rfl (by simp)

theorem cpd (z : SizeBW) (R : BitVec 3) : Statement (.cpd z R) := of_mem rfl (by simp)

theorem cpdr (z : SizeBW) (R : BitVec 3) : Statement (.cpdr z R) := of_mem rfl (by simp)

theorem ldAbs16Mem (z : SizeBW) (a : Word) (m : MemOp) : Statement (.ldAbs16Mem z a m) :=
  of_mem rfl (by simp [length_toLE])

theorem ldCurMem (sz : Size) (R : BitVec 3) (m : MemOp) : Statement (.ldCurMem sz R m) := of_mem rfl (by simp)

theorem exMemCur (z : SizeBW) (m : MemOp) (R : BitVec 3) : Statement (.exMemCur z m R) := of_mem rfl (by simp)

theorem addMemImm (z : SizeBW) (m : MemOp) (imm : BitVec z.size.bits) : Statement (.addMemImm z m imm) :=
  of_mem rfl (immBW_le _ _)

theorem addCurMem (sz : Size) (R : BitVec 3) (m : MemOp) : Statement (.addCurMem sz R m) := of_mem rfl (by simp)

theorem addMemCur (sz : Size) (m : MemOp) (R : BitVec 3) : Statement (.addMemCur sz m R) := of_mem rfl (by simp)

theorem adcMemImm (z : SizeBW) (m : MemOp) (imm : BitVec z.size.bits) : Statement (.adcMemImm z m imm) :=
  of_mem rfl (immBW_le _ _)

theorem adcCurMem (sz : Size) (R : BitVec 3) (m : MemOp) : Statement (.adcCurMem sz R m) := of_mem rfl (by simp)

theorem adcMemCur (sz : Size) (m : MemOp) (R : BitVec 3) : Statement (.adcMemCur sz m R) := of_mem rfl (by simp)

theorem subMemImm (z : SizeBW) (m : MemOp) (imm : BitVec z.size.bits) : Statement (.subMemImm z m imm) :=
  of_mem rfl (immBW_le _ _)

theorem subCurMem (sz : Size) (R : BitVec 3) (m : MemOp) : Statement (.subCurMem sz R m) := of_mem rfl (by simp)

theorem subMemCur (sz : Size) (m : MemOp) (R : BitVec 3) : Statement (.subMemCur sz m R) := of_mem rfl (by simp)

theorem sbcMemImm (z : SizeBW) (m : MemOp) (imm : BitVec z.size.bits) : Statement (.sbcMemImm z m imm) :=
  of_mem rfl (immBW_le _ _)

theorem sbcCurMem (sz : Size) (R : BitVec 3) (m : MemOp) : Statement (.sbcCurMem sz R m) := of_mem rfl (by simp)

theorem sbcMemCur (sz : Size) (m : MemOp) (R : BitVec 3) : Statement (.sbcMemCur sz m R) := of_mem rfl (by simp)

theorem andMemImm (z : SizeBW) (m : MemOp) (imm : BitVec z.size.bits) : Statement (.andMemImm z m imm) :=
  of_mem rfl (immBW_le _ _)

theorem andCurMem (sz : Size) (R : BitVec 3) (m : MemOp) : Statement (.andCurMem sz R m) := of_mem rfl (by simp)

theorem andMemCur (sz : Size) (m : MemOp) (R : BitVec 3) : Statement (.andMemCur sz m R) := of_mem rfl (by simp)

theorem xorMemImm (z : SizeBW) (m : MemOp) (imm : BitVec z.size.bits) : Statement (.xorMemImm z m imm) :=
  of_mem rfl (immBW_le _ _)

theorem xorCurMem (sz : Size) (R : BitVec 3) (m : MemOp) : Statement (.xorCurMem sz R m) := of_mem rfl (by simp)

theorem xorMemCur (sz : Size) (m : MemOp) (R : BitVec 3) : Statement (.xorMemCur sz m R) := of_mem rfl (by simp)

theorem orMemImm (z : SizeBW) (m : MemOp) (imm : BitVec z.size.bits) : Statement (.orMemImm z m imm) :=
  of_mem rfl (immBW_le _ _)

theorem orCurMem (sz : Size) (R : BitVec 3) (m : MemOp) : Statement (.orCurMem sz R m) := of_mem rfl (by simp)

theorem orMemCur (sz : Size) (m : MemOp) (R : BitVec 3) : Statement (.orMemCur sz m R) := of_mem rfl (by simp)

theorem cpMemImm (z : SizeBW) (m : MemOp) (imm : BitVec z.size.bits) : Statement (.cpMemImm z m imm) :=
  of_mem rfl (immBW_le _ _)

theorem cpCurMem (sz : Size) (R : BitVec 3) (m : MemOp) : Statement (.cpCurMem sz R m) := of_mem rfl (by simp)

theorem cpMemCur (sz : Size) (m : MemOp) (R : BitVec 3) : Statement (.cpMemCur sz m R) := of_mem rfl (by simp)

theorem mulMem (z : SizeBW) (RR : BitVec z.dblBits) (m : MemOp) : Statement (.mulMem z RR m) := of_mem rfl (by simp)

theorem mulsMem (z : SizeBW) (RR : BitVec z.dblBits) (m : MemOp) : Statement (.mulsMem z RR m) := of_mem rfl (by simp)

theorem divMem (z : SizeBW) (RR : BitVec z.dblBits) (m : MemOp) : Statement (.divMem z RR m) := of_mem rfl (by simp)

theorem divsMem (z : SizeBW) (RR : BitVec z.dblBits) (m : MemOp) : Statement (.divsMem z RR m) := of_mem rfl (by simp)

theorem incMem (z : SizeBW) (num : BitVec 3) (m : MemOp) : Statement (.incMem z num m) := of_mem rfl (by simp)

theorem decMem (z : SizeBW) (num : BitVec 3) (m : MemOp) : Statement (.decMem z num m) := of_mem rfl (by simp)

theorem rlcMem (z : SizeBW) (m : MemOp) : Statement (.rlcMem z m) := of_mem rfl (by simp)

theorem rrcMem (z : SizeBW) (m : MemOp) : Statement (.rrcMem z m) := of_mem rfl (by simp)

theorem rlMem (z : SizeBW) (m : MemOp) : Statement (.rlMem z m) := of_mem rfl (by simp)

theorem rrMem (z : SizeBW) (m : MemOp) : Statement (.rrMem z m) := of_mem rfl (by simp)

theorem slaMem (z : SizeBW) (m : MemOp) : Statement (.slaMem z m) := of_mem rfl (by simp)

theorem sraMem (z : SizeBW) (m : MemOp) : Statement (.sraMem z m) := of_mem rfl (by simp)

theorem sllMem (z : SizeBW) (m : MemOp) : Statement (.sllMem z m) := of_mem rfl (by simp)

theorem srlMem (z : SizeBW) (m : MemOp) : Statement (.srlMem z m) := of_mem rfl (by simp)

theorem ldMemImmB (m : MemOp) (imm : Byte) : Statement (.ldMemImmB m imm) := of_mem rfl (by simp [length_toLE])

theorem ldMemImmW (m : MemOp) (imm : Word) : Statement (.ldMemImmW m imm) := of_mem rfl (by simp [length_toLE])

theorem popMemB (m : MemOp) : Statement (.popMemB m) := of_mem rfl (by simp)

theorem popMemW (m : MemOp) : Statement (.popMemW m) := of_mem rfl (by simp)

theorem ldMemAbs16B (m : MemOp) (a : Word) : Statement (.ldMemAbs16B m a) := of_mem rfl (by simp [length_toLE])

theorem ldMemAbs16W (m : MemOp) (a : Word) : Statement (.ldMemAbs16W m a) := of_mem rfl (by simp [length_toLE])

theorem ldaW (R : BitVec 3) (m : MemOp) : Statement (.ldaW R m) := of_mem rfl (by simp)

theorem ldaL (R : BitVec 3) (m : MemOp) : Statement (.ldaL R m) := of_mem rfl (by simp)

theorem andcfAMem (m : MemOp) : Statement (.andcfAMem m) := of_mem rfl (by simp)

theorem andcfImmMem (num : BitVec 3) (m : MemOp) : Statement (.andcfImmMem num m) := of_mem rfl (by simp)

theorem orcfAMem (m : MemOp) : Statement (.orcfAMem m) := of_mem rfl (by simp)

theorem orcfImmMem (num : BitVec 3) (m : MemOp) : Statement (.orcfImmMem num m) := of_mem rfl (by simp)

theorem xorcfAMem (m : MemOp) : Statement (.xorcfAMem m) := of_mem rfl (by simp)

theorem xorcfImmMem (num : BitVec 3) (m : MemOp) : Statement (.xorcfImmMem num m) := of_mem rfl (by simp)

theorem ldcfAMem (m : MemOp) : Statement (.ldcfAMem m) := of_mem rfl (by simp)

theorem ldcfImmMem (num : BitVec 3) (m : MemOp) : Statement (.ldcfImmMem num m) := of_mem rfl (by simp)

theorem stcfAMem (m : MemOp) : Statement (.stcfAMem m) := of_mem rfl (by simp)

theorem stcfImmMem (num : BitVec 3) (m : MemOp) : Statement (.stcfImmMem num m) := of_mem rfl (by simp)

theorem ldMemCurB (m : MemOp) (R : BitVec 3) : Statement (.ldMemCurB m R) := of_mem rfl (by simp)

theorem ldMemCurW (m : MemOp) (R : BitVec 3) : Statement (.ldMemCurW m R) := of_mem rfl (by simp)

theorem ldMemCurL (m : MemOp) (R : BitVec 3) : Statement (.ldMemCurL m R) := of_mem rfl (by simp)

theorem tsetMem (num : BitVec 3) (m : MemOp) : Statement (.tsetMem num m) := of_mem rfl (by simp)

theorem resMem (num : BitVec 3) (m : MemOp) : Statement (.resMem num m) := of_mem rfl (by simp)

theorem setMem (num : BitVec 3) (m : MemOp) : Statement (.setMem num m) := of_mem rfl (by simp)

theorem chgMem (num : BitVec 3) (m : MemOp) : Statement (.chgMem num m) := of_mem rfl (by simp)

theorem bitMem (num : BitVec 3) (m : MemOp) : Statement (.bitMem num m) := of_mem rfl (by simp)

theorem jpMem (cc : Cond) (m : MemOp) : Statement (.jpMem cc m) := of_mem rfl (by simp)

theorem callMem (cc : Cond) (m : MemOp) : Statement (.callMem cc m) := of_mem rfl (by simp)

theorem retCc (cc : Cond) : Statement (.retCc cc) := of_bytes (b := [0xB0, 0xF#4 ++ condCode cc]) rfl (by simp)

theorem ldarW (R : BitVec 3) (d : Word) : Statement (.ldarW R d) :=
  of_bytes (b := 0xF3 :: 0x13 :: (toLE 2 d ++ [opByte 0x04 R])) rfl (by simp [length_toLE])

theorem ldarL (R : BitVec 3) (d : Word) : Statement (.ldarL R d) :=
  of_bytes (b := 0xF3 :: 0x13 :: (toLE 2 d ++ [opByte 0x06 R])) rfl (by simp [length_toLE])

end Sys2Proof.Laws.EncodedLength
end

