-- ==== Sys2Proof/Laws/Stack.lean ====
section
/-! SUPPORT. What PUSH and POP of a memory operand and the step of an address-only instruction do, and how a written
register operand is recognised, said once. -/

namespace Sys2Proof.Machine

/-- A state is `LoadsReg` of another when its registers are those after one write and the rest agrees. -/
theorem loadsReg_of_reg {sz : Size} {s t : State} {l : Loc sz} {v : BitVec sz.bits}
    (hr : ∀ g, t.reg g = (s.writeLoc l v).reg g) (hm : t.mem = s.mem) (hw : t.written = s.written)
    (ho : SameOutside s t) : LoadsReg s t l v := by
  refine ⟨?_, fun g k hk => ?_, .of_fields hm hw, ho⟩
  · rw [State.readLoc_eq_of_reg l (hr l.g)]; simp
  · simp only [State.regByte]; rw [hr]; exact State.byte_writeLoc_other s l v g k hk

/-- The same with the flags. -/
theorem loadsRegFlags_of_reg {sz : Size} {s t : State} {l : Loc sz} {v : BitVec sz.bits} {P : Flags → Prop}
    (hr : ∀ g, t.reg g = (s.writeLoc l v).reg g) (hm : t.mem = s.mem) (hw : t.written = s.written) (hf : P t.flags)
    (hp : t.pc = s.pc) (hs : SameRest s t) : LoadsRegFlags s t l v P := by
  refine ⟨?_, fun g k hk => ?_, .of_fields hm hw, hf, hp, hs⟩
  · rw [State.readLoc_eq_of_reg l (hr l.g)]; simp
  · simp only [State.regByte]; rw [hr]; exact State.byte_writeLoc_other s l v g k hk

/-- Writing back what a register operand holds changes nothing. -/
theorem State.writeLoc_readLoc (s : State) {sz : Size} (l : Loc sz) : s.writeLoc l (s.readLoc l) = s := by
  have e : insertBits (s.reg l.g) (l.part.toNat * sz.bits) (s.readLoc l) = s.reg l.g := by
    apply BitVec.eq_of_getLsbD_eq
    intro i hi
    rw [getLsbD_insertBits]
    split_ifs <;> simp_all [State.readLoc]
    omega
  rw [State.writeLoc, e]
  cases l.g <;> simp [State.setReg, State.reg]

/-- A register after the step of an address-only instruction: moved or not (D29). -/
theorem State.reg_addrStep (s : State) (m : MemOp) (g : GReg) :
    (s.addrStep m).reg g = s.reg g ∨ (s.addrStep m).reg g = s.movedReg m g := by
  unfold State.addrStep
  split_ifs
  · exact .inr (State.reg_stepped m (by simp) g (by simp [State.reg_preStep]))
  · exact .inl (by simp)
  · exact .inl rfl

/-- XSP after the pre-decrement, with a mode that does not step it. -/
theorem State.preStep_xsp_moved {s : State} {m : MemOp} (hp : autoReg s.rfp m ≠ some GReg.xsp) :
    (s.preStep m).xsp = s.movedReg m .xsp := by
  rw [← State.reg_xsp, State.reg_preStep]
  simp [movedReg_of_not_auto _ _ _ hp, preReg_ne_of_auto hp]

/-- PUSH of a memory operand (R179). -/
theorem State.pushMemOp_spec (s : State) (z : SizeBW) (m : MemOp) : ∃ p,
    (s.pushMemOp z m).xsp = s.movedReg m .xsp - BitVec.ofNat 32 z.size.bytes ∧
    (∀ g, g ≠ .xsp → (s.pushMemOp z m).reg g = s.movedReg m g) ∧
    (p = s.movedReg m .xsp - BitVec.ofNat 32 z.size.bytes ∨
      (autoReg s.rfp m = some .xsp ∧ p = s.xsp - BitVec.ofNat 32 z.size.bytes)) ∧
    (s.pushMemOp z m).memRead z.size.bytes p = s.memRead z.size.bytes (s.ea m) ∧
    SameMemoryBut s (s.pushMemOp z m) z.size.bytes p ∧ SameOutside s (s.pushMemOp z m) := by
  have hnb : z.size.bytes < 2 ^ 24 := by cases z <;> decide
  unfold State.pushMemOp
  simp only [State.noteRead_eq, State.modeStep_eq]
  split
  · next hp =>
    split
    · have hx : ((s.drawn.preStep m).postStep m).xsp = s.movedReg m .xsp :=
        State.reg_modeStep m (by simp) .xsp (by simp)
      obtain ⟨⟨p1, p2, p3⟩, p4⟩ :=
        State.pushes_push ((s.drawn.preStep m).postStep m) z.size.bytes (s.memRead z.size.bytes (s.ea m)) hnb
      simp only [hx] at p1 p3 p4
      refine ⟨_, p1, fun g hg => ?_, .inl rfl, p4, fun a ha => ?_, by simp, by simp, by constructor <;> simp⟩
      · rw [p2 g (by simpa using hg)]; exact State.reg_modeStep m (by simp) g (by simp)
      · rw [p3 a ha]; simp [State.readByte]
    · obtain ⟨⟨p1, p2, p3⟩, p4⟩ := State.pushes_push s.drawn z.size.bytes (s.memRead z.size.bytes (s.ea m)) hnb
      simp only [State.drawn_xsp] at p1 p3 p4
      refine ⟨s.xsp - BitVec.ofNat 32 z.size.bytes, ?_, fun g hg => ?_, .inr ⟨hp, rfl⟩, ?_, fun a ha => ?_, by simp,
        by simp, by constructor <;> simp⟩
      · rw [BitVec.sub_eq_add_neg] at p1 ⊢
        exact State.reg_modeStep_add m (by simp) .xsp _ (by simpa using p1)
      · exact State.reg_modeStep m (by simp) g (by rw [p2 g (by simpa using hg)]; simp)
      · simpa using p4
      · rw [State.readByte_postStep, State.readByte_preStep, p3 a ha]; simp [State.readByte]
  · next hp =>
    obtain ⟨⟨p1, p2, p3⟩, p4⟩ :=
      State.pushes_push (s.preStep m) z.size.bytes (s.memRead z.size.bytes (s.ea m)) hnb
    rw [State.preStep_xsp_moved hp] at p1 p3 p4
    refine ⟨s.movedReg m .xsp - BitVec.ofNat 32 z.size.bytes, ?_, fun g hg => ?_, .inl rfl, ?_, fun a ha => ?_,
      by simp, by simp, by constructor <;> simp⟩
    · rw [← State.reg_xsp, State.reg_postStep]
      simp [postReg_ne_of_auto hp, State.preStep_xsp_moved hp]
    · exact State.reg_stepped m (by simp) g (p2 g (by simpa using hg))
    · rw [State.memRead_postStep, p4]
    · rw [State.readByte_postStep, p3 a ha]; simp

/-- POP to a memory operand (R184). -/
theorem State.popMemOp_spec (s : State) (z : SizeBW) (m : MemOp) : ∃ q,
    (s.popMemOp z m).xsp = s.movedReg m .xsp + BitVec.ofNat 32 z.size.bytes ∧
    (∀ g, g ≠ .xsp → (s.popMemOp z m).reg g = s.movedReg m g) ∧
    (q = s.movedReg m .xsp ∨ (autoReg s.rfp m = some .xsp ∧ q = s.xsp)) ∧
    (s.popMemOp z m).memRead z.size.bytes (s.ea m) = s.memRead z.size.bytes q ∧
    SameMemoryBut s (s.popMemOp z m) z.size.bytes (s.ea m) ∧ SameOutside s (s.popMemOp z m) := by
  have hnb : z.size.bytes < 2 ^ 24 := by cases z <;> decide
  unfold State.popMemOp
  simp only [State.modeStep_eq]
  split
  · next hp =>
    split
    · have hx : ((s.drawn.preStep m).postStep m).xsp = s.movedReg m .xsp :=
        State.reg_modeStep m (by simp) .xsp (by simp)
      refine ⟨s.movedReg m .xsp, by simp [hx], fun g hg => ?_, .inl rfl, ?_, fun a ha => ?_, by simp, by simp,
        by constructor <;> simp⟩
      · rw [State.reg_memWrite, State.reg_popped, if_neg hg]
        exact State.reg_modeStep m (by simp) g (by simp)
      · rw [State.memRead_memWrite_same _ _ _ _ hnb, State.stackTop, hx]; simp
      · rw [State.readByte_memWrite_other _ _ _ _ _ ha]; simp [State.readByte]
    · refine ⟨s.xsp, State.reg_modeStep_add m (by simp) .xsp _ (by simp), fun g hg => ?_, .inr ⟨hp, rfl⟩, ?_,
        fun a ha => ?_, by simp, by simp, by constructor <;> simp⟩
      · exact State.reg_modeStep m (by simp) g (by rw [State.reg_memWrite, State.reg_popped, if_neg hg]; simp)
      · rw [State.memRead_postStep, State.memRead_preStep, State.memRead_memWrite_same _ _ _ _ hnb, State.stackTop]
      · rw [State.readByte_postStep, State.readByte_preStep, State.readByte_memWrite_other _ _ _ _ _ ha]
        simp [State.readByte]
  · next hp =>
    refine ⟨s.movedReg m .xsp, ?_, fun g hg => ?_, .inl rfl, ?_, fun a ha => ?_, by simp, by simp,
      by constructor <;> simp⟩
    · rw [← State.reg_xsp, State.reg_postStep]; simp [postReg_ne_of_auto hp, State.preStep_xsp_moved hp]
    · exact State.reg_stepped m (by simp) g (by rw [State.reg_memWrite, State.reg_popped, if_neg hg])
    · rw [State.memRead_postStep, State.memRead_memWrite_same _ _ _ _ hnb, State.stackTop,
        State.preStep_xsp_moved hp]
      simp
    · rw [State.readByte_postStep, State.readByte_memWrite_other _ _ _ _ _ ha]; simp [State.readByte]

end Sys2Proof.Machine
end

