-- ==== Sys2Proof/Laws/TwoOperand.lean ====
section
/-! SUPPORT. What each operation of the two-operand group (R230) does, said once: the result and the flags, where the
result goes, and what stays. -/

namespace Sys2Proof.Machine

/-- The form with a register as its destination. -/
theorem State.aluInto_spec {sz : Size} (s : State) (op : AluOp) (l : Loc sz) (src : BitVec sz.bits) :
    ∃ v, TwoOperand op (s.readLoc l) src s.flags.c v (s.aluInto op l src).flags ∧
      AluRegs op s (s.aluInto op l src) l v ∧ SameMemory s (s.aluInto op l src) ∧
      (s.aluInto op l src).pc = s.pc ∧ SameRest s (s.aluInto op l src) := by
  refine ⟨(alu op (s.readLoc l) src s.flags s.freeBit).1, ?_, ?_, ?_, ?_, ?_⟩
  · have h := alu_spec (size_bits_pos sz) op (s.readLoc l) src s.flags s.freeBit
    cases op <;> simpa [State.aluInto, AluOp.writes] using h
  · cases op
    case cp => intro g; simp [State.aluInto, AluOp.writes]
    all_goals
      simp only [AluRegs, State.aluInto, AluOp.writes, if_true, reduceCtorEq, if_false]
      refine ⟨State.readLoc_writeLoc_same _ _ _, fun g k hk => ?_⟩
      refine (State.byte_writeLoc_other _ _ _ _ _ hk).trans (congrArg (BitVec.extractLsb' _ _) ?_)
      exact State.reg_eq_of_fields (by simp) (by simp) (by simp) (by simp) (by simp) _
  · cases op <;> exact .of_fields (by simp [State.aluInto, AluOp.writes]) (by simp [State.aluInto, AluOp.writes])
  · cases op <;> simp [State.aluInto, AluOp.writes]
  · cases op <;> constructor <;> simp [State.aluInto, AluOp.writes]

/-- The form `op R,(mem)`. -/
theorem State.aluCurMem_spec (s : State) (op : AluOp) (sz : Size) (R : BitVec 3) (m : MemOp) : ∃ v,
    (preReg s.rfp m ≠ some (curLoc s.rfp sz R).g →
      TwoOperand op (s.readLoc (curLoc s.rfp sz R)) (s.memRead sz.bytes (s.ea m)) s.flags.c v
        (s.aluCurMem op sz R m).flags) ∧
    (if op = .cp then MovedRegs s (s.aluCurMem op sz R m) m
     else (autoReg s.rfp m ≠ some (curLoc s.rfp sz R).g →
        (s.aluCurMem op sz R m).readLoc (curLoc s.rfp sz R) = v) ∧
      MovedRegsBut s (s.aluCurMem op sz R m) m (curLoc s.rfp sz R)) ∧
    SameMemory s (s.aluCurMem op sz R m) ∧ (s.aluCurMem op sz R m).pc = s.pc ∧
    SameRest s (s.aluCurMem op sz R m) := by
  refine ⟨(alu op ((s.preStep m).dataLoc m (curLoc s.rfp sz R)) ((s.preStep m).memRead sz.bytes (s.ea m)) s.flags
    ((s.preStep m).dataDrawn m (curLoc s.rfp sz R)).freeBit).1, fun h1 => ?_, ?_, ?_, ?_, ?_⟩
  · have h := alu_spec (size_bits_pos sz) op (s.readLoc (curLoc s.rfp sz R)) (s.memRead sz.bytes (s.ea m)) s.flags
      ((s.preStep m).dataDrawn m (curLoc s.rfp sz R)).freeBit
    have hd : (s.preStep m).dataLoc m (curLoc s.rfp sz R) = s.readLoc (curLoc s.rfp sz R) := by
      rw [State.dataLoc_eq _ _ _ (by simpa using h1), State.readLoc_preStep _ _ _ h1]
    cases op <;> simpa [State.aluCurMem, AluOp.writes, hd] using h
  · cases op
    case cp =>
      simp only [if_true, State.aluCurMem, AluOp.writes]
      intro g
      exact State.reg_stepped m (by simp) g
        (State.reg_eq_of_fields (by simp) (by simp) (by simp) (by simp) (by simp) _)
    all_goals
      simp only [State.aluCurMem, AluOp.writes, if_true, reduceCtorEq, if_false]
      refine ⟨fun h => ?_, ?_⟩
      · rw [State.readLoc_postStepInto _ _ _ (by simpa using h)]; simp
      · exact State.movedRegsBut_postStepInto m _ _ (by simp) fun g =>
          State.reg_eq_of_fields (by simp) (by simp) (by simp) (by simp) (by simp) _
  · cases op <;> exact .of_fields (by simp [State.aluCurMem, AluOp.writes]) (by simp [State.aluCurMem, AluOp.writes])
  · cases op <;> simp [State.aluCurMem, AluOp.writes]
  · cases op <;> constructor <;> simp [State.aluCurMem, AluOp.writes]

/-- The end of the forms that write memory: from a state `t` that differs from `s` in the pre-decrement, the flags and
free values, a result is stored or, for CP, not. -/
theorem aluStore_spec {s t : State} (op : AluOp) (m : MemOp) (nb : Nat) (v : BitVec (8 * nb)) (hnb : nb < 2 ^ 24)
    (hreg : ∀ g, t.reg g = (s.preStep m).reg g) (hmem : t.mem = s.mem) (hw : t.written = s.written)
    (hpc : t.pc = s.pc) (hr : SameRest s t) :
    AluMemory op s (if op.writes then (t.memWrite nb (s.ea m) v).postStep m else t.postStep m) nb (s.ea m) v ∧
      MovedRegs s (if op.writes then (t.memWrite nb (s.ea m) v).postStep m else t.postStep m) m ∧
      (if op.writes then (t.memWrite nb (s.ea m) v).postStep m else t.postStep m).pc = s.pc ∧
      SameRest s (if op.writes then (t.memWrite nb (s.ea m) v).postStep m else t.postStep m) := by
  obtain ⟨r1, r2, r3, r4, r5, r6, r7, r8, r9, r10, r11⟩ := hr
  have hstore : ((t.memWrite nb (s.ea m) v).postStep m).memRead nb (s.ea m) = v ∧
      SameMemoryBut s ((t.memWrite nb (s.ea m) v).postStep m) nb (s.ea m) :=
    ⟨by rw [State.memRead_postStep]; exact State.memRead_memWrite_same _ _ _ _ hnb, fun a ha => by
      rw [State.readByte_postStep, State.readByte_memWrite_other _ _ _ _ _ ha]; exact State.readByte_of_mem hmem _⟩
  refine ⟨?_, fun g => ?_, ?_, ?_⟩
  · cases op
    case cp => exact .of_fields (by simp [AluOp.writes, hmem]) (by simp [AluOp.writes, hw])
    all_goals exact hstore
  · split
    · exact State.reg_stepped m (by simp [r2]) g (by simp [hreg])
    · exact State.reg_stepped m (by simp [r2]) g (hreg g)
  · split <;> simp [hpc]
  · split <;> constructor <;> simp [r1, r2, r3, r4, r5, r6, r7, r8, r9, r10, r11]

/-- The form `op (mem),R`. -/
theorem State.aluMemCur_spec (s : State) (op : AluOp) (sz : Size) (m : MemOp) (R : BitVec 3) : ∃ v,
    (preReg s.rfp m ≠ some (curLoc s.rfp sz R).g →
      TwoOperand op (s.memRead sz.bytes (s.ea m)) (s.readLoc (curLoc s.rfp sz R)) s.flags.c v
        (s.aluMemCur op sz m R).flags) ∧
    AluMemory op s (s.aluMemCur op sz m R) sz.bytes (s.ea m) v ∧ MovedRegs s (s.aluMemCur op sz m R) m ∧
    (s.aluMemCur op sz m R).pc = s.pc ∧ SameRest s (s.aluMemCur op sz m R) := by
  refine ⟨_, fun h1 => ?_, aluStore_spec op m sz.bytes _ (by cases sz <;> decide)
    (fun g => State.reg_eq_of_fields (by simp) (by simp) (by simp) (by simp) (by simp) _) (by simp) (by simp) (by simp)
    (by constructor <;> simp)⟩
  have h := alu_spec (size_bits_pos sz) op (s.memRead sz.bytes (s.ea m)) (s.readLoc (curLoc s.rfp sz R)) s.flags
    ((s.preStep m).dataDrawn m (curLoc s.rfp sz R)).freeBit
  have hd : (s.preStep m).dataLoc m (curLoc s.rfp sz R) = s.readLoc (curLoc s.rfp sz R) := by
    rw [State.dataLoc_eq _ _ _ (by simpa using h1), State.readLoc_preStep _ _ _ h1]
  cases op <;> simpa [State.aluMemCur, AluOp.writes, hd] using h

/-- The form `op<W> (mem),#`. -/
theorem State.aluMemImm_spec (s : State) (op : AluOp) (z : SizeBW) (m : MemOp) (imm : BitVec z.size.bits) : ∃ v,
    TwoOperand op (s.memRead z.size.bytes (s.ea m)) imm s.flags.c v (s.aluMemImm op z m imm).flags ∧
    AluMemory op s (s.aluMemImm op z m imm) z.size.bytes (s.ea m) v ∧ MovedRegs s (s.aluMemImm op z m imm) m ∧
    (s.aluMemImm op z m imm).pc = s.pc ∧ SameRest s (s.aluMemImm op z m imm) := by
  refine ⟨_, ?_, aluStore_spec op m z.size.bytes _ (by cases z <;> decide)
    (fun g => State.reg_eq_of_fields (by simp) (by simp) (by simp) (by simp) (by simp) _) (by simp) (by simp) (by simp)
    (by constructor <;> simp)⟩
  have h := alu_spec (size_bits_pos z.size) op (s.memRead z.size.bytes (s.ea m)) imm s.flags (s.preStep m).freeBit
  cases op <;> simpa [State.aluMemImm, AluOp.writes] using h

end Sys2Proof.Machine
end

