-- ==== Sys2Proof/Tests/Slice0.lean ====
section
/-! SUPPORT. The model's own tests: the well-formedness check refuses an ill-formed term, a word written out from the
encoding tables for every constructor of `Instr`, one step on vectors of spec/95_test_vectors.md, and for each obligation
with hypotheses a concrete state that meets them. -/

open Sys2Proof Sys2Proof.Machine

namespace Sys2Proof.Tests

-- One theorem at a time: a check by the kernel waits for every declaration before it, and each wait holds a thread.
set_option Elab.async false

/-! ## Well-formedness -/

/-- The bytes 06H, 07H are DI, so the term `EI 7` is ill formed (R147), and no other EI is. -/
theorem test_wf_refuses_ei_7 : Instr.wf (.ei 7) = false ∧ Instr.wf (.ei 6) = true ∧ Instr.wf .di = true := by decide

/-! ## Decoding -/

/-- Each word decodes to the instruction beside it, with no byte left, and is the encoding of it. -/
def allDecode (l : List (List Byte × Instr)) : Bool :=
  l.all fun p =>
    match decode p.1 with
    | .ok (i, rest) => i == p.2 && rest.isEmpty && encode p.2 == p.1
    | .error _ => false

/-- Each word is stopped by the decoder for the reason beside it. -/
def allStop (l : List (List Byte × DecodeError)) : Bool :=
  l.all fun p =>
    match decode p.1 with
    | .ok _ => false
    | .error e => e == p.2

theorem test_decode_one_byte_codes : allDecode
    [ ([0x00], .nop),
      ([0x02], .pushSr),
      ([0x03], .popSr),
      ([0x05], .halt),
      ([0x06, 0x06], (.ei 6)),
      ([0x06, 0x07], .di),
      ([0x07], .reti),
      ([0x08, 0x9C, 0x3D], (.ldAbs8ImmB 0x9c 0x3d)),
      ([0x09, 0x3D], (.pushImmB 0x3d)),
      ([0x0A, 0x9C, 0xF3, 0xA1], (.ldAbs8ImmW 0x9c 0xa1f3)),
      ([0x0B, 0xF3, 0xA1], (.pushImmW 0xa1f3)),
      ([0x0C], .incf),
      ([0x0D], .decf),
      ([0x0E], .ret),
      ([0x0F, 0xF3, 0xA1], (.retd 0xa1f3)),
      ([0x10], .rcf),
      ([0x11], .scf),
      ([0x12], .ccf),
      ([0x13], .zcf),
      ([0x14], .pushA),
      ([0x15], .popA),
      ([0x16], .exFF),
      ([0x17, 0x02], (.ldf 2)),
      ([0x18], .pushF),
      ([0x19], .popF),
      ([0x1A, 0xF3, 0xA1], (.jp16 0xa1f3)),
      ([0x1B, 0x56, 0x34, 0x12], (.jp24 0x123456)),
      ([0x1C, 0xF3, 0xA1], (.call16 0xa1f3)),
      ([0x1D, 0x56, 0x34, 0x12], (.call24 0x123456)),
      ([0x1E, 0xF3, 0xA1], (.calr 0xa1f3)),
      ([0x25, 0x3D], (.ldCurImmB 5 0x3d)),
      ([0x2A], (.pushCurW 2)),
      ([0x37, 0xF3, 0xA1], (.ldCurImmW 7 0xa1f3)),
      ([0x39], (.pushCurL 1)),
      ([0x46, 0xEF, 0xCD, 0xAB, 0x89], (.ldCurImmL 6 0x89abcdef)),
      ([0x4D], (.popCurW 5)),
      ([0x5A], (.popCurL 2)),
      ([0x6E, 0x9C], (.jr .nz 0x9c)),
      ([0x77, 0xF3, 0xA1], (.jrl .c 0xa1f3)),
      ([0xFB], (.swi 3)) ] = true := by decide +kernel

theorem test_decode_register_class_low : allDecode
    [ ([0xCB, 0x03, 0x3D], (.ldRegImm .b (.short 3) 0x3d)),
      ([0xD8, 0x04], (.pushReg .w (.short 0))),
      ([0xE7, 0xD8, 0x05], (.popReg .l (.ext (.prev .xde) 0))),
      ([0xCD, 0x06], (.cpl .b (.short 5))),
      ([0xDE, 0x07], (.neg .w (.short 6))),
      ([0xCB, 0x08, 0x3D], (.mulImm .b (.short 1) 0x3d)),
      ([0xD7, 0xFC, 0x09, 0xF3, 0xA1], (.mulsImm .w (.ext .xsp 0) 0xa1f3)),
      ([0xCF, 0x0A, 0x3D], (.divImm .b (.short 3) 0x3d)),
      ([0xD7, 0x2C, 0x0B, 0xF3, 0xA1], (.divsImm .w (.ext (.bank 2 .xhl) 0) 0xa1f3)),
      ([0xE7, 0xE4, 0x0C, 0xF3, 0xA1], (.link (.ext (.cur .xbc) 0) 0xa1f3)),
      ([0xEA, 0x0D], (.unlk (.short 2))),
      ([0xDF, 0x0E], (.bs1f (.short 7))),
      ([0xD7, 0xD2, 0x0F], (.bs1b (.ext (.prev .xwa) 1))),
      ([0xC9, 0x10], (.daa (.short 1))),
      ([0xDC, 0x12], (.extz .w (.short 4))),
      ([0xE7, 0xD8, 0x13], (.exts .l (.ext (.prev .xde) 0))),
      ([0xDB, 0x14], (.paa .w (.short 3))),
      ([0xD8, 0x16], (.mirr (.short 0))),
      ([0xDA, 0x19], (.mula (.short 2))),
      ([0xD7, 0xF4, 0x1C, 0x9C], (.djnz .w (.ext .xiy 0) 0x9c)),
      ([0xCD, 0x20, 0x0B], (.andcfImmReg .b (.short 5) 11)),
      ([0xDE, 0x28], (.andcfAReg .w (.short 6))),
      ([0xC7, 0xE5, 0x21, 0x04], (.orcfImmReg .b (.ext (.cur .xbc) 1) 4)),
      ([0xDA, 0x29], (.orcfAReg .w (.short 2))),
      ([0xCF, 0x22, 0x00], (.xorcfImmReg .b (.short 7) 0)),
      ([0xD7, 0x1C, 0x2A], (.xorcfAReg .w (.ext (.bank 1 .xhl) 0))),
      ([0xC9, 0x23, 0x0B], (.ldcfImmReg .b (.short 1) 11)),
      ([0xDC, 0x2B], (.ldcfAReg .w (.short 4))),
      ([0xC7, 0xF1, 0x24, 0x04], (.stcfImmReg .b (.ext .xix 1) 4)),
      ([0xDB, 0x2C], (.stcfAReg .w (.short 3))),
      ([0xE8, 0x2E, 0x04], (.ldcToCr (.dmas 1) (.short 0))),
      ([0xD7, 0xFE, 0x2F, 0x7C], (.ldcFromCr .intnest (.ext .xsp 1))) ] = true := by decide +kernel

theorem test_decode_register_class_bits : allDecode
    [ ([0xCD, 0x30, 0x00], (.resReg .b (.short 5) 0)),
      ([0xDE, 0x31, 0x0B], (.setReg .w (.short 6) 11)),
      ([0xC7, 0x36, 0x32, 0x04], (.chgReg .b (.ext (.bank 3 .xbc) 2) 4)),
      ([0xDA, 0x33, 0x00], (.bitReg .w (.short 2) 0)),
      ([0xCF, 0x34, 0x0B], (.tsetReg .b (.short 7) 11)),
      ([0xD7, 0xD2, 0x38, 0xF3, 0xA1], (.minc1 (.ext (.prev .xwa) 1) 0xa1f3)),
      ([0xD9, 0x39, 0xF3, 0xA1], (.minc2 (.short 1) 0xa1f3)),
      ([0xDC, 0x3A, 0xF3, 0xA1], (.minc4 (.short 4) 0xa1f3)),
      ([0xD7, 0xF4, 0x3C, 0xF3, 0xA1], (.mdec1 (.ext .xiy 0) 0xa1f3)),
      ([0xDB, 0x3D, 0xF3, 0xA1], (.mdec2 (.short 3) 0xa1f3)),
      ([0xD8, 0x3E, 0xF3, 0xA1], (.mdec4 (.short 0) 0xa1f3)),
      ([0xD7, 0x1C, 0x44], (.mulReg .w 4 (.ext (.bank 1 .xhl) 0))),
      ([0xCD, 0x4D], (.mulsReg .b 2 (.short 5))),
      ([0xDE, 0x51], (.divReg .w 1 (.short 6))),
      ([0xC7, 0xD3, 0x59], (.divsReg .b 0 (.ext (.prev .xwa) 3))),
      ([0xEA, 0x61], (.incReg .l (.short 2) 1)),
      ([0xCF, 0x6C], (.decReg .b (.short 7) 4)),
      ([0xD7, 0xFE, 0x78], (.scc .w (.ext .xsp 1) .t)) ] = true := by decide +kernel

theorem test_decode_register_class_arithmetic : allDecode
    [ ([0xD9, 0x87], (.addCurReg .w 7 (.short 1))),
      ([0xEC, 0xC8, 0xEF, 0xCD, 0xAB, 0x89], (.addRegImm .l (.short 4) 0x89abcdef)),
      ([0xC7, 0xE5, 0x91], (.adcCurReg .b 1 (.ext (.cur .xbc) 1))),
      ([0xDB, 0xC9, 0xF3, 0xA1], (.adcRegImm .w (.short 3) 0xa1f3)),
      ([0xE8, 0xA6], (.subCurReg .l 6 (.short 0))),
      ([0xC7, 0xF1, 0xCA, 0x3D], (.subRegImm .b (.ext .xix 1) 0x3d)),
      ([0xDD, 0xB5], (.sbcCurReg .w 5 (.short 5))),
      ([0xEE, 0xCB, 0xEF, 0xCD, 0xAB, 0x89], (.sbcRegImm .l (.short 6) 0x89abcdef)),
      ([0xC7, 0x36, 0xC2], (.andCurReg .b 2 (.ext (.bank 3 .xbc) 2))),
      ([0xDA, 0xCC, 0xF3, 0xA1], (.andRegImm .w (.short 2) 0xa1f3)),
      ([0xEF, 0xD7], (.xorCurReg .l 7 (.short 7))),
      ([0xC7, 0xD3, 0xCD, 0x3D], (.xorRegImm .b (.ext (.prev .xwa) 3) 0x3d)),
      ([0xD9, 0xE1], (.orCurReg .w 1 (.short 1))),
      ([0xEC, 0xCE, 0xEF, 0xCD, 0xAB, 0x89], (.orRegImm .l (.short 4) 0x89abcdef)),
      ([0xC7, 0xE5, 0xF6], (.cpCurReg .b 6 (.ext (.cur .xbc) 1))),
      ([0xDB, 0xCF, 0xF3, 0xA1], (.cpRegImm .w (.short 3) 0xa1f3)),
      ([0xE8, 0x8D], (.ldCurReg .l 5 (.short 0))),
      ([0xC7, 0xF1, 0x9A], (.ldRegCur .b (.ext .xix 1) 2)),
      ([0xDD, 0xAE], (.ldRegImm3 .w (.short 5) 6)),
      ([0xCE, 0xBF], (.exCurReg .b 7 (.short 6))),
      ([0xD7, 0xD2, 0xDB], (.cpRegImm3 .w (.ext (.prev .xwa) 1) 3)) ] = true := by decide +kernel

theorem test_decode_register_class_shifts : allDecode
    [ ([0xEA, 0xE8, 0x04], (.rlcImmReg .l (.short 2) 4)),
      ([0xCF, 0xF8], (.rlcAReg .b (.short 7))),
      ([0xD7, 0xF4, 0xE9, 0x00], (.rrcImmReg .w (.ext .xiy 0) 0)),
      ([0xE9, 0xF9], (.rrcAReg .l (.short 1))),
      ([0xCC, 0xEA, 0x0B], (.rlImmReg .b (.short 4) 11)),
      ([0xD7, 0x1C, 0xFA], (.rlAReg .w (.ext (.bank 1 .xhl) 0))),
      ([0xEB, 0xEB, 0x04], (.rrImmReg .l (.short 3) 4)),
      ([0xC8, 0xFB], (.rrAReg .b (.short 0))),
      ([0xD7, 0xFE, 0xEC, 0x00], (.slaImmReg .w (.ext .xsp 1) 0)),
      ([0xED, 0xFC], (.slaAReg .l (.short 5))),
      ([0xCE, 0xED, 0x0B], (.sraImmReg .b (.short 6) 11)),
      ([0xD7, 0xD2, 0xFD], (.sraAReg .w (.ext (.prev .xwa) 1))),
      ([0xEA, 0xEE, 0x04], (.sllImmReg .l (.short 2) 4)),
      ([0xCF, 0xFE], (.sllAReg .b (.short 7))),
      ([0xD7, 0xF4, 0xEF, 0x00], (.srlImmReg .w (.ext .xiy 0) 0)),
      ([0xE9, 0xFF], (.srlAReg .l (.short 1))) ] = true := by decide +kernel

theorem test_decode_source_class_exchange : allDecode
    [ ([0x82, 0x04], (.pushMem .b (.ind 2))),
      ([0x8D, 0xFE, 0x06], (.rld (.disp8 5 0xFE))),
      ([0xC0, 0x40, 0x07], (.rrd (.abs8 0x40))),
      ([0x93, 0x10], (.ldi .w .deHl)),
      ([0x85, 0x11], (.ldir .b .ixIy)),
      ([0x93, 0x12], (.ldd .w .deHl)),
      ([0x85, 0x13], (.lddr .b .ixIy)),
      ([0x94, 0x14], (.cpi .w 4)),
      ([0x81, 0x15], (.cpir .b 1)),
      ([0x90, 0x16], (.cpd .w 0)),
      ([0x86, 0x17], (.cpdr .b 6)),
      ([0xD1, 0x34, 0x12, 0x19, 0xF3, 0xA1], (.ldAbs16Mem .w 0xa1f3 (.abs16 0x1234))),
      ([0xC2, 0x56, 0x34, 0x12, 0x21], (.ldCurMem .b 1 (.abs24 0x123456))),
      ([0xC3, 0xF0, 0x36], (.exMemCur .b (.indReg .xix) 6)) ] = true := by decide +kernel

theorem test_decode_source_class_arithmetic : allDecode
    [ ([0xD3, 0xE9, 0x80, 0xFF, 0x38, 0xF3, 0xA1], (.addMemImm .w (.disp16 (.cur .xde) 0xFF80) 0xa1f3)),
      ([0xD3, 0x03, 0xF4, 0xE0, 0x85], (.addCurMem .w 5 (.index8 .xiy (.cur .xwa) 0))),
      ([0xE3, 0x07, 0xE8, 0xE6, 0x8A], (.addMemCur .l (.index16 (.cur .xde) (.cur .xbc) 1) 2)),
      ([0xC4, 0xFD, 0x39, 0x3D], (.adcMemImm .b (.preDec .xsp .two) 0x3d)),
      ([0xC5, 0xEA, 0x97], (.adcCurMem .b 7 (.postInc (.cur .xde) .four))),
      ([0x92, 0x99], (.adcMemCur .w (.ind 2) 1)),
      ([0x9D, 0xFE, 0x3A, 0xF3, 0xA1], (.subMemImm .w (.disp8 5 0xFE) 0xa1f3)),
      ([0xE0, 0x40, 0xA6], (.subCurMem .l 6 (.abs8 0x40))),
      ([0xC1, 0x34, 0x12, 0xAD], (.subMemCur .b (.abs16 0x1234) 5)),
      ([0xC2, 0x56, 0x34, 0x12, 0x3B, 0x3D], (.sbcMemImm .b (.abs24 0x123456) 0x3d)),
      ([0xD3, 0xF0, 0xB2], (.sbcCurMem .w 2 (.indReg .xix))),
      ([0xE3, 0xE9, 0x80, 0xFF, 0xBF], (.sbcMemCur .l (.disp16 (.cur .xde) 0xFF80) 7)),
      ([0xD3, 0x03, 0xF4, 0xE0, 0x3C, 0xF3, 0xA1], (.andMemImm .w (.index8 .xiy (.cur .xwa) 0) 0xa1f3)),
      ([0xC3, 0x07, 0xE8, 0xE6, 0xC1], (.andCurMem .b 1 (.index16 (.cur .xde) (.cur .xbc) 1))),
      ([0xD4, 0xFD, 0xCE], (.andMemCur .w (.preDec .xsp .two) 6)),
      ([0xC5, 0xEA, 0x3D, 0x3D], (.xorMemImm .b (.postInc (.cur .xde) .four) 0x3d)),
      ([0xA2, 0xD5], (.xorCurMem .l 5 (.ind 2))),
      ([0x8D, 0xFE, 0xDA], (.xorMemCur .b (.disp8 5 0xFE) 2)),
      ([0xD0, 0x40, 0x3E, 0xF3, 0xA1], (.orMemImm .w (.abs8 0x40) 0xa1f3)),
      ([0xD1, 0x34, 0x12, 0xE7], (.orCurMem .w 7 (.abs16 0x1234))),
      ([0xE2, 0x56, 0x34, 0x12, 0xE9], (.orMemCur .l (.abs24 0x123456) 1)),
      ([0xC3, 0xF0, 0x3F, 0x3D], (.cpMemImm .b (.indReg .xix) 0x3d)),
      ([0xC3, 0xE9, 0x80, 0xFF, 0xF6], (.cpCurMem .b 6 (.disp16 (.cur .xde) 0xFF80))),
      ([0xD3, 0x03, 0xF4, 0xE0, 0xFD], (.cpMemCur .w (.index8 .xiy (.cur .xwa) 0) 5)) ] = true := by decide +kernel

theorem test_decode_source_class_others : allDecode
    [ ([0xD3, 0x07, 0xE8, 0xE6, 0x46], (.mulMem .w 6 (.index16 (.cur .xde) (.cur .xbc) 1))),
      ([0xC4, 0xFD, 0x4F], (.mulsMem .b 3 (.preDec .xsp .two))),
      ([0xD5, 0xEA, 0x54], (.divMem .w 4 (.postInc (.cur .xde) .four))),
      ([0x82, 0x5D], (.divsMem .b 2 (.ind 2))),
      ([0x9D, 0xFE, 0x61], (.incMem .w 1 (.disp8 5 0xFE))),
      ([0xC0, 0x40, 0x6C], (.decMem .b 4 (.abs8 0x40))),
      ([0xD1, 0x34, 0x12, 0x78], (.rlcMem .w (.abs16 0x1234))),
      ([0xC2, 0x56, 0x34, 0x12, 0x79], (.rrcMem .b (.abs24 0x123456))),
      ([0xD3, 0xF0, 0x7A], (.rlMem .w (.indReg .xix))),
      ([0xC3, 0xE9, 0x80, 0xFF, 0x7B], (.rrMem .b (.disp16 (.cur .xde) 0xFF80))),
      ([0xD3, 0x03, 0xF4, 0xE0, 0x7C], (.slaMem .w (.index8 .xiy (.cur .xwa) 0))),
      ([0xC3, 0x07, 0xE8, 0xE6, 0x7D], (.sraMem .b (.index16 (.cur .xde) (.cur .xbc) 1))),
      ([0xD4, 0xFD, 0x7E], (.sllMem .w (.preDec .xsp .two))),
      ([0xC5, 0xEA, 0x7F], (.srlMem .b (.postInc (.cur .xde) .four))) ] = true := by decide +kernel

theorem test_decode_destination_class : allDecode
    [ ([0xB2, 0x00, 0x3D], (.ldMemImmB (.ind 2) 0x3d)),
      ([0xBD, 0xFE, 0x02, 0xF3, 0xA1], (.ldMemImmW (.disp8 5 0xFE) 0xa1f3)),
      ([0xF0, 0x40, 0x04], (.popMemB (.abs8 0x40))),
      ([0xF1, 0x34, 0x12, 0x06], (.popMemW (.abs16 0x1234))),
      ([0xF2, 0x56, 0x34, 0x12, 0x14, 0xF3, 0xA1], (.ldMemAbs16B (.abs24 0x123456) 0xa1f3)),
      ([0xF3, 0xF0, 0x16, 0xF3, 0xA1], (.ldMemAbs16W (.indReg .xix) 0xa1f3)),
      ([0xF3, 0xE9, 0x80, 0xFF, 0x22], (.ldaW 2 (.disp16 (.cur .xde) 0xFF80))),
      ([0xF3, 0x03, 0xF4, 0xE0, 0x37], (.ldaL 7 (.index8 .xiy (.cur .xwa) 0))),
      ([0xF3, 0x07, 0xE8, 0xE6, 0x28], (.andcfAMem (.index16 (.cur .xde) (.cur .xbc) 1))),
      ([0xF4, 0xFD, 0x86], (.andcfImmMem 6 (.preDec .xsp .two))),
      ([0xF5, 0xEA, 0x29], (.orcfAMem (.postInc (.cur .xde) .four))),
      ([0xB2, 0x8B], (.orcfImmMem 3 (.ind 2))),
      ([0xBD, 0xFE, 0x2A], (.xorcfAMem (.disp8 5 0xFE))),
      ([0xF0, 0x40, 0x91], (.xorcfImmMem 1 (.abs8 0x40))),
      ([0xF1, 0x34, 0x12, 0x2B], (.ldcfAMem (.abs16 0x1234))),
      ([0xF2, 0x56, 0x34, 0x12, 0x9C], (.ldcfImmMem 4 (.abs24 0x123456))),
      ([0xF3, 0xF0, 0x2C], (.stcfAMem (.indReg .xix))),
      ([0xF3, 0xE9, 0x80, 0xFF, 0xA6], (.stcfImmMem 6 (.disp16 (.cur .xde) 0xFF80))),
      ([0xF3, 0x03, 0xF4, 0xE0, 0x41], (.ldMemCurB (.index8 .xiy (.cur .xwa) 0) 1)),
      ([0xF3, 0x07, 0xE8, 0xE6, 0x56], (.ldMemCurW (.index16 (.cur .xde) (.cur .xbc) 1) 6)),
      ([0xF4, 0xFD, 0x65], (.ldMemCurL (.preDec .xsp .two) 5)),
      ([0xF5, 0xEA, 0xAB], (.tsetMem 3 (.postInc (.cur .xde) .four))),
      ([0xB2, 0xB1], (.resMem 1 (.ind 2))),
      ([0xBD, 0xFE, 0xBC], (.setMem 4 (.disp8 5 0xFE))),
      ([0xF0, 0x40, 0xC6], (.chgMem 6 (.abs8 0x40))),
      ([0xF1, 0x34, 0x12, 0xCB], (.bitMem 3 (.abs16 0x1234))),
      ([0xF2, 0x56, 0x34, 0x12, 0xD1], (.jpMem .lt (.abs24 0x123456))),
      ([0xF3, 0xF0, 0xEA], (.callMem .gt (.indReg .xix))),
      ([0xB0, 0xFE], (.retCc .nz)),
      ([0xF3, 0x13, 0x41, 0x93, 0x23], (.ldarW 3 0x9341)),
      ([0xF3, 0x13, 0x41, 0x93, 0x34], (.ldarL 4 0x9341)) ] = true := by decide +kernel

/-- The decode vectors of spec/95_test_vectors.md section 4 that are not instructions, and the codes that R111, R129,
R270 and R53 refuse. -/
theorem test_decode_stops : allStop
    [ ([0x01], .undefinedOp), ([0x04], .undefinedOp), ([0x1F], .dummyOp), ([0xC8, 0x1A], .dummyOp),
      ([0xB3, 0x01], .dummyOp), ([0xE9, 0x06], .size), ([0x84, 0x11], .firstByte), ([0xB1, 0xF8], .firstByte),
      ([0xC5, 0xEF, 0x21], .mode), ([0xC3, 0x02, 0x20], .mode), ([0xC3, 0x40, 0x20], .mode),
      ([0xD3, 0x07, 0xE0, 0xE1, 0x20], .mode), ([0xC3, 0x03, 0xE2, 0xE0, 0x20], .mode), ([0xC4, 0xCC, 0x20], .mode), ([0xC7, 0x40, 0x04], .registerCode),
      ([0xD7, 0xE1, 0x04], .registerCode), ([0x06, 0x08], .fixedZeroBits), ([0x17, 0x04], .fixedZeroBits),
      ([0xC9, 0xE8, 0x10], .fixedZeroBits), ([0xC9, 0x40], .doubleRegister), ([0xE8, 0x2E, 0x40], .controlRegister) ] =
    true := by decide +kernel

/-- R131 to R133 with operands of zeros: the host's numbering of the words of rows 0, 1 and of `ADD XWA,XWA`. -/
theorem test_decodeTableWord : decodeTableWord 8 0x00 = some .nop ∧ decodeTableWord 8 0x02 = some .pushSr ∧
    decodeTableWord 16 0x80E8 = some (.addCurReg .l 0 (.short 0)) := by decide +kernel

/-! ## One step -/

/-- A start state: PC 500H, F = C5H, everything else as after reset. -/
def start : State := { State.reset with pc := 0x500, flags := Flags.ofByte 0xC5 }

/-- One step with the code placed at PC answers a next state that satisfies `P`. -/
def after (code : List Byte) (s : State) (P : State → Bool) : Bool :=
  match step (s.placeBytes code s.pc) with
  | .next t => P t
  | .fault _ => false
  | .refused _ => false

/-- Test vector A5. -/
theorem test_ld_predecrement_of_the_loaded_address : after [0xE4, 0xE6, 0x24] (start |>.setCur .l 1 0x12340002
    |>.placeBytes [0x55, 0x44, 0x33, 0x22] 0x33fffe) (fun t => t.cur .l 1 == 0x1233fffe && t.cur .l 4 ==
    0x22334455) = true := by decide +kernel

/-- Test vector A10. -/
theorem test_ld_indexed_by_a_byte_register : after [0xD3, 0x03, 0xF0, 0xE0, 0x23] (start |>.setCur .l 4
    0x12345670 |>.setCur .b 1 0x13 |>.placeBytes [0x33, 0x22] 0x345683) (fun t => t.cur .w 3 == 0x2233) = true
    := by decide +kernel

/-- Test vector M4. -/
theorem test_ld_wraps_at_the_top_of_memory : after [0xA3, 0x20] (start |>.setCur .l 3 0xfffffe |>.placeBytes
    [0x01, 0x02] 0xfffffe |>.placeBytes [0x03, 0x04] 0) (fun t => t.cur .l 0 == 0x4030201) = true
    := by decide +kernel

/-- Test vector M2. -/
theorem test_ld_unaligned_long : after [0xE1, 0x01, 0x10, 0x20] (start |>.placeBytes [0x44, 0x33, 0x22, 0x11,
    0xAA] 0x1000) (fun t => t.cur .l 0 == 0xaa112233) = true := by decide +kernel

/-- Test vector M11. -/
theorem test_ld_store_predecrement : after [0xF4, 0xF0, 0x41] (start |>.setCur .l 4 0x3000 |>.setCur .b 1 0x5a)
    (fun t => t.cur .l 4 == 0x2fff && t.readByte 0x2fff == 0x5a) = true := by decide +kernel

/-- Test vector M15. -/
theorem test_ld_from_the_previous_bank : after [0xC7, 0xD0, 0x89] ({ start with rfp := 2 } |>.setReg (.bank 4)
    0x77) (fun t => t.cur .b 1 == 0x77) = true := by decide +kernel

/-- Test vector M12. -/
theorem test_lda_cuts_to_the_register : after [0xF3, 0xF1, 0x34, 0x12, 0x23] (start |>.setCur .l 4 0x1f000) (fun
    t => t.cur .w 3 == 0x234) = true := by decide +kernel

/-- Test vector B5. -/
theorem test_ldar_counts_from_dollar_plus_4 : after [0xF3, 0x13, 0x41, 0x13, 0x34] ({ start with pc := 0x1000 })
    (fun t => t.cur .l 4 == 0x2345) = true := by decide +kernel

/-- Test vector B2. -/
theorem test_push_word : after [0x2B] (start |>.setCur .l 7 0x100 |>.setCur .w 3 0x1234) (fun t => t.fetchBytes
    2 0xfe == [0x34, 0x12] && t.cur .l 7 == 0xfe) = true := by decide +kernel

/-- Test vector M5. -/
theorem test_push_wraps_below_zero : after [0x0B, 0x34, 0x12] (start |>.setCur .l 7 0) (fun t => t.cur .l 7 ==
    0xfffffffe && t.fetchBytes 2 0xfffffe == [0x34, 0x12]) = true := by decide +kernel

/-- Test vector M9. -/
theorem test_pop_sr_keeps_constant_bits : after [0x03] (start |>.setCur .l 7 0x1fe |>.placeBytes [0xFF, 0x00]
    0x1fe) (fun t => t.sr == 0x88d7 && t.iff == 0 && t.rfp == 0 && t.flags.toByte == 0xd7 && t.cur .l 7 ==
    0x200) = true := by decide +kernel

/-- Test vector M18. -/
theorem test_ld_memory_to_memory : after [0x84, 0x19, 0x00, 0x10] (start |>.setCur .l 4 0x2000 |>.placeBytes
    [0x9C] 0x2000) (fun t => t.readByte 0x1000 == 0x9c) = true := by decide +kernel

/-- Test vector B6. -/
theorem test_ex_registers : after [0xCA, 0xB9] (start |>.setCur .b 1 0x12 |>.setCur .b 2 0x34) (fun t => t.cur
    .b 1 == 0x34 && t.cur .b 2 == 0x12) = true := by decide +kernel

/-- Test vector B7. -/
theorem test_mirr : after [0xDB, 0x16] (start |>.setCur .w 3 0x1234) (fun t => t.cur .w 3 == 0x2c48) = true
    := by decide +kernel

/-- Test vector T111. -/
theorem test_ldi_counter_wraps : after [0x83, 0x10] (start |>.setCur .w 1 0 |>.setCur .l 2 0x2000 |>.setCur .l 3
    0x3000 |>.placeBytes [0x5A] 0x3000) (fun t => t.cur .w 1 == 0xffff && t.flags.toByte == 0xc5) = true
    := by decide +kernel

/-- Test vector T113. -/
theorem test_ldir_overlapping : after [0x83, 0x11] (start |>.setCur .l 3 0x1000 |>.setCur .l 2 0x1001 |>.setCur
    .w 1 3 |>.placeBytes [0xAA] 0x1000) (fun t => t.fetchBytes 3 0x1001 == [0xAA, 0xAA, 0xAA] && t.cur .l 3 ==
    0x1003 && t.cur .l 2 == 0x1004 && t.cur .w 1 == 0 && t.flags.toByte == 0xc1) = true := by decide +kernel

/-- Test vector T115. -/
theorem test_lddr : after [0x83, 0x13] (start |>.setCur .l 3 0x1002 |>.setCur .l 2 0x2002 |>.setCur .w 1 3
    |>.placeBytes [0x01, 0x02, 0x03] 0x1000) (fun t => t.fetchBytes 3 0x2000 == [0x01, 0x02, 0x03] && t.cur .l 3
    == 0xfff && t.cur .l 2 == 0x1fff && t.cur .w 1 == 0) = true := by decide +kernel

/-- Test vector T117. -/
theorem test_cpir_without_match : after [0x83, 0x15] (start |>.setCur .b 1 0x33 |>.setCur .l 3 0x1000 |>.setCur
    .w 1 2 |>.placeBytes [0x11, 0x22] 0x1000) (fun t => t.cur .l 3 == 0x1002 && t.cur .w 1 == 0 &&
    t.flags.toByte == 0x3) = true := by decide +kernel

/-- Test vector B13. -/
theorem test_cpir_with_match : after [0x84, 0x15] (start |>.setCur .b 1 0x33 |>.setCur .l 4 0x123456 |>.setCur
    .w 1 0x200 |>.placeBytes [0x11, 0x22, 0x33] 0x123456) (fun t => t.cur .l 4 == 0x123459 && t.cur .w 1 ==
    0x1fd && t.flags.toByte == 0x47) = true := by decide +kernel

/-- Test vector T7. -/
theorem test_adc_carry_through_nibbles : after [0xCA, 0x91] ({ start with flags := Flags.ofByte 0x1 } |>.setCur
    .b 1 0xf |>.setCur .b 2 0xf0) (fun t => t.cur .b 1 == 0 && t.flags.toByte == 0x51) = true
    := by decide +kernel

/-- Test vector T10. -/
theorem test_sub_overflow : after [0xCA, 0xA1] (start |>.setCur .b 1 0 |>.setCur .b 2 0x80) (fun t => t.cur .b 1
    == 0x80 && t.flags.toByte == 0x87) = true := by decide +kernel

/-- Test vector T18. -/
theorem test_cp_imm3 : after [0xC9, 0xDF] (start |>.setCur .b 1 7) (fun t => t.cur .b 1 == 7 && t.flags.toByte
    == 0x42) = true := by decide +kernel

/-- Test vector T26. -/
theorem test_decw_memory_by_8 : after [0x93, 0x68] (start |>.setCur .l 3 0x3000 |>.placeBytes [0x00, 0x00]
    0x3000) (fun t => t.fetchBytes 2 0x3000 == [0xF8, 0xFF] && t.flags.toByte == 0x93) = true
    := by decide +kernel

/-- Test vector T30. -/
theorem test_paa_even : after [0xD8, 0x14] (start |>.setCur .w 0 0x1234) (fun t => t.cur .w 0 == 0x1234 &&
    t.flags.toByte == 0xc5) = true := by decide +kernel

/-- Test vector T34. -/
theorem test_daa_after_addition : after [0xC9, 0x10] ({ start with flags := Flags.ofByte 0x1 } |>.setCur .b 1
    0x20) (fun t => t.cur .b 1 == 0x80 && t.flags.toByte == 0x81) = true := by decide +kernel

/-- Test vector T35. -/
theorem test_daa_after_subtraction : after [0xC9, 0x10] ({ start with flags := Flags.ofByte 0x12 } |>.setCur .b
    1 0x2f) (fun t => t.cur .b 1 == 0x29 && t.flags.toByte == 0x12) = true := by decide +kernel

/-- Test vector C15. -/
theorem test_muls : after [0xDD, 0x4C] (start |>.setCur .w 4 0x1234 |>.setCur .w 5 0x89ab) (fun t => t.cur .l 4
    == 0xf795fcbc) = true := by decide +kernel

/-- Test vector C17. -/
theorem test_divs : after [0xDD, 0x5C] (start |>.setCur .l 4 0x12345678 |>.setCur .w 5 0x89ab) (fun t => t.cur
    .l 4 == 0x16eed89e && t.flags.toByte == 0xc1) = true := by decide +kernel

/-- Test vector T52. -/
theorem test_divs_both_negative : after [0xCA, 0x59] (start |>.setCur .w 0 0xfff9 |>.setCur .b 2 0xfe) (fun t =>
    t.cur .w 0 == 0xff03 && t.flags.toByte == 0xc1) = true := by decide +kernel

/-- Test vector T49. -/
theorem test_div_by_zero : after [0xCA, 0x51] (start |>.setCur .w 0 0x1234 |>.setCur .b 2 0) (fun t =>
    t.flags.toByte == 0xc5) = true := by decide +kernel

/-- Test vector C18. -/
theorem test_mula : after [0xDC, 0x19] (start |>.setCur .l 4 0x50000000 |>.setCur .l 2 0x100 |>.setCur .l 3
    0x200 |>.placeBytes [0x34, 0x12] 0x100 |>.placeBytes [0xAB, 0x89] 0x200) (fun t => t.cur .l 4 == 0x4795fcbc
    && t.cur .l 3 == 0x1fe) = true := by decide +kernel

/-- Test vector C20. -/
theorem test_minc2_wraps : after [0xDC, 0x39, 0x06, 0x00] (start |>.setCur .w 4 0x1236) (fun t => t.cur .w 4 ==
    0x1230) = true := by decide +kernel

/-- Test vector C24. -/
theorem test_mdec4_wraps : after [0xDC, 0x3E, 0x7C, 0x00] (start |>.setCur .w 4 0x1280) (fun t => t.cur .w 4 ==
    0x12fc && t.flags.toByte == 0xc5) = true := by decide +kernel

/-- Test vector D3. -/
theorem test_xor : after [0xDC, 0xD3] (start |>.setCur .w 3 0x7350 |>.setCur .w 4 0x3456) (fun t => t.cur .w 3
    == 0x4706 && t.flags.toByte == 0x4) = true := by decide +kernel

/-- Test vector T72. -/
theorem test_stcf_no_such_bit : after [0xC9, 0x24, 0x09] ({ start with flags := Flags.ofByte 0x1 } |>.setCur .b
    1 0) (fun t => t.cur .b 1 == 0 && t.flags.toByte == 0x1) = true := by decide +kernel

/-- Test vector T73. -/
theorem test_ldcf_bit_from_a : after [0xB3, 0x2B] (start |>.setCur .b 1 0xf6 |>.setCur .l 3 0x3000 |>.placeBytes
    [0x40] 0x3000) (fun t => t.flags.toByte == 0xc5) = true := by decide +kernel

/-- Test vector D16. -/
theorem test_tset_memory : after [0xF1, 0x00, 0x01, 0xAB] (start |>.placeBytes [0x20] 0x100) (fun t =>
    t.readByte 0x100 == 0x28 && t.flags.z == true && t.flags.h == true && t.flags.n == false && t.flags.c ==
    true) = true := by decide +kernel

/-- Test vector D17. -/
theorem test_bs1b : after [0xDC, 0x0F] (start |>.setCur .w 4 0x1200) (fun t => t.cur .b 1 == 0xc &&
    t.flags.toByte == 0xc1) = true := by decide +kernel

/-- Test vector E1. -/
theorem test_swi : after [0xFD] ({ start with pc := 0x128400, iff := 0, flags := Flags.ofByte 0x0 } |>.setCur .l
    7 0x1000 |>.placeBytes [0x78, 0x56, 0x34, 0x00] 0xffff14) (fun t => t.fetchBytes 6 0xffa == [0x00, 0x88,
    0x01, 0x84, 0x12, 0x00] && t.cur .l 7 == 0xffa && t.pc == 0x345678) = true := by decide +kernel

/-- Test vector E3. -/
theorem test_link : after [0xEE, 0x0C, 0xC0, 0xFF] (start |>.setCur .l 7 0x280 |>.setCur .l 6 0x290) (fun t =>
    t.fetchBytes 4 0x27c == [0x90, 0x02, 0x00, 0x00] && t.cur .l 6 == 0x27c && t.cur .l 7 == 0x23c) = true
    := by decide +kernel

/-- Test vector E4. -/
theorem test_unlk : after [0xEE, 0x0D] (start |>.setCur .l 6 0x27c |>.setCur .l 7 0x23c |>.placeBytes [0x90,
    0x02, 0x00, 0x00] 0x27c) (fun t => t.cur .l 7 == 0x280 && t.cur .l 6 == 0x290) = true := by decide +kernel

/-- Test vector T129. -/
theorem test_scc : after [0xDB, 0x71] ({ start with flags := Flags.ofByte 0x93 }) (fun t => t.cur .w 3 == 1) =
    true := by decide +kernel

/-- Test vector T94. -/
theorem test_rl_full_turn : after [0xC9, 0xEA, 0x09] ({ start with flags := Flags.ofByte 0x0 } |>.setCur .b 1
    0x80) (fun t => t.cur .b 1 == 0x80 && t.flags.toByte == 0x80) = true := by decide +kernel

/-- Test vector E11. -/
theorem test_rr : after [0xDB, 0xEB, 0x04] ({ start with flags := Flags.ofByte 0x1 } |>.setCur .w 3 0x6230) (fun
    t => t.cur .w 3 == 0x1623 && t.flags.c == false) = true := by decide +kernel

/-- Test vector T103. -/
theorem test_srl_by_16_from_a : after [0xDB, 0xFF] (start |>.setCur .b 1 0x10 |>.setCur .w 3 0xffff) (fun t =>
    t.cur .w 3 == 0 && t.flags.toByte == 0x45) = true := by decide +kernel

/-- Test vector E16. -/
theorem test_rld : after [0xC1, 0x00, 0x01, 0x06] (start |>.setCur .b 1 0x12 |>.placeBytes [0x34] 0x100) (fun t
    => t.cur .b 1 == 0x13 && t.readByte 0x100 == 0x42) = true := by decide +kernel

/-- Test vector E17. -/
theorem test_rrd : after [0xC1, 0x00, 0x01, 0x07] (start |>.setCur .b 1 0x12 |>.placeBytes [0x34] 0x100) (fun t
    => t.cur .b 1 == 0x14 && t.readByte 0x100 == 0x23) = true := by decide +kernel

/-- Test vector T131. -/
theorem test_jp_register : after [0xB3, 0xD6] ({ start with flags := Flags.ofByte 0x40 } |>.setCur .l 3
    0x123456) (fun t => t.pc == 0x123456) = true := by decide +kernel

/-- Test vector T135. -/
theorem test_jrl : after [0x7E, 0x00, 0xFF] ({ start with pc := 0x3000, flags := Flags.ofByte 0x0 }) (fun t =>
    t.pc == 0x2f03) = true := by decide +kernel

/-- Test vector T136. -/
theorem test_djnz_wraps : after [0xCA, 0x1C, 0xFD] ({ start with pc := 0x500 } |>.setCur .b 2 0) (fun t => t.cur
    .b 2 == 0xff && t.pc == 0x500) = true := by decide +kernel

/-- Test vector E20. -/
theorem test_call : after [0x1C, 0x00, 0x90] ({ start with pc := 0x8000 } |>.setCur .l 7 0x100) (fun t =>
    t.fetchBytes 4 0xfc == [0x03, 0x80, 0x00, 0x00] && t.cur .l 7 == 0xfc && t.pc == 0x9000) = true
    := by decide +kernel

/-- Test vector T140. -/
theorem test_calr : after [0x1E, 0x10, 0x00] ({ start with pc := 0x1000 } |>.setCur .l 7 0x200) (fun t =>
    t.fetchBytes 4 0x1fc == [0x03, 0x10, 0x00, 0x00] && t.cur .l 7 == 0x1fc && t.pc == 0x1013) = true
    := by decide +kernel

/-- Test vector T139. -/
theorem test_call_condition_false : after [0xB4, 0xEE] ({ start with pc := 0x8000, flags := Flags.ofByte 0x40 }
    |>.setCur .l 7 0x100) (fun t => t.cur .l 7 == 0x100 && t.pc == 0x8002) = true := by decide +kernel

/-- Test vector T142. -/
theorem test_retd_negative : after [0x0F, 0xFC, 0xFF] (start |>.setCur .l 7 0xfc |>.placeBytes [0x00, 0x90,
    0x00, 0x00] 0xfc) (fun t => t.pc == 0x9000 && t.cur .l 7 == 0xfc) = true := by decide +kernel

/-- Test vector T143. -/
theorem test_reti : after [0x07] (start |>.setCur .l 7 0xffa |>.placeBytes [0x00, 0x88, 0x01, 0x84, 0x12, 0x00]
    0xffa) (fun t => t.sr == 0x8800 && t.pc == 0x128401 && t.cur .l 7 == 0x1000) = true := by decide +kernel

/-- Test vector T119, the entry: an interrupt is accepted after two of five items. The saved SR has free flags, so memory
is not looked at here: BlockTransferInterrupted states it. -/
theorem test_ldir_interrupted : after [0x85, 0x11] ({ start with host := [.idle, .idle, .irq .l7 3] } |>.setCur .w 1 5
    |>.setCur .l 4 0x2000 |>.setCur .l 5 0x3000 |>.setCur .l 7 0x1000)
    (fun t => t.cur .w 1 == 3 && t.cur .l 4 == 0x2002 && t.cur .l 5 == 0x3002 && t.cur .l 7 == 0xFFA &&
      t.iff == 7 && t.intnest == 1) = true := by decide +kernel

/-- CPIR with XBC as the pointer, in the order of R212: with BC 0 one item ends it, XBC stepping up and BC down; with a
match it ends at once; CPDR of words takes 3 off for an item and ends when BC is 0. -/
theorem test_cpir_xbc :
    after [0x81, 0x15] (start |>.setCur .l 1 0x20000 |>.setCur .b 1 0x55)
      (fun t => t.cur .l 1 == 0x20000 && !t.flags.z && !t.flags.v && t.pc == 0x502 && !t.comparing) = true ∧
    after [0x81, 0x15] (start |>.setCur .l 1 0x20005 |>.placeBytes [0x33] 0x20005 |>.setCur .b 1 0x33)
      (fun t => t.cur .l 1 == 0x20005 && t.flags.z && t.flags.v && t.pc == 0x502) = true ∧
    after [0x91, 0x17] (start |>.setCur .l 1 0x20009 |>.setCur .w 0 0x1234)
      (fun t => t.cur .l 1 == 0x20000 && !t.flags.z && !t.flags.v && t.pc == 0x502) = true := by decide +kernel

/-- A block compare under way lets no request in, not even of level 7 (R215, D25), and goes on at PC. -/
theorem test_comparing_not_interrupted : after [0x81, 0x15] ({ start with comparing := true, host := [.irq .l7 3] }
    |>.setCur .l 1 0x20000 |>.setCur .b 1 0x55) (fun t => t.pc == 0x502 && !t.comparing && t.intnest == 0) = true := by
  decide +kernel

/-- SWI 1 at 500H with SR F8C5H and its stores put on a trail: SR is stored first, then PC 00000501H, each with its lower
bytes first (R86, R355); the trail has the last store first. -/
theorem test_trail_of_swi : after [0xF9] ({ start with trail := some [] } |>.setCur .l 7 0x1000)
    (fun t => t.trail.map (List.map Moment.next) == some [.write 0xFFF 0, .write 0xFFE 0, .write 0xFFD 5,
      .write 0xFFC 1, .write 0xFFB 0xF8, .write 0xFFA 0xC5]) = true := by decide +kernel

/-- Interrupt entry at 500H stores PC first and then SR (R457). -/
theorem test_trail_of_interrupt : after [] ({ start with trail := some [], host := [.irq .l7 3] } |>.setCur .l 7 0x1000)
    (fun t => t.trail.map (List.map Moment.next) == some [.write 0xFFB 0xF8, .write 0xFFA 0xC5, .write 0xFFF 0,
      .write 0xFFE 0, .write 0xFFD 5, .write 0xFFC 0]) = true := by decide +kernel

/-- LINK XSP and UNLK XSP go on to the next instruction; what XSP holds then is free (R505, assumption 5). -/
theorem test_link_xsp : after [0xEF, 0x0C, 0xF8, 0xFF] start (fun t => t.pc == 0x504) = true ∧
    after [0xEF, 0x0D] start (fun t => t.pc == 0x502) = true := by decide +kernel

/-- Test vector T152. -/
theorem test_interrupt_entry : after []
    ({ start with pc := 0x2000, iff := 4, flags := Flags.clear, host := [.irq .l4 10] } |>.setCur .l 7 0x1000
    |>.placeBytes [0x00, 0x30] 0xFFFF28)
    (fun t => t.fetchBytes 6 0xFFA == [0x00, 0xC8, 0x00, 0x20, 0x00, 0x00] && t.cur .l 7 == 0xFFA && t.iff == 5 &&
      t.intnest == 1 && t.pc == 0x3000) = true := by decide +kernel

/-- Test vectors T151 and T155: a request below the mask is not accepted, halted or not. -/
theorem test_masked_requests : after [0x00] { start with iff := 4, host := [.irq .l3 5] } (fun t => t.pc == 0x501) = true ∧
    after [0x00] { start with iff := 3, halted := true, host := [.irq .l2 5] } (fun t => t.halted && t.pc == 0x500) =
      true := by decide +kernel

/-- Test vectors T153 and T154: level 7 is accepted at every mask and leaves it at 7; level 1 at mask 0 leaves 2. -/
theorem test_accepted_levels : after [] { start with iff := 7, host := [.irq .l7 5] } (fun t => t.iff == 7) = true ∧
    after [] { start with iff := 0, host := [.irq .l1 5] } (fun t => t.iff == 2) = true := by decide +kernel

/-- Test vector T150: reset reads three bytes of its vector. -/
theorem test_reset_event : after [] ({ start with halted := true, xsp := 5, iff := 0, rfp := 2, host := [.reset] }
    |>.placeBytes [0x00, 0x10, 0x00, 0xFF] 0xFFFF00)
    (fun t => t.pc == 0x1000 && t.xsp == 0 && t.iff == 7 && t.rfp == 0 && !t.halted) = true := by decide +kernel

/-- The instruction that `withFetchWord` places is the next one, over a halted state and one with a request pending. -/
theorem test_withFetchWord : (match step (({ start with halted := true, host := [.reset] }).withFetchWord 16 0x5521) with
    | .next t => t.cur .b 1 == 0x55 && t.pc == 0x502 && t.host == [.reset]
    | .fault _ => false
    | .refused _ => false) = true := by decide +kernel

/-! ## The hypotheses of the obligations can be met -/

/-- XHL at 3000H, XDE at 2000H, BC 2, XSP 1000H. -/
def busy : State := start |>.setCur .l 3 0x3000 |>.setCur .l 2 0x2000 |>.setCur .w 1 2 |>.setCur .l 7 0x1000

theorem witness_DecodeEncodeRoundTrip : Instr.wf (.ei 6) = true ∧ Instr.wf (.cpMemCur .l (.postInc .xsp .four) 7) = true := by
  decide

theorem witness_EncodeOfDecode : decode [0x06, 0x06, 0xFF] = .ok (.ei 6, [0xFF]) := by rfl

/-- Codes on both sides of each bound of R24, and the last code that names a word register in every bank. -/
theorem witness_RegisterNames : (3 : BitVec 3).toNat < 4 ∧ regOp .b (.ext 0x3F) = .ok (.ext (.bank 3 .xhl) 3) ∧
    regOp .b (.ext 0x40) = .error .registerCode ∧ regOp .b (.ext 0xCF) = .error .registerCode ∧
    regOp .b (.ext 0xD0) = .ok (.ext (.prev .xwa) 0) ∧ regOp .w (.ext 0xE1) = .error .registerCode ∧
    regOp .l (.ext 0xFE) = .error .registerCode := by decide +kernel

/-- Bytes of every kind that the decoder stops at, at 500H of a quiet state, each with the error that the statement's
hypothesis names. -/
theorem witness_ForbiddenBytesStop : start.Quiet ∧ ({ start with host := [.idle] } : State).Quiet ∧ start.halted = false ∧
    ([([0xF7], .undefinedOp), ([0x1F], .dummyOp), ([0xE8, 0x06], .size), ([0xB1, 0xF0], .firstByte), ([0xC3, 0x02], .mode),
      ([0xC7, 0x40, 0x04], .registerCode), ([0xC8, 0x20, 0x10], .fixedZeroBits), ([0xC9, 0x42], .doubleRegister),
      ([0xC8, 0x2E, 0x7C], .controlRegister), ([0x80, 0x40], .doubleRegister), ([0x87, 0x5E], .doubleRegister),
      ([0xC7, 0x40, 0x40], .doubleRegister), ([0xC7, 0xCF, 0x5F], .registerCode), ([0xD7, 0xD1, 0x40], .registerCode),
      ([0xD7, 0xD2, 0x0B], .registerCode), ([0xD7, 0xFE, 0x19], .registerCode), ([0xC7, 0x40, 0x2E, 0x42], .registerCode),
      ([0xC7, 0x40, 0x2F, 0x40], .controlRegister)] : List (List Byte × DecodeError)).all (fun p =>
        match decode ((start.placeBytes p.1 0x500).fetchBytes maxLength 0x500) with
        | .ok _ => false
        | .error e => e == p.2) = true :=
  ⟨.inl rfl, .inr ⟨[], rfl⟩, by decide +kernel, by decide +kernel⟩

/-- The guards on the bytes, at the bounds of their ranges: sizes that a code has and has not, codes in and next to the
excluded ones, control registers and none. -/
theorem witness_ForbiddenBytesStop_ranges : regSizes 0x37 = [] ∧ regSizes 0x38 = [.w] ∧ regSizes 0x5F = [.b, .w] ∧
    regSizes 0x60 = [.b, .w, .l] ∧ srcSizes 0x77 = [] ∧ srcSizes 0x78 = [.b, .w] ∧ dstBlank 0x7F ∧ ¬ dstBlank 0x80 ∧
    ExcludedCode .b 0x40 ∧ ExcludedCode .b 0xCF ∧ ¬ ExcludedCode .b 0x3F ∧ ¬ ExcludedCode .b 0xD0 ∧
    ExcludedCode .w 0xD1 ∧ ExcludedCode .l 0xFE ∧ ctrlSize 0x5E = some .b ∧ ctrlSize 0x60 = none ∧
    ctrlSize 0x7C = some .w := by
  refine ⟨by decide, by decide, by decide, by decide, by decide, by decide, ?_, ?_, ?_, ?_, ?_, ?_, ?_, ?_, by decide,
    by decide, by decide⟩ <;> simp [dstBlank, ExcludedCode, Size.bytes]

/-- Seven bytes from 500H with an `INC 1,A` first. -/
theorem witness_StepRunsDecodedInstruction :
    decode ((start.placeBytes [0xC9, 0x61] 0x500).fetchBytes maxLength 0x500) =
      .ok (.incReg .b (.short 1) 1, [0, 0, 0, 0, 0]) ∧
    (∀ k < maxLength - 5, (busAddr (0x500 + BitVec.ofNat 32 k)).toNat ∉ (start.placeBytes [0xC9, 0x61] 0x500).written) ∧
    (start.placeBytes [0xC9, 0x61] 0x500).Quiet :=
  ⟨by rfl, by decide +kernel, .inl (by rfl)⟩

theorem witness_SelfModifiedCodeRefused : decode (({ start with written := [0x500] }).fetchBytes maxLength 0x500) =
      .ok (.nop, [0, 0, 0, 0, 0, 0]) ∧
    (busAddr (0x500 + BitVec.ofNat 32 0)).toNat ∈ ({ start with written := [0x500] } : State).written := by
  exact ⟨by rfl, by decide +kernel⟩

theorem witness_HaltAndMaskedRequests : ({ start with halted := true } : State).halted = true ∧ start.host = [] ∧
    ({ start with halted := true, host := [.idle] } : State).host = [.idle] ∧
    IrqLevel.l6.toNat < max start.iff.toNat 1 ∧ ({ start with comparing := true } : State).comparing = true := by decide

/-- Level 7 at mask 7 and level 1 at mask 0, the two ends of the range. -/
theorem witness_InterruptEntry : ({ start with host := [.irq .l7 63] } : State).host = [.irq .l7 63] ∧
    max start.iff.toNat 1 ≤ IrqLevel.l7.toNat ∧ start.comparing = false ∧
    max ({ start with iff := 0 } : State).iff.toNat 1 ≤ IrqLevel.l1.toNat := by decide

theorem witness_ResetEvent : ({ start with host := [.reset] } : State).host = [.reset] := rfl

/-- A reset within `LD (80H),5`, which stores one byte, so that memory is that of one of two moments; one within the entry
of a request of level 7, which stores six; and one at a byte that is no instruction. -/
theorem witness_ResetWithinInstruction :
    ({ start with host := [.resetWithin none] } : State).host = [.resetWithin none] ∧
    (match step (({ start with trail := some [] } : State).placeBytes [0x08, 0x80, 0x05] 0x500) with
      | .next u => u.readByte 0x80 == 5 && u.trail.map (List.map Moment.next) == some [.write 0x80 5] &&
          u.trail.map (List.map fun x => x.mem.read 0x80) == some [0]
      | _ => false) = true ∧
    (match step (({ start with host := [.irq .l7 3], trail := some [] } : State).setCur .l 7 0x1000) with
      | .next u => u.trail.map List.length == some 6 && u.readByte 0xFFC == 0 && u.readByte 0xFFD == 5
      | _ => false) = true ∧
    step ((({ start with trail := some [] } : State)).placeBytes [0x01] 0x500) =
      .fault (.undefinedInstruction 0x500) :=
  ⟨rfl, by decide +kernel, by decide +kernel, by rfl⟩

theorem witness_InvariantKept : State.reset.Inv ∧ step State.reset = .next { State.reset with pc := 1 } :=
  ⟨⟨rfl, List.Pairwise.nil, fun _ h => absurd h List.not_mem_nil, fun _ h => nomatch h⟩, by rfl⟩

/-- NOP is none of the instructions that the two statements except. -/
theorem witness_AlternateAndControlWriters : start.host = [] ∧ exec .nop start = .next start ∧ Instr.nop ≠ .exFF ∧
    (∀ cr r, Instr.nop ≠ .ldcToCr cr r) ∧ Instr.nop ≠ .reti := by
  refine ⟨rfl, rfl, ?_, ?_, ?_⟩ <;> simp

theorem witness_MaskBankHaltWriters : start.host = [] ∧ exec .nop start = .next start ∧ Instr.nop ≠ .di ∧
    Instr.nop ≠ .popSr ∧ Instr.nop ≠ .reti ∧ (∀ num, Instr.nop ≠ .ei num) ∧ Instr.nop ≠ .incf ∧ Instr.nop ≠ .decf ∧
    (∀ num, Instr.nop ≠ .ldf num) ∧ Instr.nop ≠ .halt := by
  refine ⟨rfl, rfl, ?_, ?_, ?_, ?_, ?_, ?_, ?_, ?_⟩ <;> simp

/-- A store of 5 at 80H changes that byte and no record is there before it. -/
theorem witness_StoresAreRecorded : start.host = [] ∧
    exec (.ldAbs8ImmB 0x80 5) start = .next (start.writeByte 0x80 5) ∧
    (start.writeByte 0x80 5).readByte 0x80 ≠ start.readByte 0x80 ∧ 0x500 ∈ ({ start with written := [0x500] } : State).written := by
  exact ⟨rfl, by rfl, by decide +kernel, by decide⟩

/-- The state that SWI leaves is itself a state with the frame of the SWI at its XSP. -/
theorem witness_SoftwareInterruptReturn : exec (.swi 5) busy = .next (busy.takeException .software 0x500 5) ∧
    (busy.takeException .software 0x500 5).memRead 2 0xFFA = busy.sr := by
  exact ⟨by rfl, by decide +kernel⟩

theorem witness_MemoryAccess : 1 ∈ [1, 2, 4] ∧ 2 ∈ [1, 2, 4] ∧ 4 ∈ [1, 2, 4] := by decide

theorem witness_CompareConditions : 0 < 8 ∧ SubFlags (0x80 : Byte) 0x7F false (subFlags (0x80 : Byte) 0x7F false false) :=
  ⟨by decide, subFlags_spec (by decide) _ _ _ _⟩

theorem witness_BlockTransferRepeat : busy.host = [] ∧ busy.blockCount = 2 ∧ busy.bc ≠ 1 := by decide +kernel

/-- One item done by LDI, for the clause that LDIR is LDI followed by itself. -/
theorem witness_BlockTransferRepeat_first_item : exec (.ldi .b .deHl) busy = .next (busy.blockOnce .b .deHl true) := rfl

/-- The two bytes at 2000H and the two at 3000H are disjoint. -/
theorem witness_BlockTransferRepeat_disjoint : ∀ j < 2, ∀ j' < 2, ∀ i < 1, ∀ i' < 1,
    busAddr (pointerAfter true 1 j (busy.reg (blockDst busy.rfp .deHl)) + BitVec.ofNat 32 i) ≠
    busAddr (pointerAfter true 1 j' (busy.reg (blockSrc busy.rfp .deHl)) + BitVec.ofNat 32 i') := by decide +kernel

theorem witness_BlockTransferInterrupted : ({ busy with host := [.irq .l7 3] } : State).host = [.irq .l7 3] ∧
    max busy.iff.toNat 1 ≤ IrqLevel.l7.toNat ∧ busy.comparing = false ∧ busy.bc ≠ 1 := by decide +kernel

/-- CPIR A,(XBC+) with XBC = 20005H, where no byte is 55H: XBC comes back to 20005H with every item, so that no item is
the last (assumption 7). -/
theorem witness_BlockCompareRepeat_endless (j : Nat) : comparePointerAfter 1 true 1 j 0x20005 = 0x20005 ∧
    busy.memRead 1 0x20005 ≠ 0x55 ∧ (0x20005 : Long).setWidth 16 ≠ (0 : Word) := by
  refine ⟨?_, by decide +kernel, by decide⟩
  induction j with
  | zero => rfl
  | succ j ih => simp only [comparePointerAfter, ih]; decide

/-- 99H and 00H, the ends of the decimal bytes. -/
theorem witness_DecimalArithmetic : IsDecimal (start.setCur .b 1 0x99).a ∧ IsDecimal 0x00 := by
  exact ⟨⟨by decide +kernel, by decide +kernel⟩, ⟨by decide, by decide⟩⟩

/-- The guard of the clauses about a register operand of a mode that moves a register: another register is moved, and
both orders are there. -/
theorem witness_moved_register_is_another : preReg 0 (.preDec .xix .one) ≠ some (curLoc 0 .b 1).g ∧
    autoReg 0 (.postInc (.cur .xhl) .four) ≠ some (curLoc 0 .l 2).g ∧
    preReg 0 (.preDec (.cur .xwa) .one) = some (curLoc 0 .b 1).g ∧
    autoReg 0 (.postInc .xsp .two) = some .xsp ∧ autoReg 0 (.preDec .xsp .one) = some .xsp := by decide

/-- The guard of the clauses about a register that is not XSP, R21 and R25. -/
theorem witness_not_the_stack_pointer : (curLoc 0 .w 3).g ≠ .xsp ∧ (curLoc 0 .l 6).g ≠ .xsp ∧
    (opLoc (sz := .b) 0 (.ext (.prev .xde) 2)).g ≠ .xsp ∧ (curLoc 0 .l 7).g = .xsp := by decide

/-- The guards of BlockCompareOnce, BlockCompareRepeat, MultiplyAccumulate and ConditionAndControlLoads. -/
theorem witness_register_guards : (3 : BitVec 3) ≠ 1 ∧ (dblOpLoc (z := .w) 0 (.short 4)).g ≠ (curLoc 0 .l 3).g ∧
    CtrlReg.dmas 1 ≠ .dmas 0 := by decide

/-- The guards of the conditional jumps, calls and returns: a condition that holds and one that does not. -/
theorem witness_conditions : condHolds .z start.flags = true ∧ condHolds .nz start.flags = false := by decide

/-- The guards of BitOperations and CarryFromBits at the last bit of a byte, and of BitSearch. -/
theorem witness_bits : (7 : BitVec 4).toNat < SizeBW.b.size.bits ∧ (15 : BitVec 4).toNat < SizeBW.w.size.bits ∧
    start.readLoc (opLoc start.rfp (.short 4 : RegOp .w)) = 0 ∧
    (start.setCur .w 4 0x1200).readLoc (opLoc start.rfp (.short 4 : RegOp .w)) ≠ 0 := by decide +kernel

/-- The guards of ModuloSteps at both ends of the range of R285: a table of 2 with step 1 and one of 8000H with step 4. -/
theorem witness_ModuloSteps : 2 = 2 ^ 1 ∧ 2 ≤ 2 ^ 15 ∧ (stepAmount .one).toNat = 1 ∧ 1 < 2 ∧ 2 = (1 : Word).toNat + 1 ∧
    (stepAmount .four).toNat = 4 ∧ 2 ^ 15 = (0x7FFC : Word).toNat + 4 := by decide

/-- A row of the DAA table covers 9AH after an addition, and none covers FFH after a subtraction. -/
theorem witness_DecimalAdjust : (daaTable.filter fun row => row.covers 0x9A Flags.clear).length = 1 ∧
    daaTable.all (fun row => !row.covers 0xFF ⟨false, false, false, false, true, false⟩) = true := by decide

/-- A division that sets V and one that does not, for the clauses of MulDiv about the quotient. -/
theorem witness_MulDiv : mulDiv (m := 8) (w := 16) .div 0x1234 0x56 = some 0x1036 ∧
    mulDiv (m := 8) (w := 16) .divs 0x8000 0xFF = none := by decide +kernel

/-- The guards about flags that a long operand leaves undefined. -/
theorem witness_sizes : Size.b.bits ≠ 32 ∧ Size.w.bits ≠ 32 ∧ Size.l.bits = 32 := by decide

end Sys2Proof.Tests
end

section
/-! SUPPORT. Proof of the statement about memory accesses of several bytes (R73, R74), from the laws of memory. -/

namespace Sys2Proof.Machine

/-- Settles O18: the bytes read are `extract_memRead`, those stored `readByte_memWrite_same`. That law, for any number of
bytes, needs the access not to come round to its own start; 4 bytes at most are far below the 2^24 it takes. -/
theorem memoryAccess : Obligations.MemoryAccess := by
  intro s nb addr v hnb
  have hsize : nb < 2 ^ 24 := by
    simp only [List.mem_cons, List.not_mem_nil, or_false] at hnb
    omega
  refine ⟨fun i hi => ⟨?read, ?written⟩, ?frame, ?registers⟩
  case read => exact State.extract_memRead s nb addr i hi
  case written => exact State.readByte_memWrite_same s nb addr v i hsize hi
  case frame => exact State.readByte_memWrite_other s nb addr v
  case registers => exact State.reg_memWrite s nb addr v

end Sys2Proof.Machine
end

section
/-! SUPPORT. Proof of the statement about the one-byte flag instructions (R200, R320 to R323): the decoder's block of first
bytes 10H to 17H, then what each instruction leaves. -/

namespace Sys2Proof.Machine

/-- The block that the first-byte map (R104) gives the upper five bits 00010. -/
theorem decode_of_hi5_two (code : Byte) (rest : List Byte) (h : (hi5 code).toNat = 2) :
    decode (code :: rest) = op10 code rest := by
  simp only [decode, h]

/-- One free bit goes to H, so the count of free values is the only field beside F that CCF changes. -/
theorem exec_ccf (s : State) : exec .ccf s = .next { s with
    flags := { s.flags with h := s.freeBit, n := false, c := !s.flags.c }, freeCount := s.freeCount + 1 } := rfl

/-- ZCF as CCF, with C from Z. -/
theorem exec_zcf (s : State) : exec .zcf s = .next { s with
    flags := { s.flags with h := s.freeBit, n := false, c := !s.flags.z }, freeCount := s.freeCount + 1 } := rfl

/-- Settles O52: the five codes stand in the block of `op10`; RCF, SCF and EX F,F' draw no free value, CCF and ZCF one. -/
theorem flagInstructions : Obligations.FlagInstructions := by
  refine ⟨fun rest => ⟨?rcfCode, ?scfCode, ?ccfCode, ?zcfCode, ?exFFCode⟩, fun s => ⟨?rcf, ?scf, ?ccf, ?zcf, ?exFF⟩⟩
  case rcfCode => exact decode_of_hi5_two 0x10 rest (by decide)
  case scfCode => exact decode_of_hi5_two 0x11 rest (by decide)
  case ccfCode => exact decode_of_hi5_two 0x12 rest (by decide)
  case zcfCode => exact decode_of_hi5_two 0x13 rest (by decide)
  case exFFCode => exact decode_of_hi5_two 0x16 rest (by decide)
  case rcf => rfl
  case scf => rfl
  case ccf => exact ⟨s.freeBit, s.freeCount + 1, exec_ccf s⟩
  case zcf => exact ⟨s.freeBit, s.freeCount + 1, exec_zcf s⟩
  case exFF => rfl

end Sys2Proof.Machine
end

section
/-! SUPPORT. Proof of the statement about the bank pointer's instructions (R370 to R372): the decoder's block of first bytes
08H to 0FH and the operand byte of LDF, then what each instruction leaves in RFP. -/

namespace Sys2Proof.Machine

/-- The block that the first-byte map (R104) gives the upper five bits 00001. -/
theorem decode_of_hi5_one (code : Byte) (rest : List Byte) (h : (hi5 code).toNat = 1) :
    decode (code :: rest) = op08 code rest := by
  simp only [decode, h]

theorem take8_cons (b : Byte) (rest : List Byte) : take8 (b :: rest) = .ok (b, rest) := by
  have happend : (0#0 ++ b : BitVec (0 + 8)) = b := BitVec.zero_width_append 0#0 b
  exact congrArg (fun v : Byte => Except.ok (v, rest)) happend

/-- The operand byte of LDF is accepted when its upper six bits are 0, and its lower two are the bank (R370, R129). -/
theorem takeNum2_zeros_append (num : BitVec 2) (rest : List Byte) :
    takeNum2 ((0#6 ++ num : Byte) :: rest) = .ok (num, rest) := by
  have hzeros : (0#6 ++ num : Byte).extractLsb' 2 6 = 0 := BitVec.extractLsb'_append_eq_left
  have hnum : (0#6 ++ num : Byte).extractLsb' 0 2 = num := BitVec.extractLsb'_append_eq_right
  simp only [takeNum2, take8_cons, bind, Except.bind, hzeros, hnum, if_true]

/-- The last code of the block of `op10` takes the bank from the byte after it. -/
theorem op10_ldf {bs rest : List Byte} {num : BitVec 2} (h : takeNum2 bs = .ok (num, rest)) :
    op10 0x17 bs = .ok (.ldf num, rest) := by
  have hcode : (lo3 0x17).toNat = 7 := by decide
  simp only [op10, hcode, h, bind, Except.bind]

theorem exec_ldf (num : BitVec 2) (s : State) : exec (.ldf num) s = .next { s with rfp := num } := rfl

theorem exec_incf (s : State) : exec .incf s = .next { s with rfp := s.rfp + 1 } := rfl

theorem exec_decf (s : State) : exec .decf s = .next { s with rfp := s.rfp - 1 } := rfl

/-- R371: from bank 3, INCF goes round to bank 0. -/
theorem toNat_bank_add_one (bank : BitVec 2) : (bank + 1).toNat = (bank.toNat + 1) % 4 := BitVec.toNat_add bank 1

/-- R372: one bank down is three banks up. -/
theorem toNat_bank_sub_one (bank : BitVec 2) : (bank - 1).toNat = (bank.toNat + 3) % 4 := by
  rw [BitVec.toNat_sub, Nat.add_comm]
  rfl

/-- Settles O53: INCF and DECF stand in the block of `op08`, LDF closes that of `op10`; all three change RFP alone, whose
two bits count modulo 4. -/
theorem bankInstructions : Obligations.BankInstructions := by
  refine ⟨fun num rest => ?ldfCode, fun rest => ⟨?incfCode, ?decfCode⟩, fun s => ⟨fun num => ?ldf, ?incf, ?decf⟩⟩
  case ldfCode =>
    rw [decode_of_hi5_two 0x17 _ (by decide)]
    exact op10_ldf (takeNum2_zeros_append num rest)
  case incfCode => exact decode_of_hi5_one 0x0C rest (by decide)
  case decfCode => exact decode_of_hi5_one 0x0D rest (by decide)
  case ldf => exact exec_ldf num s
  case incf => exact ⟨_, exec_incf s, rfl, toNat_bank_add_one s.rfp⟩
  case decf => exact ⟨_, exec_decf s, rfl, toNat_bank_sub_one s.rfp⟩

end Sys2Proof.Machine
end

section
/-! SUPPORT. The decoder's readers of fields and operands, each said once as an equivalence: it answers a value exactly on
the bytes that the encoder writes for that value. -/

namespace Sys2Proof

/-! ## Fields of a byte -/

@[simp] theorem hi5_opByte (h : BitVec 5) (l : BitVec 3) : hi5 (opByte h l) = h := BitVec.extractLsb'_append_eq_left

@[simp] theorem lo3_opByte (h : BitVec 5) (l : BitVec 3) : lo3 (opByte h l) = l := BitVec.extractLsb'_append_eq_right

/-- A bit vector is known from its upper and its lower bits. -/
theorem eq_append_iff {m n : Nat} (b : BitVec (m + n)) (h : BitVec m) (l : BitVec n) :
    b = h ++ l ↔ b.extractLsb' n m = h ∧ b.extractLsb' 0 n = l := by
  refine ⟨fun e => ?_, fun ⟨e, e'⟩ => ?_⟩
  · subst e; exact ⟨BitVec.extractLsb'_append_eq_left, BitVec.extractLsb'_append_eq_right⟩
  · subst e; subst e'
    apply BitVec.eq_of_getLsbD_eq
    intro i hi
    rw [BitVec.getLsbD_append]
    split
    · simp [*]
    · simp only [BitVec.getLsbD_extractLsb']
      rw [decide_eq_true (by omega), Bool.true_and]
      congr 1; omega

theorem eq_opByte_iff (b : Byte) (h : BitVec 5) (l : BitVec 3) : b = opByte h l ↔ hi5 b = h ∧ lo3 b = l :=
  eq_append_iff (m := 5) (n := 3) b h l

/-! ## Steps of a reader -/

theorem bind_eq_ok {ε α β : Type} {x : Except ε α} {f : α → Except ε β} {b : β} :
    (x >>= f) = .ok b ↔ ∃ a, x = .ok a ∧ f a = .ok b := by
  cases x <;> simp [bind, Except.bind]

theorem takeLE_toLE (nb : Nat) (v : BitVec (8 * nb)) (rest : List Byte) :
    takeLE nb (toLE nb v ++ rest) = .ok (v, rest) := by
  induction nb with
  | zero => rw [BitVec.eq_nil v]; rfl
  | succ nb ih =>
    have hv : v = (v.extractLsb' 8 (8 * nb) ++ v.setWidth 8 : BitVec (8 * nb + 8)) :=
      (eq_append_iff (m := 8 * nb) (n := 8) v _ _).2 ⟨rfl, (BitVec.setWidth_eq_extractLsb' (by omega)).symm⟩
    rw [toLE, List.cons_append, takeLE, ih]
    exact congrArg (fun w => Except.ok (w, rest)) hv.symm

theorem eq_toLE_of_takeLE {nb : Nat} {bs rest : List Byte} {v : BitVec (8 * nb)}
    (h : takeLE nb bs = .ok (v, rest)) : bs = toLE nb v ++ rest := by
  induction nb generalizing bs with
  | zero =>
    obtain ⟨rfl, rfl⟩ : 0#0 = v ∧ bs = rest := by simpa [takeLE] using h
    rfl
  | succ nb ih =>
    cases bs with
    | nil => exact nomatch h
    | cons b bs =>
      rw [takeLE] at h
      split at h
      · next w r e =>
        obtain ⟨rfl, rfl⟩ : (w ++ b : BitVec (8 * nb + 8)) = v ∧ r = rest := by simpa using h
        obtain ⟨hw, hb⟩ := (eq_append_iff (m := 8 * nb) (n := 8) (w ++ b) w b).1 rfl
        rw [toLE, List.cons_append, hw, BitVec.setWidth_eq_extractLsb' (by omega), hb, ← ih e]
      · exact nomatch h

/-- Operand bytes are read exactly as they are written (R75, R101). -/
theorem takeLE_eq_ok {nb : Nat} {bs rest : List Byte} {v : BitVec (8 * nb)} :
    takeLE nb bs = .ok (v, rest) ↔ bs = toLE nb v ++ rest :=
  ⟨eq_toLE_of_takeLE, fun h => h ▸ takeLE_toLE nb v rest⟩

theorem toLE_one (b : Byte) : toLE 1 b = [b] := by
  simp [toLE]
theorem take8_eq_ok {bs rest : List Byte} {b : Byte} : take8 bs = .ok (b, rest) ↔ bs = b :: rest := by
  rw [take8, takeLE_eq_ok, toLE_one]
  exact Iff.rfl

/-- A byte whose upper bits are drawn as 0 gives its lower bits, and only with 0 there (R129). -/
theorem zeroBits_eq_ok {m n : Nat} {b : BitVec (m + n)} {bs rest : List Byte} {num : BitVec n} :
    (if b.extractLsb' n m = 0 then Except.ok (b.extractLsb' 0 n, bs) else Except.error DecodeError.fixedZeroBits) =
      Except.ok (num, rest) ↔ b = 0#m ++ num ∧ bs = rest := by
  rw [eq_append_iff]
  split <;> simp_all

/-- The #4 byte (R127, R129). -/
theorem takeNum4_eq_ok {bs rest : List Byte} {num : BitVec 4} :
    takeNum4 bs = .ok (num, rest) ↔ bs = (0#4 ++ num : Byte) :: rest := by
  simp only [takeNum4, bind_eq_ok, Prod.exists, take8_eq_ok]
  constructor
  · rintro ⟨b, bs', rfl, h⟩
    obtain ⟨rfl, rfl⟩ := (zeroBits_eq_ok (m := 4) (n := 4)).1 h
    rfl
  · rintro rfl
    exact ⟨_, _, rfl, (zeroBits_eq_ok (m := 4) (n := 4)).2 ⟨rfl, rfl⟩⟩

/-- The byte of EI (R351, R129). -/
theorem takeNum3_eq_ok {bs rest : List Byte} {num : BitVec 3} :
    takeNum3 bs = .ok (num, rest) ↔ bs = (0#5 ++ num : Byte) :: rest := by
  simp only [takeNum3, bind_eq_ok, Prod.exists, take8_eq_ok]
  constructor
  · rintro ⟨b, bs', rfl, h⟩
    obtain ⟨rfl, rfl⟩ := (zeroBits_eq_ok (m := 5) (n := 3)).1 h
    rfl
  · rintro rfl
    exact ⟨_, _, rfl, (zeroBits_eq_ok (m := 5) (n := 3)).2 ⟨rfl, rfl⟩⟩

/-- The byte of LDF (R370, R129). -/
theorem takeNum2_eq_ok {bs rest : List Byte} {num : BitVec 2} :
    takeNum2 bs = .ok (num, rest) ↔ bs = (0#6 ++ num : Byte) :: rest := by
  simp only [takeNum2, bind_eq_ok, Prod.exists, take8_eq_ok]
  constructor
  · rintro ⟨b, bs', rfl, h⟩
    obtain ⟨rfl, rfl⟩ := (zeroBits_eq_ok (m := 6) (n := 2)).1 h
    rfl
  · rintro rfl
    exact ⟨_, _, rfl, (zeroBits_eq_ok (m := 6) (n := 2)).2 ⟨rfl, rfl⟩⟩

/-! ## Register codes -/

/-- The operand `r` as its first byte, and its code byte, hold it (R108, R110). -/
def RegOp.raw {sz : Size} : RegOp sz → RawReg
  | .short c => .short c
  | .ext r part => .ext (regCode sz r part)

/-- The operand `rr` as its first byte, and its code byte, hold it (R270 (c), (d)). -/
def DblOp.raw {z : SizeBW} : DblOp z → RawReg
  | .short c => .short (encodeDbl z c)
  | .ext r part => .ext (regCode z.double r part)

/-- The first bytes of a `reg`-class instruction of a size (R102 (2), R110). -/
def RawReg.bytes (sz : Size) : RawReg → List Byte
  | .short c => [opByte (3#2 ++ sizeCode sz ++ 1#1) c]
  | .ext code => [opByte (3#2 ++ sizeCode sz ++ 0#1) 7, code]

theorem RegOp.bytes_raw {sz : Size} (r : RegOp sz) : r.raw.bytes sz = encodeRegOp r := by cases r <;> rfl

theorem DblOp.bytes_raw {z : SizeBW} (rr : DblOp z) : rr.raw.bytes z.size = encodeDblOp rr := by cases rr <;> rfl

theorem reg32Of_code6 (r : Reg32) : reg32Of (code6 r) = some r := by
  cases r with
  | bank k x => cases x <;> revert k <;> decide
  | prev x => cases x <;> rfl
  | cur x => cases x <;> rfl
  | _ => rfl

theorem eq_code6_of_reg32Of : ∀ c : BitVec 6, ∀ r ∈ reg32Of c, c = code6 r := by decide

/-- The register map gives each register one code (R27). -/
theorem reg32Of_eq_some {c : BitVec 6} {r : Reg32} : reg32Of c = some r ↔ c = code6 r :=
  ⟨eq_code6_of_reg32Of c r, fun h => h ▸ reg32Of_code6 r⟩

theorem extractLsb'_of_upper_seven :
    ∀ code : Byte, (code.extractLsb' 1 7).extractLsb' 1 6 = code.extractLsb' 2 6 ∧
      (code.extractLsb' 1 7).extractLsb' 0 1 = code.extractLsb' 1 1 := by decide

/-- The register and the part that a code byte names, and that byte (R27, R110, R111). -/
theorem eq_regCode_iff {sz : Size} {code : Byte} {r : Reg32} {part : BitVec sz.partBits} :
    code = regCode sz r part ↔ reg32Of (code.extractLsb' 2 6) = some r ∧ partOf sz code = some part := by
  rw [reg32Of_eq_some]
  cases sz with
  | b =>
    rw [regCode, partOf, Option.some.injEq]
    exact eq_append_iff (m := 6) (n := 2) code _ _
  | w =>
    obtain ⟨h6, h1⟩ := extractLsb'_of_upper_seven code
    have h := eq_append_iff (m := 7) (n := 1) code (code6 r ++ part) 0#1
    rw [eq_append_iff (m := 6) (n := 1), h6, h1] at h
    rw [regCode, partOf]
    refine h.trans ?_
    split <;> simp_all
  | l =>
    obtain rfl : part = 0#0 := BitVec.eq_nil part
    have h := eq_append_iff (m := 6) (n := 2) code (code6 r) 0#2
    rw [regCode, partOf]
    refine h.trans ?_
    split <;> simp_all

theorem regOp_eq_ok {sz : Size} {raw : RawReg} {r : RegOp sz} : regOp sz raw = .ok r ↔ raw = r.raw := by
  cases raw with
  | short c => cases r <;> simp [regOp, RegOp.raw]
  | ext code =>
    rw [regOp]
    cases r with
    | short c => split <;> simp [RegOp.raw]
    | ext r part =>
      simp only [RegOp.raw, RawReg.ext.injEq, eq_regCode_iff]
      split <;> simp_all

/-- The codes of `RR` that R270 lists. -/
theorem dblCode_eq_ok {z : SizeBW} {c : BitVec 3} {d : BitVec z.dblBits} :
    dblCode z c = .ok d ↔ c = encodeDbl z d := by
  cases z with
  | b =>
    rw [dblCode, encodeDbl, eq_append_iff (m := 2) (n := 1)]
    split <;> simp_all
  | w => simp [dblCode, encodeDbl]

theorem dblOp_eq_ok {z : SizeBW} {raw : RawReg} {rr : DblOp z} : dblOp z raw = .ok rr ↔ raw = rr.raw := by
  cases raw with
  | short c =>
    simp only [dblOp, bind_eq_ok, dblCode_eq_ok]
    cases rr <;> simp [DblOp.raw]
  | ext code =>
    simp only [dblOp]
    cases rr with
    | short c => split <;> simp [DblOp.raw]
    | ext r part =>
      simp only [DblOp.raw, RawReg.ext.injEq, eq_regCode_iff]
      split <;> simp_all

/-- A register code byte within the bytes of a mode (R122). -/
theorem longReg_eq_ok {code : Byte} {r : Reg32} : longReg code = .ok r ↔ code = regCode .l r 0#0 := by
  rw [longReg, eq_regCode_iff]
  split
  · next part hr hp => simp [hr, hp, BitVec.eq_nil part]
  · next h => 
    simp only [reduceCtorEq, false_iff]
    exact fun ⟨h1, h2⟩ => h _ _ h1 h2

theorem ctrlRegOf_ctrlCode (cr : CtrlReg) : ctrlRegOf cr.size (ctrlCode cr) = .ok cr := by
  cases cr with
  | intnest => rfl
  | _ n => revert n; decide

theorem eq_ctrlCode_of_ctrlRegOf (sz : Size) : ∀ code : Byte, ∀ cr ∈ (ctrlRegOf sz code).toOption,
    code = ctrlCode cr ∧ cr.size = sz := by
  cases sz <;> decide

/-- A control register has one code and one size (R50, R53). -/
theorem ctrlRegOf_eq_ok {sz : Size} {code : Byte} {cr : CtrlReg} :
    ctrlRegOf sz code = .ok cr ↔ code = ctrlCode cr ∧ cr.size = sz := by
  constructor
  · intro h
    exact eq_ctrlCode_of_ctrlRegOf sz code cr (by rw [h]; rfl)
  · rintro ⟨rfl, rfl⟩
    exact ctrlRegOf_ctrlCode cr

/-! ## Sizes (R134) -/

theorem needBW_eq_ok {sz : Size} {z : SizeBW} : needBW sz = .ok z ↔ sz = z.size := by
  cases sz <;> cases z <;> simp [needBW]

theorem needWL_eq_ok {sz : Size} {z : SizeWL} : needWL sz = .ok z ↔ sz = z.size := by
  cases sz <;> cases z <;> simp [needWL]

theorem needSize_eq_ok {want sz : Size} {u : Unit} : needSize want sz = .ok u ↔ sz = want := by
  rw [needSize]; split <;> simp_all

/-! ## Conditions (R130) -/

theorem condOf_condCode (cc : Cond) : condOf (condCode cc) = cc := by cases cc <;> rfl

theorem condCode_condOf (c : BitVec 4) : condCode (condOf c) = c := by revert c; decide

/-! ## Memory operands (R113) -/

theorem modeReg_eq_ok {b : Byte} {r : Reg32} : modeReg b = .ok r ↔ b.extractLsb' 2 6 = code6 r := by
  rw [modeReg, ← reg32Of_eq_some]
  split <;> simp_all

theorem stepOf_eq_ok {b : Byte} {st : Step} : stepOf b = .ok st ↔ b.extractLsb' 0 2 = stepCode st := by
  rw [stepOf]
  generalize b.extractLsb' 0 2 = k
  revert k
  cases st <;> decide

/-- The bytes of a memory operand after its first byte. -/
def MemOp.modeBytes : MemOp → List Byte
  | .ind _ => []
  | .disp8 _ d => [d]
  | .abs8 a => toLE 1 a
  | .abs16 a => toLE 2 a
  | .abs24 a => toLE 3 a
  | .indReg r => [code6 r ++ 0#2]
  | .disp16 r d => (code6 r ++ 1#2) :: toLE 2 d
  | .index8 r x part => [0x03, regCode .l r 0#0, regCode .b x part]
  | .index16 r x part => [0x07, regCode .l r 0#0, regCode .w x part]
  | .preDec r st => [code6 r ++ stepCode st]
  | .postInc r st => [code6 r ++ stepCode st]

/-- The lower three bits of the first byte of a memory operand with `m = 1`; none for `(R)` and `(R+d8)` (R113). -/
def MemOp.modeCode : MemOp → Option (BitVec 3)
  | .ind _ => none
  | .disp8 _ _ => none
  | .abs8 _ => some 0
  | .abs16 _ => some 1
  | .abs24 _ => some 2
  | .indReg _ => some 3
  | .disp16 _ _ => some 3
  | .index8 _ _ _ => some 3
  | .index16 _ _ _ => some 3
  | .preDec _ _ => some 4
  | .postInc _ _ => some 5

theorem encodeMem_of_modeCode {m : MemOp} {k : BitVec 3} (zz : BitVec 2) (h : m.modeCode = some k) :
    encodeMem zz m = opByte (3#2 ++ zz ++ 0#1) k :: m.modeBytes := by
  cases m with
  | ind c => exact nomatch h
  | disp8 c d => exact nomatch h
  | _ => obtain rfl := Option.some.inj h; rfl

/-- A mode byte is a register and a step, or a mode number, in the lower two bits (R113). -/
theorem eq_code6_append_iff {b : Byte} {r : Reg32} {k : BitVec 2} :
    b = code6 r ++ k ↔ b.extractLsb' 2 6 = code6 r ∧ b.extractLsb' 0 2 = k :=
  eq_append_iff (m := 6) (n := 2) b _ _

theorem decodeMode3_ok {b : Byte} {bs rest : List Byte} {m : MemOp} (h : decodeMode3 b bs = .ok (m, rest)) :
    m.modeCode = some 3 ∧ b :: bs = m.modeBytes ++ rest := by
  unfold decodeMode3 at h
  split at h
  · next hb =>
    simp only [bind_eq_ok, modeReg_eq_ok, Except.ok.injEq, Prod.mk.injEq] at h
    obtain ⟨r, hr, rfl, rfl⟩ := h
    exact ⟨rfl, by rw [eq_code6_append_iff.2 ⟨hr, BitVec.eq_of_toNat_eq (y := 0) hb⟩]; rfl⟩
  · next hb =>
    simp only [bind_eq_ok, modeReg_eq_ok, Prod.exists, takeLE_eq_ok, Except.ok.injEq, Prod.mk.injEq] at h
    obtain ⟨r, hr, d, _, rfl, rfl, rfl⟩ := h
    exact ⟨rfl, by rw [eq_code6_append_iff.2 ⟨hr, BitVec.eq_of_toNat_eq (y := 1) hb⟩]; rfl⟩
  · split at h
    · next hb =>
      simp only [bind_eq_ok, Prod.exists, take8_eq_ok, longReg_eq_ok] at h
      obtain ⟨_, _, rfl, _, _, rfl, r, rfl, h⟩ := h
      split at h
      · next x part hx hp =>
        obtain ⟨rfl, rfl⟩ : .index8 r x part = m ∧ _ = rest := by simpa using h
        exact ⟨rfl, by rw [hb, (eq_regCode_iff (sz := .b)).2 ⟨hx, hp⟩]; rfl⟩
      · exact nomatch h
    · split at h
      · next hb =>
        simp only [bind_eq_ok, Prod.exists, take8_eq_ok, longReg_eq_ok] at h
        obtain ⟨_, _, rfl, _, _, rfl, r, rfl, h⟩ := h
        split at h
        · next x part hx hp =>
          obtain ⟨rfl, rfl⟩ : .index16 r x part = m ∧ _ = rest := by simpa using h
          exact ⟨rfl, by rw [hb, (eq_regCode_iff (sz := .w)).2 ⟨hx, hp⟩]; rfl⟩
        · exact nomatch h
      · exact nomatch h
  · exact nomatch h

theorem decodeMode_ok {k : BitVec 3} {bs rest : List Byte} {m : MemOp} (h : decodeMode k bs = .ok (m, rest)) :
    m.modeCode = some k ∧ bs = m.modeBytes ++ rest := by
  unfold decodeMode at h
  split at h <;>
    simp only [bind_eq_ok, Prod.exists, takeLE_eq_ok, take8_eq_ok, stepOf_eq_ok, modeReg_eq_ok, Except.ok.injEq,
      Prod.mk.injEq, reduceCtorEq] at h <;>
    rename_i hk
  · obtain ⟨a, _, rfl, rfl, rfl⟩ := h
    exact ⟨congrArg some (BitVec.eq_of_toNat_eq hk.symm), rfl⟩
  · obtain ⟨a, _, rfl, rfl, rfl⟩ := h
    exact ⟨congrArg some (BitVec.eq_of_toNat_eq hk.symm), rfl⟩
  · obtain ⟨a, _, rfl, rfl, rfl⟩ := h
    exact ⟨congrArg some (BitVec.eq_of_toNat_eq hk.symm), rfl⟩
  · obtain ⟨b, _, rfl, h⟩ := h
    obtain rfl : k = 3 := BitVec.eq_of_toNat_eq hk
    exact decodeMode3_ok h
  · obtain ⟨b, _, rfl, st, hst, r, hr, rfl, rfl⟩ := h
    exact ⟨congrArg some (BitVec.eq_of_toNat_eq hk.symm), by rw [eq_code6_append_iff.2 ⟨hr, hst⟩]; rfl⟩
  · obtain ⟨b, _, rfl, st, hst, r, hr, rfl, rfl⟩ := h
    exact ⟨congrArg some (BitVec.eq_of_toNat_eq hk.symm), by rw [eq_code6_append_iff.2 ⟨hr, hst⟩]; rfl⟩

/-- The register and the step of a mode byte that holds them. -/
theorem modeReg_append (r : Reg32) (k : BitVec 2) : modeReg (code6 r ++ k) = .ok r :=
  modeReg_eq_ok.2 BitVec.extractLsb'_append_eq_left

theorem stepOf_append (r : Reg32) (st : Step) : stepOf (code6 r ++ stepCode st) = .ok st :=
  stepOf_eq_ok.2 BitVec.extractLsb'_append_eq_right

theorem ok_bind {ε α β : Type} (a : α) (f : α → Except ε β) : (Except.ok a >>= f) = f a := rfl

theorem decodeMode3_modeBytes {b : Byte} {bs rest : List Byte} {m : MemOp} (hm : m.modeCode = some 3)
    (h : b :: bs = m.modeBytes ++ rest) : decodeMode3 b bs = .ok (m, rest) := by
  cases m with
  | indReg r =>
    obtain ⟨rfl, rfl⟩ := List.cons.inj h
    have hlo : ((code6 r ++ 0#2 : Byte).extractLsb' 0 2).toNat = 0 := by rw [BitVec.extractLsb'_append_eq_right]; rfl
    simp only [decodeMode3, hlo, modeReg_append, ok_bind]
  | disp16 r d =>
    obtain ⟨rfl, rfl⟩ := List.cons.inj h
    have hlo : ((code6 r ++ 1#2 : Byte).extractLsb' 0 2).toNat = 1 := by rw [BitVec.extractLsb'_append_eq_right]; rfl
    simp only [decodeMode3, hlo, modeReg_append, List.append_eq, takeLE_toLE, ok_bind]
  | index8 r x part =>
    obtain ⟨rfl, rfl⟩ := List.cons.inj h
    obtain ⟨hx, hp⟩ := (eq_regCode_iff (sz := .b) (r := x) (part := part)).1 rfl
    simp only [decodeMode3, List.append_eq, List.cons_append, List.nil_append, Machine.take8_cons, ok_bind,
      longReg_eq_ok.2 rfl, hx, hp]
    rfl
  | index16 r x part =>
    obtain ⟨rfl, rfl⟩ := List.cons.inj h
    obtain ⟨hx, hp⟩ := (eq_regCode_iff (sz := .w) (r := x) (part := part)).1 rfl
    simp only [decodeMode3, List.append_eq, List.cons_append, List.nil_append, Machine.take8_cons, ok_bind,
      longReg_eq_ok.2 rfl, hx, hp]
    rfl
  | ind c => exact nomatch hm
  | disp8 c d => exact nomatch hm
  | abs8 a => exact nomatch hm
  | abs16 a => exact nomatch hm
  | abs24 a => exact nomatch hm
  | preDec r st => exact nomatch hm
  | postInc r st => exact nomatch hm

theorem bind_of_ok {ε α β : Type} {x : Except ε α} {a : α} {f : α → Except ε β} {y : Except ε β} (h : x = .ok a)
    (hf : f a = y) : (x >>= f) = y := by
  rw [h]; exact hf

theorem decodeMode_modeBytes {k : BitVec 3} {m : MemOp} (rest : List Byte) (h : m.modeCode = some k) :
    decodeMode k (m.modeBytes ++ rest) = .ok (m, rest) := by
  cases m with
  | ind c => exact nomatch h
  | disp8 c d => exact nomatch h
  | abs8 a => obtain rfl := Option.some.inj h; exact bind_of_ok (takeLE_toLE 1 a rest) rfl
  | abs16 a => obtain rfl := Option.some.inj h; exact bind_of_ok (takeLE_toLE 2 a rest) rfl
  | abs24 a => obtain rfl := Option.some.inj h; exact bind_of_ok (takeLE_toLE 3 a rest) rfl
  | preDec r st =>
    obtain rfl := Option.some.inj h
    exact bind_of_ok (Machine.take8_cons _ rest) (bind_of_ok (stepOf_append r st) (bind_of_ok (modeReg_append r _) rfl))
  | postInc r st =>
    obtain rfl := Option.some.inj h
    exact bind_of_ok (Machine.take8_cons _ rest) (bind_of_ok (stepOf_append r st) (bind_of_ok (modeReg_append r _) rfl))
  | _ =>
    obtain rfl := Option.some.inj h
    exact bind_of_ok (Machine.take8_cons _ _) (decodeMode3_modeBytes rfl rfl)
/-! ## The classes of first bytes (R104) -/

theorem decode_short (sz : Size) (c : BitVec 3) (bs : List Byte) :
    decode (opByte (3#2 ++ sizeCode sz ++ 1#1) c :: bs) = decodeRegShort sz (opByte (3#2 ++ sizeCode sz ++ 1#1) c) bs := by
  rw [decode, hi5_opByte]
  cases sz <;> rfl

theorem decode_extended (sz : Size) (k : BitVec 3) (bs : List Byte) :
    decode (opByte (3#2 ++ sizeCode sz ++ 0#1) k :: bs) = decodeExtended sz (opByte (3#2 ++ sizeCode sz ++ 0#1) k) bs := by
  rw [decode, hi5_opByte]
  cases sz <;> rfl

/-- The `reg` class (R108, R110, R131). -/
theorem decode_rawBytes (sz : Size) (raw : RawReg) (op : Byte) (bs : List Byte) :
    decode (raw.bytes sz ++ op :: bs) = decodeReg sz raw op bs := by
  cases raw with
  | short c =>
    refine (decode_short sz c _).trans (bind_of_ok (Machine.take8_cons op bs) ?_)
    rw [lo3_opByte]
  | ext code =>
    refine (decode_extended sz 7 _).trans ?_
    rw [decodeExtended, lo3_opByte, if_pos rfl]
    exact bind_of_ok (Machine.take8_cons code _) (bind_of_ok (Machine.take8_cons op bs) rfl)

theorem decode_encodeRegOp {sz : Size} (r : RegOp sz) (op : Byte) (bs : List Byte) :
    decode (encodeRegOp r ++ op :: bs) = decodeReg sz r.raw op bs := by
  rw [← RegOp.bytes_raw, decode_rawBytes]

theorem decode_encodeDblOp {z : SizeBW} (rr : DblOp z) (op : Byte) (bs : List Byte) :
    decode (encodeDblOp rr ++ op :: bs) = decodeReg z.size rr.raw op bs := by
  rw [← DblOp.bytes_raw, decode_rawBytes]

theorem MemOp.modeCode_ne_seven {m : MemOp} {k : BitVec 3} (h : m.modeCode = some k) : k ≠ 7 := by
  rintro rfl
  cases m <;> simp [MemOp.modeCode] at h

/-- The `src` class (R132). -/
theorem decode_encodeMem_size (sz : Size) (m : MemOp) (op : Byte) (bs : List Byte) :
    decode (encodeMem (sizeCode sz) m ++ op :: bs) = decodeSrc sz m op bs := by
  cases hm : m.modeCode with
  | some k =>
    rw [encodeMem_of_modeCode _ hm]
    refine (decode_extended sz k _).trans ?_
    rw [decodeExtended, lo3_opByte, if_neg (MemOp.modeCode_ne_seven hm)]
    exact bind_of_ok (decodeMode_modeBytes _ hm) (bind_of_ok (Machine.take8_cons op bs) rfl)
  | none =>
    cases m with
    | ind c =>
      have h : decode (opByte (2#2 ++ sizeCode sz ++ 0#1) c :: op :: bs) =
          decodeSrcInd sz (opByte (2#2 ++ sizeCode sz ++ 0#1) c) (op :: bs) := by
        rw [decode, hi5_opByte]; cases sz <;> rfl
      refine h.trans (bind_of_ok (Machine.take8_cons op bs) ?_)
      rw [lo3_opByte]
    | disp8 c d =>
      have h : decode (opByte (2#2 ++ sizeCode sz ++ 1#1) c :: d :: op :: bs) =
          decodeSrcDisp sz (opByte (2#2 ++ sizeCode sz ++ 1#1) c) (d :: op :: bs) := by
        rw [decode, hi5_opByte]; cases sz <;> rfl
      refine h.trans (bind_of_ok (Machine.take8_cons d _) (bind_of_ok (Machine.take8_cons op bs) ?_))
      rw [lo3_opByte]
    | _ => exact nomatch hm

/-- No memory operand has the mode byte that stands for LDAR (R125). -/
theorem MemOp.head_modeBytes_ne {m : MemOp} (l : List Byte) (h : m.modeCode = some 3) :
    (m.modeBytes ++ l).head? ≠ some 0x13 := by
  cases m with
  | indReg r | disp16 r =>
    intro e
    exact absurd (congrArg (fun b : Byte => b.extractLsb' 0 2) (Option.some.inj e))
      (by rw [BitVec.extractLsb'_append_eq_right]; decide)
  | index8 r x part | index16 r x part => exact fun e => absurd (Option.some.inj e) (by decide)
  | _ => exact nomatch h

/-- The `dst` class (R133). -/
theorem decode_encodeMem_dst (m : MemOp) (op : Byte) (bs : List Byte) :
    decode (encodeMem 3 m ++ op :: bs) = decodeDst m op bs := by
  cases hm : m.modeCode with
  | some k =>
    have h : decode (opByte 0x1E k :: (m.modeBytes ++ op :: bs)) =
        decodeDstExtended (opByte 0x1E k) (m.modeBytes ++ op :: bs) := by
      rw [decode, hi5_opByte]; rfl
    rw [encodeMem_of_modeCode _ hm]
    refine h.trans ?_
    rw [decodeDstExtended, lo3_opByte, if_neg]
    · exact bind_of_ok (decodeMode_modeBytes _ hm) (bind_of_ok (Machine.take8_cons op bs) rfl)
    · rintro ⟨hb, hhead⟩
      obtain rfl : k = 3 := ((eq_opByte_iff 0xF3 0x1E k).1 hb.symm).2.symm
      exact MemOp.head_modeBytes_ne _ hm hhead
  | none =>
    cases m with
    | ind c =>
      have h : decode (opByte 0x16 c :: op :: bs) =
          (take8 (op :: bs) >>= fun p => decodeDst (.ind c) p.1 p.2) := by
        rw [decode, hi5_opByte, lo3_opByte]; rfl
      exact h.trans (bind_of_ok (Machine.take8_cons op bs) rfl)
    | disp8 c d =>
      have h : decode (opByte 0x17 c :: d :: op :: bs) =
          (takeLE 1 (d :: op :: bs) >>= fun p => take8 p.2 >>= fun q => decodeDst (.disp8 c p.1) q.1 q.2) := by
        rw [decode, hi5_opByte, lo3_opByte]; rfl
      exact h.trans (bind_of_ok (Machine.take8_cons d _) (bind_of_ok (Machine.take8_cons op bs) rfl))
    | _ => exact nomatch hm

/-- LDAR (R125, R186). -/
theorem decode_ldar (op : Byte) (d : Word) (bs : List Byte) :
    decode (0xF3 :: 0x13 :: (toLE 2 d ++ op :: bs)) =
      match (hi5 op).toNat with
      | 4 => .ok (.ldarW (lo3 op) d, bs)
      | 6 => .ok (.ldarL (lo3 op) d, bs)
      | _ => .error .firstByte :=
  bind_of_ok (takeLE_toLE 2 d _) (bind_of_ok (Machine.take8_cons op bs) rfl)

end Sys2Proof
end

section
/-! SUPPORT. Proof that the decoder reads every well-formed instruction back (R104 to R106): for each constructor, the
readers that its row of the code maps calls, in order, each on what the encoder writes for the operand. -/

namespace Sys2Proof

/-! ## Each reader on what the encoder writes, and then the rest of a row -/

section

variable {β : Type} {y : Except DecodeError β}

theorem readBW (z : SizeBW) {f : SizeBW → Except DecodeError β} (h : f z = y) : (needBW z.size >>= f) = y :=
  bind_of_ok (needBW_eq_ok.2 rfl) h

theorem readWL (z : SizeWL) {f : SizeWL → Except DecodeError β} (h : f z = y) :
    (needWL z.size >>= f) = y :=
  bind_of_ok (needWL_eq_ok.2 rfl) h

theorem readSize {sz : Size} {f : Unit → Except DecodeError β} (h : f () = y) :
    (needSize sz sz >>= f) = y :=
  bind_of_ok (needSize_eq_ok.2 rfl) h

theorem readReg {sz : Size} (r : RegOp sz) {f : RegOp sz → Except DecodeError β}
    (h : f r = y) : (regOp sz r.raw >>= f) = y :=
  bind_of_ok (regOp_eq_ok.2 rfl) h

theorem readDbl {z : SizeBW} (rr : DblOp z) {f : DblOp z → Except DecodeError β}
    (h : f rr = y) : (dblOp z rr.raw >>= f) = y :=
  bind_of_ok (dblOp_eq_ok.2 rfl) h

theorem readDblCode {z : SizeBW} (RR : BitVec z.dblBits) {f : BitVec z.dblBits → Except DecodeError β}
    (h : f RR = y) : (dblCode z (encodeDbl z RR) >>= f) = y :=
  bind_of_ok (dblCode_eq_ok.2 rfl) h

theorem readCtrl (cr : CtrlReg) {f : CtrlReg → Except DecodeError β}
    (h : f cr = y) : (ctrlRegOf cr.size (ctrlCode cr) >>= f) = y :=
  bind_of_ok (ctrlRegOf_ctrlCode cr) h

theorem readImm (nb : Nat) (v : BitVec (8 * nb)) (rest : List Byte)
    {f : BitVec (8 * nb) × List Byte → Except DecodeError β} (h : f (v, rest) = y) :
    (takeLE nb (toLE nb v ++ rest) >>= f) = y :=
  bind_of_ok (takeLE_toLE nb v rest) h

theorem readByte (b : Byte) (rest : List Byte) {f : Byte × List Byte → Except DecodeError β}
    (h : f (b, rest) = y) : (take8 (b :: rest) >>= f) = y :=
  bind_of_ok (Machine.take8_cons b rest) h

theorem readNum4 (num : BitVec 4) (rest : List Byte) {f : BitVec 4 × List Byte → Except DecodeError β}
    (h : f (num, rest) = y) : (takeNum4 ((0#4 ++ num : Byte) :: rest) >>= f) = y :=
  bind_of_ok (takeNum4_eq_ok.2 rfl) h

theorem readPair (p : BlockPair) {f : BlockPair → Except DecodeError β}
    (h : f p = y) : (blockPair (pairMode p) >>= f) = y :=
  bind_of_ok (by cases p <;> rfl) h

theorem readPointer (R : BitVec 3) {f : BitVec 3 → Except DecodeError β}
    (h : f R = y) : (comparePointer (.ind R) >>= f) = y :=
  bind_of_ok rfl h

end

/-! ## One instruction -/

/-- The instruction is read back from its bytes, and the bytes after it are left. -/
def Instr.ReadBack (i : Instr) : Prop := ∀ rest, decode (encode i ++ rest) = .ok (i, rest)

theorem Instr.ReadBack.of_op {i : Instr} {b : Byte} {tail : List Byte} (he : encode i = b :: tail)
    (hd : ∀ rest, decode (b :: (tail ++ rest)) = .ok (i, rest)) : i.ReadBack := by
  intro rest
  rw [he, List.cons_append, hd]

theorem Instr.ReadBack.of_reg {i : Instr} {sz : Size} {r : RegOp sz} {op : Byte} {tail : List Byte}
    (he : encode i = encodeRegOp r ++ op :: tail)
    (hd : ∀ rest, decodeReg sz r.raw op (tail ++ rest) = .ok (i, rest)) : i.ReadBack := by
  intro rest
  rw [he, List.append_assoc, List.cons_append, decode_encodeRegOp, hd]

theorem Instr.ReadBack.of_dbl {i : Instr} {z : SizeBW} {rr : DblOp z} {op : Byte} {tail : List Byte}
    (he : encode i = encodeDblOp rr ++ op :: tail)
    (hd : ∀ rest, decodeReg z.size rr.raw op (tail ++ rest) = .ok (i, rest)) : i.ReadBack := by
  intro rest
  rw [he, List.append_assoc, List.cons_append, decode_encodeDblOp, hd]

theorem Instr.ReadBack.of_src {i : Instr} {sz : Size} {m : MemOp} {op : Byte} {tail : List Byte}
    (he : encode i = encodeMem (sizeCode sz) m ++ op :: tail)
    (hd : ∀ rest, decodeSrc sz m op (tail ++ rest) = .ok (i, rest)) : i.ReadBack := by
  intro rest
  rw [he, List.append_assoc, List.cons_append, decode_encodeMem_size, hd]

theorem Instr.ReadBack.of_dst {i : Instr} {m : MemOp} {op : Byte} {tail : List Byte}
    (he : encode i = encodeMem 3 m ++ op :: tail)
    (hd : ∀ rest, decodeDst m op (tail ++ rest) = .ok (i, rest)) : i.ReadBack := by
  intro rest
  rw [he, List.append_assoc, List.cons_append, decode_encodeMem_dst, hd]

theorem Instr.ReadBack.of_ldar {i : Instr} {d : Word} {op : Byte} (he : encode i = 0xF3 :: 0x13 :: (toLE 2 d ++ [op]))
    (hd : ∀ rest, decode (0xF3 :: 0x13 :: (toLE 2 d ++ op :: rest)) = .ok (i, rest)) : i.ReadBack := by
  intro rest
  rw [he, List.cons_append, List.cons_append, List.append_assoc]
  exact hd rest

/-- Every row of the code maps (R104, R131 to R133). -/
theorem Instr.readBack (i : Instr) (h : i.wf = true) : i.ReadBack := by
  cases i with
  | nop => exact .of_op rfl fun rest => rfl
  | pushSr => exact .of_op rfl fun rest => rfl
  | popSr => exact .of_op rfl fun rest => rfl
  | halt => exact .of_op rfl fun rest => rfl
  | ei num =>
    have hnum : num ≠ 7 := fun e => by rw [e] at h; exact nomatch h
    exact .of_op rfl fun rest => bind_of_ok (takeNum3_eq_ok.2 rfl) (by simp only [if_neg hnum]; rfl)
  | di => exact .of_op rfl fun rest => rfl
  | reti => exact .of_op rfl fun rest => rfl
  | ldAbs8ImmB a imm => exact .of_op rfl fun rest => readImm 1 a _ <| readImm 1 imm _ rfl
  | pushImmB imm => exact .of_op rfl fun rest => readImm 1 imm _ rfl
  | ldAbs8ImmW a imm => exact .of_op rfl fun rest => readImm 1 a _ <| readImm 2 imm _ rfl
  | pushImmW imm => exact .of_op rfl fun rest => readImm 2 imm _ rfl
  | incf => exact .of_op rfl fun rest => rfl
  | decf => exact .of_op rfl fun rest => rfl
  | ret => exact .of_op rfl fun rest => rfl
  | retd d => exact .of_op rfl fun rest => readImm 2 d _ rfl
  | rcf => exact .of_op rfl fun rest => rfl
  | scf => exact .of_op rfl fun rest => rfl
  | ccf => exact .of_op rfl fun rest => rfl
  | zcf => exact .of_op rfl fun rest => rfl
  | pushA => exact .of_op rfl fun rest => rfl
  | popA => exact .of_op rfl fun rest => rfl
  | exFF => exact .of_op rfl fun rest => rfl
  | ldf num => exact .of_op rfl fun rest => bind_of_ok (takeNum2_eq_ok.2 rfl) rfl
  | pushF => exact .of_op rfl fun rest => rfl
  | popF => exact .of_op rfl fun rest => rfl
  | jp16 a => exact .of_op rfl fun rest => readImm 2 a _ rfl
  | jp24 a => exact .of_op rfl fun rest => readImm 3 a _ rfl
  | call16 a => exact .of_op rfl fun rest => readImm 2 a _ rfl
  | call24 a => exact .of_op rfl fun rest => readImm 3 a _ rfl
  | calr d => exact .of_op rfl fun rest => readImm 2 d _ rfl
  | ldCurImmB R imm => exact .of_op rfl fun rest => by rw [decode, hi5_opByte, lo3_opByte]; exact readImm 1 imm _ rfl
  | pushCurW R => exact .of_op rfl fun rest => by rw [decode, hi5_opByte, lo3_opByte]; rfl
  | ldCurImmW R imm => exact .of_op rfl fun rest => by rw [decode, hi5_opByte, lo3_opByte]; exact readImm 2 imm _ rfl
  | pushCurL R => exact .of_op rfl fun rest => by rw [decode, hi5_opByte, lo3_opByte]; rfl
  | ldCurImmL R imm => exact .of_op rfl fun rest => by rw [decode, hi5_opByte, lo3_opByte]; exact readImm 4 imm _ rfl
  | popCurW R => exact .of_op rfl fun rest => by rw [decode, hi5_opByte, lo3_opByte]; rfl
  | popCurL R => exact .of_op rfl fun rest => by rw [decode, hi5_opByte, lo3_opByte]; rfl
  | jr cc d => exact .of_op rfl fun rest => by cases cc <;> exact readImm 1 d _ rfl
  | jrl cc d => exact .of_op rfl fun rest => by cases cc <;> exact readImm 2 d _ rfl
  | swi num => exact .of_op rfl fun rest => by rw [decode, hi5_opByte, lo3_opByte]; rfl
  | ldRegImm sz r imm => exact .of_reg rfl fun rest => readReg r <| readImm sz.bytes imm rest rfl
  | pushReg sz r => exact .of_reg rfl fun rest => readReg r rfl
  | popReg sz r => exact .of_reg rfl fun rest => readReg r rfl
  | cpl z r => exact .of_reg rfl fun rest => readBW z <| readReg r rfl
  | neg z r => exact .of_reg rfl fun rest => readBW z <| readReg r rfl
  | mulImm z rr imm => exact .of_dbl rfl fun rest => readBW z <| readDbl rr <| readImm z.size.bytes imm rest rfl
  | mulsImm z rr imm => exact .of_dbl rfl fun rest => readBW z <| readDbl rr <| readImm z.size.bytes imm rest rfl
  | divImm z rr imm => exact .of_dbl rfl fun rest => readBW z <| readDbl rr <| readImm z.size.bytes imm rest rfl
  | divsImm z rr imm => exact .of_dbl rfl fun rest => readBW z <| readDbl rr <| readImm z.size.bytes imm rest rfl
  | link r d => exact .of_reg rfl fun rest => readSize <| readReg r <| readImm 2 d rest rfl
  | unlk r => exact .of_reg rfl fun rest => readSize <| readReg r rfl
  | bs1f r => exact .of_reg rfl fun rest => readSize <| readReg r rfl
  | bs1b r => exact .of_reg rfl fun rest => readSize <| readReg r rfl
  | daa r => exact .of_reg rfl fun rest => readSize <| readReg r rfl
  | extz z r => exact .of_reg rfl fun rest => readWL z <| readReg r rfl
  | exts z r => exact .of_reg rfl fun rest => readWL z <| readReg r rfl
  | paa z r => exact .of_reg rfl fun rest => readWL z <| readReg r rfl
  | mirr r => exact .of_reg rfl fun rest => readSize <| readReg r rfl
  | mula rr => exact .of_dbl rfl fun rest => readSize <| readDbl rr rfl
  | djnz z r d => exact .of_reg rfl fun rest => readBW z <| readReg r <| readImm 1 d rest rfl
  | andcfImmReg z r num => exact .of_reg rfl fun rest => readBW z <| readReg r <| readNum4 num rest rfl
  | andcfAReg z r => exact .of_reg rfl fun rest => readBW z <| readReg r rfl
  | orcfImmReg z r num => exact .of_reg rfl fun rest => readBW z <| readReg r <| readNum4 num rest rfl
  | orcfAReg z r => exact .of_reg rfl fun rest => readBW z <| readReg r rfl
  | xorcfImmReg z r num => exact .of_reg rfl fun rest => readBW z <| readReg r <| readNum4 num rest rfl
  | xorcfAReg z r => exact .of_reg rfl fun rest => readBW z <| readReg r rfl
  | ldcfImmReg z r num => exact .of_reg rfl fun rest => readBW z <| readReg r <| readNum4 num rest rfl
  | ldcfAReg z r => exact .of_reg rfl fun rest => readBW z <| readReg r rfl
  | stcfImmReg z r num => exact .of_reg rfl fun rest => readBW z <| readReg r <| readNum4 num rest rfl
  | stcfAReg z r => exact .of_reg rfl fun rest => readBW z <| readReg r rfl
  | ldcToCr cr r => exact .of_reg rfl fun rest => readByte _ rest <| readCtrl cr <| readReg r rfl
  | ldcFromCr cr r => exact .of_reg rfl fun rest => readByte _ rest <| readCtrl cr <| readReg r rfl
  | resReg z r num => exact .of_reg rfl fun rest => readBW z <| readReg r <| readNum4 num rest rfl
  | setReg z r num => exact .of_reg rfl fun rest => readBW z <| readReg r <| readNum4 num rest rfl
  | chgReg z r num => exact .of_reg rfl fun rest => readBW z <| readReg r <| readNum4 num rest rfl
  | bitReg z r num => exact .of_reg rfl fun rest => readBW z <| readReg r <| readNum4 num rest rfl
  | tsetReg z r num => exact .of_reg rfl fun rest => readBW z <| readReg r <| readNum4 num rest rfl
  | minc1 r field => exact .of_reg rfl fun rest => readSize <| readReg r <| readImm 2 field rest rfl
  | minc2 r field => exact .of_reg rfl fun rest => readSize <| readReg r <| readImm 2 field rest rfl
  | minc4 r field => exact .of_reg rfl fun rest => readSize <| readReg r <| readImm 2 field rest rfl
  | mdec1 r field => exact .of_reg rfl fun rest => readSize <| readReg r <| readImm 2 field rest rfl
  | mdec2 r field => exact .of_reg rfl fun rest => readSize <| readReg r <| readImm 2 field rest rfl
  | mdec4 r field => exact .of_reg rfl fun rest => readSize <| readReg r <| readImm 2 field rest rfl
  | mulReg z RR r =>
    exact .of_reg rfl fun rest => by
      rw [decodeReg, hi5_opByte, lo3_opByte]; exact readBW z <| readDblCode RR <| readReg r rfl
  | mulsReg z RR r =>
    exact .of_reg rfl fun rest => by
      rw [decodeReg, hi5_opByte, lo3_opByte]; exact readBW z <| readDblCode RR <| readReg r rfl
  | divReg z RR r =>
    exact .of_reg rfl fun rest => by
      rw [decodeReg, hi5_opByte, lo3_opByte]; exact readBW z <| readDblCode RR <| readReg r rfl
  | divsReg z RR r =>
    exact .of_reg rfl fun rest => by
      rw [decodeReg, hi5_opByte, lo3_opByte]; exact readBW z <| readDblCode RR <| readReg r rfl
  | incReg sz r num => exact .of_reg rfl fun rest => by rw [decodeReg, hi5_opByte, lo3_opByte]; exact readReg r rfl
  | decReg sz r num => exact .of_reg rfl fun rest => by rw [decodeReg, hi5_opByte, lo3_opByte]; exact readReg r rfl
  | scc z r cc => exact .of_reg rfl fun rest => by cases cc <;> exact readBW z <| readReg r rfl
  | addCurReg sz R r => exact .of_reg rfl fun rest => by rw [decodeReg, hi5_opByte, lo3_opByte]; exact readReg r rfl
  | addRegImm sz r imm => exact .of_reg rfl fun rest => readReg r <| readImm sz.bytes imm rest rfl
  | adcCurReg sz R r => exact .of_reg rfl fun rest => by rw [decodeReg, hi5_opByte, lo3_opByte]; exact readReg r rfl
  | adcRegImm sz r imm => exact .of_reg rfl fun rest => readReg r <| readImm sz.bytes imm rest rfl
  | subCurReg sz R r => exact .of_reg rfl fun rest => by rw [decodeReg, hi5_opByte, lo3_opByte]; exact readReg r rfl
  | subRegImm sz r imm => exact .of_reg rfl fun rest => readReg r <| readImm sz.bytes imm rest rfl
  | sbcCurReg sz R r => exact .of_reg rfl fun rest => by rw [decodeReg, hi5_opByte, lo3_opByte]; exact readReg r rfl
  | sbcRegImm sz r imm => exact .of_reg rfl fun rest => readReg r <| readImm sz.bytes imm rest rfl
  | andCurReg sz R r => exact .of_reg rfl fun rest => by rw [decodeReg, hi5_opByte, lo3_opByte]; exact readReg r rfl
  | andRegImm sz r imm => exact .of_reg rfl fun rest => readReg r <| readImm sz.bytes imm rest rfl
  | xorCurReg sz R r => exact .of_reg rfl fun rest => by rw [decodeReg, hi5_opByte, lo3_opByte]; exact readReg r rfl
  | xorRegImm sz r imm => exact .of_reg rfl fun rest => readReg r <| readImm sz.bytes imm rest rfl
  | orCurReg sz R r => exact .of_reg rfl fun rest => by rw [decodeReg, hi5_opByte, lo3_opByte]; exact readReg r rfl
  | orRegImm sz r imm => exact .of_reg rfl fun rest => readReg r <| readImm sz.bytes imm rest rfl
  | cpCurReg sz R r => exact .of_reg rfl fun rest => by rw [decodeReg, hi5_opByte, lo3_opByte]; exact readReg r rfl
  | cpRegImm sz r imm => exact .of_reg rfl fun rest => readReg r <| readImm sz.bytes imm rest rfl
  | ldCurReg sz R r => exact .of_reg rfl fun rest => by rw [decodeReg, hi5_opByte, lo3_opByte]; exact readReg r rfl
  | ldRegCur sz r R => exact .of_reg rfl fun rest => by rw [decodeReg, hi5_opByte, lo3_opByte]; exact readReg r rfl
  | ldRegImm3 sz r imm => exact .of_reg rfl fun rest => by rw [decodeReg, hi5_opByte, lo3_opByte]; exact readReg r rfl
  | exCurReg z R r =>
    exact .of_reg rfl fun rest => by rw [decodeReg, hi5_opByte, lo3_opByte]; exact readBW z <| readReg r rfl
  | cpRegImm3 z r imm =>
    exact .of_reg rfl fun rest => by rw [decodeReg, hi5_opByte, lo3_opByte]; exact readBW z <| readReg r rfl
  | rlcImmReg sz r num => exact .of_reg rfl fun rest => readReg r <| readNum4 num rest rfl
  | rlcAReg sz r => exact .of_reg rfl fun rest => readReg r rfl
  | rrcImmReg sz r num => exact .of_reg rfl fun rest => readReg r <| readNum4 num rest rfl
  | rrcAReg sz r => exact .of_reg rfl fun rest => readReg r rfl
  | rlImmReg sz r num => exact .of_reg rfl fun rest => readReg r <| readNum4 num rest rfl
  | rlAReg sz r => exact .of_reg rfl fun rest => readReg r rfl
  | rrImmReg sz r num => exact .of_reg rfl fun rest => readReg r <| readNum4 num rest rfl
  | rrAReg sz r => exact .of_reg rfl fun rest => readReg r rfl
  | slaImmReg sz r num => exact .of_reg rfl fun rest => readReg r <| readNum4 num rest rfl
  | slaAReg sz r => exact .of_reg rfl fun rest => readReg r rfl
  | sraImmReg sz r num => exact .of_reg rfl fun rest => readReg r <| readNum4 num rest rfl
  | sraAReg sz r => exact .of_reg rfl fun rest => readReg r rfl
  | sllImmReg sz r num => exact .of_reg rfl fun rest => readReg r <| readNum4 num rest rfl
  | sllAReg sz r => exact .of_reg rfl fun rest => readReg r rfl
  | srlImmReg sz r num => exact .of_reg rfl fun rest => readReg r <| readNum4 num rest rfl
  | srlAReg sz r => exact .of_reg rfl fun rest => readReg r rfl
  | pushMem z m => exact .of_src rfl fun rest => readBW z rfl
  | rld m => exact .of_src rfl fun rest => readSize rfl
  | rrd m => exact .of_src rfl fun rest => readSize rfl
  | ldi z p => exact .of_src rfl fun rest => readBW z <| readPair p rfl
  | ldir z p => exact .of_src rfl fun rest => readBW z <| readPair p rfl
  | ldd z p => exact .of_src rfl fun rest => readBW z <| readPair p rfl
  | lddr z p => exact .of_src rfl fun rest => readBW z <| readPair p rfl
  | cpi z R => exact .of_src rfl fun rest => readBW z <| readPointer R rfl
  | cpir z R => exact .of_src rfl fun rest => readBW z <| readPointer R rfl
  | cpd z R => exact .of_src rfl fun rest => readBW z <| readPointer R rfl
  | cpdr z R => exact .of_src rfl fun rest => readBW z <| readPointer R rfl
  | ldAbs16Mem z a m => exact .of_src rfl fun rest => readBW z <| readImm 2 a rest rfl
  | ldCurMem sz R m => exact .of_src rfl fun rest => by rw [decodeSrc, hi5_opByte, lo3_opByte]; rfl
  | exMemCur z m R => exact .of_src rfl fun rest => by rw [decodeSrc, hi5_opByte, lo3_opByte]; exact readBW z rfl
  | addMemImm z m imm => exact .of_src rfl fun rest => readBW z <| readImm z.size.bytes imm rest rfl
  | addCurMem sz R m => exact .of_src rfl fun rest => by rw [decodeSrc, hi5_opByte, lo3_opByte]; rfl
  | addMemCur sz m R => exact .of_src rfl fun rest => by rw [decodeSrc, hi5_opByte, lo3_opByte]; rfl
  | adcMemImm z m imm => exact .of_src rfl fun rest => readBW z <| readImm z.size.bytes imm rest rfl
  | adcCurMem sz R m => exact .of_src rfl fun rest => by rw [decodeSrc, hi5_opByte, lo3_opByte]; rfl
  | adcMemCur sz m R => exact .of_src rfl fun rest => by rw [decodeSrc, hi5_opByte, lo3_opByte]; rfl
  | subMemImm z m imm => exact .of_src rfl fun rest => readBW z <| readImm z.size.bytes imm rest rfl
  | subCurMem sz R m => exact .of_src rfl fun rest => by rw [decodeSrc, hi5_opByte, lo3_opByte]; rfl
  | subMemCur sz m R => exact .of_src rfl fun rest => by rw [decodeSrc, hi5_opByte, lo3_opByte]; rfl
  | sbcMemImm z m imm => exact .of_src rfl fun rest => readBW z <| readImm z.size.bytes imm rest rfl
  | sbcCurMem sz R m => exact .of_src rfl fun rest => by rw [decodeSrc, hi5_opByte, lo3_opByte]; rfl
  | sbcMemCur sz m R => exact .of_src rfl fun rest => by rw [decodeSrc, hi5_opByte, lo3_opByte]; rfl
  | andMemImm z m imm => exact .of_src rfl fun rest => readBW z <| readImm z.size.bytes imm rest rfl
  | andCurMem sz R m => exact .of_src rfl fun rest => by rw [decodeSrc, hi5_opByte, lo3_opByte]; rfl
  | andMemCur sz m R => exact .of_src rfl fun rest => by rw [decodeSrc, hi5_opByte, lo3_opByte]; rfl
  | xorMemImm z m imm => exact .of_src rfl fun rest => readBW z <| readImm z.size.bytes imm rest rfl
  | xorCurMem sz R m => exact .of_src rfl fun rest => by rw [decodeSrc, hi5_opByte, lo3_opByte]; rfl
  | xorMemCur sz m R => exact .of_src rfl fun rest => by rw [decodeSrc, hi5_opByte, lo3_opByte]; rfl
  | orMemImm z m imm => exact .of_src rfl fun rest => readBW z <| readImm z.size.bytes imm rest rfl
  | orCurMem sz R m => exact .of_src rfl fun rest => by rw [decodeSrc, hi5_opByte, lo3_opByte]; rfl
  | orMemCur sz m R => exact .of_src rfl fun rest => by rw [decodeSrc, hi5_opByte, lo3_opByte]; rfl
  | cpMemImm z m imm => exact .of_src rfl fun rest => readBW z <| readImm z.size.bytes imm rest rfl
  | cpCurMem sz R m => exact .of_src rfl fun rest => by rw [decodeSrc, hi5_opByte, lo3_opByte]; rfl
  | cpMemCur sz m R => exact .of_src rfl fun rest => by rw [decodeSrc, hi5_opByte, lo3_opByte]; rfl
  | mulMem z RR m =>
    exact .of_src rfl fun rest => by rw [decodeSrc, hi5_opByte, lo3_opByte]; exact readBW z <| readDblCode RR rfl
  | mulsMem z RR m =>
    exact .of_src rfl fun rest => by rw [decodeSrc, hi5_opByte, lo3_opByte]; exact readBW z <| readDblCode RR rfl
  | divMem z RR m =>
    exact .of_src rfl fun rest => by rw [decodeSrc, hi5_opByte, lo3_opByte]; exact readBW z <| readDblCode RR rfl
  | divsMem z RR m =>
    exact .of_src rfl fun rest => by rw [decodeSrc, hi5_opByte, lo3_opByte]; exact readBW z <| readDblCode RR rfl
  | incMem z num m => exact .of_src rfl fun rest => by rw [decodeSrc, hi5_opByte, lo3_opByte]; exact readBW z rfl
  | decMem z num m => exact .of_src rfl fun rest => by rw [decodeSrc, hi5_opByte, lo3_opByte]; exact readBW z rfl
  | rlcMem z m => exact .of_src rfl fun rest => readBW z rfl
  | rrcMem z m => exact .of_src rfl fun rest => readBW z rfl
  | rlMem z m => exact .of_src rfl fun rest => readBW z rfl
  | rrMem z m => exact .of_src rfl fun rest => readBW z rfl
  | slaMem z m => exact .of_src rfl fun rest => readBW z rfl
  | sraMem z m => exact .of_src rfl fun rest => readBW z rfl
  | sllMem z m => exact .of_src rfl fun rest => readBW z rfl
  | srlMem z m => exact .of_src rfl fun rest => readBW z rfl
  | ldMemImmB m imm => exact .of_dst rfl fun rest => readImm 1 imm rest rfl
  | ldMemImmW m imm => exact .of_dst rfl fun rest => readImm 2 imm rest rfl
  | popMemB m => exact .of_dst rfl fun rest => rfl
  | popMemW m => exact .of_dst rfl fun rest => rfl
  | ldMemAbs16B m a => exact .of_dst rfl fun rest => readImm 2 a rest rfl
  | ldMemAbs16W m a => exact .of_dst rfl fun rest => readImm 2 a rest rfl
  | ldaW R m => exact .of_dst rfl fun rest => by rw [decodeDst, hi5_opByte, lo3_opByte]; rfl
  | ldaL R m => exact .of_dst rfl fun rest => by rw [decodeDst, hi5_opByte, lo3_opByte]; rfl
  | andcfAMem m => exact .of_dst rfl fun rest => rfl
  | andcfImmMem num m => exact .of_dst rfl fun rest => by rw [decodeDst, hi5_opByte, lo3_opByte]; rfl
  | orcfAMem m => exact .of_dst rfl fun rest => rfl
  | orcfImmMem num m => exact .of_dst rfl fun rest => by rw [decodeDst, hi5_opByte, lo3_opByte]; rfl
  | xorcfAMem m => exact .of_dst rfl fun rest => rfl
  | xorcfImmMem num m => exact .of_dst rfl fun rest => by rw [decodeDst, hi5_opByte, lo3_opByte]; rfl
  | ldcfAMem m => exact .of_dst rfl fun rest => rfl
  | ldcfImmMem num m => exact .of_dst rfl fun rest => by rw [decodeDst, hi5_opByte, lo3_opByte]; rfl
  | stcfAMem m => exact .of_dst rfl fun rest => rfl
  | stcfImmMem num m => exact .of_dst rfl fun rest => by rw [decodeDst, hi5_opByte, lo3_opByte]; rfl
  | ldMemCurB m R => exact .of_dst rfl fun rest => by rw [decodeDst, hi5_opByte, lo3_opByte]; rfl
  | ldMemCurW m R => exact .of_dst rfl fun rest => by rw [decodeDst, hi5_opByte, lo3_opByte]; rfl
  | ldMemCurL m R => exact .of_dst rfl fun rest => by rw [decodeDst, hi5_opByte, lo3_opByte]; rfl
  | tsetMem num m => exact .of_dst rfl fun rest => by rw [decodeDst, hi5_opByte, lo3_opByte]; rfl
  | resMem num m => exact .of_dst rfl fun rest => by rw [decodeDst, hi5_opByte, lo3_opByte]; rfl
  | setMem num m => exact .of_dst rfl fun rest => by rw [decodeDst, hi5_opByte, lo3_opByte]; rfl
  | chgMem num m => exact .of_dst rfl fun rest => by rw [decodeDst, hi5_opByte, lo3_opByte]; rfl
  | bitMem num m => exact .of_dst rfl fun rest => by rw [decodeDst, hi5_opByte, lo3_opByte]; rfl
  | jpMem cc m => exact .of_dst rfl fun rest => by cases cc <;> rfl
  | callMem cc m => exact .of_dst rfl fun rest => by cases cc <;> rfl
  | retCc cc => exact .of_op rfl fun rest => by cases cc <;> rfl
  | ldarW R d =>
    exact .of_ldar rfl fun rest => by rw [decode_ldar, hi5_opByte, lo3_opByte]; rfl
  | ldarL R d =>
    exact .of_ldar rfl fun rest => by rw [decode_ldar, hi5_opByte, lo3_opByte]; rfl

/-- Settles O1: one row of the code maps for each constructor. -/
theorem decodeEncodeRoundTrip : Obligations.DecodeEncodeRoundTrip := fun i rest h => i.readBack h rest

end Sys2Proof
end

section
/-! SUPPORT. What every instruction can do to the state, said once: it stores to memory, and changes registers, flags, PC,
the sign of a block compare and the count of free values; the few instructions that change more are told apart. -/

namespace Sys2Proof.Machine

/-! ## Two states that differ by stores and by what any instruction may change -/

/-- A property that stores keep, and that speaks of memory, of the record of written addresses and of the trail alone. -/
structure StoreClosed (P : State → Prop) : Prop where
  of_fields : ∀ {s t : State}, t.mem = s.mem → t.written = s.written → t.trail = s.trail → P s → P t
  memWrite : ∀ {s : State} (nb : Nat) (ea : Long) (v : BitVec (8 * nb)), P s → P (s.memWrite nb ea v)

/-- `t` is `s` after stores and changes of what every instruction may change. -/
structure Touches (s t : State) : Prop where
  iff : t.iff = s.iff
  rfp : t.rfp = s.rfp
  flagsAlt : t.flagsAlt = s.flagsAlt
  dmas : t.dmas = s.dmas
  dmad : t.dmad = s.dmad
  dmac : t.dmac = s.dmac
  dmam : t.dmam = s.dmam
  intnest : t.intnest = s.intnest
  halted : t.halted = s.halted
  host : t.host = s.host
  stores : ∀ P, StoreClosed P → P s → P t

/-- `t` is `s` after changes of what every instruction may change, without a store. -/
structure Keeps (s t : State) : Prop where
  iff : t.iff = s.iff
  rfp : t.rfp = s.rfp
  flagsAlt : t.flagsAlt = s.flagsAlt
  dmas : t.dmas = s.dmas
  dmad : t.dmad = s.dmad
  dmac : t.dmac = s.dmac
  dmam : t.dmam = s.dmam
  intnest : t.intnest = s.intnest
  halted : t.halted = s.halted
  host : t.host = s.host
  mem : t.mem = s.mem
  written : t.written = s.written
  trail : t.trail = s.trail

theorem Keeps.touches {s t : State} (h : Keeps s t) : Touches s t where
  iff := h.iff
  rfp := h.rfp
  flagsAlt := h.flagsAlt
  dmas := h.dmas
  dmad := h.dmad
  dmac := h.dmac
  dmam := h.dmam
  intnest := h.intnest
  halted := h.halted
  host := h.host
  stores _ hP := hP.of_fields h.mem h.written h.trail

theorem Touches.refl (s : State) : Touches s s where
  iff := rfl
  rfp := rfl
  flagsAlt := rfl
  dmas := rfl
  dmad := rfl
  dmac := rfl
  dmam := rfl
  intnest := rfl
  halted := rfl
  host := rfl
  stores _ _ := id

theorem Touches.trans {s t u : State} (h : Touches s t) (h' : Touches t u) : Touches s u where
  iff := h'.iff.trans h.iff
  rfp := h'.rfp.trans h.rfp
  flagsAlt := h'.flagsAlt.trans h.flagsAlt
  dmas := h'.dmas.trans h.dmas
  dmad := h'.dmad.trans h.dmad
  dmac := h'.dmac.trans h.dmac
  dmam := h'.dmam.trans h.dmam
  intnest := h'.intnest.trans h.intnest
  halted := h'.halted.trans h.halted
  host := h'.host.trans h.host
  stores P hP hs := h'.stores P hP (h.stores P hP hs)

/-- After stores and other changes, changes without a store. -/
theorem Touches.keep {s t u : State} (h : Touches s t) (h' : Keeps t u) : Touches s u := h.trans h'.touches

/-! ## The operations that store -/

theorem touches_memWrite (s : State) (nb : Nat) (ea : Long) (v : BitVec (8 * nb)) : Touches s (s.memWrite nb ea v) where
  iff := by simp
  rfp := by simp
  flagsAlt := by simp
  dmas := by simp
  dmad := by simp
  dmac := by simp
  dmam := by simp
  intnest := by simp
  halted := by simp
  host := by simp
  stores _ hP := hP.memWrite nb ea v

/-- A store, and then changes without one. -/
theorem Touches.store {s t u : State} (h : Touches s t) {nb : Nat} {ea : Long} {v : BitVec (8 * nb)}
    (h' : Keeps (t.memWrite nb ea v) u) : Touches s u :=
  (h.trans (touches_memWrite t nb ea v)).keep h'

theorem Keeps.refl (s : State) : Keeps s s := by constructor <;> rfl

theorem Keeps.trans {s t u : State} (h : Keeps s t) (h' : Keeps t u) : Keeps s u where
  iff := h'.iff.trans h.iff
  rfp := h'.rfp.trans h.rfp
  flagsAlt := h'.flagsAlt.trans h.flagsAlt
  dmas := h'.dmas.trans h.dmas
  dmad := h'.dmad.trans h.dmad
  dmac := h'.dmac.trans h.dmac
  dmam := h'.dmam.trans h.dmam
  intnest := h'.intnest.trans h.intnest
  halted := h'.halted.trans h.halted
  host := h'.host.trans h.host
  mem := h'.mem.trans h.mem
  written := h'.written.trans h.written
  trail := h'.trail.trans h.trail

theorem keeps_preStep (s : State) (m : MemOp) : Keeps s (s.preStep m) := by constructor <;> simp

theorem keeps_postStep (s : State) (m : MemOp) : Keeps s (s.postStep m) := by constructor <;> simp

theorem keeps_modeStep (s : State) (m : MemOp) : Keeps s ((s.preStep m).postStep m) := by constructor <;> simp

theorem keeps_writeLoc (s : State) {sz : Size} (l : Loc sz) (v : BitVec sz.bits) : Keeps s (s.writeLoc l v) := by
  constructor <;> simp

theorem keeps_postStepInto (s : State) {sz : Size} (m : MemOp) (l : Loc sz) : Keeps s (s.postStepInto m l) := by
  constructor <;> simp

theorem keeps_with_flags (s : State) (f : Flags) : Keeps s { s with flags := f } := by constructor <;> rfl

theorem keeps_drawn (s : State) : Keeps s s.drawn := by constructor <;> rfl

theorem touches_push (s : State) (nb : Nat) (v : BitVec (8 * nb)) : Touches s (s.push nb v) :=
  Touches.store (t := { s with xsp := s.xsp - BitVec.ofNat 32 nb }) (Keeps.touches (by constructor <;> rfl)) (.refl _)

theorem touches_pushLoc (s : State) {sz : Size} (l : Loc sz) : Touches s (s.pushLoc l) := by
  unfold State.pushLoc
  split
  · exact (keeps_drawn s).touches.trans (touches_push _ _ _)
  · exact touches_push _ _ _

theorem touches_pushMemOp (s : State) (z : SizeBW) (m : MemOp) : Touches s (s.pushMemOp z m) := by
  unfold State.pushMemOp
  simp only [State.noteRead_eq, State.modeStep_eq]
  split_ifs
  · exact (Keeps.touches (by constructor <;> simp)).trans (touches_push _ _ _)
  · exact (keeps_drawn s).touches.trans ((touches_push s.drawn _ _).keep (keeps_modeStep _ m))
  · exact (keeps_preStep s m).touches.trans ((touches_push _ _ _).keep (keeps_postStep _ m))

theorem touches_popMemOp (s : State) (z : SizeBW) (m : MemOp) : Touches s (s.popMemOp z m) := by
  unfold State.popMemOp
  simp only [State.modeStep_eq]
  split_ifs
  · exact (Keeps.touches (by constructor <;> simp)).store (.refl _)
  · exact Touches.store (t := s.drawn.popped z.size.bytes) (Keeps.touches (by constructor <;> simp))
      (keeps_modeStep _ m)
  · exact Touches.store (t := (s.preStep m).popped z.size.bytes) (Keeps.touches (by constructor <;> simp))
      (keeps_postStep _ m)

theorem touches_callPush (s : State) (m : MemOp) : Touches s (s.callPush m) := by
  unfold State.callPush
  split
  · exact (keeps_drawn s).touches.trans
      ((touches_push _ _ _).keep (keeps_modeStep _ m))
  · exact (Keeps.touches (t := s.addrStep m) (by constructor <;> simp)).trans (touches_push _ _ _)

theorem touches_takeException (s : State) (order : FrameOrder) (r : Long) (entry : BitVec 6) :
    Touches s (s.takeException order r entry) := by
  refine Touches.keep (t := s.pushFrame order r) ?_ (by constructor <;> simp [State.takeException])
  cases order with
  | interrupt => exact (touches_push s 4 r).trans (touches_push _ 2 s.sr)
  | software =>
    exact ((Keeps.touches (t := { s with xsp := s.xsp - 6 }) (by constructor <;> rfl)).store (.refl _)).store (.refl _)

theorem touches_storeVal (s : State) (nb : Nat) (m : MemOp) (v : BitVec (8 * nb)) : Touches s (s.storeVal nb m v) :=
  (keeps_preStep s m).touches.store (keeps_postStep _ m)

theorem touches_storeCur (s : State) (sz : Size) (m : MemOp) (R : BitVec 3) : Touches s (s.storeCur sz m R) :=
  Touches.store (Keeps.touches (by constructor <;> simp)) (keeps_postStep _ m)

theorem touches_aluMemCur (s : State) (op : AluOp) (sz : Size) (m : MemOp) (R : BitVec 3) :
    Touches s (s.aluMemCur op sz m R) := by
  unfold State.aluMemCur
  dsimp only
  split
  · exact Touches.store (Keeps.touches (by constructor <;> simp)) (keeps_postStep _ m)
  · exact Keeps.touches (by constructor <;> simp)

theorem touches_aluMemImm (s : State) (op : AluOp) (z : SizeBW) (m : MemOp) (imm : BitVec z.size.bits) :
    Touches s (s.aluMemImm op z m imm) := by
  unfold State.aluMemImm
  dsimp only
  split
  · exact Touches.store (Keeps.touches (by constructor <;> simp)) (keeps_postStep _ m)
  · exact Keeps.touches (by constructor <;> simp)

theorem touches_incDecMem (s : State) (up : Bool) (z : SizeBW) (num : BitVec 3) (m : MemOp) :
    Touches s (s.incDecMem up z num m) :=
  Touches.store (Keeps.touches (by constructor <;> simp)) (keeps_postStep _ m)

theorem touches_shiftMem (s : State) (op : ShiftOp) (z : SizeBW) (m : MemOp) : Touches s (s.shiftMem op z m) :=
  Touches.store (Keeps.touches (by constructor <;> simp)) (keeps_postStep _ m)

theorem touches_digitRotateMem (s : State) (left : Bool) (m : MemOp) : Touches s (s.digitRotateMem left m) :=
  Touches.store (t := ((s.preStep m).noteRead 1 (s.ea m)).dataDrawn m (aLoc s.rfp))
    (Keeps.touches (by constructor <;> simp))
    ((keeps_with_flags _ _).trans ((keeps_writeLoc _ _ _).trans (keeps_postStepInto _ m _)))

theorem keeps_bitModFlags (s : State) (op : BitOp) (bit : Bool) : Keeps s (s.bitModFlags op bit) := by
  cases op <;> constructor <;> rfl

theorem touches_bitModMem (s : State) (op : BitOp) (num : BitVec 3) (m : MemOp) : Touches s (s.bitModMem op num m) :=
  ((Keeps.touches (by constructor <;> simp)).store (keeps_bitModFlags _ op _)).keep (keeps_postStep _ m)

theorem touches_blockItem (s : State) (z : SizeBW) (p : BlockPair) (up : Bool) : Touches s (s.blockItem z p up) :=
  (touches_memWrite s z.size.bytes (s.reg (blockDst s.rfp p))
    (s.memRead z.size.bytes (s.reg (blockSrc s.rfp p)))).keep
    (by constructor <;> simp [State.blockItem, State.countDown])

/-- With nothing presented, a repeated block transfer is its items one by one. -/
theorem touches_blockRepeat (z : SizeBW) (p : BlockPair) (up : Bool) (k : Nat) :
    ∀ s : State, s.host = [] → Touches s (blockRepeat z p up k s) := by
  induction k with
  | zero => exact fun s _ => Keeps.touches (by constructor <;> rfl)
  | succ k ih =>
    intro s hs
    have hitem := touches_blockItem s z p up
    cases k with
    | zero => exact hitem.keep (by constructor <;> rfl)
    | succ k =>
      have hhost : (s.blockItem z p up).host = [] := hitem.host.trans hs
      simp only [blockRepeat, hhost]
      exact hitem.trans (ih _ hhost)

/-! ## The operations that do not store -/

theorem keeps_popped (s : State) (nb : Nat) : Keeps s (s.popped nb) := by constructor <;> simp

theorem keeps_popLoc (s : State) {sz : Size} (l : Loc sz) : Keeps s (s.popLoc l) := by
  unfold State.popLoc
  split <;> constructor <;> simp

theorem keeps_aluInto {sz : Size} (s : State) (op : AluOp) (l : Loc sz) (src : BitVec sz.bits) :
    Keeps s (s.aluInto op l src) := by
  unfold State.aluInto
  dsimp only
  split <;> constructor <;> simp

theorem keeps_aluCurMem (s : State) (op : AluOp) (sz : Size) (R : BitVec 3) (m : MemOp) :
    Keeps s (s.aluCurMem op sz R m) := by
  unfold State.aluCurMem
  dsimp only
  split <;> constructor <;> simp

theorem keeps_incDecReg (s : State) (up : Bool) (sz : Size) (r : RegOp sz) (num : BitVec 3) :
    Keeps s (s.incDecReg up sz r num) := by
  unfold State.incDecReg
  dsimp only
  split <;> constructor <;> simp

theorem keeps_mulDivWrite (s : State) (op : MulOp) (z : SizeBW) (l : Loc z.double) (dst : BitVec z.double.bits)
    (src : BitVec z.size.bits) : Keeps s (s.mulDivWrite op z l dst src) := by
  unfold State.mulDivWrite
  split <;> constructor <;> simp

theorem keeps_mulDivMem (s : State) (op : MulOp) (z : SizeBW) (RR : BitVec z.dblBits) (m : MemOp) :
    Keeps s (s.mulDivMem op z RR m) :=
  Keeps.trans (t := ((s.preStep m).noteRead z.size.bytes (s.ea m)).dataDrawn m (dblLoc s.rfp z RR))
    (by constructor <;> simp) ((keeps_mulDivWrite _ op z _ _ _).trans (keeps_postStepInto _ m _))

theorem keeps_moduloStep (s : State) (k : Nat) (up : Bool) (r : RegOp .w) (field : Word) :
    Keeps s (s.moduloStep k up r field) := by
  unfold State.moduloStep
  dsimp only
  split <;> constructor <;> simp

theorem keeps_carryBit {n : Nat} (s : State) (op : CarryOp) (v : BitVec n) (k : Nat) : Keeps s (s.carryBit op v k) := by
  unfold State.carryBit
  split <;> constructor <;> rfl

theorem keeps_carryBitMemA (s : State) (op : CarryOp) (m : MemOp) : Keeps s (s.carryBitMemA op m) :=
  Keeps.trans (t := ((s.preStep m).noteRead 1 (s.ea m)).dataDrawn m (aLoc s.rfp)) (by constructor <;> simp)
    ((keeps_carryBit _ op _ _).trans (keeps_postStep _ m))

theorem keeps_carryBitMem (s : State) (op : CarryOp) (num : BitVec 3) (m : MemOp) : Keeps s (s.carryBitMem op num m) :=
  Keeps.trans (t := (s.preStep m).noteRead 1 (s.ea m)) (by constructor <;> simp)
    ((keeps_carryBit _ op _ _).trans (keeps_postStep _ m))

theorem keeps_bitModReg (s : State) (op : BitOp) (z : SizeBW) (r : RegOp z.size) (num : BitVec 4) :
    Keeps s (s.bitModReg op z r num) := by
  unfold State.bitModReg
  dsimp only
  split
  · exact (keeps_writeLoc s _ _).trans (keeps_bitModFlags _ op _)
  · exact Keeps.trans (t := (s.writeOp r (s.freeBits z.size.bits)).drawn) (by constructor <;> simp)
      (keeps_bitModFlags _ op _)

theorem keeps_bitFound (s : State) (found : Option Nat) : Keeps s (s.bitFound found) := by
  unfold State.bitFound
  split <;> constructor <;> simp

theorem keeps_compareItem (s : State) (z : SizeBW) (R : BitVec 3) (up : Bool) : Keeps s (s.compareItem z R up) := by
  constructor <;> simp [State.compareItem, State.countDown]

theorem keeps_compareRepeat (z : SizeBW) (R : BitVec 3) (up : Bool) (k : Nat) :
    ∀ s : State, Keeps s (compareRepeat z R up k s) := by
  induction k with
  | zero => exact Keeps.refl
  | succ k ih =>
    intro s
    simp only [compareRepeat]
    split
    · exact keeps_compareItem s z R up
    · exact (keeps_compareItem s z R up).trans (ih _)

theorem keeps_compareLoop (s : State) (z : SizeBW) (R : BitVec 3) (up : Bool) : Keeps s (s.compareLoop z R up) := by
  have h := keeps_compareRepeat z R up 65536 s
  unfold State.compareLoop
  dsimp only
  split
  · exact h
  · exact h.trans (by constructor <;> rfl)

theorem keeps_ldaCur (s : State) (sz : Size) (R : BitVec 3) (m : MemOp) : Keeps s (s.ldaCur sz R m) := by
  constructor <;> simp [State.ldaCur]

theorem keeps_loadCur (s : State) (sz : Size) (R : BitVec 3) (m : MemOp) : Keeps s (s.loadCur sz R m) := by
  constructor <;> simp [State.loadCur]

theorem keeps_shiftReg (s : State) (op : ShiftOp) (sz : Size) (r : RegOp sz) (num : BitVec 4) :
    Keeps s (s.shiftReg op sz r num) := by
  constructor <;> simp [State.shiftReg]

end Sys2Proof.Machine
end

section
/-! SUPPORT. The effect of every instruction, from the effects of the shared operations, and the statements that follow from
it: which instructions can change the alternate flags, the control registers, the mask, the bank pointer and the halt bit
(R32, R33, R50, R52, R56, R200), and that stores are recorded (R90). -/

namespace Sys2Proof.Machine

/-- What an instruction does at most: it touches the state, and the control instructions change their own fields too. -/
structure Effect (i : Instr) (s t : State) : Prop where
  iff : i ≠ .di → i ≠ .popSr → i ≠ .reti → (∀ num, i ≠ .ei num) → t.iff = s.iff
  rfp : i ≠ .incf → i ≠ .decf → i ≠ .popSr → i ≠ .reti → (∀ num, i ≠ .ldf num) → t.rfp = s.rfp
  halted : i ≠ .halt → t.halted = s.halted
  flagsAlt : i ≠ .exFF → t.flagsAlt = s.flagsAlt
  dma : (∀ cr r, i ≠ .ldcToCr cr r) → t.dmas = s.dmas ∧ t.dmad = s.dmad ∧ t.dmac = s.dmac ∧ t.dmam = s.dmam
  intnest : (∀ cr r, i ≠ .ldcToCr cr r) → i ≠ .reti → t.intnest = s.intnest
  stores : ∀ P, StoreClosed P → P s → P t

theorem Touches.effect {i : Instr} {s t : State} (h : Touches s t) : Effect i s t where
  iff _ _ _ _ := h.iff
  rfp _ _ _ _ _ := h.rfp
  halted _ := h.halted
  flagsAlt _ := h.flagsAlt
  dma _ := ⟨h.dmas, h.dmad, h.dmac, h.dmam⟩
  intnest _ _ := h.intnest
  stores := h.stores

theorem Keeps.effect {i : Instr} {s t : State} (h : Keeps s t) : Effect i s t := h.touches.effect

/-- An instruction that repeats a block transfer samples the host between its items. -/
def RepeatsTransfer (i : Instr) : Prop := ∃ z p, i = .ldir z p ∨ i = .lddr z p

/-! ## The control instructions -/

theorem effect_ei (num : BitVec 3) (s : State) : Effect (.ei num) s { s with iff := num } where
  iff _ _ _ h := absurd rfl (h num)
  rfp _ _ _ _ _ := rfl
  halted _ := rfl
  flagsAlt _ := rfl
  dma _ := ⟨rfl, rfl, rfl, rfl⟩
  intnest _ _ := rfl
  stores _ hP := hP.of_fields rfl rfl rfl

theorem effect_di (s : State) : Effect .di s { s with iff := 7 } where
  iff h := absurd rfl h
  rfp _ _ _ _ _ := rfl
  halted _ := rfl
  flagsAlt _ := rfl
  dma _ := ⟨rfl, rfl, rfl, rfl⟩
  intnest _ _ := rfl
  stores _ hP := hP.of_fields rfl rfl rfl

theorem effect_ldf (num : BitVec 2) (s : State) : Effect (.ldf num) s { s with rfp := num } where
  iff _ _ _ _ := rfl
  rfp _ _ _ _ h := absurd rfl (h num)
  halted _ := rfl
  flagsAlt _ := rfl
  dma _ := ⟨rfl, rfl, rfl, rfl⟩
  intnest _ _ := rfl
  stores _ hP := hP.of_fields rfl rfl rfl

theorem effect_incf (s : State) : Effect .incf s { s with rfp := s.rfp + 1 } where
  iff _ _ _ _ := rfl
  rfp h := absurd rfl h
  halted _ := rfl
  flagsAlt _ := rfl
  dma _ := ⟨rfl, rfl, rfl, rfl⟩
  intnest _ _ := rfl
  stores _ hP := hP.of_fields rfl rfl rfl

theorem effect_decf (s : State) : Effect .decf s { s with rfp := s.rfp - 1 } where
  iff _ _ _ _ := rfl
  rfp _ h := absurd rfl h
  halted _ := rfl
  flagsAlt _ := rfl
  dma _ := ⟨rfl, rfl, rfl, rfl⟩
  intnest _ _ := rfl
  stores _ hP := hP.of_fields rfl rfl rfl

theorem effect_halt (s : State) : Effect .halt s { s with halted := true } where
  iff _ _ _ _ := rfl
  rfp _ _ _ _ _ := rfl
  halted h := absurd rfl h
  flagsAlt _ := rfl
  dma _ := ⟨rfl, rfl, rfl, rfl⟩
  intnest _ _ := rfl
  stores _ hP := hP.of_fields rfl rfl rfl

theorem effect_exFF (s : State) : Effect .exFF s { s with flags := s.flagsAlt, flagsAlt := s.flags } where
  iff _ _ _ _ := rfl
  rfp _ _ _ _ _ := rfl
  halted _ := rfl
  flagsAlt h := absurd rfl h
  dma _ := ⟨rfl, rfl, rfl, rfl⟩
  intnest _ _ := rfl
  stores _ hP := hP.of_fields rfl rfl rfl

theorem effect_popSr (s : State) : Effect .popSr s ((s.popped 2).setSr (s.stackTop 2)) where
  iff _ h := absurd rfl h
  rfp _ _ h := absurd rfl h
  halted _ := by simp
  flagsAlt _ := by simp
  dma _ := by simp
  intnest _ _ := by simp
  stores _ hP := hP.of_fields (by simp) (by simp) (by simp)

theorem effect_reti (s : State) : Effect .reti s s.returnFromException where
  iff _ _ h := absurd rfl h
  rfp _ _ _ h := absurd rfl h
  halted _ := by simp [State.returnFromException]
  flagsAlt _ := by simp [State.returnFromException]
  dma _ := by simp [State.returnFromException]
  intnest _ h := absurd rfl h
  stores _ hP := hP.of_fields (by simp [State.returnFromException]) (by simp [State.returnFromException])
    (by simp [State.returnFromException])

theorem effect_ldcToCr (cr : CtrlReg) (r : RegOp cr.size) (s : State) :
    Effect (.ldcToCr cr r) s (s.writeCr cr (s.readOp r)) where
  iff _ _ _ _ := by simp
  rfp _ _ _ _ _ := by simp
  halted _ := by simp
  flagsAlt _ := by simp
  dma h := absurd rfl (h cr r)
  intnest h := absurd rfl (h cr r)
  stores _ hP := hP.of_fields (by simp) (by simp) (by simp)

/-! ## Every instruction -/

theorem exec_daa_next (r : RegOp .b) (s : State) : ∃ t, exec (.daa r) s = .next t ∧ Keeps s t := by
  show ∃ t, execDaa r s = .next t ∧ _
  unfold execDaa
  dsimp only
  split
  · exact ⟨_, rfl, by constructor <;> simp⟩
  · exact ⟨_, rfl, by constructor <;> simp⟩

theorem keeps_paa (s : State) (z : SizeWL) (r : RegOp z.size) :
    Keeps s (if (s.readOp r).getLsbD 0 then s.writeOp r (s.readOp r + 1) else s) := by
  split
  · exact keeps_writeLoc s _ _
  · exact .refl s

theorem keeps_setCur (s : State) (sz : Size) (R : BitVec 3) (v : BitVec sz.bits) : Keeps s (s.setCur sz R v) :=
  keeps_writeLoc s _ v

theorem keeps_djnz (s : State) (z : SizeBW) (r : RegOp z.size) (d : Byte) :
    Keeps s (if s.readOp r - 1 = 0 then s.writeOp r (s.readOp r - 1)
      else { s.writeOp r (s.readOp r - 1) with pc := (s.writeOp r (s.readOp r - 1)).pc + d.signExtend 32 }) := by
  split <;> constructor <;> simp

theorem touches_link (s : State) (l : Loc .l) (d : Word) :
    Touches s (if l.g = .xsp then { (s.pushLoc l).drawn with xsp := (s.pushLoc l).freeBits 32 }
      else { (s.pushLoc l).writeLoc l (s.pushLoc l).xsp with xsp := (s.pushLoc l).xsp + d.signExtend 32 }) := by
  refine (touches_pushLoc s l).keep ?_
  split <;> constructor <;> simp

theorem keeps_returnPc (s : State) : Keeps s s.returnPc := by constructor <;> simp [State.returnPc]

theorem keeps_pcWhen (s : State) (b : Bool) (pc : Long) : Keeps s (if b then { s with pc := pc } else s) := by
  split <;> constructor <;> rfl

theorem touches_callTo (s : State) (target : Long) : Touches s (s.callTo target) :=
  (touches_push s 4 s.pc).keep (by constructor <;> rfl)

/-- Every instruction runs, with its effect; of those that repeat a block transfer this is told when nothing is
presented. -/
theorem exec_effect (i : Instr) (s : State) (hs : RepeatsTransfer i → s.host = []) :
    ∃ t, exec i s = .next t ∧ Effect i s t := by
  cases i
  case ei num => exact ⟨_, rfl, effect_ei num s⟩
  case di => exact ⟨_, rfl, effect_di s⟩
  case ldf num => exact ⟨_, rfl, effect_ldf num s⟩
  case incf => exact ⟨_, rfl, effect_incf s⟩
  case decf => exact ⟨_, rfl, effect_decf s⟩
  case halt => exact ⟨_, rfl, effect_halt s⟩
  case exFF => exact ⟨_, rfl, effect_exFF s⟩
  case popSr => exact ⟨_, rfl, effect_popSr s⟩
  case reti => exact ⟨_, rfl, effect_reti s⟩
  case ldcToCr cr r => exact ⟨_, rfl, effect_ldcToCr cr r s⟩
  case daa r =>
    obtain ⟨t, h, ht⟩ := exec_daa_next r s
    exact ⟨t, h, ht.effect⟩
  case nop => exact ⟨_, rfl, (Keeps.refl s).effect⟩
  case rcf | scf | ccf | zcf | jp16 | jp24 => exact ⟨_, rfl, Keeps.effect (by constructor <;> rfl)⟩
  case jr | jrl => exact ⟨_, rfl, (keeps_pcWhen s _ _).effect⟩
  case jpMem => exact ⟨_, rfl, Keeps.effect (by split <;> constructor <;> simp)⟩
  case djnz z r d => exact ⟨_, rfl, (keeps_djnz s z r d).effect⟩
  case ret => exact ⟨_, rfl, (keeps_returnPc s).effect⟩
  case retCc => exact ⟨_, rfl, Keeps.effect (by split; exact keeps_returnPc s; exact .refl s)⟩
  case retd => exact ⟨_, rfl, ((keeps_returnPc s).trans (by constructor <;> rfl)).effect⟩
  case call16 | call24 | calr => exact ⟨_, rfl, (touches_callTo s _).effect⟩
  case callMem cc m =>
    refine ⟨_, rfl, Touches.effect ?_⟩
    split
    · exact (touches_callPush s m).keep (by constructor <;> rfl)
    · exact .refl s
  case swi => exact ⟨_, rfl, (touches_takeException s _ _ _).effect⟩
  case pushSr | pushImmB | pushImmW | pushA | pushF => exact ⟨_, rfl, (touches_push s _ _).effect⟩
  case pushCurW | pushCurL | pushReg => exact ⟨_, rfl, (touches_pushLoc s _).effect⟩
  case pushMem => exact ⟨_, rfl, (touches_pushMemOp s _ _).effect⟩
  case popF => exact ⟨_, rfl, ((keeps_popped s 1).trans (keeps_with_flags _ _)).effect⟩
  case popA => exact ⟨_, rfl, ((keeps_popped s 1).trans (keeps_writeLoc _ _ _)).effect⟩
  case popCurW | popCurL | popReg => exact ⟨_, rfl, (keeps_popLoc s _).effect⟩
  case popMemB | popMemW => exact ⟨_, rfl, (touches_popMemOp s _ _).effect⟩
  case link => exact ⟨_, rfl, (touches_link s _ _).effect⟩
  case unlk r =>
    exact ⟨_, rfl, (Keeps.trans (t := { s with xsp := s.readOp r }) (by constructor <;> rfl) (keeps_popLoc _ _)).effect⟩
  case ldCurImmB | ldCurImmW | ldCurImmL | ldarW | ldarL => exact ⟨_, rfl, (keeps_setCur s _ _ _).effect⟩
  case ldRegImm | ldCurReg | ldRegCur | ldRegImm3 | extz | exts | mirr | stcfImmReg | stcfAReg | ldcFromCr | scc =>
    exact ⟨_, rfl, (keeps_writeLoc s _ _).effect⟩
  case exCurReg => exact ⟨_, rfl, ((keeps_writeLoc s _ _).trans (keeps_writeLoc _ _ _)).effect⟩
  case cpl | neg => exact ⟨_, rfl, ((keeps_writeLoc s _ _).trans (keeps_with_flags _ _)).effect⟩
  case paa z r => exact ⟨_, rfl, (keeps_paa s z r).effect⟩
  case mula => exact ⟨_, rfl, Keeps.effect (by constructor <;> simp)⟩
  case ldAbs8ImmB | ldAbs8ImmW => exact ⟨_, rfl, (touches_memWrite s _ _ _).effect⟩
  case ldMemImmB | ldMemImmW => exact ⟨_, rfl, (touches_storeVal s _ _ _).effect⟩
  case ldMemAbs16B | ldMemAbs16W =>
    exact ⟨_, rfl, ((Keeps.touches (by constructor <;> simp)).trans (touches_storeVal _ _ _ _)).effect⟩
  case ldMemCurB | ldMemCurW | ldMemCurL => exact ⟨_, rfl, (touches_storeCur s _ _ _).effect⟩
  case ldCurMem => exact ⟨_, rfl, (keeps_loadCur s _ _ _).effect⟩
  case ldaW | ldaL => exact ⟨_, rfl, (keeps_ldaCur s _ _ _).effect⟩
  case ldAbs16Mem z a m =>
    exact ⟨_, rfl, (Touches.store (t := (s.preStep m).noteRead z.size.bytes (s.ea m))
      (Keeps.touches (by constructor <;> simp)) (keeps_postStep _ m)).effect⟩
  case exMemCur z m R =>
    exact ⟨_, rfl, (Touches.store
      (t := ((s.preStep m).noteRead z.size.bytes (s.ea m)).dataDrawn m (curLoc s.rfp z.size R))
      (Keeps.touches (by constructor <;> simp)) ((keeps_writeLoc _ _ _).trans (keeps_postStepInto _ m _))).effect⟩
  case addCurReg | addRegImm | adcCurReg | adcRegImm | subCurReg | subRegImm | sbcCurReg | sbcRegImm | andCurReg |
      andRegImm | xorCurReg | xorRegImm | orCurReg | orRegImm | cpCurReg | cpRegImm | cpRegImm3 =>
    exact ⟨_, rfl, (keeps_aluInto s _ _ _).effect⟩
  case addCurMem | adcCurMem | subCurMem | sbcCurMem | andCurMem | xorCurMem | orCurMem | cpCurMem =>
    exact ⟨_, rfl, (keeps_aluCurMem s _ _ _ _).effect⟩
  case addMemCur | adcMemCur | subMemCur | sbcMemCur | andMemCur | xorMemCur | orMemCur | cpMemCur =>
    exact ⟨_, rfl, (touches_aluMemCur s _ _ _ _).effect⟩
  case addMemImm | adcMemImm | subMemImm | sbcMemImm | andMemImm | xorMemImm | orMemImm | cpMemImm =>
    exact ⟨_, rfl, (touches_aluMemImm s _ _ _ _).effect⟩
  case incReg | decReg => exact ⟨_, rfl, (keeps_incDecReg s _ _ _ _).effect⟩
  case incMem | decMem => exact ⟨_, rfl, (touches_incDecMem s _ _ _ _).effect⟩
  case mulReg | mulsReg | divReg | divsReg | mulImm | mulsImm | divImm | divsImm =>
    exact ⟨_, rfl, (keeps_mulDivWrite s _ _ _ _ _).effect⟩
  case mulMem | mulsMem | divMem | divsMem => exact ⟨_, rfl, (keeps_mulDivMem s _ _ _ _).effect⟩
  case minc1 | minc2 | minc4 | mdec1 | mdec2 | mdec4 => exact ⟨_, rfl, (keeps_moduloStep s _ _ _ _).effect⟩
  case ldcfImmReg | ldcfAReg | andcfImmReg | andcfAReg | orcfImmReg | orcfAReg | xorcfImmReg | xorcfAReg =>
    exact ⟨_, rfl, (keeps_carryBit s _ _ _).effect⟩
  case ldcfAMem | andcfAMem | orcfAMem | xorcfAMem => exact ⟨_, rfl, (keeps_carryBitMemA s _ _).effect⟩
  case ldcfImmMem | andcfImmMem | orcfImmMem | xorcfImmMem => exact ⟨_, rfl, (keeps_carryBitMem s _ _ _).effect⟩
  case stcfAMem m =>
    exact ⟨_, rfl, (Touches.store (t := ((s.preStep m).noteRead 1 (s.ea m)).dataDrawn m (aLoc s.rfp))
      (Keeps.touches (by constructor <;> simp)) (keeps_postStep _ m)).effect⟩
  case stcfImmMem num m =>
    exact ⟨_, rfl, (Touches.store (t := (s.preStep m).noteRead 1 (s.ea m)) (Keeps.touches (by constructor <;> simp))
      (keeps_postStep _ m)).effect⟩
  case resReg | setReg | chgReg | tsetReg => exact ⟨_, rfl, (keeps_bitModReg s _ _ _ _).effect⟩
  case resMem | setMem | chgMem | tsetMem => exact ⟨_, rfl, (touches_bitModMem s _ _ _).effect⟩
  case bitReg => exact ⟨_, rfl, Keeps.effect (by constructor <;> rfl)⟩
  case bitMem => exact ⟨_, rfl, Keeps.effect (by constructor <;> simp [State.testBit])⟩
  case bs1f | bs1b => exact ⟨_, rfl, (keeps_bitFound s _).effect⟩
  case rlcImmReg | rlcAReg | rrcImmReg | rrcAReg | rlImmReg | rlAReg | rrImmReg | rrAReg | slaImmReg | slaAReg |
      sraImmReg | sraAReg | sllImmReg | sllAReg | srlImmReg | srlAReg =>
    exact ⟨_, rfl, (keeps_shiftReg s _ _ _ _).effect⟩
  case rlcMem | rrcMem | rlMem | rrMem | slaMem | sraMem | sllMem | srlMem =>
    exact ⟨_, rfl, (touches_shiftMem s _ _ _).effect⟩
  case rld | rrd => exact ⟨_, rfl, (touches_digitRotateMem s _ _).effect⟩
  case ldi | ldd => exact ⟨_, rfl, ((touches_blockItem s _ _ _).keep (keeps_with_flags _ _)).effect⟩
  case ldir z p => exact ⟨_, rfl, (touches_blockRepeat z p true _ s (hs ⟨z, p, .inl rfl⟩)).effect⟩
  case lddr z p => exact ⟨_, rfl, (touches_blockRepeat z p false _ s (hs ⟨z, p, .inr rfl⟩)).effect⟩
  case cpi | cpd => exact ⟨_, rfl, (keeps_compareItem s _ _ _).effect⟩
  case cpir | cpdr => exact ⟨_, rfl, (keeps_compareLoop s _ _ _).effect⟩

/-- The same of a run that is given. -/
theorem effect_of_exec {i : Instr} {s t : State} (h : exec i s = .next t) (hs : RepeatsTransfer i → s.host = []) :
    Effect i s t := by
  obtain ⟨u, hu, he⟩ := exec_effect i s hs
  rw [hu] at h
  cases h
  exact he

/-! ## What follows from it -/

/-- Settles O14: among the effects of the instructions, F' changes in that of EX F,F' alone, and so on. -/
theorem alternateAndControlWriters : Obligations.AlternateAndControlWriters := by
  intro i s t hs h
  have e := effect_of_exec h fun _ => hs
  refine ⟨e.flagsAlt, fun hcr => ?_⟩
  obtain ⟨h1, h2, h3, h4⟩ := e.dma hcr
  exact ⟨h1, h2, h3, h4, e.intnest hcr⟩

/-- Settles O15: in the same way for the mask, the bank pointer and the halt bit. -/
theorem maskBankHaltWriters : Obligations.MaskBankHaltWriters := by
  intro i s t hs h
  have e := effect_of_exec h fun _ => hs
  exact ⟨e.iff, e.rfp, e.halted⟩

/-- Since `s`, every byte that has changed is recorded as written, and the record has only grown (R90). -/
def State.Recorded (s t : State) : Prop :=
  (∀ a : Addr, t.readByte a ≠ s.readByte a → a.toNat ∈ t.written) ∧ ∀ a ∈ s.written, a ∈ t.written

theorem recorded_refl (s : State) : State.Recorded s s := ⟨fun _ h => absurd rfl h, fun _ => id⟩

theorem storeClosed_recorded (s : State) : StoreClosed (State.Recorded s) where
  of_fields := by
    rintro t u hm hw - ⟨h1, h2⟩
    exact ⟨fun a ha => hw ▸ h1 a (State.readByte_of_mem hm a ▸ ha), fun a ha => hw ▸ h2 a ha⟩
  memWrite := by
    rintro t nb ea v ⟨h1, h2⟩
    refine ⟨fun a ha => (State.mem_written_memWrite t nb ea v _).2 ?_, fun a ha =>
      (State.mem_written_memWrite t nb ea v a).2 (.inr (h2 a ha))⟩
    by_cases hin : ∃ i < nb, a = busAddr (ea + BitVec.ofNat 32 i)
    · obtain ⟨i, hi, rfl⟩ := hin
      exact .inl ⟨i, hi, rfl⟩
    · rw [State.readByte_memWrite_other t nb ea v a fun i hi e => hin ⟨i, hi, e⟩] at ha
      exact .inr (h1 a ha)

/-- Settles O16: stores keep it, and nothing else touches memory or the record. -/
theorem storesAreRecorded : Obligations.StoresAreRecorded := fun _ s _ hs h =>
  (effect_of_exec h fun _ => hs).stores _ (storeClosed_recorded s) (recorded_refl s)

end Sys2Proof.Machine
end

section
/-! SUPPORT. The step of the machine (R101, R456, R490): what a sampling point brings, the instruction that is fetched, the
entry of an interrupt, and reset, at a sampling point or inside what follows it. -/

namespace Sys2Proof.Machine

/-! ## Fetch -/

@[simp] theorem State.fetchBytes_with_host (s : State) (l : List HostEvent) (n : Nat) (a : Long) :
    ({ s with host := l } : State).fetchBytes n a = s.fetchBytes n a := by
  induction n generalizing a with
  | zero => rfl
  | succ n ih => rw [State.fetchBytes, ih]; rfl

/-- Code counts as modified when one of its bytes is in the record of written addresses (R90). -/
theorem State.selfModified_iff (s : State) (n : Nat) (a : Long) :
    s.selfModified n a = true ↔ ∃ k < n, (busAddr (a + BitVec.ofNat 32 k)).toNat ∈ s.written := by
  induction n generalizing a with
  | zero => simp [State.selfModified]
  | succ n ih =>
    simp only [State.selfModified, Bool.or_eq_true, List.contains_iff_mem, ih]
    constructor
    · rintro (h | ⟨k, hk, h⟩)
      · exact ⟨0, by omega, by simpa using h⟩
      · exact ⟨k + 1, by omega, by rwa [addr_succ]⟩
    · rintro ⟨k, hk, h⟩
      cases k with
      | zero => exact .inl (by simpa using h)
      | succ k => exact .inr ⟨k, by omega, by rwa [addr_succ] at h⟩

theorem State.runInstr_of_ok {s : State} {i : Instr} {rest : List Byte}
    (h : decode (s.fetchBytes maxLength s.pc) = .ok (i, rest)) :
    s.runInstr = s.runDecoded i (maxLength - rest.length) := by
  simp [State.runInstr, h]

theorem State.runInstr_of_error {s : State} {e : DecodeError}
    (h : decode (s.fetchBytes maxLength s.pc) = .error e) : s.runInstr = stopFor e s.pc := by
  simp [State.runInstr, h]

theorem State.runDecoded_of_written {s : State} {i : Instr} {len k : Nat} (hk : k < len)
    (h : (busAddr (s.pc + BitVec.ofNat 32 k)).toNat ∈ s.written) :
    s.runDecoded i len = .refused (.selfModifiedCode s.pc) := by
  have := (s.selfModified_iff len s.pc).2 ⟨k, hk, h⟩
  simp [State.runDecoded, this]

theorem State.runDecoded_of_unwritten {s : State} {i : Instr} {len : Nat}
    (h : ∀ k < len, (busAddr (s.pc + BitVec.ofNat 32 k)).toNat ∉ s.written) :
    s.runDecoded i len = exec i { s with pc := s.pc + BitVec.ofNat 32 len, comparing := false } := by
  have : ¬ s.selfModified len s.pc = true := fun e => by
    obtain ⟨k, hk, hw⟩ := (s.selfModified_iff len s.pc).1 e
    exact h k hk hw
  simp [State.runDecoded, this]

/-- An instruction that runs is the run of `exec` on it, with PC moved and no block compare under way. -/
theorem State.exec_of_runInstr {s t : State} (h : s.runInstr = .next t) :
    ∃ i n, exec i { s with pc := s.pc + BitVec.ofNat 32 n, comparing := false } = .next t := by
  cases hd : decode (s.fetchBytes maxLength s.pc) with
  | error e =>
    rw [State.runInstr_of_error hd] at h
    cases e <;> simp [stopFor] at h
  | ok r =>
    obtain ⟨i, rest⟩ := r
    rw [State.runInstr_of_ok hd, State.runDecoded] at h
    simp only [State.branchReachesIo_eq, Bool.false_eq_true, if_false] at h
    split at h
    · cases h
    · exact ⟨i, _, h⟩

/-! ## Sampling points -/

theorem step_of_nil {s : State} (h : s.host = []) : step s = s.resume := by
  simp only [step, State.cycle, h]

theorem step_of_idle {s : State} {rest : List HostEvent} (h : s.host = .idle :: rest) :
    step s = ({ s with host := rest } : State).resume := by
  simp only [step, State.cycle, h]

theorem step_of_irq {s : State} {level : IrqLevel} {entry : BitVec 6} {rest : List HostEvent}
    (h : s.host = .irq level entry :: rest) : step s = ({ s with host := rest } : State).onRequest level entry := by
  simp only [step, State.cycle, h]

theorem step_of_reset {s : State} {rest : List HostEvent} (h : s.host = .reset :: rest) :
    step s = .next ({ s with host := rest } : State).resetEvent := by
  simp only [step, State.cycle, h]

/-- What happens after the sampling point of a `resetWithin`, worked out until the reset. -/
def State.afterRequest (s : State) : Option (IrqLevel × BitVec 6) → Result
  | some (level, entry) => s.onRequest level entry
  | none => s.resume

theorem step_of_resetWithin {s : State} {req : Option (IrqLevel × BitVec 6)} {rest : List HostEvent}
    (h : s.host = .resetWithin req :: rest) :
    step s = .next (s.resetDuring rest fun t => t.afterRequest req) := by
  cases req <;> simp only [step, State.cycle, h] <;> rfl

theorem State.resume_of_halted {s : State} (h : s.halted = true) : s.resume = .next s := by
  simp [State.resume, h]

theorem State.resume_of_running {s : State} (h : s.halted = false) : s.resume = s.runInstr := by
  simp [State.resume, h]

theorem State.onRequest_of_accepts {s : State} {level : IrqLevel} {entry : BitVec 6} (h : s.accepts level = true) :
    s.onRequest level entry = .next (s.enterInterrupt s.pc level entry) := by
  simp [State.onRequest, h]

theorem State.onRequest_of_not_accepts {s : State} {level : IrqLevel} {entry : BitVec 6} (h : s.accepts level = false) :
    s.onRequest level entry = s.resume := by
  simp [State.onRequest, h]

theorem State.accepts_iff (s : State) (level : IrqLevel) :
    s.accepts level = true ↔ s.comparing = false ∧ max s.iff.toNat 1 ≤ level.toNat := by
  simp [State.accepts]

/-- With nothing presented, the sampling point is used up. -/
theorem step_of_quiet {s : State} (h : s.Quiet) : step s = ({ s with host := s.host.tail } : State).resume := by
  rcases h with h | ⟨rest, h⟩
  · rw [step_of_nil h, h]
    cases s
    cases h
    rfl
  · rw [step_of_idle h, h, List.tail_cons]

/-- With nothing presented, and not halted, an instruction is fetched. -/
theorem step_of_running {s : State} (hq : s.Quiet) (hh : s.halted = false) :
    step s = ({ s with host := s.host.tail } : State).runInstr :=
  (step_of_quiet hq).trans (State.resume_of_running hh)

theorem step_of_decode_ok {s : State} {i : Instr} {rest : List Byte} (hq : s.Quiet) (hh : s.halted = false)
    (hd : decode (s.fetchBytes maxLength s.pc) = .ok (i, rest)) :
    step s = ({ s with host := s.host.tail } : State).runDecoded i (maxLength - rest.length) := by
  rw [step_of_running hq hh]
  exact State.runInstr_of_ok (by simpa using hd)

theorem step_of_decode_error {s : State} {e : DecodeError} (hq : s.Quiet) (hh : s.halted = false)
    (hd : decode (s.fetchBytes maxLength s.pc) = .error e) : step s = stopFor e s.pc := by
  rw [step_of_running hq hh]
  exact State.runInstr_of_error (by simpa using hd)

/-- Settles O6: the record is looked at byte by byte, and then `exec` runs. -/
theorem stepRunsDecodedInstruction : Obligations.StepRunsDecodedInstruction := by
  intro s i rest hq hh hd hw
  exact (step_of_decode_ok hq hh hd).trans (State.runDecoded_of_unwritten hw)

/-- Settles O7: one byte in the record is enough. -/
theorem selfModifiedCodeRefused : Obligations.SelfModifiedCodeRefused := by
  intro s i rest k hq hh hd hk hw
  exact (step_of_decode_ok hq hh hd).trans (State.runDecoded_of_written hk hw)

/-- Settles O8: a halted machine resumes with nothing, and a request that is not accepted resumes as no request does. -/
theorem haltAndMaskedRequests : Obligations.HaltAndMaskedRequests := by
  refine ⟨fun s hh hs => ?_, fun s rest hh hs => ?_, fun s level entry rest hs hm => ?_⟩
  · exact (step_of_nil hs).trans (State.resume_of_halted hh)
  · exact (step_of_idle hs).trans (State.resume_of_halted hh)
  · have hno : ({ s with host := rest } : State).accepts level = false := by
      rw [Bool.eq_false_iff, ne_eq, State.accepts_iff]
      rintro ⟨hc, hl⟩
      rcases hm with hm | hm
      · exact absurd hl (Nat.not_le.2 hm)
      · exact Bool.false_ne_true (hc.symm.trans hm)
    rw [step_of_irq hs, State.onRequest_of_not_accepts hno, step_of_idle (rest := rest) rfl]

/-! ## Interrupt entry -/

/-- What the entry of an interrupt leaves (R457). -/
theorem State.enterInterrupt_spec (s : State) (retPc : Long) (level : IrqLevel) (entry : BitVec 6) :
    let t := s.enterInterrupt retPc level entry
    t.xsp = s.xsp - 6 ∧ t.memRead 2 (s.xsp - 6) = s.sr ∧ t.memRead 4 (s.xsp - 4) = retPc ∧
      SameMemoryBut s t 6 (s.xsp - 6) ∧ SameRegsExcept s t [.xsp] ∧ t.iff.toNat = min (level.toNat + 1) 7 ∧
      t.intnest = s.intnest + 1 ∧
      Records s t (storesOf 4 (s.xsp - 4) retPc ++ storesOf 2 (s.xsp - 6) s.sr) ∧
      t.pc = t.memRead 4 (vectorAddr entry) ∧ t.halted = false ∧ t.comparing = s.comparing ∧ t.host = s.host ∧
      t.rfp = s.rfp ∧ t.flags = s.flags ∧ t.flagsAlt = s.flagsAlt ∧
      t.dmas = s.dmas ∧ t.dmad = s.dmad ∧ t.dmac = s.dmac ∧ t.dmam = s.dmam := by
  intro t
  obtain ⟨hsp, hsr, hret, hpc, hmem, hregs, hflags, hrest⟩ := s.takeException_spec .interrupt retPc entry
  have hm : t.mem = (s.takeException .interrupt retPc entry).mem := rfl
  have hiff : t.iff.toNat = min (level.toNat + 1) 7 := by
    show (BitVec.ofNat 3 (min (level.toNat + 1) 7)).toNat = _
    cases level <;> decide
  refine ⟨hsp, (State.memRead_eq_of_mem hm _ _).trans hsr, (State.memRead_eq_of_mem hm _ _).trans hret, hmem,
    fun g hg => ?_, hiff, rfl, (s.records_takeException .interrupt retPc entry).of_trail rfl, ?_, rfl, hrest.comparing,
    hrest.host, hrest.rfp, hflags, hrest.flagsAlt, hrest.dmas, hrest.dmad, hrest.dmac, hrest.dmam⟩
  · exact (State.reg_eq_of_fields rfl rfl rfl rfl rfl g).trans (hregs g hg)
  · rw [State.memRead_eq_of_mem hm]
    exact hpc

/-- Settles O9: the entry of the interrupt once the sampling point is used up. -/
theorem interruptEntry : Obligations.InterruptEntry := by
  intro s level entry rest hs hl hc
  have hacc : ({ s with host := rest } : State).accepts level = true := (State.accepts_iff _ _).2 ⟨hc, hl⟩
  refine ⟨_, (step_of_irq hs).trans (State.onRequest_of_accepts hacc), ?_⟩
  obtain ⟨hsp, hsr, hret, hmem, hregs, hiff, hnest, hrec, hpc, hhalt, hcomp, hhost, hr⟩ :=
    ({ s with host := rest } : State).enterInterrupt_spec s.pc level entry
  exact ⟨hsp, hsr, hret, hmem, fun g hg => (hregs g hg).trans (State.reg_with_host s rest g), hiff, hnest, hrec, hpc,
    hhalt, hcomp.trans hc, hhost, hr⟩

/-! ## Reset -/

/-- Settles O10: the reset event at the sampling point; memory is a field that it leaves. -/
theorem resetEvent : Obligations.ResetEvent := fun _ _ hs =>
  ⟨_, step_of_reset hs, State.resetEvent_values _, fun _ => rfl⟩

/-- Settles O12: each value stands in the definition of the state after reset, whose memory lists nothing. -/
theorem resetState : Obligations.ResetState :=
  ⟨rfl, rfl, rfl, rfl, by decide, rfl, rfl, rfl, .nil, by simp [State.reset], by simp [State.reset]⟩

theorem storeClosed_trailFrom (m0 : Memory) : StoreClosed (State.TrailFrom m0) where
  of_fields hm _ ht := State.trailFrom_of_fields hm ht
  memWrite nb ea v := State.trailFrom_memWrite nb ea v

/-- The stores of an instruction with nothing presented are on the trail. -/
theorem trailFrom_resume {m0 : Memory} {s t : State} (hs : s.host = []) (h : s.resume = .next t)
    (htrail : State.TrailFrom m0 s) : State.TrailFrom m0 t := by
  cases hh : s.halted with
  | true =>
    rw [State.resume_of_halted hh] at h
    cases h
    exact htrail
  | false =>
    rw [State.resume_of_running hh] at h
    obtain ⟨i, n, h⟩ := State.exec_of_runInstr h
    exact (effect_of_exec h fun _ => hs).stores _ (storeClosed_trailFrom m0) (State.trailFrom_of_fields rfl rfl htrail)

/-- So are those of what follows a request. -/
theorem trailFrom_afterRequest {m0 : Memory} {s t : State} {req : Option (IrqLevel × BitVec 6)} (hs : s.host = [])
    (h : s.afterRequest req = .next t) (htrail : State.TrailFrom m0 s) : State.TrailFrom m0 t := by
  cases req with
  | none => exact trailFrom_resume hs h htrail
  | some r =>
    obtain ⟨level, entry⟩ := r
    have h : s.onRequest level entry = .next t := h
    cases hacc : s.accepts level with
    | true =>
      rw [State.onRequest_of_accepts hacc] at h
      cases h
      exact State.trailFrom_enterInterrupt _ _ _ htrail
    | false =>
      rw [State.onRequest_of_not_accepts hacc] at h
      exact trailFrom_resume hs h htrail

/-- What a step does with the request presented and the trail begun is what the reset falls into. -/
theorem step_of_presented (s : State) (req : Option (IrqLevel × BitVec 6)) :
    step { s with
      host := match req with
        | some (level, entry) => [HostEvent.irq level entry]
        | none => []
      trail := some [] } = ({ s with host := [], trail := some [] } : State).afterRequest req := by
  cases req with
  | none => exact step_of_nil rfl
  | some r => exact step_of_irq rfl

theorem State.resetDuring_of_next {s u : State} {rest : List HostEvent} {run : State → Result}
    (h : run { s with host := [], trail := some [] } = .next u) :
    s.resetDuring rest run = { u.resetWithin with host := rest } := by
  simp only [State.resetDuring, h]

theorem State.resetDuring_of_stop {s : State} {rest : List HostEvent} {run : State → Result}
    (h : ∀ u, run { s with host := [], trail := some [] } ≠ .next u) :
    s.resetDuring rest run = ({ s with host := rest } : State).resetEvent := by
  unfold State.resetDuring
  split
  · next u hu => exact absurd hu (h u)
  · rfl
  · rfl

/-- Settles O11: what is reached has its stores on the trail from the memory before, and the reset chooses one of the
moments on it; a stop has stored nothing. -/
theorem resetWithinInstruction : Obligations.ResetWithinInstruction := by
  intro s req rest hs
  refine ⟨_, step_of_resetWithin hs, ?_⟩
  have hstep := step_of_presented s req
  by_cases hrun : ∃ u, ({ s with host := [], trail := some [] } : State).afterRequest req = .next u
  · obtain ⟨u, hu⟩ := hrun
    obtain ⟨l, hl, hleads⟩ := trailFrom_afterRequest rfl hu s.trailFrom_begin
    have hmem := State.resetWithin_mem hl
    rw [State.resetDuring_of_next hu]
    refine ⟨u.resetWithin_values rest, fun u' hu' => ?_, fun hno => absurd (hstep.trans hu) (hno u)⟩
    obtain rfl : u = u' := Host.Outcome.next.inj (hu.symm.trans (hstep.symm.trans hu'))
    exact ⟨l, hl, hleads, hmem, fun a ha => hleads.read_of_not_stored ha _ hmem⟩
  · have hrun : ∀ u, ({ s with host := [], trail := some [] } : State).afterRequest req ≠ .next u :=
      fun u hu => hrun ⟨u, hu⟩
    rw [State.resetDuring_of_stop hrun]
    exact ⟨State.resetEvent_values { s with host := rest }, fun u hu => absurd (hstep.symm.trans hu) (hrun u),
      fun _ => rfl⟩

/-! ## The invariant -/

theorem storeClosed_inv : StoreClosed State.Inv where
  of_fields hm hw ht := State.inv_of_fields hm hw ht
  memWrite nb ea v := State.inv_memWrite nb ea v

theorem inv_blockItem {s : State} (z : SizeBW) (p : BlockPair) (up : Bool) (h : s.Inv) : (s.blockItem z p up).Inv :=
  (touches_blockItem s z p up).stores _ storeClosed_inv h

theorem inv_enterFromBlock {s : State} (level : IrqLevel) (entry : BitVec 6) (h : s.Inv) :
    (s.enterFromBlock level entry).Inv :=
  State.inv_enterInterrupt _ _ _ (State.inv_of_fields (s := s) rfl rfl rfl h)

theorem inv_with_host {s : State} (l : List HostEvent) (h : s.Inv) : ({ s with host := l } : State).Inv :=
  State.inv_of_fields (s := s) rfl rfl rfl h

/-- The state in which a reset inside what follows is worked out. -/
theorem inv_begin {s : State} (h : s.Inv) : ({ s with host := [], trail := some [] } : State).Inv :=
  State.inv_with_trail (s := { s with host := [] }) (.inr rfl) (inv_with_host [] h)

/-- A repeated block transfer keeps the invariant, whatever the host presents between its items. -/
theorem inv_blockRepeat (z : SizeBW) (p : BlockPair) (up : Bool) (k : Nat) :
    ∀ s : State, s.Inv → (blockRepeat z p up k s).Inv := by
  induction k with
  | zero => exact fun s h => State.inv_of_fields (s := s) rfl rfl rfl h
  | succ k ih =>
    intro s h
    have hitem := inv_blockItem z p up h
    cases k with
    | zero => exact State.inv_of_fields (s := s.blockItem z p up) rfl rfl rfl hitem
    | succ k =>
      simp only [blockRepeat]
      split
      case h_1 => exact ih _ hitem
      case h_2 => exact ih _ (inv_with_host _ hitem)
      case h_3 => exact State.inv_resetEvent hitem.1
      case h_4 level entry rest _ =>
        split
        · exact inv_enterFromBlock _ _ (inv_with_host _ hitem)
        · exact ih _ (inv_with_host _ hitem)
      case h_5 level entry rest _ =>
        refine inv_with_host _ (State.inv_resetWithin ?_)
        split
        · exact inv_enterFromBlock _ _ (inv_begin hitem)
        · exact ih _ (inv_begin hitem)
      case h_6 => exact inv_with_host _ (State.inv_resetWithin (ih _ (inv_begin hitem)))

theorem inv_exec {i : Instr} {s t : State} (h : exec i s = .next t) (hs : s.Inv) : t.Inv := by
  by_cases hr : RepeatsTransfer i
  · obtain ⟨z, p, rfl | rfl⟩ := hr <;>
    · cases h
      exact inv_blockRepeat _ _ _ _ s hs
  · exact (effect_of_exec h fun e => absurd e hr).stores _ storeClosed_inv hs

theorem inv_resume {s t : State} (h : s.resume = .next t) (hs : s.Inv) : t.Inv := by
  cases hh : s.halted with
  | true =>
    rw [State.resume_of_halted hh] at h
    cases h
    exact hs
  | false =>
    rw [State.resume_of_running hh] at h
    obtain ⟨i, n, h⟩ := State.exec_of_runInstr h
    exact inv_exec h (State.inv_of_fields (s := s) rfl rfl rfl hs)

theorem inv_onRequest {s t : State} {level : IrqLevel} {entry : BitVec 6} (h : s.onRequest level entry = .next t)
    (hs : s.Inv) : t.Inv := by
  cases hacc : s.accepts level with
  | true =>
    rw [State.onRequest_of_accepts hacc] at h
    cases h
    exact State.inv_enterInterrupt _ _ _ hs
  | false =>
    rw [State.onRequest_of_not_accepts hacc] at h
    exact inv_resume h hs

theorem inv_afterRequest {s t : State} {req : Option (IrqLevel × BitVec 6)} (h : s.afterRequest req = .next t)
    (hs : s.Inv) : t.Inv := by
  cases req with
  | none => exact inv_resume h hs
  | some r => exact inv_onRequest (level := r.1) (entry := r.2) h hs

theorem inv_resetDuring {s : State} (req : Option (IrqLevel × BitVec 6)) (rest : List HostEvent) (hs : s.Inv) :
    (s.resetDuring rest fun t => t.afterRequest req).Inv := by
  unfold State.resetDuring
  split
  · next t h => exact inv_with_host _ (State.inv_resetWithin (inv_afterRequest h (inv_begin hs)))
  · exact State.inv_resetEvent (s := { s with host := rest }) hs.1
  · exact State.inv_resetEvent (s := { s with host := rest }) hs.1

/-- Settles O13: by the event at the sampling point; stores keep the invariant, and a reset finds a memory that met it. -/
theorem invariantKept : Obligations.InvariantKept := by
  intro s t hs h
  match he : s.host with
  | [] => exact inv_resume ((step_of_nil he).symm.trans h) hs
  | .idle :: rest => exact inv_resume ((step_of_idle he).symm.trans h) (inv_with_host rest hs)
  | .irq level entry :: rest => exact inv_onRequest ((step_of_irq he).symm.trans h) (inv_with_host rest hs)
  | .reset :: rest =>
    cases (step_of_reset he).symm.trans h
    exact State.inv_resetEvent hs.1
  | .resetWithin req :: rest =>
    cases (step_of_resetWithin he).symm.trans h
    exact inv_resetDuring req rest hs

end Sys2Proof.Machine
end

section
/-! SUPPORT. Proofs of the statements about the names of registers, effective addresses, the status register and conditions
(R22 to R36, R107 to R124, R130), and of those that the definitions answer directly. -/

namespace Sys2Proof.Machine

/-! ## Names of registers -/

/-- The register codes that are not assigned (R111). -/
theorem reg32Of_eq_none : ∀ code : Byte,
    reg32Of (code.extractLsb' 2 6) = none ↔ 0x40 ≤ code.toNat ∧ code.toNat ≤ 0xCF := by decide

theorem physReg_reg32Of : ∀ (code : Byte) (rfp : BitVec 2), ∀ r ∈ reg32Of (code.extractLsb' 2 6),
    physReg rfp r = codeRegister rfp code := by decide

theorem partOf_eq_none (sz : Size) : ∀ code : Byte, partOf sz code = none ↔ code.toNat % sz.bytes ≠ 0 := by
  cases sz <;> decide

theorem toNat_partOf (sz : Size) : ∀ code : Byte, ∀ part ∈ partOf sz code, part.toNat = code.toNat % 4 / sz.bytes := by
  cases sz <;> decide

/-- R111: the codes that name no register at a size. -/
theorem regOp_of_excluded {sz : Size} {code : Byte} (h : ExcludedCode sz code) :
    regOp sz (.ext code) = .error .registerCode := by
  simp only [regOp]
  split
  · next r part hr hp =>
    rcases h with h | h
    · exact nomatch hr.symm.trans ((reg32Of_eq_none code).2 h)
    · exact nomatch hp.symm.trans ((partOf_eq_none sz code).2 h)
  · rfl

/-- R27, R110: the register that any other code names, and the part of it. -/
theorem regOp_of_not_excluded {sz : Size} {code : Byte} (h : ¬ ExcludedCode sz code) :
    ∃ r, regOp sz (.ext code) = .ok r ∧ ∀ rfp : BitVec 2,
      (opLoc rfp r).g = codeRegister rfp code ∧ (opLoc rfp r).part.toNat = code.toNat % 4 / sz.bytes := by
  cases hr : reg32Of (code.extractLsb' 2 6) with
  | none => exact absurd (.inl ((reg32Of_eq_none code).1 hr)) h
  | some r =>
    cases hp : partOf sz code with
    | none => exact absurd (.inr ((partOf_eq_none sz code).1 hp)) h
    | some part =>
      exact ⟨.ext r part, by simp only [regOp, hr, hp], fun rfp =>
        ⟨physReg_reg32Of code rfp r hr, toNat_partOf sz code part hp⟩⟩

theorem autoReg_eq (rfp : BitVec 2) (m : MemOp) : autoReg rfp m = (preReg rfp m).or (postReg rfp m) := by
  cases m <;> rfl

theorem autoReg_of_not_auto {rfp : BitVec 2} {m : MemOp} (h : ∀ r st, m ≠ .preDec r st) (h' : ∀ r st, m ≠ .postInc r st) :
    autoReg rfp m = none := by
  cases m with
  | preDec r st => exact absurd rfl (h r st)
  | postInc r st => exact absurd rfl (h' r st)
  | _ => rfl

theorem dblLoc_b : ∀ (rfp c : BitVec 2), dblLoc rfp .b c = curLoc rfp .w (0#1 ++ c) := by decide

theorem curLoc_b : ∀ (rfp : BitVec 2) (c : BitVec 3),
    curLoc rfp .b c = ⟨.bank (rfp ++ c.extractLsb' 1 2), if c.toNat % 2 = 1 then 0 else 1⟩ := by decide

theorem curLoc_banked : ∀ (rfp : BitVec 2) (c : BitVec 3), c.toNat < 4 →
    curLoc rfp .w c = ⟨.bank (rfp ++ c.extractLsb' 0 2), 0⟩ ∧
      curLoc rfp .l c = ⟨.bank (rfp ++ c.extractLsb' 0 2), 0⟩ := by decide

/-- Settles O4: a code byte is a register and a part of it, each a function of its own bits; every other name is the
definition of the place that it stands for. -/
theorem registerNames : Obligations.RegisterNames := by
  refine ⟨fun s => ⟨rfl, rfl⟩, fun rfp => ⟨rfl, ?pairDst, ?pairSrc, rfl, rfl, rfl, rfl, dblLoc_b rfp, fun _ => rfl,
    fun _ _ => rfl, fun _ _ => rfl, fun _ _ _ => rfl, fun _ _ => ⟨rfl, rfl, rfl, rfl⟩,
    fun m => ⟨autoReg_eq rfp m, autoReg_of_not_auto⟩⟩, fun rfp c => ⟨curLoc_b rfp c, curLoc_banked rfp c⟩,
    fun _ => ⟨rfl, rfl, rfl, rfl, rfl, rfl, rfl, rfl⟩, fun _ _ => ⟨regOp_of_excluded, regOp_of_not_excluded⟩⟩
  case pairDst => revert rfp; decide
  case pairSrc => revert rfp; decide

/-! ## Effective addresses -/

/-- A long register is its place whole. -/
theorem State.readLoc_long (s : State) (l : Loc .l) : s.readLoc l = s.reg l.g := by
  have hpart : l.part.toNat = 0 := by rw [BitVec.eq_nil l.part]; rfl
  simp only [State.readLoc, hpart, Nat.zero_mul]
  exact BitVec.extractLsb'_eq_self

theorem State.cur_long (s : State) (c : BitVec 3) : s.cur .l c = s.reg (curLong s.rfp c) := s.readLoc_long _

theorem State.readOp_ext_long (s : State) (r : Reg32) : s.readOp (.ext r 0 : RegOp .l) = s.reg32 r := s.readLoc_long _

/-- Settles O19: the registers of an address are read whole, and absolute addresses are extended with zeros. -/
theorem effectiveAddresses : Obligations.EffectiveAddresses := by
  intro s
  simp only [State.cur_long, State.readOp_ext_long]
  refine ⟨fun _ => rfl, fun _ _ => rfl, fun a => ?_, fun a => ?_, fun a => ?_, fun _ => rfl, fun _ _ => rfl,
    fun _ _ _ => rfl, fun _ _ _ => rfl, fun _ _ => rfl, fun _ _ => rfl⟩
  all_goals exact BitVec.toNat_setWidth_of_le (by decide)

/-! ## The status register -/

/-- The bits of a word above its low byte are those of its high byte. -/
theorem extractLsb'_high (h f : Byte) (k n : Nat) : (h ++ f : Word).extractLsb' (8 + k) n = h.extractLsb' k n := by
  apply BitVec.eq_of_getLsbD_eq
  intro i hi
  simp only [BitVec.getLsbD_extractLsb', BitVec.getLsbD_append, if_neg (show ¬ 8 + k + i < 8 by omega)]
  rw [show 8 + k + i - 8 = k + i by omega]

theorem getLsbD_high (h f : Byte) (k : Nat) : (h ++ f : Word).getLsbD (8 + k) = h.getLsbD k := by
  simp only [BitVec.getLsbD_append, if_neg (show ¬ 8 + k < 8 by omega), Nat.add_sub_cancel_left]

/-- The fields of a high byte in the layout of R30. -/
theorem srHigh_fields : ∀ (iff : BitVec 3) (rfp : BitVec 2),
    let h : Byte := 1#1 ++ iff ++ 1#1 ++ 0#1 ++ rfp
    h.getLsbD 7 = true ∧ h.extractLsb' 4 3 = iff ∧ h.getLsbD 3 = true ∧ h.getLsbD 2 = false ∧
      h.extractLsb' 0 2 = rfp := by decide

/-- SR is its high byte above F. -/
theorem State.sr_eq (s : State) : s.sr = ((1#1 ++ s.iff ++ 1#1 ++ 0#1 ++ s.rfp : Byte) ++ s.flags.toByte : Word) := rfl

theorem Flags.getLsbD_toByte (f : Flags) :
    f.toByte.getLsbD 7 = f.s ∧ f.toByte.getLsbD 6 = f.z ∧ f.toByte.getLsbD 5 = false ∧ f.toByte.getLsbD 4 = f.h ∧
      f.toByte.getLsbD 3 = false ∧ f.toByte.getLsbD 2 = f.v ∧ f.toByte.getLsbD 1 = f.n ∧ f.toByte.getLsbD 0 = f.c := by
  obtain ⟨s, z, h, v, n, c⟩ := f
  revert s z h v n c
  decide

/-- Settles O20: each field lies at its place in the high byte, and F is the low byte. -/
theorem statusRegisterLayout : Obligations.StatusRegisterLayout := by
  intro s
  obtain ⟨h7, hiff, h3, h2, hrfp⟩ := srHigh_fields s.iff s.rfp
  have hf : s.sr.extractLsb' 0 8 = s.flags.toByte := BitVec.extractLsb'_append_eq_right
  have low (k : Nat) (hk : k < 8) : s.sr.getLsbD k = s.flags.toByte.getLsbD k := by
    rw [← hf, BitVec.getLsbD_extractLsb']
    simp [hk]
  obtain ⟨b7, b6, b5, b4, b3, b2, b1, b0⟩ := s.flags.getLsbD_toByte
  exact ⟨(getLsbD_high _ _ 7).trans h7, (extractLsb'_high _ _ 4 3).trans hiff, (getLsbD_high _ _ 3).trans h3,
    (getLsbD_high _ _ 2).trans h2, (extractLsb'_high _ _ 0 2).trans hrfp, hf, (low 7 (by decide)).trans b7,
    (low 6 (by decide)).trans b6, (low 5 (by decide)).trans b5, (low 4 (by decide)).trans b4,
    (low 3 (by decide)).trans b3, (low 2 (by decide)).trans b2, (low 1 (by decide)).trans b1,
    (low 0 (by decide)).trans b0⟩

/-! ## Conditions -/

/-- A difference of two values is rounded by one turn of 2^n at most, and then has the wrong sign (R11). -/
theorem toInt_sub_cases {n : Nat} (a b : BitVec n) :
    (a - b).toInt = a.toInt - b.toInt ∨
      (a.toInt < b.toInt ∧ 0 ≤ (a - b).toInt) ∨ (b.toInt < a.toInt ∧ (a - b).toInt < 0) := by
  cases n with
  | zero => exact .inl (by simp [BitVec.eq_nil a, BitVec.eq_nil b])
  | succ n =>
    have ha1 := BitVec.le_toInt a
    have ha2 := BitVec.toInt_lt (x := a)
    have hb1 := BitVec.le_toInt b
    have hb2 := BitVec.toInt_lt (x := b)
    have hr1 := BitVec.le_toInt (a - b)
    have hr2 := BitVec.toInt_lt (x := a - b)
    obtain ⟨k, hk⟩ : ∃ k, a.toInt - b.toInt = (a - b).toInt + 2 * 2 ^ n * k := by
      have hturn : ((2 ^ (n + 1) : Nat) : Int) = 2 * 2 ^ n := by push_cast; ring
      rw [BitVec.toInt_sub, ← hturn]
      exact ⟨_, (Int.bmod_add_bdiv _ _).symm⟩
    rw [Nat.add_sub_cancel] at *
    generalize (2 : Int) ^ n = p at *
    have hk1 : k < 2 := by
      by_contra hc
      nlinarith [mul_nonneg (show 0 ≤ p by omega) (show 0 ≤ k - 2 by omega)]
    have hk2 : -2 < k := by
      by_contra hc
      nlinarith [mul_nonneg (show 0 ≤ p by omega) (show 0 ≤ -2 - k by omega)]
    obtain rfl | rfl | rfl : k = -1 ∨ k = 0 ∨ k = 1 := by omega
    all_goals omega

theorem sub_ofBool_false {n : Nat} (d : BitVec n) : d - (BitVec.ofBool false).setWidth n = d := by simp

/-- What S and V together say after a comparison (R130). -/
theorem SubFlags.lt_iff {n : Nat} {a b : BitVec n} {f : Flags} (h : SubFlags a b false f) :
    (f.s ^^ f.v) = true ↔ a.toInt < b.toInt := by
  have hs : f.s = true ↔ (a - b).toInt < 0 := by
    rw [h.s, sub_ofBool_false, BitVec.msb_eq_toInt, decide_eq_true_iff]
  have hv : f.v = true ↔ (a - b).toInt ≠ a.toInt - b.toInt := by simpa using h.v
  have hx : (f.s ^^ f.v) = true ↔ ¬ (f.s = true ↔ f.v = true) := by cases f.s <;> cases f.v <;> decide
  rw [hx, hs, hv]
  have := toInt_sub_cases a b
  omega

/-- Settles O21: the conditions are combinations of Z, C and of S with V, which tell of equality and of the two orders. -/
theorem compareConditions : Obligations.CompareConditions := by
  refine ⟨fun f => ⟨rfl, rfl, rfl, rfl, rfl, rfl, rfl, rfl, rfl, rfl, rfl, rfl, rfl, rfl, rfl, rfl⟩,
    fun n a b f _ h => ?_⟩
  have hz : f.z = true ↔ a = b := by simpa [BitVec.sub_eq_iff_eq_add] using h.z
  have hc : f.c = true ↔ a.toNat < b.toNat := by simpa using h.c
  have hs : f.s = true ↔ (a - b).toInt < 0 := by
    rw [h.s, sub_ofBool_false, BitVec.msb_eq_toInt, decide_eq_true_iff]
  have hv : f.v = true ↔ (a - b).toInt ≠ a.toInt - b.toInt := by simpa using h.v
  have hlt := h.lt_iff
  have heq : a = b ↔ a.toNat = b.toNat := BitVec.toNat_inj.symm
  have heqI : a = b ↔ a.toInt = b.toInt := BitVec.toInt_inj.symm
  simp only [condHolds, Bool.not_eq_true', Bool.or_eq_true, ← Bool.not_eq_true, hz, hc, hs, hv, hlt]
  refine ⟨trivial, trivial, trivial, Nat.not_lt, ?le, ?gt, trivial, Int.not_lt, ?leSigned, ?gtSigned, trivial, not_not,
    trivial, Int.not_lt, trivial, trivial⟩
  case le | gt => rw [heq]; omega
  case leSigned | gtSigned => rw [heqI]; omega

/-! ## What the definitions answer directly -/

/-- Settles O22: each is one write of a register place. -/
theorem loadRegister : Obligations.LoadRegister := fun s =>
  ⟨fun _ _ _ => ⟨_, rfl, loadsReg_writeLoc s _ _⟩, fun _ _ _ => ⟨_, rfl, loadsReg_writeLoc s _ _⟩,
    fun _ _ _ => ⟨_, rfl, loadsReg_writeLoc s _ _⟩, fun R imm => ⟨_, rfl, loadsReg_writeLoc s (curLoc s.rfp .b R) imm⟩,
    fun R imm => ⟨_, rfl, loadsReg_writeLoc s (curLoc s.rfp .w R) imm⟩,
    fun R imm => ⟨_, rfl, loadsReg_writeLoc s (curLoc s.rfp .l R) imm⟩, fun _ _ _ => ⟨_, rfl, loadsReg_writeLoc s _ _⟩⟩

/-- Settles O54: each of these is one update of one field, or none. -/
theorem maskAndHaltInstructions : Obligations.MaskAndHaltInstructions := fun _ => ⟨rfl, fun _ => rfl, rfl, rfl⟩

theorem decode_of_encode {i : Instr} {bs : List Byte} (hi : i.wf = true) (h : encode i = bs) :
    decode bs = .ok (i, []) := by
  rw [← h, ← List.append_nil (encode i)]
  exact decodeEncodeRoundTrip i [] hi

/-- Settles O3: each word is the encoding of its instruction, which the decoder reads back. -/
theorem decodeKnownWords : Obligations.DecodeKnownWords := by
  refine ⟨?_, ?_, ?_, ?_, ?_, ?_, ?_, ?_, ?_, ?_⟩
  all_goals exact decode_of_encode rfl (by decide)

end Sys2Proof.Machine
end

section
/-! SUPPORT. Proofs of the statements about loads and the stack (R160 to R186): the effects of the shared operations, put
together instruction by instruction. -/

namespace Sys2Proof.Machine

/-! ## LD -/

theorem State.loadCur_spec (s : State) (sz : Size) (R : BitVec 3) (m : MemOp) :
    (autoReg s.rfp m ≠ some (curLoc s.rfp sz R).g →
      (s.loadCur sz R m).readLoc (curLoc s.rfp sz R) = s.memRead sz.bytes (s.ea m)) ∧
    MovedRegsBut s (s.loadCur sz R m) m (curLoc s.rfp sz R) ∧ SameMemory s (s.loadCur sz R m) ∧
    SameOutside s (s.loadCur sz R m) := by
  refine ⟨fun h => ?_, ?_, .of_fields (by simp [State.loadCur]) (by simp [State.loadCur]), by simp [State.loadCur],
    by simp [State.loadCur], by constructor <;> simp [State.loadCur]⟩
  · rw [State.loadCur, State.readLoc_postStepInto _ _ _ (by simpa using h)]
    simp
  · exact State.movedRegsBut_postStepInto m _ _ (by simp) fun g => by simp

/-- Settles O23: the value loaded stays unless the mode steps its register, and the other bytes step as the mode says. -/
theorem loadFromMemory : Obligations.LoadFromMemory := fun s sz R m => ⟨_, rfl, s.loadCur_spec sz R m⟩

/-- The store of a current register (R167); its value is free only where the mode pre-decrements it. -/
theorem State.storeCur_spec (s : State) (sz : Size) (m : MemOp) (R : BitVec 3) :
    ∃ v, Stores s (s.storeCur sz m R) m sz.bytes v ∧
      (preReg s.rfp m ≠ some (curLoc s.rfp sz R).g → v = s.readLoc (curLoc s.rfp sz R)) := by
  refine ⟨(s.preStep m).dataLoc m (curLoc s.rfp sz R), ?_, fun h => ?_⟩
  · exact stores_memWrite m sz.bytes _ (by cases sz <;> decide) (fun g => by simp) (by simp)
      ⟨by simp, by simp, by constructor <;> simp⟩
  · rw [State.dataLoc_eq _ _ _ (by simpa using h), State.readLoc_preStep _ _ _ h]

/-- A store at an absolute address is one through that memory operand, which has no step (R168). -/
theorem stores_abs8 (s : State) (a : Byte) (nb : Nat) (v : BitVec (8 * nb)) (hnb : nb < 2 ^ 24) :
    Stores s (s.memWrite nb (a.setWidth 32) v) (.abs8 a) nb v :=
  s.stores_storeVal nb (.abs8 a) v hnb

/-- Settles O24: a current register or an immediate is stored through a memory operand. -/
theorem storeToMemory : Obligations.StoreToMemory := by
  intro s
  refine ⟨fun m R => ?byte, fun m R => ?word, fun m R => ?long, fun a imm => ⟨_, rfl, stores_abs8 s a 1 imm (by decide)⟩,
    fun a imm => ⟨_, rfl, stores_abs8 s a 2 imm (by decide)⟩,
    fun m imm => ⟨_, rfl, s.stores_storeVal 1 m imm (by decide)⟩,
    fun m imm => ⟨_, rfl, s.stores_storeVal 2 m imm (by decide)⟩⟩
  case byte =>
    obtain ⟨v, h⟩ := s.storeCur_spec .b m R
    exact ⟨_, v, rfl, h⟩
  case word =>
    obtain ⟨v, h⟩ := s.storeCur_spec .w m R
    exact ⟨_, v, rfl, h⟩
  case long =>
    obtain ⟨v, h⟩ := s.storeCur_spec .l m R
    exact ⟨_, v, rfl, h⟩

/-- R170: the value read through the memory operand is written at the zero-extended #16. -/
theorem State.memToAbs16_spec (s : State) (z : SizeBW) (a : Word) (m : MemOp) :
    let t := ((s.preStep m).memWrite z.size.bytes (a.setWidth 32) (s.memRead z.size.bytes (s.ea m))).postStep m
    t.memRead z.size.bytes (a.setWidth 32) = s.memRead z.size.bytes (s.ea m) ∧
      SameMemoryBut s t z.size.bytes (a.setWidth 32) ∧ MovedRegs s t m ∧ SameOutside s t := by
  intro t
  refine ⟨?_, fun b hb => ?_, fun g => ?_, by simp [t], by simp [t], by constructor <;> simp [t]⟩
  · rw [State.memRead_postStep, State.memRead_memWrite_same _ _ _ _ (by cases z <;> decide)]
  · rw [State.readByte_postStep, State.readByte_memWrite_other _ _ _ _ _ hb, State.readByte_preStep]
  · exact State.reg_stepped m (by simp) g (by simp)

/-- Settles O25: a read, and then a store through the other operand. -/
theorem memoryToMemory : Obligations.MemoryToMemory := by
  intro s
  refine ⟨fun z a m => ⟨_, rfl, ?_⟩, fun m a => ⟨_, rfl, ?_⟩, fun m a => ⟨_, rfl, ?_⟩⟩
  · simp only [State.noteRead_eq, State.memRead_preStep]
    exact s.memToAbs16_spec z a m
  · exact s.stores_storeVal 1 m _ (by decide)
  · exact s.stores_storeVal 2 m _ (by decide)

/-! ## PUSH and POP -/

theorem State.push_spec (s : State) (nb : Nat) (v : BitVec (8 * nb)) (hnb : nb < 2 ^ 24) :
    Pushes s (s.push nb v) nb v ∧ SameOutside s (s.push nb v) :=
  ⟨s.pushes_push nb v hnb, s.sameOutside_push nb v⟩

/-- Settles O26: each is `push_n` of its value, a part of XSP aside. -/
theorem pushValues : Obligations.PushValues := fun s =>
  ⟨⟨_, rfl, s.push_spec 1 _ (by decide)⟩, ⟨_, rfl, s.push_spec 2 _ (by decide)⟩,
    ⟨_, rfl, s.push_spec 1 (s.readLoc (curLoc s.rfp .b 1)) (by decide)⟩,
    fun R => ⟨_, rfl, s.pushLoc_spec (curLoc s.rfp .w R)⟩, fun R => ⟨_, rfl, s.pushLoc_spec (curLoc s.rfp .l R)⟩,
    fun _ r => ⟨_, rfl, s.pushLoc_spec (opLoc s.rfp r)⟩, fun imm => ⟨_, rfl, s.push_spec 1 imm (by decide)⟩,
    fun imm => ⟨_, rfl, s.push_spec 2 imm (by decide)⟩⟩

theorem aLoc_g_ne_xsp (rfp : BitVec 2) : (aLoc rfp).g ≠ .xsp := nofun

/-- POP A is a pop to the place of A, which is never part of XSP (R181). -/
theorem exec_popA (s : State) : exec .popA s = .next (s.popLoc (aLoc s.rfp)) := by
  rw [State.popLoc, if_neg (aLoc_g_ne_xsp s.rfp)]
  rfl

theorem extractLsb'_of_high (w : Word) (k n : Nat) (h : k + n ≤ 8) :
    w.extractLsb' (8 + k) n = (w.extractLsb' 8 8).extractLsb' k n := by
  apply BitVec.eq_of_getLsbD_eq
  intro i hi
  simp only [BitVec.getLsbD_extractLsb', hi, decide_true, Bool.true_and]
  rw [decide_eq_true (show k + i < 8 by omega), Bool.true_and, Nat.add_assoc]

/-- The fields that a word from the stack loads into SR lie in its two bytes (R354). -/
theorem State.setSr_stackTop (s : State) :
    ((s.stackTop 2).extractLsb' 12 3 = (s.readByte (busAddr (s.xsp + 1))).extractLsb' 4 3) ∧
      ((s.stackTop 2).extractLsb' 8 2 = (s.readByte (busAddr (s.xsp + 1))).extractLsb' 0 2) := by
  rw [← State.stackTop_high]
  exact ⟨extractLsb'_of_high _ 4 3 (by decide), extractLsb'_of_high _ 0 2 (by decide)⟩

theorem sameRegsExcept_popped (s : State) (nb : Nat) : SameRegsExcept s (s.popped nb) [.xsp] := fun g hg => by
  rw [State.reg_popped, if_neg (by simpa using hg)]

/-- Settles O27: the value at XSP is loaded bit by bit into F or SR, or into the place of a register. -/
theorem popValues : Obligations.PopValues := by
  intro s
  refine ⟨⟨_, rfl, ?popF⟩, ⟨_, rfl, ?popSr⟩, ⟨_, exec_popA s, s.popLoc_spec _⟩, fun R => ⟨_, rfl, s.popLoc_spec _⟩,
    fun R => ⟨_, rfl, s.popLoc_spec _⟩, fun sz r => ⟨_, rfl, s.popLoc_spec _⟩⟩
  case popF =>
    rw [State.stackTop_byte]
    refine ⟨by simp, rfl, rfl, rfl, rfl, rfl, rfl, fun g hg => ?_, .of_fields (by simp) (by simp), by simp,
      by constructor <;> simp⟩
    rw [State.reg_with_flags]
    exact sameRegsExcept_popped s 1 g hg
  case popSr =>
    refine ⟨by simp, s.setSr_stackTop.1, s.setSr_stackTop.2, ?_, fun g hg => ?_, .of_fields (by simp) (by simp), by simp,
      by simp, by simp, by simp, by simp, by simp, by simp, by simp, by simp⟩
    · rw [← State.stackTop_low]
      exact Flags.toByte_ofByte _
    · rw [State.reg_setSr]
      exact sameRegsExcept_popped s 2 g hg

/-- Settles O28: the shared operations of PUSH and POP with a memory operand. -/
theorem pushPopMemory : Obligations.PushPopMemory := by
  intro s
  refine ⟨fun z m => ?push, fun m => ?popB, fun m => ?popW⟩
  case push =>
    obtain ⟨p, h⟩ := s.pushMemOp_spec z m
    exact ⟨_, p, rfl, h⟩
  case popB =>
    obtain ⟨q, h⟩ := s.popMemOp_spec .b m
    exact ⟨_, q, rfl, h⟩
  case popW =>
    obtain ⟨q, h⟩ := s.popMemOp_spec .w m
    exact ⟨_, q, rfl, h⟩

/-! ## LDA and LDAR -/

theorem State.reg_addrStepInto_ne {sz : Size} (s : State) (m : MemOp) (l : Loc sz) {g : GReg} (h : g ≠ l.g) :
    (s.addrStepInto m l).reg g = s.reg g := by
  unfold State.addrStepInto
  split
  · rw [State.reg_drawn, State.reg_setReg_ne _ _ h]
  · rfl

/-- A register that the mode does not move is as it was after the step of an address-only instruction. -/
theorem State.reg_addrStep_of_not_auto (s : State) (m : MemOp) (g : GReg) (h : autoReg s.rfp m ≠ some g) :
    (s.addrStep m).reg g = s.reg g := by
  rcases s.reg_addrStep m g with e | e
  · exact e
  · rw [e, movedReg_of_not_auto s m g h]

/-- LDA (R185): the address is loaded, and the other registers have moved as the mode says or not at all. -/
theorem State.ldaCur_spec (s : State) (sz : Size) (R : BitVec 3) (m : MemOp) :
    (autoReg s.rfp m ≠ some (curLoc s.rfp sz R).g →
      (s.ldaCur sz R m).readLoc (curLoc s.rfp sz R) = (s.ea m).setWidth sz.bits ∧
      ∀ k, ¬ (curLoc s.rfp sz R).covers (curLoc s.rfp sz R).g k →
        (s.ldaCur sz R m).regByte (curLoc s.rfp sz R).g k = s.regByte (curLoc s.rfp sz R).g k) ∧
    (∀ g, g ≠ (curLoc s.rfp sz R).g → (s.ldaCur sz R m).reg g = s.reg g ∨ (s.ldaCur sz R m).reg g = s.movedReg m g) ∧
    SameMemory s (s.ldaCur sz R m) ∧ SameOutside s (s.ldaCur sz R m) := by
  refine ⟨fun h => ?_, fun g hg => ?_, .of_fields (by simp [State.ldaCur]) (by simp [State.ldaCur]),
    by simp [State.ldaCur], by simp [State.ldaCur], by constructor <;> simp [State.ldaCur]⟩
  · have e : s.ldaCur sz R m =
        (s.addrStep m).writeLoc (curLoc s.rfp sz R) ((s.ea m).setWidth sz.bits) := by
      simp [State.ldaCur, State.addrStepInto, h]
    rw [e]
    refine ⟨State.readLoc_writeLoc_same _ _ _, fun k hk => ?_⟩
    rw [sameRegsBut_writeLoc _ _ _ _ _ hk]
    exact State.regByte_of_reg (s.reg_addrStep_of_not_auto m _ h) k
  · rw [State.ldaCur, State.reg_addrStepInto_ne _ _ _ hg, State.reg_writeLoc_ne _ _ _ hg]
    exact s.reg_addrStep m g

/-- Settles O29: LDA by its shared operation, LDAR as a load of the sum. -/
theorem loadAddress : Obligations.LoadAddress := by
  intro s
  refine ⟨fun R m => ⟨_, rfl, s.ldaCur_spec .w R m⟩, fun R m => ?_, fun R d => ⟨_, rfl, loadsReg_writeLoc s _ _⟩,
    fun R d => ⟨_, rfl, ?_⟩⟩
  · obtain ⟨hload, hrest⟩ := s.ldaCur_spec .l R m
    exact ⟨_, rfl, fun h => (hload h).1.trans (BitVec.setWidth_eq _), hrest⟩
  · have h := loadsReg_writeLoc s (curLoc s.rfp .l R) (s.pc - 5 + 4 + d.signExtend 32)
    rw [← BitVec.setWidth_eq (s.pc - 5 + 4 + d.signExtend 32)] at h
    exact h

end Sys2Proof.Machine
end

section
/-! SUPPORT. Proofs of the statements about control, jumps, calls and returns (R350 to R375, R420 to R440). -/

namespace Sys2Proof.Machine

/-! ## SCC, LDC, LINK, UNLK -/

theorem setWidth_ofBool {n : Nat} (b : Bool) : (BitVec.ofBool b).setWidth n = if b then 1 else 0 := by
  cases b
  · simp
  · exact BitVec.eq_of_toNat_eq (by simp)

/-- Settles O55: the control registers are fields of their own, and what is read or set is a place of a register. -/
theorem conditionAndControlLoads : Obligations.ConditionAndControlLoads := by
  intro s
  refine ⟨fun z r cc => ⟨_, rfl, ?scc⟩, fun cr r => ⟨_, rfl, ?toCr⟩, fun cr r => ⟨_, rfl, loadsReg_writeLoc s _ _⟩⟩
  case scc =>
    rw [← setWidth_ofBool]
    exact loadsReg_writeLoc s _ _
  case toCr =>
    exact ⟨State.readCr_writeCr_same s cr _, fun cr' h => State.readCr_writeCr_ne s cr cr' _ h, fun g => by simp,
      .of_fields (by simp) (by simp), by simp, by simp, by simp, by simp, by simp, by simp, by simp⟩

/-- What LINK leaves in every case: the rest of memory, of the registers and of the state (R365). -/
theorem State.link_spec (s : State) (l : Loc .l) (d : Word) :
    let t := if l.g = .xsp then { (s.pushLoc l).drawn with xsp := (s.pushLoc l).freeBits 32 }
      else { (s.pushLoc l).writeLoc l (s.pushLoc l).xsp with xsp := (s.pushLoc l).xsp + d.signExtend 32 }
    (l.g ≠ .xsp → t.xsp = s.xsp - 4 + d.signExtend 32 ∧ t.readLoc l = s.xsp - 4 ∧
        t.memRead 4 (s.xsp - 4) = s.readLoc l) ∧
      SameMemoryBut s t 4 (s.xsp - 4) ∧ SameRegsExcept s t [.xsp, l.g] ∧ SameOutside s t := by
  intro t
  obtain ⟨⟨hsp, hregs, hmem⟩, ⟨hflags, hpc, hrest⟩, hval⟩ := s.pushLoc_spec l
  have htmem : t.mem = (s.pushLoc l).mem := by
    simp only [t]
    split <;> simp
  have hout : SameOutside (s.pushLoc l) t := by
    simp only [t]
    split <;> exact ⟨by simp, by simp, by constructor <;> simp⟩
  obtain ⟨hflags', hpc', hrest'⟩ := hout
  refine ⟨fun h => ?_, fun a ha => (State.readByte_of_mem htmem a).trans (hmem a ha), fun g hg => ?_,
    hflags'.trans hflags, hpc'.trans hpc, hrest.trans hrest'⟩
  · have ht : t = { (s.pushLoc l).writeLoc l (s.pushLoc l).xsp with xsp := (s.pushLoc l).xsp + d.signExtend 32 } :=
      if_neg h
    refine ⟨?_, ?_, (State.memRead_eq_of_mem htmem _ _).trans (hval h).2⟩
    · rw [ht, hsp]
      rfl
    · have e : t.readLoc l = ((s.pushLoc l).writeLoc l (s.pushLoc l).xsp).readLoc l :=
        State.readLoc_eq_of_reg l (by rw [ht, State.reg_with_xsp, if_neg h])
      rw [e, State.readLoc_writeLoc_same, hsp]
      rfl
  · obtain ⟨hgsp, hgl⟩ : g ≠ .xsp ∧ g ≠ l.g := by simpa using hg
    refine Eq.trans ?_ (hregs g (by simpa using hgsp))
    simp only [t]
    split
    · rw [State.reg_with_xsp, if_neg hgsp, State.reg_drawn]
    · rw [State.reg_with_xsp, if_neg hgsp, State.reg_writeLoc_ne _ _ _ hgl]

theorem readOp_long_eq (s : State) (r : RegOp .l) : s.readOp r = s.readLoc (opLoc s.rfp r) := rfl

/-- A pop to a long register leaves every register but it and XSP as it was. -/
theorem sameRegsExcept_popLoc (s : State) (l : Loc .l) : SameRegsExcept s (s.popLoc l) [.xsp, l.g] := by
  intro g hg
  obtain ⟨hgsp, hgl⟩ : g ≠ .xsp ∧ g ≠ l.g := by simpa using hg
  unfold State.popLoc
  split
  · rw [State.reg_with_xsp, if_neg hgsp, State.noteRead_eq, State.reg_drawn]
  · rw [State.reg_writeLoc_ne _ _ _ hgl, State.reg_popped, if_neg hgsp]

/-- Settles O56: LINK by what its push leaves, UNLK by a pop from where the register points. -/
theorem linkUnlink : Obligations.LinkUnlink := by
  intro s r
  refine ⟨fun d => ⟨_, rfl, s.link_spec (opLoc s.rfp r) d⟩, _, rfl, ?_⟩
  obtain ⟨hload, -, hmem, hflags, hpc, hrest⟩ := ({ s with xsp := s.readOp r } : State).popLoc_spec (opLoc s.rfp r)
  refine ⟨hload, fun g hg => ?_, hmem, hflags, hpc, SameRest.trans (by constructor <;> rfl) hrest⟩
  have hgsp : g ≠ .xsp := fun e => hg (by simp [e])
  rw [sameRegsExcept_popLoc _ _ g hg, State.reg_with_xsp, if_neg hgsp]

/-! ## SWI and RETI -/

theorem vectorAddr_swi (num : BitVec 3) : vectorAddr (num.setWidth 6) = 0xFFFF00 + 4 * num.setWidth 32 := by
  revert num; decide

/-- Settles O57: SWI takes the exception of its entry of the vector table. -/
theorem softwareInterrupt : Obligations.SoftwareInterrupt := by
  intro s num
  obtain ⟨hsp, hsr, hret, hpc, hmem, hregs, hflags, hrest⟩ := s.takeException_spec .software s.pc (num.setWidth 6)
  rw [vectorAddr_swi] at hpc
  exact ⟨_, rfl, hsp, hsr, hret, s.records_takeException .software s.pc (num.setWidth 6), hpc, hmem, hregs, hflags, hrest⟩

theorem exec_reti (s : State) : exec .reti s = .next s.returnFromException := rfl

/-- What RETI pops (R440). -/
theorem State.returnFromException_spec (s : State) :
    let t := s.returnFromException
    t.pc = s.memRead 4 (s.xsp + 2) ∧ t.xsp = s.xsp + 6 ∧ t.iff = (s.memRead 2 s.xsp).extractLsb' 12 3 ∧
      t.rfp = (s.memRead 2 s.xsp).extractLsb' 8 2 ∧ t.flags = Flags.ofByte ((s.memRead 2 s.xsp).extractLsb' 0 8) ∧
      t.intnest = s.intnest - 1 ∧ SameRegsExcept s t [.xsp] ∧ SameMemory s t := by
  refine ⟨by simp [State.returnFromException], by simp [State.returnFromException], rfl, rfl, rfl, rfl, fun g hg => ?_,
    .of_fields (by simp [State.returnFromException]) (by simp [State.returnFromException])⟩
  have hg : g ≠ .xsp := by simpa using hg
  cases g with
  | xsp => exact absurd rfl hg
  | _ => simp [State.returnFromException, State.reg]

theorem State.sr_extract (s : State) : s.sr.extractLsb' 12 3 = s.iff ∧ s.sr.extractLsb' 8 2 = s.rfp ∧
    Flags.ofByte (s.sr.extractLsb' 0 8) = s.flags := by
  obtain ⟨-, hiff, -, -, hrfp, hf, -⟩ := statusRegisterLayout s
  exact ⟨hiff, hrfp, by rw [hf, Flags.ofByte_toByte]⟩

/-- Settles O17: what RETI pops is what SWI has stored. -/
theorem softwareInterruptReturn : Obligations.SoftwareInterruptReturn := by
  intro num s t u ht hsp hsr hpc
  obtain rfl : s.takeException .software s.pc (num.setWidth 6) = t := Host.Outcome.next.inj ht
  obtain ⟨tsp, tsr, tret, -⟩ := s.takeException_spec .software s.pc (num.setWidth 6)
  have hret : s.xsp - 6 + 2 = s.xsp - 4 := by simpa using (sp_plus_two s.xsp 0).symm
  rw [tsp] at hsp
  rw [tsp, tsr] at hsr
  rw [tsp, hret, tret] at hpc
  obtain ⟨vpc, vsp, viff, vrfp, vflags, -, vregs, vmem⟩ := u.returnFromException_spec
  obtain ⟨siff, srfp, sflags⟩ := s.sr_extract
  rw [hsr] at viff vrfp vflags
  refine ⟨_, exec_reti u, vpc.trans hpc, ?_, viff.trans siff, vrfp.trans srfp, vflags.trans sflags, vregs, vmem⟩
  rw [vsp, hsp, BitVec.sub_add_cancel]

/-! ## Jumps -/

theorem State.when_pc (s : State) (b : Bool) (pc : Long) :
    (if b then { s with pc := pc } else s) = { s with pc := if b then pc else s.pc } := by
  cases b <;> rfl

/-- DJNZ (R425): the jump is not taken when the register held 1. -/
theorem State.djnz_spec (s : State) (z : SizeBW) (l : Loc z.size) (d : Byte) :
    let s1 := s.writeLoc l (s.readLoc l - 1)
    let t := if s.readLoc l - 1 = 0 then s1 else { s1 with pc := s1.pc + d.signExtend 32 }
    t.readLoc l = s.readLoc l - 1 ∧ t.pc = (if s.readLoc l = 1 then s.pc else s.pc + d.signExtend 32) ∧
      SameRegsBut s t l ∧ SameMemory s t ∧ t.flags = s.flags ∧ SameRest s t := by
  intro s1 t
  obtain ⟨hval, hregs, hmem, hflags, hpc, hrest⟩ := loadsReg_writeLoc s l (s.readLoc l - 1)
  have hone : s.readLoc l - 1 = 0 ↔ s.readLoc l = 1 := by
    rw [BitVec.sub_eq_iff_eq_add, zero_add]
  simp only [t, hone]
  split
  · exact ⟨hval, hpc, hregs, hmem, hflags, hrest⟩
  · refine ⟨(State.readLoc_with_pc _ _ _).trans hval, congrArg (· + d.signExtend 32) hpc, fun g k hk => ?_, hmem, hflags,
      hrest.iff, hrest.rfp, hrest.flagsAlt, hrest.dmas, hrest.dmad, hrest.dmac, hrest.dmam, hrest.intnest, hrest.halted,
      hrest.comparing, hrest.host⟩
    exact (State.regByte_of_reg (State.reg_with_pc _ _ g) k).trans (hregs g k hk)

theorem exec_jpMem_of_false {cc : Cond} {m : MemOp} {s : State} (h : condHolds cc s.flags = false) :
    exec (.jpMem cc m) s = .next s := by
  show execJpMem cc m s = _
  simp [execJpMem, h]

theorem exec_jpMem_of_true {cc : Cond} {m : MemOp} {s : State} (h : condHolds cc s.flags = true) :
    exec (.jpMem cc m) s = .next { s.addrStep m with pc := s.ea m } := by
  show execJpMem cc m s = _
  simp [execJpMem, h]

/-- Settles O58: a conditional jump sets PC or leaves it. -/
theorem jumps : Obligations.Jumps := by
  intro s
  refine ⟨fun _ => rfl, fun _ => rfl, fun cc m => ?jpMem, fun cc d => congrArg Host.Outcome.next (s.when_pc _ _),
    fun cc d => congrArg Host.Outcome.next (s.when_pc _ _), fun z r d => ⟨_, rfl, s.djnz_spec z (opLoc s.rfp r) d⟩⟩
  case jpMem =>
    cases h : condHolds cc s.flags with
    | false => exact ⟨s, exec_jpMem_of_false h, fun _ => rfl, nofun⟩
    | true =>
      refine ⟨_, exec_jpMem_of_true h, nofun, fun _ => ⟨rfl, fun g => ?_, .of_fields (by simp) (by simp), by simp,
        by constructor <;> simp⟩⟩
      rw [State.reg_with_pc]
      exact s.reg_addrStep m g

/-! ## Calls -/

/-- A push and then a new PC (R430). -/
theorem State.callTo_spec (s : State) (target : Long) :
    Pushes s (s.callTo target) 4 s.pc ∧ (s.callTo target).pc = target ∧ (s.callTo target).flags = s.flags ∧
      SameRest s (s.callTo target) := by
  obtain ⟨⟨hsp, hregs, hmem⟩, hval⟩ := s.pushes_push 4 s.pc (by decide)
  refine ⟨⟨⟨hsp, fun g hg => ?_, hmem⟩, ?_⟩, rfl, by simp [State.callTo], by constructor <;> simp [State.callTo]⟩
  · exact (State.reg_with_pc _ target g).trans (hregs g hg)
  · exact (State.memRead_with_pc _ target _ _).trans hval

/-- What CALL mem does to the registers and the stack when its condition holds (R432, D29). -/
theorem State.callPush_spec (s : State) (m : MemOp) :
    (∀ g, g ≠ .xsp → (s.callPush m).reg g = s.reg g ∨ (s.callPush m).reg g = s.movedReg m g) ∧
      ((s.callPush m).xsp = s.xsp - 4 ∨ (s.callPush m).xsp = s.movedReg m .xsp - 4) ∧
      (∃ p, (p = s.xsp - 4 ∨ p = s.movedReg m .xsp - 4) ∧ (s.callPush m).memRead 4 p = s.pc ∧
        SameMemoryBut s (s.callPush m) 4 p) ∧
      (s.callPush m).flags = s.flags ∧ SameRest s (s.callPush m) := by
  unfold State.callPush
  split
  · obtain ⟨⟨hsp, hregs, hmem⟩, hval⟩ := s.drawn.pushes_push 4 s.pc (by decide)
    simp only [State.modeStep_eq]
    refine ⟨fun g hg => .inr (State.reg_modeStep m (by simp) g ?_), .inr ?_, ⟨s.xsp - 4, .inl rfl, ?_, fun a ha => ?_⟩,
      by simp, by constructor <;> simp⟩
    · rw [hregs g (by simpa using hg), State.reg_drawn]
    · have := State.reg_modeStep_add (s := s) m (t := s.drawn.push 4 s.pc) (by simp) .xsp (-4)
        (hsp.trans (BitVec.sub_eq_add_neg _ _))
      rwa [← BitVec.sub_eq_add_neg] at this
    · rw [State.memRead_postStep, State.memRead_preStep]
      exact hval
    · rw [State.readByte_postStep, State.readByte_preStep]
      exact hmem a ha
  · obtain ⟨⟨hsp, hregs, hmem⟩, hval⟩ := (s.addrStep m).pushes_push 4 s.pc (by decide)
    have hx : (s.addrStep m).xsp = s.xsp ∨ (s.addrStep m).xsp = s.movedReg m .xsp := s.reg_addrStep m .xsp
    refine ⟨fun g hg => ?_, ?_, ⟨_, ?_, hval, fun a ha => (hmem a ha).trans (State.readByte_of_mem (by simp) a)⟩, by simp,
      by constructor <;> simp⟩
    · rw [hregs g (by simpa using hg)]
      exact s.reg_addrStep m g
    · exact hx.imp (fun e => by rw [hsp, e]; rfl) fun e => by rw [hsp, e]; rfl
    · exact hx.imp (fun e => by rw [e]; rfl) fun e => by rw [e]; rfl

theorem exec_callMem_of_false {cc : Cond} {m : MemOp} {s : State} (h : condHolds cc s.flags = false) :
    exec (.callMem cc m) s = .next s := by
  show execCallMem cc m s = _
  simp [execCallMem, h]

theorem exec_callMem_of_true {cc : Cond} {m : MemOp} {s : State} (h : condHolds cc s.flags = true) :
    exec (.callMem cc m) s = .next { s.callPush m with pc := s.ea m } := by
  show execCallMem cc m s = _
  simp [execCallMem, h]

/-- Settles O59: each call is a push of the address of the next instruction and a load of PC. -/
theorem calls : Obligations.Calls := by
  intro s
  refine ⟨fun a => ⟨_, rfl, s.callTo_spec _⟩, fun a => ⟨_, rfl, s.callTo_spec _⟩, fun d => ⟨_, rfl, s.callTo_spec _⟩,
    fun cc m => ?_⟩
  cases h : condHolds cc s.flags with
  | false => exact ⟨s, exec_callMem_of_false h, fun _ => rfl, nofun⟩
  | true =>
    obtain ⟨hregs, hsp, ⟨p, hp, hval, hmem⟩, hflags, hrest⟩ := s.callPush_spec m
    refine ⟨_, exec_callMem_of_true h, nofun, fun _ => ⟨rfl, fun g hg => ?_, hsp, ⟨p, hp, ?_, hmem⟩, hflags, hrest.iff,
      hrest.rfp, hrest.flagsAlt, hrest.dmas, hrest.dmad, hrest.dmac, hrest.dmam, hrest.intnest, hrest.halted,
      hrest.comparing, hrest.host⟩⟩
    · rw [State.reg_with_pc]
      exact hregs g hg
    · rw [State.memRead_with_pc]
      exact hval

/-! ## Returns -/

/-- PC is popped (R435). -/
theorem State.returnPc_spec (s : State) :
    s.returnPc.pc = s.memRead 4 s.xsp ∧ s.returnPc.xsp = s.xsp + 4 ∧ SameRegsExcept s s.returnPc [.xsp] ∧
      SameMemory s s.returnPc ∧ s.returnPc.flags = s.flags ∧ SameRest s s.returnPc := by
  refine ⟨rfl, by simp [State.returnPc], fun g hg => ?_, .of_fields (by simp [State.returnPc]) (by simp [State.returnPc]),
    by simp [State.returnPc], by constructor <;> simp [State.returnPc]⟩
  exact (State.reg_with_pc _ _ g).trans (sameRegsExcept_popped s 4 g hg)

theorem exec_retCc_of_false {cc : Cond} {s : State} (h : condHolds cc s.flags = false) :
    exec (.retCc cc) s = .next s := by
  show execRetCc cc s = _
  simp [execRetCc, h]

theorem exec_retCc_of_true {cc : Cond} {s : State} (h : condHolds cc s.flags = true) :
    exec (.retCc cc) s = .next s.returnPc := by
  show execRetCc cc s = _
  simp [execRetCc, h]

/-- Settles O60: the returns by what each pops. -/
theorem returns : Obligations.Returns := by
  intro s
  obtain ⟨hpc, hsp, hregs, hmem, hflags, hrest⟩ := s.returnPc_spec
  refine ⟨⟨_, rfl, hpc, hsp, hregs, hmem, hflags, hrest⟩, fun cc => ?retCc, fun d => ⟨_, rfl, hpc, ?retdSp, ?retdRegs, hmem,
    hflags, hrest.iff, hrest.rfp, hrest.flagsAlt, hrest.dmas, hrest.dmad, hrest.dmac, hrest.dmam, hrest.intnest,
    hrest.halted, hrest.comparing, hrest.host⟩, _, exec_reti s, ?reti⟩
  case retCc =>
    cases h : condHolds cc s.flags with
    | false => exact ⟨s, exec_retCc_of_false h, fun _ => rfl, nofun⟩
    | true => exact ⟨_, exec_retCc_of_true h, nofun, fun _ => ⟨hpc, hsp, hregs, hmem, hflags, hrest⟩⟩
  case retdSp => exact congrArg (· + d.signExtend 32) hsp
  case retdRegs =>
    intro g hg
    rw [State.reg_with_xsp, if_neg (by simpa using hg)]
    exact hregs g hg
  case reti =>
    obtain ⟨vpc, vsp, viff, vrfp, vflags, vnest, vregs, vmem⟩ := s.returnFromException_spec
    refine ⟨vpc, vsp, viff, vrfp, ?_, vnest, vregs, vmem, by simp [State.returnFromException],
      by simp [State.returnFromException], by simp [State.returnFromException], by simp [State.returnFromException],
      by simp [State.returnFromException], by simp [State.returnFromException], by simp [State.returnFromException]⟩
    rw [vflags, Flags.toByte_ofByte]

end Sys2Proof.Machine
end

section
/-! SUPPORT. Proofs of the statements about exchange, the two-operand group, INC and DEC, the unary operations and DAA (R201
to R203, R230 to R243, R300 to R304). -/

namespace Sys2Proof.Machine

/-! ## Exchange -/

/-- Two registers exchanged (R201): the second write finds a place that is the first one or shares no byte with it. -/
theorem exchange_spec (s : State) {sz : Size} (l l' : Loc sz) :
    let t := (s.writeLoc l (s.readLoc l')).writeLoc l' (s.readLoc l)
    t.readLoc l = s.readLoc l' ∧ t.readLoc l' = s.readLoc l ∧
      (∀ g k, ¬ l.covers g k → ¬ l'.covers g k → t.regByte g k = s.regByte g k) ∧ SameMemory s t ∧ SameOutside s t := by
  intro t
  refine ⟨?_, State.readLoc_writeLoc_same _ _ _, fun g k h h' => ?_, .of_fields (by simp [t]) (by simp [t]), by simp [t],
    by simp [t], by constructor <;> simp [t]⟩
  · rcases Loc.eq_or_disjoint l l' with rfl | hd
    · exact State.readLoc_writeLoc_same _ _ _
    · exact (State.readLoc_writeLoc_disjoint _ _ _ _ fun g k hc => hd g k hc.symm).trans
        (State.readLoc_writeLoc_same _ _ _)
  · exact (sameRegsBut_writeLoc _ _ _ g k h').trans (sameRegsBut_writeLoc _ _ _ g k h)

/-- A register exchanged with memory (R202). -/
theorem exchangeMem_spec (s : State) {sz : Size} (m : MemOp) (l : Loc sz) (hsz : sz.bytes < 2 ^ 24) :
    let t := ((((s.preStep m).dataDrawn m l).memWrite sz.bytes (s.ea m) ((s.preStep m).dataLoc m l)).writeLoc l
      (s.memRead sz.bytes (s.ea m))).postStepInto m l
    (autoReg s.rfp m ≠ some l.g → t.readLoc l = s.memRead sz.bytes (s.ea m)) ∧
      (preReg s.rfp m ≠ some l.g → t.memRead sz.bytes (s.ea m) = s.readLoc l) ∧
      SameMemoryBut s t sz.bytes (s.ea m) ∧ MovedRegsBut s t m l ∧ SameOutside s t := by
  intro t
  have hmem : t.mem =
      (((s.preStep m).dataDrawn m l).memWrite sz.bytes (s.ea m) ((s.preStep m).dataLoc m l)).mem := by simp [t]
  refine ⟨fun h => ?_, fun h => ?_, fun a ha => ?_, ?_, by simp [t], by simp [t], by constructor <;> simp [t]⟩
  · exact (State.readLoc_postStepInto _ _ _ (by simpa using h)).trans (State.readLoc_writeLoc_same _ _ _)
  · rw [State.memRead_eq_of_mem hmem, State.memRead_memWrite_same _ _ _ _ hsz, State.dataLoc_eq _ _ _ (by simpa using h),
      State.readLoc_preStep _ _ _ h]
  · rw [State.readByte_of_mem hmem, State.readByte_memWrite_other _ _ _ _ _ ha]
    exact State.readByte_of_mem (by simp) a
  · exact State.movedRegsBut_postStepInto m l _ (by simp) fun g => by simp

/-- Settles O30: both forms by what their two writes leave. -/
theorem exchangeOperands : Obligations.ExchangeOperands := by
  intro s
  refine ⟨fun z R r => ⟨_, rfl, ?_⟩, fun z m R => ⟨_, rfl, ?_⟩⟩
  · have h := exchange_spec s (curLoc s.rfp z.size R) (opLoc s.rfp r)
    simpa only [State.writeOp, State.setCur, State.readOp, State.cur, State.writeLoc_rfp] using h
  · have h := exchangeMem_spec s m (curLoc s.rfp z.size R) (by cases z <;> decide)
    simpa only [State.noteRead_eq, State.memRead_preStep] using h

/-! ## The two-operand group -/

theorem exec_aluCurReg (op : AluOp) (sz : Size) (R : BitVec 3) (r : RegOp sz) (s : State) :
    exec (op.curReg sz R r) s = .next (s.aluInto op (curLoc s.rfp sz R) (s.readLoc (opLoc s.rfp r))) := by
  cases op <;> rfl

theorem exec_aluRegImm (op : AluOp) (sz : Size) (r : RegOp sz) (imm : BitVec sz.bits) (s : State) :
    exec (op.regImm sz r imm) s = .next (s.aluInto op (opLoc s.rfp r) imm) := by
  cases op <;> rfl

theorem exec_aluCurMem (op : AluOp) (sz : Size) (R : BitVec 3) (m : MemOp) (s : State) :
    exec (op.curMem sz R m) s = .next (s.aluCurMem op sz R m) := by
  cases op <;> rfl

theorem exec_aluMemCur (op : AluOp) (sz : Size) (m : MemOp) (R : BitVec 3) (s : State) :
    exec (op.memCur sz m R) s = .next (s.aluMemCur op sz m R) := by
  cases op <;> rfl

theorem exec_aluMemImm (op : AluOp) (z : SizeBW) (m : MemOp) (imm : BitVec z.size.bits) (s : State) :
    exec (op.memImm z m imm) s = .next (s.aluMemImm op z m imm) := by
  cases op <;> rfl

/-- Settles O36: the form with a register as its destination; CP with a number is CP with that immediate. -/
theorem twoOperandRegister : Obligations.TwoOperandRegister := by
  intro s
  refine ⟨fun op sz R r => ?_, fun op sz r imm => ?_, fun z r imm => ?_⟩
  · obtain ⟨v, h⟩ := s.aluInto_spec op (curLoc s.rfp sz R) (s.readLoc (opLoc s.rfp r))
    exact ⟨_, v, exec_aluCurReg op sz R r s, h⟩
  · obtain ⟨v, h⟩ := s.aluInto_spec op (opLoc s.rfp r) imm
    exact ⟨_, v, exec_aluRegImm op sz r imm s, h⟩
  · obtain ⟨v, ⟨-, hflags⟩, hregs, hrest⟩ := s.aluInto_spec .cp (opLoc s.rfp r) (imm.setWidth z.size.bits)
    rw [AluRegs, if_pos rfl] at hregs
    exact ⟨_, rfl, hflags, hregs, hrest⟩

/-- Settles O37: the three forms with a memory operand. -/
theorem twoOperandMemory : Obligations.TwoOperandMemory := by
  intro s
  refine ⟨fun op sz R m => ?_, fun op sz m R => ?_, fun op z m imm => ?_⟩
  · obtain ⟨v, h⟩ := s.aluCurMem_spec op sz R m
    exact ⟨_, v, exec_aluCurMem op sz R m s, h⟩
  · obtain ⟨v, h⟩ := s.aluMemCur_spec op sz m R
    exact ⟨_, v, exec_aluMemCur op sz m R s, h⟩
  · obtain ⟨v, h⟩ := s.aluMemImm_spec op z m imm
    exact ⟨_, v, exec_aluMemImm op z m imm s, h⟩

/-! ## INC and DEC -/

theorem count8_eq_fieldCount8 : ∀ num : BitVec 3, count8 num = fieldCount8 num := by decide

/-- The flags of INC are those of the addition with C as it was (R236). -/
theorem incFlags_spec {n : Nat} (hn : 0 < n) (a b : BitVec n) (f : Flags) :
    ∃ f', AddFlags a b false f' ∧ incFlags a b f = { f' with c := f.c } :=
  ⟨_, addFlags_spec hn a b false false, rfl⟩

/-- The flags of DEC are those of the subtraction with C as it was (R237). -/
theorem decFlags_spec {n : Nat} (hn : 0 < n) (a b : BitVec n) (f : Flags) :
    ∃ f', SubFlags a b false f' ∧ decFlags a b f = { f' with c := f.c } :=
  ⟨_, subFlags_spec hn a b false false, rfl⟩

/-- INC and DEC of a register, whatever their flags are known to be. -/
theorem State.incDecReg_spec (s : State) (up : Bool) (sz : Size) (r : RegOp sz) (num : BitVec 3) {P : Flags → Prop}
    (hb : sz = .b → P (if up then incFlags (s.readLoc (opLoc s.rfp r)) (BitVec.ofNat sz.bits (count8 num)) s.flags
      else decFlags (s.readLoc (opLoc s.rfp r)) (BitVec.ofNat sz.bits (count8 num)) s.flags))
    (hwl : sz ≠ .b → P s.flags) :
    LoadsRegFlags s (s.incDecReg up sz r num) (opLoc s.rfp r)
      (if up then s.readLoc (opLoc s.rfp r) + BitVec.ofNat sz.bits (count8 num)
        else s.readLoc (opLoc s.rfp r) - BitVec.ofNat sz.bits (count8 num)) P := by
  unfold State.incDecReg
  dsimp only
  split
  · next h =>
    exact loadsRegFlags_of_reg (fun g => by rw [State.reg_with_flags]; rfl) (by simp) (by simp) (hb h) (by simp)
      (by constructor <;> simp)
  · next h =>
    exact loadsRegFlags_of_reg (fun g => rfl) (by simp) (by simp) (by simpa using hwl h) (by simp)
      (by constructor <;> simp)

/-- The end of an instruction that stores through a memory operand and may have changed the flags. -/
theorem store_spec {s t : State} (m : MemOp) (nb : Nat) (v : BitVec (8 * nb)) (hnb : nb < 2 ^ 24)
    (hreg : ∀ g, t.reg g = (s.preStep m).reg g) (hmem : t.mem = s.mem) (hw : t.written = s.written)
    (hpc : t.pc = s.pc) (hr : SameRest s t) :
    ((t.memWrite nb (s.ea m) v).postStep m).memRead nb (s.ea m) = v ∧
      SameMemoryBut s ((t.memWrite nb (s.ea m) v).postStep m) nb (s.ea m) ∧
      MovedRegs s ((t.memWrite nb (s.ea m) v).postStep m) m ∧ ((t.memWrite nb (s.ea m) v).postStep m).pc = s.pc ∧
      SameRest s ((t.memWrite nb (s.ea m) v).postStep m) := by
  obtain ⟨⟨hval, hbut⟩, hrest⟩ := aluStore_spec .add m nb v hnb hreg hmem hw hpc hr
  exact ⟨hval, hbut, hrest⟩

/-- INC and DEC of memory. -/
theorem State.incDecMem_spec (s : State) (up : Bool) (z : SizeBW) (num : BitVec 3) (m : MemOp) :
    let v := s.memRead z.size.bytes (s.ea m)
    let d := BitVec.ofNat z.size.bits (count8 num)
    let t := s.incDecMem up z num m
    t.memRead z.size.bytes (s.ea m) = (if up then v + d else v - d) ∧
      t.flags = (if up then incFlags v d s.flags else decFlags v d s.flags) ∧
      SameMemoryBut s t z.size.bytes (s.ea m) ∧ MovedRegs s t m ∧ t.pc = s.pc ∧ SameRest s t := by
  intro v d t
  obtain ⟨hval, hbut, hmoved, hpc, hrest⟩ := store_spec (s := s)
    (t := { s.preStep m with flags := if up then incFlags v d s.flags else decFlags v d s.flags }) m z.size.bytes
    (if up then v + d else v - d) (by cases z <;> decide) (State.reg_with_flags _ _) (by simp) (by simp)
    (by simp) (by constructor <;> simp)
  have ht : t = (({ s.preStep m with flags := if up then incFlags v d s.flags else decFlags v d s.flags } :
      State).memWrite z.size.bytes (s.ea m) (if up then v + d else v - d)).postStep m := by
    simp only [t, v, d, State.incDecMem, State.noteRead_eq, State.memRead_preStep]
  rw [ht]
  exact ⟨hval, by simp, hbut, hmoved, hpc, hrest⟩

/-- Settles O38: the shared operations, with the flags of an addition or a subtraction where there are any. -/
theorem incrementDecrement : Obligations.IncrementDecrement := by
  intro s
  simp only [← count8_eq_fieldCount8]
  refine ⟨fun sz r num => ⟨⟨_, rfl, ?incReg⟩, ⟨_, rfl, ?decReg⟩⟩, fun z num m => ⟨?incMem, ?decMem⟩⟩
  case incReg =>
    refine s.incDecReg_spec true sz r num (fun h => ?_) fun h => by rw [if_neg h]
    rw [if_pos h]
    exact incFlags_spec (size_bits_pos sz) _ _ _
  case decReg =>
    refine s.incDecReg_spec false sz r num (fun h => ?_) fun h => by rw [if_neg h]
    rw [if_pos h]
    exact decFlags_spec (size_bits_pos sz) _ _ _
  case incMem =>
    obtain ⟨hval, hflags, hrest⟩ := s.incDecMem_spec true z num m
    obtain ⟨f, hf, he⟩ := incFlags_spec (size_bits_pos z.size) (s.memRead z.size.bytes (s.ea m))
      (BitVec.ofNat z.size.bits (count8 num)) s.flags
    exact ⟨_, f, rfl, hval, hf, hflags.trans he, hrest⟩
  case decMem =>
    obtain ⟨hval, hflags, hrest⟩ := s.incDecMem_spec false z num m
    obtain ⟨f, hf, he⟩ := decFlags_spec (size_bits_pos z.size) (s.memRead z.size.bytes (s.ea m))
      (BitVec.ofNat z.size.bits (count8 num)) s.flags
    exact ⟨_, f, rfl, hval, hf, hflags.trans he, hrest⟩

/-! ## Unary operations -/

/-- A register place loaded, and the flags set. -/
theorem loadsRegFlags_with_flags {sz : Size} (s : State) (l : Loc sz) (v : BitVec sz.bits) (f : Flags)
    {P : Flags → Prop} (hf : P f) : LoadsRegFlags s { s.writeLoc l v with flags := f } l v P :=
  loadsRegFlags_of_reg (fun g => State.reg_with_flags _ f g) (by simp) (by simp) hf (by simp) (by constructor <;> simp)

theorem subResult_zero {n : Nat} (v : BitVec n) : subResult 0 v false = -v := by simp [subResult]

theorem toNat_extz (z : SizeWL) (v : BitVec z.size.bits) :
    ((v.setWidth (z.size.bits / 2)).setWidth z.size.bits).toNat = v.toNat % 2 ^ (z.size.bits / 2) := by
  rw [BitVec.toNat_setWidth_of_le (Nat.div_le_self _ _), BitVec.toNat_setWidth]

theorem toInt_exts (z : SizeWL) (v : BitVec z.size.bits) :
    ((v.setWidth (z.size.bits / 2)).signExtend z.size.bits).toInt = (v.setWidth (z.size.bits / 2)).toInt :=
  BitVec.toInt_signExtend_of_le (Nat.div_le_self _ _)

/-- PAA (R241): an even value is left, which is as good as written back. -/
theorem State.paa_spec (s : State) {sz : Size} (l : Loc sz) :
    LoadsReg s (if (s.readLoc l).getLsbD 0 then s.writeLoc l (s.readLoc l + 1) else s) l
      (if (s.readLoc l).toNat % 2 = 1 then s.readLoc l + 1 else s.readLoc l) := by
  have hodd : (s.readLoc l).getLsbD 0 = true ↔ (s.readLoc l).toNat % 2 = 1 := by
    rw [BitVec.getLsbD, Nat.testBit_zero, decide_eq_true_iff]
  by_cases h : (s.readLoc l).toNat % 2 = 1
  · rw [if_pos (hodd.2 h), if_pos h]
    exact loadsReg_writeLoc s l _
  · rw [if_neg (mt hodd.1 h), if_neg h]
    have := loadsReg_writeLoc s l (s.readLoc l)
    rwa [State.writeLoc_readLoc] at this

/-- Settles O39: each loads its place with a function of what it held. -/
theorem unaryRegister : Obligations.UnaryRegister := by
  intro s
  refine ⟨fun z r => ⟨_, rfl, ?neg⟩, fun z r => ⟨_, rfl, loadsRegFlags_with_flags s _ _ _ rfl⟩,
    fun z r => ⟨_, _, rfl, loadsReg_writeLoc s _ _, toNat_extz z _⟩,
    fun z r => ⟨_, _, rfl, loadsReg_writeLoc s _ _, toInt_exts z _⟩, fun z r => ⟨_, rfl, s.paa_spec (opLoc s.rfp r)⟩,
    fun r => ⟨_, _, rfl, loadsReg_writeLoc s _ _, fun i hi => getLsbD_mirror _ i hi⟩⟩
  case neg =>
    rw [← subResult_zero]
    exact loadsRegFlags_with_flags s _ _ _ (subFlags_spec (size_bits_pos z.size) 0 _ false false)

/-! ## DAA -/

/-- No operand is covered by two rows of the table: they differ in a flag, or their ranges of a digit are apart. -/
theorem daaTable_apart : ∀ row ∈ daaTable, ∀ row' ∈ daaTable, row = row' ∨ row.n ≠ row'.n ∨ row.c ≠ row'.c ∨
    row.h ≠ row'.h ∨ row.upperMax < row'.upperMin ∨ row'.upperMax < row.upperMin ∨ row.lowerMax < row'.lowerMin ∨
    row'.lowerMax < row.lowerMin := by decide

theorem DaaRow.covers_iff (row : DaaRow) (a : Byte) (f : Flags) : row.covers a f = true ↔
    row.n = f.n ∧ row.c = f.c ∧ row.h = f.h ∧ row.upperMin ≤ a.toNat / 16 ∧ a.toNat / 16 ≤ row.upperMax ∧
      row.lowerMin ≤ a.toNat % 16 ∧ a.toNat % 16 ≤ row.lowerMax := by
  simp only [DaaRow.covers, Bool.and_eq_true, beq_iff_eq, decide_eq_true_eq, and_assoc]

/-- The row that covers an operand is the one that is found (R243). -/
theorem daaRow_of_covers {row : DaaRow} {a : Byte} {f : Flags} (hrow : row ∈ daaTable) (h : row.covers a f = true) :
    daaRow a f = some row := by
  obtain ⟨row', hrow'⟩ : ∃ row', daaRow a f = some row' :=
    Option.isSome_iff_exists.1 (List.find?_isSome.2 ⟨row, hrow, h⟩)
  have hmem : row' ∈ daaTable := List.mem_of_find?_eq_some hrow'
  obtain ⟨n1, c1, h1, u1, u2, l1, l2⟩ := (row.covers_iff a f).1 h
  obtain ⟨n1', c1', h1', u1', u2', l1', l2'⟩ :=
    (row'.covers_iff a f).1 (List.find?_some (p := fun r : DaaRow => r.covers a f) (hrow' : daaTable.find? _ = _))
  rw [hrow']
  rcases daaTable_apart row hrow row' hmem with e | e | e | e | e | e | e | e
  · rw [e]
  · exact absurd (n1.trans n1'.symm) e
  · exact absurd (c1.trans c1'.symm) e
  · exact absurd (h1.trans h1'.symm) e
  all_goals omega

theorem exec_daa_of_some {s : State} {r : RegOp .b} {row : DaaRow} (h : daaRow (s.readOp r) s.flags = some row) :
    exec (.daa r) s = .next { s.writeOp r (s.readOp r + row.adj) with
      flags := daaFlags (s.readOp r) row.adj row.cAfter s.flags } := by
  show execDaa r s = _
  simp only [execDaa, h]

theorem exec_daa_of_none {s : State} {r : RegOp .b} (h : daaRow (s.readOp r) s.flags = none) :
    exec (.daa r) s = .next { s.writeOp r (s.freeBits 8) with
      flags := { Flags.ofByte (s.drawn.freeBits 8) with n := s.flags.n }
      freeCount := s.freeCount + 2 } := by
  show execDaa r s = _
  simp only [execDaa, h]

/-- Settles O40: the row that covers the operand is the one that DAA finds; without one only N and the frame are told. -/
theorem decimalAdjust : Obligations.DecimalAdjust := by
  intro s r
  cases hrow : daaRow (s.readOp r) s.flags with
  | none =>
    refine ⟨_, exec_daa_of_none hrow, fun row hmem hc => ?_, rfl, fun g k hk => ?_, .of_fields (by simp) (by simp),
      by simp, by constructor <;> simp⟩
    · exact nomatch (daaRow_of_covers hmem hc).symm.trans hrow
    · exact (State.regByte_of_reg (State.reg_with_flags_drawn _ _ _ g) k).trans (sameRegsBut_writeLoc s _ _ g k hk)
  | some row =>
    obtain ⟨hval, hregs, hmem, -, hpc, hrest⟩ := loadsRegFlags_with_flags s (opLoc s.rfp r)
      (P := fun _ => True) (s.readOp r + row.adj)
      (daaFlags (s.readOp r) row.adj row.cAfter s.flags) trivial
    refine ⟨_, exec_daa_of_some hrow, fun row' hmem' hc => ?_, rfl, hregs, hmem, hpc, hrest⟩
    obtain rfl : row = row' := Option.some.inj (hrow.symm.trans (daaRow_of_covers hmem' hc))
    have hval : State.readLoc { s.writeOp r (s.readOp r + row.adj) with
      flags := daaFlags (s.readOp r) row.adj row.cAfter s.flags } (opLoc s.rfp r) = s.readOp r + row.adj := hval
    rw [hval]
    exact ⟨rfl, rfl, rfl, beq_iff_eq, decide_eq_true_iff, parityEven_iff _⟩

end Sys2Proof.Machine
end

section
/-! SUPPORT. Proofs of the statements about decimal arithmetic, multiplication, division and modulo steps (R232 to R243, R270
to R291). -/

namespace Sys2Proof.Machine

/-! ## Decimal arithmetic -/

/-- A row of the table that covers an operand adjusts it to a decimal byte that, with `c` for the carry after, stands for
`d`. -/
def DaaRow.Adjusts (row : DaaRow) (r : Byte) (f : Flags) (d : Int) (up : Bool) : Prop :=
  row ∈ daaTable ∧ row.covers r f = true ∧ IsDecimal (r + row.adj) ∧
    (decimalOf (r + row.adj) : Int) = if up then d - 100 * row.cAfter.toNat else d + 100 * row.cAfter.toNat

/-- What a row has to satisfy, in numbers. -/
theorem DaaRow.adjusts_of {row : DaaRow} {r : Byte} {f : Flags} {d : Int} {up : Bool} (hmem : row ∈ daaTable)
    (hf : row.n = f.n ∧ row.c = f.c ∧ row.h = f.h)
    (hr : row.upperMin ≤ r.toNat / 16 ∧ r.toNat / 16 ≤ row.upperMax ∧
      row.lowerMin ≤ r.toNat % 16 ∧ r.toNat % 16 ≤ row.lowerMax)
    (hd : let x := (r.toNat + row.adj.toNat) % 256
      x / 16 ≤ 9 ∧ x % 16 ≤ 9 ∧ ((10 * (x / 16) + x % 16 : Nat) : Int) =
        if up then d - 100 * row.cAfter.toNat else d + 100 * row.cAfter.toNat) : row.Adjusts r f d up := by
  obtain ⟨h1, h2, h3⟩ := hf
  obtain ⟨d1, d2, d3⟩ := hd
  refine ⟨hmem, (row.covers_iff r f).2 ⟨h1, h2, h3, hr⟩, ?_, ?_⟩
  · rw [IsDecimal, BitVec.toNat_add]
    exact ⟨d1, d2⟩
  · rw [decimalOf, BitVec.toNat_add]
    exact d3

/-- After the addition of two decimal bytes, a row of the table adjusts the sum to the decimal one. -/
theorem exists_adjusts_sum {a b r : Byte} {c : Bool} {f : Flags} (ha : IsDecimal a) (hb : IsDecimal b)
    (hr : r.toNat = if a.toNat + b.toNat + c.toNat < 256 then a.toNat + b.toNat + c.toNat
      else a.toNat + b.toNat + c.toNat - 256) (hn : f.n = false)
    (hc : f.c = true ↔ 256 ≤ a.toNat + b.toNat + c.toNat)
    (hh : f.h = true ↔ 15 < a.toNat % 16 + b.toNat % 16 + c.toNat) :
    ∃ row : DaaRow, row.Adjusts r f (decimalOf a + decimalOf b + c.toNat) true := by
  obtain ⟨ha1, ha2⟩ := ha
  obtain ⟨hb1, hb2⟩ := hb
  have hk : c.toNat ≤ 1 := by cases c <;> decide
  simp only [decimalOf]
  generalize a.toNat = x at *
  generalize b.toNat = y at *
  generalize c.toNat = k at *
  cases hfc : f.c with
  | false =>
    simp only [hfc, false_iff, Bool.false_eq_true, not_le] at hc
    rw [if_pos hc] at hr
    cases hfh : f.h with
    | false =>
      simp only [hfh, false_iff, Bool.false_eq_true, not_lt] at hh
      by_cases hl : x % 16 + y % 16 + k ≤ 9
      · by_cases hu : x / 16 + y / 16 ≤ 9
        · exact ⟨⟨false, false, 0x0, 0x9, false, 0x0, 0x9, 0x00, false⟩, DaaRow.adjusts_of (by decide)
            ⟨hn.symm, hfc.symm, hfh.symm⟩ (by dsimp only; omega) (by dsimp; omega)⟩
        · exact ⟨⟨false, false, 0xA, 0xF, false, 0x0, 0x9, 0x60, true⟩, DaaRow.adjusts_of (by decide)
            ⟨hn.symm, hfc.symm, hfh.symm⟩ (by dsimp only; omega) (by dsimp; omega)⟩
      · by_cases hu : x / 16 + y / 16 ≤ 8
        · exact ⟨⟨false, false, 0x0, 0x8, false, 0xA, 0xF, 0x06, false⟩, DaaRow.adjusts_of (by decide)
            ⟨hn.symm, hfc.symm, hfh.symm⟩ (by dsimp only; omega) (by dsimp; omega)⟩
        · exact ⟨⟨false, false, 0x9, 0xF, false, 0xA, 0xF, 0x66, true⟩, DaaRow.adjusts_of (by decide)
            ⟨hn.symm, hfc.symm, hfh.symm⟩ (by dsimp only; omega) (by dsimp; omega)⟩
    | true =>
      simp only [hfh, true_iff] at hh
      by_cases hu : x / 16 + y / 16 ≤ 8
      · exact ⟨⟨false, false, 0x0, 0x9, true, 0x0, 0x3, 0x06, false⟩, DaaRow.adjusts_of (by decide)
          ⟨hn.symm, hfc.symm, hfh.symm⟩ (by dsimp only; omega) (by dsimp; omega)⟩
      · exact ⟨⟨false, false, 0xA, 0xF, true, 0x0, 0x3, 0x66, true⟩, DaaRow.adjusts_of (by decide)
          ⟨hn.symm, hfc.symm, hfh.symm⟩ (by dsimp only; omega) (by dsimp; omega)⟩
  | true =>
    simp only [hfc, true_iff] at hc
    rw [if_neg (not_lt.2 hc)] at hr
    cases hfh : f.h with
    | false =>
      simp only [hfh, false_iff, Bool.false_eq_true, not_lt] at hh
      by_cases hl : x % 16 + y % 16 + k ≤ 9
      · exact ⟨⟨false, true, 0x0, 0x2, false, 0x0, 0x9, 0x60, true⟩, DaaRow.adjusts_of (by decide)
          ⟨hn.symm, hfc.symm, hfh.symm⟩ (by dsimp only; omega) (by dsimp; omega)⟩
      · exact ⟨⟨false, true, 0x0, 0x2, false, 0xA, 0xF, 0x66, true⟩, DaaRow.adjusts_of (by decide)
          ⟨hn.symm, hfc.symm, hfh.symm⟩ (by dsimp only; omega) (by dsimp; omega)⟩
    | true =>
      simp only [hfh, true_iff] at hh
      exact ⟨⟨false, true, 0x0, 0x3, true, 0x0, 0x3, 0x66, true⟩, DaaRow.adjusts_of (by decide)
        ⟨hn.symm, hfc.symm, hfh.symm⟩ (by dsimp only; omega) (by dsimp; omega)⟩

/-- After the subtraction of two decimal bytes, a row of the table adjusts the difference to the decimal one. -/
theorem exists_adjusts_difference {a b r : Byte} {c : Bool} {f : Flags} (ha : IsDecimal a) (hb : IsDecimal b)
    (hr : r.toNat = if b.toNat + c.toNat ≤ a.toNat then a.toNat - b.toNat - c.toNat
      else a.toNat + 256 - b.toNat - c.toNat) (hn : f.n = true)
    (hc : f.c = true ↔ a.toNat < b.toNat + c.toNat) (hh : f.h = true ↔ a.toNat % 16 < b.toNat % 16 + c.toNat) :
    ∃ row : DaaRow, row.Adjusts r f (decimalOf a - decimalOf b - c.toNat) false := by
  obtain ⟨ha1, ha2⟩ := ha
  obtain ⟨hb1, hb2⟩ := hb
  have hk : c.toNat ≤ 1 := by cases c <;> decide
  simp only [decimalOf]
  generalize a.toNat = x at *
  generalize b.toNat = y at *
  generalize c.toNat = k at *
  cases hfc : f.c with
  | false =>
    simp only [hfc, false_iff, Bool.false_eq_true, not_lt] at hc
    rw [if_pos hc] at hr
    cases hfh : f.h with
    | false =>
      simp only [hfh, false_iff, Bool.false_eq_true, not_lt] at hh
      exact ⟨⟨true, false, 0x0, 0x9, false, 0x0, 0x9, 0x00, false⟩, DaaRow.adjusts_of (by decide)
        ⟨hn.symm, hfc.symm, hfh.symm⟩ (by dsimp only; omega) (by dsimp; omega)⟩
    | true =>
      simp only [hfh, true_iff] at hh
      exact ⟨⟨true, false, 0x0, 0x8, true, 0x6, 0xF, 0xFA, false⟩, DaaRow.adjusts_of (by decide)
        ⟨hn.symm, hfc.symm, hfh.symm⟩ (by dsimp only; omega) (by dsimp; omega)⟩
  | true =>
    simp only [hfc, true_iff] at hc
    rw [if_neg (not_le.2 hc)] at hr
    cases hfh : f.h with
    | false =>
      simp only [hfh, false_iff, Bool.false_eq_true, not_lt] at hh
      exact ⟨⟨true, true, 0x7, 0xF, false, 0x0, 0x9, 0xA0, true⟩, DaaRow.adjusts_of (by decide)
        ⟨hn.symm, hfc.symm, hfh.symm⟩ (by dsimp only; omega) (by dsimp; omega)⟩
    | true =>
      simp only [hfh, true_iff] at hh
      exact ⟨⟨true, true, 0x6, 0xF, true, 0x6, 0xF, 0x9A, true⟩, DaaRow.adjusts_of (by decide)
        ⟨hn.symm, hfc.symm, hfh.symm⟩ (by dsimp only; omega) (by dsimp; omega)⟩

/-- DAA of A, when a row adjusts it. -/
theorem exec_daa_of_adjusts {t : State} {row : DaaRow} {d : Int} {up : Bool} (h : row.Adjusts t.a t.flags d up) :
    ∃ u, exec (.daa (.short 1)) t = .next u ∧ IsDecimal u.a ∧
      (decimalOf u.a : Int) = if up then d - 100 * u.flags.c.toNat else d + 100 * u.flags.c.toNat := by
  obtain ⟨hmem, hcov, hdec, hval⟩ := h
  obtain ⟨u, hu, hrow, -, -, -, -, hrest⟩ := decimalAdjust t (.short 1)
  obtain ⟨hread, hflag, -⟩ := hrow row hmem hcov
  have ha : u.a = t.a + row.adj := by rw [State.a, hrest.rfp]; exact hread
  exact ⟨u, hu, ha ▸ hdec, by rw [ha, hflag]; exact hval⟩

/-- Settles O41: the flags that ADC and SBC leave pick the row that turns their result into the decimal one. -/
theorem decimalArithmetic : Obligations.DecimalArithmetic := by
  intro s imm ha himm
  refine ⟨?sum, ?difference⟩
  case sum =>
    obtain ⟨v, ⟨hv, hf⟩, hregs, -, -, hrest⟩ := s.aluInto_spec .adc (aLoc s.rfp) imm
    rw [AluRegs, if_neg (by decide)] at hregs
    have hta : (s.aluInto .adc (aLoc s.rfp) imm).a = v := by rw [State.a, hrest.rfp]; exact hregs.1
    obtain ⟨row, hrow⟩ := exists_adjusts_sum (r := v) ha himm
      (by rw [hv]; exact add_toNat_cases (m := 7) _ _ _) hf.n hf.c (hf.h (by decide))
    obtain ⟨u, hu, hdec, hval⟩ := exec_daa_of_adjusts (t := s.aluInto .adc (aLoc s.rfp) imm) (hta ▸ hrow)
    refine ⟨_, u, rfl, hu, hdec, ?_⟩
    rw [if_pos rfl] at hval
    omega
  case difference =>
    obtain ⟨v, ⟨hv, hf⟩, hregs, -, -, hrest⟩ := s.aluInto_spec .sbc (aLoc s.rfp) imm
    rw [AluRegs, if_neg (by decide)] at hregs
    have hta : (s.aluInto .sbc (aLoc s.rfp) imm).a = v := by rw [State.a, hrest.rfp]; exact hregs.1
    obtain ⟨row, hrow⟩ := exists_adjusts_difference (r := v) ha himm
      (by rw [hv]; exact sub_toNat_cases (m := 7) _ _ _) hf.n hf.c (hf.h (by decide))
    obtain ⟨u, hu, hdec, hval⟩ := exec_daa_of_adjusts (t := s.aluInto .sbc (aLoc s.rfp) imm) (hta ▸ hrow)
    refine ⟨_, u, rfl, hu, hdec, ?_⟩
    rw [if_neg Bool.false_ne_true] at hval
    omega

/-! ## Multiply and divide -/

theorem double_bits (z : SizeBW) : z.double.bits = z.size.bits + z.size.bits := by cases z <;> rfl

theorem quotRem_low {m : Nat} (q r : BitVec m) : (quotRem (m + m) q r).extractLsb' 0 m = q := by
  rw [quotRem, BitVec.setWidth_eq, BitVec.extractLsb'_append_eq_right]

theorem quotRem_high {m : Nat} (q r : BitVec m) : (quotRem (m + m) q r).extractLsb' m m = r := by
  rw [quotRem, BitVec.setWidth_eq, BitVec.extractLsb'_append_eq_left]

theorem toNat_mulUnsigned {m : Nat} (a b : BitVec m) : (mulUnsigned (m + m) a b).toNat = a.toNat * b.toNat := by
  rw [mulUnsigned, BitVec.toNat_ofNat, Nat.pow_add]
  exact Nat.mod_eq_of_lt (Nat.mul_lt_mul'' a.isLt b.isLt)

theorem toInt_mulSigned {m : Nat} (hm : 0 < m) (a b : BitVec m) :
    (mulSigned (m + m) a b).toInt = a.toInt * b.toInt := by
  have hlt : (2 : Int) ^ (m * 2 - 2) < 2 ^ (m + m - 1) := pow_lt_pow_right₀ (by decide) (by omega)
  have hle := BitVec.le_toInt_mul_toInt (x := a) (y := b)
  exact BitVec.toInt_ofInt_eq_self (by omega) (by omega) (lt_of_le_of_lt BitVec.toInt_mul_toInt_le hlt)

theorem toInt_tmod_bounds {m : Nat} (a : Int) {b : BitVec m} (hb : b.toInt ≠ 0) :
    -2 ^ (m - 1) ≤ a.tmod b.toInt ∧ a.tmod b.toInt < 2 ^ (m - 1) := by
  have h1 := BitVec.toInt_lt (x := b)
  have h2 := BitVec.le_toInt b
  have h3 := Int.natAbs_tmod a b.toInt
  have h4 : a.natAbs % b.toInt.natAbs < b.toInt.natAbs := Nat.mod_lt _ (by omega)
  generalize (2 : Int) ^ (m - 1) = p at *
  omega

/-- Unsigned division (R273). -/
theorem divUnsigned_spec {m : Nat} (a : BitVec (m + m)) (b : BitVec m) :
    (divUnsigned a b = none ↔ b = 0 ∨ 2 ^ m ≤ a.toNat / b.toNat) ∧
      ∀ r, divUnsigned a b = some r → a.toNat = (r.extractLsb' 0 m).toNat * b.toNat + (r.extractLsb' m m).toNat ∧
        (r.extractLsb' m m).toNat < b.toNat := by
  have hpos := Nat.two_pow_pos m
  have hzero : b.toNat = 0 ↔ b = 0 :=
    ⟨fun h => BitVec.eq_of_toNat_eq (h.trans BitVec.toNat_zero.symm), fun h => by simp [h]⟩
  have hcond : (b.toNat = 0 ∨ 2 ^ m - 1 < a.toNat / b.toNat) ↔ b = 0 ∨ 2 ^ m ≤ a.toNat / b.toNat := by
    rw [hzero]
    exact or_congr_right (by omega)
  unfold divUnsigned
  split
  · next h => exact ⟨iff_of_true rfl (hcond.1 h), fun r hr => nomatch hr⟩
  · next h =>
    refine ⟨iff_of_false (by simp) (mt hcond.2 h), fun r hr => ?_⟩
    obtain rfl := Option.some.inj hr
    obtain ⟨h0, hq⟩ := not_or.1 h
    have hmod : a.toNat % b.toNat < b.toNat := Nat.mod_lt _ (by omega)
    rw [quotRem_low, quotRem_high, BitVec.toNat_ofNat, BitVec.toNat_ofNat, Nat.mod_eq_of_lt (by omega),
      Nat.mod_eq_of_lt (hmod.trans b.isLt)]
    exact ⟨(Nat.div_add_mod' _ _).symm, hmod⟩

/-- Signed division (R274). -/
theorem divSigned_spec {m : Nat} (hm : 0 < m) (a : BitVec (m + m)) (b : BitVec m) :
    (divSigned a b = none ↔
        b = 0 ∨ a.toInt.tdiv b.toInt < -2 ^ (m - 1) ∨ 2 ^ (m - 1) ≤ a.toInt.tdiv b.toInt) ∧
      ∀ r, divSigned a b = some r → (r.extractLsb' 0 m).toInt = a.toInt.tdiv b.toInt ∧
        (r.extractLsb' m m).toInt = a.toInt.tmod b.toInt := by
  have hzero : b.toInt = 0 ↔ b = 0 :=
    ⟨fun h => BitVec.eq_of_toInt_eq (h.trans BitVec.toInt_zero.symm), fun h => by simp [h]⟩
  have hcond : (b.toInt = 0 ∨ a.toInt.tdiv b.toInt < -(2 ^ (m - 1)) ∨ 2 ^ (m - 1) - 1 < a.toInt.tdiv b.toInt) ↔
      b = 0 ∨ a.toInt.tdiv b.toInt < -2 ^ (m - 1) ∨ 2 ^ (m - 1) ≤ a.toInt.tdiv b.toInt := by
    rw [hzero]
    exact or_congr_right (or_congr_right (by omega))
  unfold divSigned
  split
  · next h => exact ⟨iff_of_true rfl (hcond.1 h), fun r hr => nomatch hr⟩
  · next h =>
    refine ⟨iff_of_false (by simp) (mt hcond.2 h), fun r hr => ?_⟩
    obtain rfl := Option.some.inj hr
    obtain ⟨h0, hlow, hhigh⟩ := not_or.1 h |>.imp_right not_or.1
    have hrem : a.toInt - a.toInt.tdiv b.toInt * b.toInt = a.toInt.tmod b.toInt := by
      rw [Int.tmod_def, Int.mul_comm]
    obtain ⟨r1, r2⟩ := toInt_tmod_bounds a.toInt h0
    rw [quotRem_low, quotRem_high, hrem]
    exact ⟨BitVec.toInt_ofInt_eq_self hm (by omega) (by omega), BitVec.toInt_ofInt_eq_self hm r1 r2⟩

/-- The result and the flags of a multiply or divide, `free` being what is left where it has no result (R271 to R275). -/
theorem mulDiv_spec {m w : Nat} (hm : 0 < m) (hw : w = m + m) (op : MulOp) (dst : BitVec w) (src : BitVec m) (f : Flags)
    (free : BitVec w) :
    MulDiv op dst src ((mulDiv op dst src).getD free) f (mulDivFlags op (mulDiv op dst src).isNone f) := by
  subst hw
  cases op with
  | mul => exact ⟨toNat_mulUnsigned _ _, rfl⟩
  | muls => exact ⟨toInt_mulSigned hm _ _, rfl⟩
  | div =>
    obtain ⟨hnone, hsome⟩ := divUnsigned_spec dst src
    refine ⟨rfl, Option.isNone_iff_eq_none.trans hnone, fun h => ?_⟩
    obtain ⟨r, hr⟩ := Option.isSome_iff_exists.1 (Option.isNone_eq_false_iff.1 h)
    rw [hr]
    exact hsome r hr
  | divs =>
    obtain ⟨hnone, hsome⟩ := divSigned_spec hm dst src
    refine ⟨rfl, Option.isNone_iff_eq_none.trans hnone, fun h => ?_⟩
    obtain ⟨r, hr⟩ := Option.isSome_iff_exists.1 (Option.isNone_eq_false_iff.1 h)
    rw [hr]
    exact hsome r hr

theorem State.with_writeLoc {sz : Size} (s : State) (l : Loc sz) (v : BitVec sz.bits) (f : Flags) (k : Nat) :
    { s.writeLoc l v with flags := f, freeCount := k } = ({ s with flags := f, freeCount := k } : State).writeLoc l v := by
  obtain ⟨g, part⟩ := l
  cases g <;> rfl

/-- What a multiply or divide leaves: a write of its place from a state with other flags, up to free values. -/
theorem State.mulDivWrite_spec (s : State) (op : MulOp) (z : SizeBW) (l : Loc z.double) (dst : BitVec z.double.bits)
    (src : BitVec z.size.bits) : ∃ v f k, MulDiv op dst src v s.flags f ∧
      s.mulDivWrite op z l dst src = ({ s with flags := f, freeCount := k } : State).writeLoc l v := by
  refine ⟨(mulDiv op dst src).getD (s.freeBits _), _, (s.mulDivWrite op z l dst src).freeCount,
    mulDiv_spec (size_bits_pos z.size) (double_bits z) op dst src s.flags (s.freeBits _), ?_⟩
  rw [← State.with_writeLoc]
  unfold State.mulDivWrite
  split <;> next heq => rw [heq]; rfl

theorem State.mulDivInto_spec (s : State) (op : MulOp) (z : SizeBW) (l : Loc z.double) (src : BitVec z.size.bits) :
    MulDiv op (s.readLoc l) src ((s.mulDivInto op z l src).readLoc l) s.flags (s.mulDivInto op z l src).flags ∧
      SameRegsBut s (s.mulDivInto op z l src) l ∧ SameMemory s (s.mulDivInto op z l src) ∧
      (s.mulDivInto op z l src).pc = s.pc ∧ SameRest s (s.mulDivInto op z l src) := by
  obtain ⟨v, f, k, h, heq⟩ := s.mulDivWrite_spec op z l (s.readLoc l) src
  have heq : s.mulDivInto op z l src = ({ s with flags := f, freeCount := k } : State).writeLoc l v := heq
  rw [heq]
  refine ⟨by simpa using h, fun g k' hc => ?_, .of_fields (by simp) (by simp), by simp, by constructor <;> simp⟩
  exact (sameRegsBut_writeLoc _ l v g k' hc).trans (State.regByte_of_reg (State.reg_with_flags_drawn _ _ _ g) k')

theorem exec_mulReg (op : MulOp) (z : SizeBW) (RR : BitVec z.dblBits) (r : RegOp z.size) (s : State) :
    exec (op.reg z RR r) s = .next (s.mulDivInto op z (dblLoc s.rfp z RR) (s.readLoc (opLoc s.rfp r))) := by
  cases op <;> rfl

theorem exec_mulImm (op : MulOp) (z : SizeBW) (rr : DblOp z) (imm : BitVec z.size.bits) (s : State) :
    exec (op.imm z rr imm) s = .next (s.mulDivInto op z (dblOpLoc s.rfp rr) imm) := by
  cases op <;> rfl

theorem exec_mulMem (op : MulOp) (z : SizeBW) (RR : BitVec z.dblBits) (m : MemOp) (s : State) :
    exec (op.mem z RR m) s = .next (s.mulDivMem op z RR m) := by
  cases op <;> rfl

/-- Settles O42: both forms by what the shared operation leaves. -/
theorem multiplyDivideRegister : Obligations.MultiplyDivideRegister := by
  intro s op z
  exact ⟨fun RR r => ⟨_, exec_mulReg op z RR r s, s.mulDivInto_spec op z _ _⟩,
    fun rr imm => ⟨_, exec_mulImm op z rr imm s, s.mulDivInto_spec op z _ _⟩⟩

/-- Settles O43: the operation is the write of a place between the two steps of the mode. -/
theorem multiplyDivideMemory : Obligations.MultiplyDivideMemory := by
  intro s op z RR m
  obtain ⟨v, f, k, h, heq⟩ := ((s.preStep m).dataDrawn m (dblLoc s.rfp z RR)).mulDivWrite_spec op z (dblLoc s.rfp z RR)
    ((s.preStep m).dataLoc m (dblLoc s.rfp z RR)) (s.memRead z.size.bytes (s.ea m))
  have ht : s.mulDivMem op z RR m = (({ (s.preStep m).dataDrawn m (dblLoc s.rfp z RR) with
      flags := f, freeCount := k } : State).writeLoc (dblLoc s.rfp z RR) v).postStepInto m (dblLoc s.rfp z RR) := by
    rw [← heq]
    simp only [State.mulDivMem, State.noteRead_eq, State.memRead_preStep]
  refine ⟨_, v, exec_mulMem op z RR m s, ?_⟩
  rw [ht]
  refine ⟨fun hpre => ?_, fun hauto => ?_, ?_, .of_fields (by simp) (by simp), by simp, by constructor <;> simp⟩
  · rw [State.dataLoc_eq _ _ _ (by simpa using hpre), State.readLoc_preStep _ _ _ hpre] at h
    simpa using h
  · exact (State.readLoc_postStepInto _ _ _ (by simpa using hauto)).trans (State.readLoc_writeLoc_same _ _ _)
  · exact State.movedRegsBut_postStepInto m _ v (by simp) fun g => by rw [State.reg_with_flags_drawn, State.reg_dataDrawn]

/-! ## MULA -/

theorem addOverflow_iff_toInt {n : Nat} (hn : 0 < n) (a b : BitVec n) :
    addOverflow a b (a + b) = true ↔ (a + b).toInt ≠ a.toInt + b.toInt := by
  simpa [addResult] using addOverflow_iff hn a b false

/-- What MULA leaves: `p` is added to a place, and then a register goes down by 2 (R276). -/
def State.mulaLeft (s : State) (l : Loc .l) (g : GReg) (p : Long) : State :=
  let s1 : State := { s.writeLoc l (s.readLoc l + p) with flags := mulaFlags (s.readLoc l) p s.flags }
  s1.setReg g (s1.reg g - 2)

/-- The signed product of the words at XDE and XHL (R276). -/
def State.mulaProduct (s : State) : Long :=
  mulSigned 32 (s.memRead 2 (s.reg (curLong s.rfp 2))) (s.memRead 2 (s.reg (curLong s.rfp 3)))

theorem exec_mula (rr : DblOp .w) (s : State) :
    exec (.mula rr) s = .next (s.mulaLeft (dblOpLoc s.rfp rr) (curLong s.rfp 3) s.mulaProduct) := by
  show execMula rr s = _
  simp only [execMula, State.noteRead_eq]
  rfl

theorem toInt_mulaProduct (s : State) : s.mulaProduct.toInt =
    (s.memRead 2 (s.reg (curLong s.rfp 2))).toInt * (s.memRead 2 (s.reg (curLong s.rfp 3))).toInt :=
  toInt_mulSigned (m := 16) (by decide) _ _

/-- The sum and the step of MULA, whichever registers they are. -/
theorem State.mulaLeft_spec (s : State) (l : Loc .l) (g : GReg) (p : Long) :
    let t := s.mulaLeft l g p
    t.readLoc l = (if l.g = g then s.readLoc l + p - 2 else s.readLoc l + p) ∧
      (l.g ≠ g → t.reg g = s.reg g - 2) ∧ t.flags = mulaFlags (s.readLoc l) p s.flags ∧
      SameRegsExcept s t [l.g, g] ∧ SameMemory s t ∧ t.pc = s.pc ∧ SameRest s t := by
  intro t
  obtain ⟨s1, hs1⟩ : ∃ s1 : State,
      s1 = { s.writeLoc l (s.readLoc l + p) with flags := mulaFlags (s.readLoc l) p s.flags } := ⟨_, rfl⟩
  have ht : t = s1.setReg g (s1.reg g - 2) := by rw [hs1]; rfl
  have hl : s1.reg l.g = s.readLoc l + p := by
    rw [hs1, State.reg_with_flags, ← State.readLoc_long, State.readLoc_writeLoc_same]
  have hne : ∀ g' ≠ l.g, s1.reg g' = s.reg g' := fun g' h => by
    rw [hs1, State.reg_with_flags, State.reg_writeLoc_ne _ _ _ h]
  rw [ht]
  refine ⟨?_, fun h => ?_, by simp [hs1], fun g' hg' => ?_, .of_fields (by simp [hs1]) (by simp [hs1]),
    by simp [hs1], by constructor <;> simp [hs1]⟩
  · rw [State.readLoc_long, State.reg_setReg]
    split
    · next h => rw [← h, hl]
    · exact hl
  · rw [State.reg_setReg_same, hne g (Ne.symm h)]
  · obtain ⟨h1, h2⟩ : g' ≠ l.g ∧ g' ≠ g := by simpa using hg'
    rw [State.reg_setReg_ne _ _ h2, hne g' h1]

/-- Settles O44: the product is exact in 32 bits, and V is the overflow of the one sum. -/
theorem multiplyAccumulate : Obligations.MultiplyAccumulate := by
  intro s rr
  obtain ⟨hval, hptr, hflags, hrest⟩ := s.mulaLeft_spec (dblOpLoc s.rfp rr) (curLong s.rfp 3) s.mulaProduct
  have hsum : BitVec.ofInt 32 ((s.readLoc (dblOpLoc s.rfp rr)).toInt + s.mulaProduct.toInt) =
      s.readLoc (dblOpLoc s.rfp rr) + s.mulaProduct := by
    rw [BitVec.ofInt_add, BitVec.ofInt_toInt, BitVec.ofInt_toInt]
  simp only [State.readLoc_long _ (curLoc s.rfp .l 2), State.readLoc_long _ (curLoc s.rfp .l 3)]
  refine ⟨_, _, s.mulaProduct.toInt, s.readLoc (dblOpLoc s.rfp rr) + s.mulaProduct, exec_mula rr s, rfl,
    toInt_mulaProduct s, hsum.symm, hval, hptr, ?_, ?_, hrest⟩
  · rw [hflags]; rfl
  · rw [hflags]
    exact addOverflow_iff_toInt (by decide) _ _

/-! ## Modulo steps -/

theorem moduloOk_two_pow {e k : Nat} (he : 2 ^ e ≤ 2 ^ 15) (hk : k < 2 ^ e) : moduloOk (2 ^ e) k = true := by
  have : e ≤ 15 := (Nat.pow_le_pow_iff_right (by decide)).1 he
  exact List.any_eq_true.2 ⟨e, List.mem_range.2 (by omega), by simp [hk]⟩

/-- A modulo step loads its register; the value is told where the size of the table is one (R285). -/
theorem State.moduloStep_spec (s : State) (k : Nat) (up : Bool) (r : RegOp .w) (field : Word) :
    ∃ v, LoadsReg s (s.moduloStep k up r field) (opLoc s.rfp r) v ∧
      ∀ e num, num = 2 ^ e → num ≤ 2 ^ 15 → k < num → num = field.toNat + k →
        v = if up then moduloInc (s.readLoc (opLoc s.rfp r)) num k else moduloDec (s.readLoc (opLoc s.rfp r)) num k := by
  unfold State.moduloStep
  dsimp only
  split
  · exact ⟨_, loadsReg_writeLoc s _ _, fun e num _ _ _ h => by rw [h]; rfl⟩
  · next hok =>
    refine ⟨s.freeBits 16, ?_, fun e num h1 h2 h3 h4 => absurd ?_ hok⟩
    · obtain ⟨hval, hregs, -⟩ := loadsReg_writeLoc s (opLoc s.rfp r) (s.freeBits 16)
      exact ⟨(State.readLoc_drawn _ _).trans hval, fun g j hc => (State.regByte_of_reg (State.reg_drawn _ g) j).trans
        (hregs g j hc), .of_fields (by simp) (by simp), by simp, by simp, by constructor <;> simp⟩
    · subst h1
      rw [← h4]
      exact moduloOk_two_pow h2 h3

theorem exec_moduloInstr (up : Bool) (st : Step) (r : RegOp .w) (field : Word) (s : State) :
    exec (moduloInstr up st r field) s = .next (s.moduloStep (stepAmount st).toNat up r field) := by
  cases up <;> cases st <;> rfl

/-- Settles O45: both directions by the shared step. -/
theorem moduloSteps : Obligations.ModuloSteps := by
  intro s st r field
  refine ⟨?_, ?_⟩
  · obtain ⟨v, hload, hval⟩ := s.moduloStep_spec (stepAmount st).toNat true r field
    refine ⟨_, v, exec_moduloInstr true st r field s, hload, fun e num k h1 h2 h3 h4 h5 => ?_⟩
    subst h3
    exact hval e num h1 h2 h4 h5
  · obtain ⟨v, hload, hval⟩ := s.moduloStep_spec (stepAmount st).toNat false r field
    refine ⟨_, v, exec_moduloInstr false st r field s, hload, fun e num k h1 h2 h3 h4 h5 => ?_⟩
    subst h3
    exact hval e num h1 h2 h4 h5

end Sys2Proof.Machine
end

section
/-! SUPPORT. Proofs of the statements about single bits and bit search (R310 to R341). -/

namespace Sys2Proof.Machine

/-! ## The end of an instruction with a memory operand -/

/-- The end of an instruction that stores nothing through its memory operand, from a state that differs from `s` in the
pre-decrement, the flags and free values. -/
theorem moved_postStep {s t : State} (m : MemOp) (hreg : ∀ g, t.reg g = (s.preStep m).reg g) (hmem : t.mem = s.mem)
    (hw : t.written = s.written) (hpc : t.pc = s.pc) (hr : SameRest s t) :
    MovedRegs s (t.postStep m) m ∧ SameMemory s (t.postStep m) ∧ (t.postStep m).pc = s.pc ∧
      SameRest s (t.postStep m) :=
  ⟨fun g => State.reg_stepped m hr.rfp g (hreg g), .of_fields (by simp [hmem]) (by simp [hw]), by simp [hpc],
    hr.trans (by constructor <;> simp)⟩

theorem sameRest_preStep (s : State) (m : MemOp) : SameRest s (s.preStep m) := (sameOutside_preStep s m).2.2

/-- A is read before the pre-decrement as well as after it, unless it is part of the register that moves. -/
theorem State.dataLoc_preStep {sz : Size} (s : State) (m : MemOp) (l : Loc sz) (h : preReg s.rfp m ≠ some l.g) :
    (s.preStep m).dataLoc m l = s.readLoc l := by
  rw [State.dataLoc_eq _ _ _ (by simpa using h), State.readLoc_preStep _ _ _ h]

/-! ## Carry-flag operations that read a bit -/

/-- A carry-flag operation between the two steps of a mode. -/
theorem carryBit_postStep {s t : State} (op : CarryOp) (m : MemOp) (v : Byte) (k : Nat)
    (hreg : ∀ g, t.reg g = (s.preStep m).reg g) (hf : t.flags = s.flags) (hmem : t.mem = s.mem)
    (hw : t.written = s.written) (hpc : t.pc = s.pc) (hr : SameRest s t) :
    CarryFromBit op v k s.flags ((t.carryBit op v k).postStep m).flags ∧
      MovedRegs s ((t.carryBit op v k).postStep m) m ∧ SameMemory s ((t.carryBit op v k).postStep m) ∧
      ((t.carryBit op v k).postStep m).pc = s.pc ∧ SameRest s ((t.carryBit op v k).postStep m) := by
  obtain ⟨hcarry, hregs, hm, hwr, hp, hrest⟩ := t.carryBit_spec op v k
  refine ⟨?_, moved_postStep m (fun g => (hregs g).trans (hreg g)) (hm.trans hmem) (hwr.trans hw) (hp.trans hpc)
    (hr.trans hrest)⟩
  rw [← hf]
  simpa using hcarry

theorem exec_carryImmReg (op : CarryOp) (z : SizeBW) (r : RegOp z.size) (num : BitVec 4) (s : State) :
    exec (op.immReg z r num) s = .next (s.carryBit op (s.readLoc (opLoc s.rfp r)) num.toNat) := by
  cases op <;> rfl

theorem exec_carryAReg (op : CarryOp) (z : SizeBW) (r : RegOp z.size) (s : State) :
    exec (op.aReg z r) s =
      .next (s.carryBit op (s.readLoc (opLoc s.rfp r)) ((s.readLoc (curLoc s.rfp .b 1)).toNat % 16)) := by
  cases op <;> rfl

theorem exec_carryAMem (op : CarryOp) (m : MemOp) (s : State) :
    exec (op.aMem m) s = .next ((((s.preStep m).dataDrawn m (aLoc s.rfp)).carryBit op (s.memRead 1 (s.ea m))
      (bitNumber ((s.preStep m).dataLoc m (aLoc s.rfp)))).postStep m) := by
  rw [← State.memRead_preStep s m]
  cases op <;> exact congrArg Host.Outcome.next (by simp only [State.carryBitMemA, State.noteRead_eq])

theorem exec_carryImmMem (op : CarryOp) (num : BitVec 3) (m : MemOp) (s : State) :
    exec (op.immMem num m) s =
      .next (((s.preStep m).carryBit op (s.memRead 1 (s.ea m)) num.toNat).postStep m) := by
  rw [← State.memRead_preStep s m]
  cases op <;> exact congrArg Host.Outcome.next (by simp only [State.carryBitMem, State.noteRead_eq])

/-- Settles O46: the four forms differ in the operand and the bit number. -/
theorem carryFromBits : Obligations.CarryFromBits := by
  intro s op
  refine ⟨fun z r num => ?_, fun z r => ?_, fun m => ?_, fun num m => ?_⟩
  · obtain ⟨hcarry, hregs, hm, hw, hrest⟩ := s.carryBit_spec op (s.readLoc (opLoc s.rfp r)) num.toNat
    exact ⟨_, exec_carryImmReg op z r num s, hcarry, hregs, .of_fields hm hw, hrest⟩
  · obtain ⟨hcarry, hregs, hm, hw, hrest⟩ := s.carryBit_spec op (s.readLoc (opLoc s.rfp r))
      ((s.readLoc (curLoc s.rfp .b 1)).toNat % 16)
    exact ⟨_, exec_carryAReg op z r s, hcarry, hregs, .of_fields hm hw, hrest⟩
  · obtain ⟨hcarry, hrest⟩ := carryBit_postStep (s := s) (t := (s.preStep m).dataDrawn m (aLoc s.rfp)) op m
      (s.memRead 1 (s.ea m)) (bitNumber ((s.preStep m).dataLoc m (aLoc s.rfp))) (by simp) (by simp) (by simp) (by simp)
      (by simp) (by constructor <;> simp)
    exact ⟨_, _, exec_carryAMem op m s, hcarry, fun h => congrArg bitNumber (s.dataLoc_preStep m _ h), hrest⟩
  · obtain ⟨hcarry, hrest⟩ := carryBit_postStep (s := s) (t := s.preStep m) op m (s.memRead 1 (s.ea m)) num.toNat
      (by simp) (by simp) (by simp) (by simp) (by simp) (sameRest_preStep s m)
    exact ⟨_, exec_carryImmMem op num m s, hcarry, hrest⟩

/-! ## STCF -/

theorem exec_stcfAMem (m : MemOp) (s : State) : exec (.stcfAMem m) s =
    .next ((((s.preStep m).dataDrawn m (aLoc s.rfp)).memWrite 1 (s.ea m) (putBit (s.memRead 1 (s.ea m))
      (bitNumber ((s.preStep m).dataLoc m (aLoc s.rfp))) s.flags.c)).postStep m) := by
  show execStcfAMem m s = _
  simp only [execStcfAMem, State.noteRead_eq, State.memRead_preStep]

theorem exec_stcfImmMem (num : BitVec 3) (m : MemOp) (s : State) : exec (.stcfImmMem num m) s =
    .next (((s.preStep m).memWrite 1 (s.ea m) (putBit (s.memRead 1 (s.ea m)) num.toNat s.flags.c)).postStep m) := by
  show execStcfImmMem num m s = _
  simp only [execStcfImmMem, State.noteRead_eq, State.memRead_preStep]

/-- Settles O47: the value loaded or stored is the operand with one bit replaced. -/
theorem storeCarry : Obligations.StoreCarry := by
  intro s
  refine ⟨fun z r num => ⟨_, _, rfl, loadsReg_writeLoc s _ _, fun i hi => getLsbD_putBit _ _ _ i hi⟩,
    fun z r => ⟨_, _, rfl, loadsReg_writeLoc s _ _, fun i hi => getLsbD_putBit _ _ _ i hi⟩, fun m => ?_, fun num m => ?_⟩
  · exact ⟨_, _, _, exec_stcfAMem m s,
      stores_memWrite m 1 _ (by decide) (by simp) (by simp) ⟨by simp, by simp, by constructor <;> simp⟩,
      fun h => congrArg bitNumber (s.dataLoc_preStep m _ h), fun i hi => getLsbD_putBit _ _ _ i hi⟩
  · exact ⟨_, _, exec_stcfImmMem num m s, stores_memWrite m 1 _ (by decide) (by simp) (by simp) (sameOutside_preStep s m),
      fun i hi => getLsbD_putBit _ _ _ i hi⟩

/-! ## BIT, RES, SET, CHG and TSET -/

theorem exec_bitModReg (op : BitOp) (z : SizeBW) (r : RegOp z.size) (num : BitVec 4) (s : State) :
    exec (op.reg z r num) s = .next (s.bitModReg op z r num) := by
  cases op <;> rfl

theorem exec_bitModMem (op : BitOp) (num : BitVec 3) (m : MemOp) (s : State) :
    exec (op.mem num m) s = .next (s.bitModMem op num m) := by
  cases op <;> rfl

/-- The place of RES, SET, CHG and TSET written, and the flags set. -/
theorem State.bitModFlags_writeLoc {sz : Size} {s t : State} (op : BitOp) (bit : Bool) (l : Loc sz) (v : BitVec sz.bits)
    (hreg : ∀ g, t.reg g = (s.writeLoc l v).reg g) (hf : t.flags = s.flags) (hmem : t.mem = s.mem)
    (hw : t.written = s.written) (hpc : t.pc = s.pc) (hr : SameRest s t) :
    (t.bitModFlags op bit).readLoc l = v ∧ BitOpFlags op bit s.flags (t.bitModFlags op bit).flags ∧
      SameRegsBut s (t.bitModFlags op bit) l ∧ SameMemory s (t.bitModFlags op bit) ∧
      (t.bitModFlags op bit).pc = s.pc ∧ SameRest s (t.bitModFlags op bit) := by
  obtain ⟨hflags, hregs, hm, hwr, hp, hrest⟩ := t.bitModFlags_spec op bit
  have hreg' : ∀ g, (t.bitModFlags op bit).reg g = (s.writeLoc l v).reg g := fun g => (hregs g).trans (hreg g)
  exact ⟨(State.readLoc_eq_of_reg l (hreg' l.g)).trans (State.readLoc_writeLoc_same _ _ _), hf ▸ hflags,
    fun g k hc => (State.regByte_of_reg (hreg' g) k).trans (sameRegsBut_writeLoc s l v g k hc),
    .of_fields (hm.trans hmem) (hwr.trans hw), hp.trans hpc, hr.trans hrest⟩

theorem State.bitModReg_of_lt (s : State) (op : BitOp) {z : SizeBW} (r : RegOp z.size) {num : BitVec 4}
    (h : num.toNat < z.size.bits) : s.bitModReg op z r num =
      (s.writeOp r (putBit (s.readOp r) num.toNat (bitResult op ((s.readOp r).getLsbD num.toNat)))).bitModFlags op
        ((s.readOp r).getLsbD num.toNat) := if_pos h

theorem State.bitModReg_of_not_lt (s : State) (op : BitOp) {z : SizeBW} (r : RegOp z.size) {num : BitVec 4}
    (h : ¬ num.toNat < z.size.bits) : s.bitModReg op z r num =
      (s.writeOp r (s.freeBits z.size.bits)).drawn.bitModFlags op ((s.drawn.freeBits 3).getLsbD 2) := if_neg h

/-- The register form (R331 to R335). -/
theorem State.bitModReg_spec (s : State) (op : BitOp) (z : SizeBW) (r : RegOp z.size) (num : BitVec 4) :
    ∃ bit, (num.toNat < z.size.bits → bit = (s.readLoc (opLoc s.rfp r)).getLsbD num.toNat ∧
        BitModified op num.toNat (s.readLoc (opLoc s.rfp r)) ((s.bitModReg op z r num).readLoc (opLoc s.rfp r))) ∧
      BitOpFlags op bit s.flags (s.bitModReg op z r num).flags ∧ SameRegsBut s (s.bitModReg op z r num) (opLoc s.rfp r) ∧
      SameMemory s (s.bitModReg op z r num) ∧ (s.bitModReg op z r num).pc = s.pc ∧
      SameRest s (s.bitModReg op z r num) := by
  by_cases h : num.toNat < z.size.bits
  · rw [State.bitModReg_of_lt s op r h]
    obtain ⟨hval, hrest⟩ := State.bitModFlags_writeLoc (s := s)
      (t := s.writeOp r (putBit (s.readOp r) num.toNat (bitResult op ((s.readOp r).getLsbD num.toNat)))) op
      ((s.readOp r).getLsbD num.toNat) (opLoc s.rfp r)
      (putBit (s.readOp r) num.toNat (bitResult op ((s.readOp r).getLsbD num.toNat)))
      (fun g => rfl) (by simp) (by simp) (by simp) (by simp) (by constructor <;> simp)
    refine ⟨_, fun _ => ⟨rfl, ?_⟩, hrest⟩
    rw [hval]
    exact bitModified_putBit op num.toNat _ h
  · rw [State.bitModReg_of_not_lt s op r h]
    obtain ⟨-, hrest⟩ := State.bitModFlags_writeLoc (s := s) (t := (s.writeOp r (s.freeBits z.size.bits)).drawn) op
      ((s.drawn.freeBits 3).getLsbD 2) (opLoc s.rfp r) (s.freeBits z.size.bits)
      (fun g => State.reg_drawn _ g) (by simp) (by simp) (by simp) (by simp) (by constructor <;> simp)
    exact ⟨_, fun h' => absurd h' h, hrest⟩

/-- The memory form (R331 to R334). -/
theorem State.bitModMem_spec (s : State) (op : BitOp) (num : BitVec 3) (m : MemOp) :
    let t := s.bitModMem op num m
    BitModified op num.toNat (s.memRead 1 (s.ea m)) (t.memRead 1 (s.ea m)) ∧
      BitOpFlags op ((s.memRead 1 (s.ea m)).getLsbD num.toNat) s.flags t.flags ∧
      SameMemoryBut s t 1 (s.ea m) ∧ MovedRegs s t m ∧ t.pc = s.pc ∧ SameRest s t := by
  intro t
  obtain ⟨v, hv⟩ : ∃ v : Byte, v = s.memRead 1 (s.ea m) := ⟨_, rfl⟩
  obtain ⟨w, hw⟩ : ∃ w, w = putBit v num.toNat (bitResult op (v.getLsbD num.toNat)) := ⟨_, rfl⟩
  have ht : t = (((s.preStep m).memWrite 1 (s.ea m) w).bitModFlags op (v.getLsbD num.toNat)).postStep m := by
    simp only [t, hw, hv, State.bitModMem, State.noteRead_eq, State.memRead_preStep]
  obtain ⟨hflags, hregs, hm, -, hp, hrest⟩ :=
    ((s.preStep m).memWrite 1 (s.ea m) w).bitModFlags_spec op (v.getLsbD num.toNat)
  have hm : t.mem = ((s.preStep m).memWrite 1 (s.ea m) w).mem := by rw [ht, State.postStep_mem, hm]
  have hrest : SameRest s (((s.preStep m).memWrite 1 (s.ea m) w).bitModFlags op (v.getLsbD num.toNat)) :=
    SameRest.trans (by constructor <;> simp) hrest
  rw [← hv]
  refine ⟨?_, ?_, fun a ha => ?_, ?_, ?_, ?_⟩
  · rw [State.memRead_eq_of_mem hm, State.memRead_memWrite_same _ _ _ _ (by decide), hw]
    exact bitModified_putBit op num.toNat v (by omega)
  · rw [ht, State.postStep_flags]
    simpa using hflags
  · rw [State.readByte_of_mem hm, State.readByte_memWrite_other _ _ _ _ _ ha, State.readByte_preStep]
  · rw [ht]
    exact fun g => State.reg_stepped m hrest.rfp g ((hregs g).trans (State.reg_memWrite _ _ _ _ g))
  · rw [ht, State.postStep_pc, hp]
    simp
  · rw [ht]
    exact hrest.trans (by constructor <;> simp)

theorem exec_bitMem (num : BitVec 3) (m : MemOp) (s : State) : exec (.bitMem num m) s =
    .next (((s.preStep m).testBit ((s.memRead 1 (s.ea m)).getLsbD num.toNat)).postStep m) := by
  show execBitMem num m s = _
  simp only [execBitMem, State.noteRead_eq, State.memRead_preStep]

/-- Settles O48: the modifying forms, and BIT. -/
theorem bitOperations : Obligations.BitOperations := by
  intro s
  refine ⟨fun op z r num => ?_, fun op num m => ⟨_, exec_bitModMem op num m s, s.bitModMem_spec op num m⟩,
    fun z r num => ?_, fun num m => ?_⟩
  · obtain ⟨bit, h⟩ := s.bitModReg_spec op z r num
    exact ⟨_, bit, exec_bitModReg op z r num s, h⟩
  · obtain ⟨hflags, hregs, hm, hw, hrest⟩ := s.testBit_spec
      (if num.toNat < z.size.bits then (s.readOp r).getLsbD num.toNat else (s.freeBits 3).getLsbD 2)
    exact ⟨_, _, rfl, fun h => if_pos h, hflags, hregs, .of_fields hm hw, hrest⟩
  · obtain ⟨hflags, hregs, hm, hw, hp, hrest⟩ := (s.preStep m).testBit_spec ((s.memRead 1 (s.ea m)).getLsbD num.toNat)
    exact ⟨_, exec_bitMem num m s, by simpa using hflags, moved_postStep m hregs (hm.trans (by simp)) (hw.trans (by simp))
      (hp.trans (by simp)) ((sameRest_preStep s m).trans hrest)⟩

/-! ## Bit search -/

/-- The number that BS1B finds (R341). -/
theorem highestBit_spec {n : Nat} (v : BitVec n) :
    (highestBit v = none → v = 0) ∧
      ∀ k, highestBit v = some k → k < n ∧ v.getLsbD k = true ∧ ∀ i, k < i → v.getLsbD i = false := by
  refine ⟨fun h => ?_, fun k h => ?_⟩
  · rw [highestBit, List.find?_eq_none] at h
    exact BitVec.eq_of_getLsbD_eq fun i hi => by simpa using h i (List.mem_reverse.2 (List.mem_range.2 hi))
  · obtain ⟨hk, as, bs, hsplit, has⟩ := List.find?_eq_some_iff_append.1 h
    have hkn : k < n := by
      have : k ∈ (List.range n).reverse := hsplit ▸ by simp
      simpa using this
    refine ⟨hkn, hk, fun i hi => ?_⟩
    by_cases hin : i < n
    · have hmem : i ∈ as ++ k :: bs := hsplit ▸ by simpa using hin
      have hsorted : (as ++ k :: bs).Pairwise (· > ·) := hsplit ▸ List.pairwise_reverse.2 List.pairwise_lt_range
      rcases List.mem_append.1 hmem with hi' | hi'
      · simpa using has i hi'
      · rcases List.mem_cons.1 hi' with rfl | hi''
        · omega
        · have := (List.pairwise_cons.1 (List.pairwise_append.1 hsorted).2.1).1 i hi''
          omega
    · exact BitVec.getLsbD_of_ge v i (by omega)

/-- What a bit search leaves, `P` being what the number found satisfies (R340, R341). -/
theorem State.bitFound_spec (s : State) (v : Word) (found : Option Nat) (P : Nat → Prop) (hnone : found = none → v = 0)
    (hsome : ∀ k, found = some k → k < 16 ∧ v.getLsbD k = true ∧ P k) :
    let t := s.bitFound found
    (v = 0 → t.flags.v = true) ∧
      (v ≠ 0 → t.flags.v = false ∧ v.getLsbD (t.readLoc (curLoc s.rfp .b 1)).toNat = true ∧
        P (t.readLoc (curLoc s.rfp .b 1)).toNat) ∧
      t.flags = { s.flags with v := t.flags.v } ∧
      SameRegsBut s t (curLoc s.rfp .b 1) ∧ SameMemory s t ∧ t.pc = s.pc ∧ SameRest s t := by
  intro t
  cases found with
  | none =>
    refine ⟨fun _ => rfl, fun h => absurd (hnone rfl) h, rfl, fun g k hc => ?_, .of_fields (by simp [t, State.bitFound])
      (by simp [t, State.bitFound]), by simp [t, State.bitFound], by constructor <;> simp [t, State.bitFound]⟩
    exact (State.regByte_of_reg ((State.reg_with_flags _ _ g).trans (State.reg_drawn _ g)) k).trans
      (sameRegsBut_writeLoc s _ _ g k hc)
  | some k =>
    obtain ⟨hk, hbit, hP⟩ := hsome k rfl
    obtain ⟨hval, hregs, hmem, -, hpc, hrest⟩ := loadsRegFlags_with_flags s (curLoc s.rfp .b 1)
      (P := fun _ => True) (BitVec.ofNat 8 k) { s.flags with v := false } trivial
    have hval : (t.readLoc (curLoc s.rfp .b 1)).toNat = k := by
      rw [show t.readLoc (curLoc s.rfp .b 1) = BitVec.ofNat 8 k from hval]
      exact Nat.mod_eq_of_lt (by omega)
    refine ⟨fun h => ?_, fun _ => ⟨rfl, ?_⟩, rfl, hregs, hmem, hpc, hrest⟩
    · rw [h] at hbit
      simp at hbit
    · rw [hval]
      exact ⟨hbit, hP⟩

/-- Settles O49: both searches by what they find. -/
theorem bitSearch : Obligations.BitSearch := by
  intro s r
  obtain ⟨lnone, lsome⟩ := lowestBit_spec (s.readLoc (opLoc s.rfp r))
  obtain ⟨hnone, hsome⟩ := highestBit_spec (s.readLoc (opLoc s.rfp r))
  exact ⟨⟨_, rfl, s.bitFound_spec _ _ (fun k => ∀ i < k, (s.readLoc (opLoc s.rfp r)).getLsbD i = false) lnone lsome⟩,
    ⟨_, rfl, s.bitFound_spec _ _ (fun k => ∀ i, k < i → (s.readLoc (opLoc s.rfp r)).getLsbD i = false) hnone hsome⟩⟩

end Sys2Proof.Machine
end

section
/-! SUPPORT. Proofs of the statements about rotates and shifts (R390 to R411). -/

namespace Sys2Proof.Machine

/-! ## One step -/

theorem getLsbD_ofBool_setWidth {n : Nat} (b : Bool) (i : Nat) :
    ((BitVec.ofBool b).setWidth n).getLsbD i = (decide (i < n) && decide (i = 0) && b) := by
  rw [BitVec.getLsbD_setWidth, BitVec.getLsbD_ofBool]
  cases b <;> simp

/-- A bit after a shift left by one. -/
theorem getLsbD_shiftInLow {n : Nat} (v : BitVec n) (b : Bool) {i : Nat} (hi : i < n) :
    (shiftInLow v b).getLsbD i = if i = 0 then b else v.getLsbD (i - 1) := by
  rw [shiftInLow, BitVec.getLsbD_or, BitVec.getLsbD_shiftLeft, getLsbD_ofBool_setWidth]
  by_cases h : i = 0
  · simp [h, show 0 < n by omega]
  · simp [h, hi]

/-- A bit after a shift right by one. -/
theorem getLsbD_shiftInHigh {n : Nat} (v : BitVec n) (b : Bool) {i : Nat} (hi : i < n) :
    (shiftInHigh v b).getLsbD i = if i = n - 1 then b else v.getLsbD (i + 1) := by
  rw [shiftInHigh, BitVec.getLsbD_or, BitVec.getLsbD_ushiftRight, BitVec.getLsbD_shiftLeft, getLsbD_ofBool_setWidth,
    Nat.add_comm 1 i]
  by_cases h : i = n - 1
  · subst h
    simp [show n - 1 + 1 = n by omega, show n - 1 < n by omega, show 0 < n by omega]
  · have : i < n - 1 := by omega
    simp [h, this]

/-! ## Rotations -/

/-- Where a rotation to the left takes a bit. -/
theorem getLsbD_rotateLeft_add {n : Nat} (v : BitVec n) (k : Nat) {j : Nat} (hj : j < n) :
    (v.rotateLeft k).getLsbD ((j + k) % n) = v.getLsbD j := by
  have ha : k % n < n := Nat.mod_lt _ (by omega)
  rw [← Nat.add_mod_mod, BitVec.getLsbD_rotateLeft]
  by_cases h : j + k % n < n
  · rw [Nat.mod_eq_of_lt h]
    simp [show ¬ j + k % n < k % n by omega, h]
  · rw [Nat.mod_eq_sub_mod (by omega), Nat.mod_eq_of_lt (by omega)]
    simp [show j + k % n - n < k % n by omega, show n - k % n + (j + k % n - n) = j by omega]

/-- Where a rotation to the right takes a bit from. -/
theorem getLsbD_rotateRight_eq {n : Nat} (v : BitVec n) (k : Nat) {i : Nat} (hi : i < n) :
    (v.rotateRight k).getLsbD i = v.getLsbD ((i + k) % n) := by
  have ha : k % n < n := Nat.mod_lt _ (by omega)
  rw [← Nat.add_mod_mod, BitVec.getLsbD_rotateRight]
  by_cases h : i + k % n < n
  · rw [Nat.mod_eq_of_lt h]
    simp [show i < n - k % n by omega, Nat.add_comm]
  · rw [Nat.mod_eq_sub_mod (a := i + k % n) (by omega), Nat.mod_eq_of_lt (a := i + k % n - n) (by omega)]
    simp [show ¬ i < n - k % n by omega, hi, show i - (n - k % n) = i + k % n - n by omega]

/-- A rotation to the left is known by where it takes each bit. -/
theorem eq_rotateLeft {n : Nat} {v r : BitVec n} {k : Nat} (h : ∀ j < n, r.getLsbD ((j + k) % n) = v.getLsbD j) :
    r = v.rotateLeft k := by
  apply BitVec.eq_of_getLsbD_eq
  intro i hi
  have hj : (i + (n - k % n)) % n < n := Nat.mod_lt _ (by omega)
  have hij : ((i + (n - k % n)) % n + k) % n = i := by
    have ha : k % n < n := Nat.mod_lt _ (by omega)
    rw [Nat.mod_add_mod, ← Nat.add_mod_mod, show i + (n - k % n) + k % n = i + n by omega, Nat.add_mod_right,
      Nat.mod_eq_of_lt hi]
  rw [← hij, h _ hj, getLsbD_rotateLeft_add _ _ hj]

theorem eq_rotateRight {n : Nat} {v r : BitVec n} {k : Nat} (h : ∀ i < n, r.getLsbD i = v.getLsbD ((i + k) % n)) :
    r = v.rotateRight k :=
  BitVec.eq_of_getLsbD_eq fun i hi => (h i hi).trans (getLsbD_rotateRight_eq v k hi).symm

theorem rotateLeft_zero {n : Nat} (v : BitVec n) : v.rotateLeft 0 = v :=
  (eq_rotateLeft fun j hj => by rw [Nat.add_zero, Nat.mod_eq_of_lt hj]).symm

theorem rotateRight_zero {n : Nat} (v : BitVec n) : v.rotateRight 0 = v :=
  (eq_rotateRight fun i hi => by rw [Nat.add_zero, Nat.mod_eq_of_lt hi]).symm

/-- Rotating once more. -/
theorem rotateLeft_succ {n : Nat} (v : BitVec n) (k : Nat) : (v.rotateLeft k).rotateLeft 1 = v.rotateLeft (k + 1) :=
  eq_rotateLeft fun j hj => by
    rw [← Nat.add_assoc, ← Nat.mod_add_mod, getLsbD_rotateLeft_add _ _ (Nat.mod_lt _ (by omega)),
      getLsbD_rotateLeft_add _ _ hj]

theorem rotateRight_succ {n : Nat} (v : BitVec n) (k : Nat) : (v.rotateRight k).rotateRight 1 = v.rotateRight (k + 1) :=
  eq_rotateRight fun i hi => by
    rw [getLsbD_rotateRight_eq _ _ hi, getLsbD_rotateRight_eq _ _ (Nat.mod_lt _ (by omega)), Nat.mod_add_mod,
      Nat.add_assoc, Nat.add_comm 1 k]

theorem shiftInLow_msb {n : Nat} (v : BitVec n) : shiftInLow v v.msb = v.rotateLeft 1 :=
  eq_rotateLeft fun j hj => by
    rw [getLsbD_shiftInLow _ _ (Nat.mod_lt _ (by omega)), BitVec.msb_eq_getLsbD_last]
    by_cases h : j + 1 < n
    · rw [Nat.mod_eq_of_lt h, if_neg (by omega), Nat.add_sub_cancel]
    · rw [show j + 1 = n by omega, Nat.mod_self, if_pos rfl, show n - 1 = j by omega]

theorem shiftInHigh_lsb {n : Nat} (v : BitVec n) : shiftInHigh v (v.getLsbD 0) = v.rotateRight 1 :=
  eq_rotateRight fun i hi => by
    rw [getLsbD_shiftInHigh _ _ hi]
    by_cases h : i = n - 1
    · rw [if_pos h, show i + 1 = n by omega, Nat.mod_self]
    · rw [if_neg h, Nat.mod_eq_of_lt (by omega)]

/-- A bit of an operand and the carry above it. -/
theorem getLsbD_carry_append {n : Nat} (c : Bool) (v : BitVec n) {i : Nat} (hi : i < 1 + n) :
    (BitVec.ofBool c ++ v).getLsbD i = if i = n then c else v.getLsbD i := by
  rw [BitVec.getLsbD_append, BitVec.getLsbD_ofBool]
  by_cases h : i = n
  · simp [h]
  · simp [h, show i < n by omega]

/-- A step of RL rotates the operand and the carry (R395). -/
theorem carry_shiftInLow {n : Nat} (hn : 0 < n) (v : BitVec n) (c : Bool) :
    BitVec.ofBool v.msb ++ shiftInLow v c = (BitVec.ofBool c ++ v).rotateLeft 1 :=
  eq_rotateLeft fun j hj => by
    rw [getLsbD_carry_append _ _ (Nat.mod_lt _ (by omega)), getLsbD_carry_append _ _ hj, BitVec.msb_eq_getLsbD_last]
    by_cases h : j = n
    · rw [h, Nat.add_comm n 1, Nat.mod_self, if_neg (by omega), if_pos rfl, getLsbD_shiftInLow _ _ hn, if_pos rfl]
    · rw [Nat.mod_eq_of_lt (by omega), if_neg h]
      by_cases h' : j + 1 = n
      · rw [if_pos h', show n - 1 = j by omega]
      · rw [if_neg h', getLsbD_shiftInLow _ _ (by omega), if_neg (by omega), Nat.add_sub_cancel]

/-- A step of RR rotates the operand and the carry (R396). -/
theorem carry_shiftInHigh {n : Nat} (hn : 0 < n) (v : BitVec n) (c : Bool) :
    BitVec.ofBool (v.getLsbD 0) ++ shiftInHigh v c = (BitVec.ofBool c ++ v).rotateRight 1 :=
  eq_rotateRight fun i hi => by
    rw [getLsbD_carry_append _ _ hi, getLsbD_carry_append _ _ (Nat.mod_lt _ (by omega))]
    by_cases h : i = n
    · rw [if_pos h, h, Nat.add_comm n 1, Nat.mod_self, if_neg (by omega)]
    · rw [if_neg h, Nat.mod_eq_of_lt (by omega), getLsbD_shiftInHigh _ _ (by omega)]
      by_cases h' : i + 1 = n
      · rw [if_pos (by omega), if_pos h']
      · rw [if_neg (by omega), if_neg h']

/-! ## Shifts -/

theorem shiftInLow_false {n : Nat} (v : BitVec n) : shiftInLow v false = v <<< 1 := by simp [shiftInLow]

/-- The bit that the next step to the left takes out. -/
theorem msb_shiftLeft_eq {n : Nat} (hn : 0 < n) (v : BitVec n) (k : Nat) :
    (v <<< k).msb = (decide (k + 1 ≤ n) && v.getLsbD (n - (k + 1))) := by
  rw [BitVec.msb_eq_getLsbD_last, BitVec.getLsbD_shiftLeft]
  by_cases h : k + 1 ≤ n
  · simp [h, hn, show ¬ n - 1 < k by omega, show n - 1 - k = n - (k + 1) by omega]
  · simp [h, show n - 1 < k by omega]

theorem shiftInHigh_false {n : Nat} (v : BitVec n) : shiftInHigh v false = v >>> 1 := by simp [shiftInHigh]

theorem shiftInHigh_msb {n : Nat} (v : BitVec n) : shiftInHigh v v.msb = v.sshiftRight 1 := by
  apply BitVec.eq_of_getLsbD_eq
  intro i hi
  rw [getLsbD_shiftInHigh _ _ hi, BitVec.getLsbD_sshiftRight, Nat.add_comm 1 i]
  by_cases h : i = n - 1
  · simp [h, show ¬ n - 1 + 1 < n by omega, show 0 < n by omega]
  · simp [h, show i + 1 < n by omega, show ¬ n ≤ i by omega]

/-! ## Many steps -/

theorem shiftSteps_succ {n : Nat} (op : ShiftOp) (k : Nat) (d : BitVec n × Bool) :
    shiftSteps op (k + 1) d = shiftStep op (shiftSteps op k d) := by
  induction k generalizing d with
  | zero => rfl
  | succ k ih => exact ih (shiftStep op d)

/-- The operand after `k` steps of an operation into which the carry does not enter. -/
def shiftedBy {n : Nat} (op : ShiftOp) (k : Nat) (v : BitVec n) : BitVec n :=
  match op with
  | .rlc => v.rotateLeft k
  | .rrc => v.rotateRight k
  | .sla => v <<< k
  | .sra => v.sshiftRight k
  | .sll => v <<< k
  | .srl => v >>> k
  | .rl => v
  | .rr => v

theorem shiftSteps_fst {n : Nat} {op : ShiftOp} (h : op ≠ .rl ∧ op ≠ .rr) (v : BitVec n) (c : Bool) (k : Nat) :
    (shiftSteps op k (v, c)).1 = shiftedBy op k v := by
  obtain ⟨hl, hr⟩ := h
  induction k with
  | zero => cases op <;> simp_all [shiftSteps, shiftedBy, rotateLeft_zero, rotateRight_zero]
  | succ k ih =>
    rw [shiftSteps_succ]
    cases op with
    | rl => exact absurd rfl hl
    | rr => exact absurd rfl hr
    | rlc => exact (shiftInLow_msb _).trans (ih ▸ rotateLeft_succ v k)
    | rrc => exact (shiftInHigh_lsb _).trans (ih ▸ rotateRight_succ v k)
    | sla => exact (shiftInLow_false _).trans (ih ▸ (BitVec.shiftLeft_add v k 1).symm)
    | sll => exact (shiftInLow_false _).trans (ih ▸ (BitVec.shiftLeft_add v k 1).symm)
    | sra => exact (shiftInHigh_msb _).trans (ih ▸ BitVec.sshiftRight_add.symm)
    | srl => exact (shiftInHigh_false _).trans (ih ▸ (BitVec.shiftRight_add v k 1).symm)

/-- RL and RR rotate the operand and the carry together (R395, R396). -/
theorem shiftSteps_rl {n : Nat} (hn : 0 < n) (v : BitVec n) (c : Bool) (k : Nat) :
    BitVec.ofBool (shiftSteps .rl k (v, c)).2 ++ (shiftSteps .rl k (v, c)).1 =
      (BitVec.ofBool c ++ v).rotateLeft k := by
  induction k with
  | zero => exact (rotateLeft_zero _).symm
  | succ k ih =>
    rw [shiftSteps_succ, ← rotateLeft_succ, ← ih]
    exact carry_shiftInLow hn _ _

theorem shiftSteps_rr {n : Nat} (hn : 0 < n) (v : BitVec n) (c : Bool) (k : Nat) :
    BitVec.ofBool (shiftSteps .rr k (v, c)).2 ++ (shiftSteps .rr k (v, c)).1 =
      (BitVec.ofBool c ++ v).rotateRight k := by
  induction k with
  | zero => exact (rotateRight_zero _).symm
  | succ k ih =>
    rw [shiftSteps_succ, ← rotateRight_succ, ← ih]
    exact carry_shiftInHigh hn _ _

/-- The operand and the carry after at least one step, in closed form (R393 to R400). -/
theorem shiftResult_shiftSteps {n : Nat} (hn : 0 < n) (op : ShiftOp) {k : Nat} (hk : 0 < k) (v : BitVec n) (c : Bool) :
    ShiftResult op k v c (shiftSteps op k (v, c)).1 (shiftSteps op k (v, c)).2 := by
  obtain ⟨k, rfl⟩ : ∃ k', k = k' + 1 := ⟨k - 1, by omega⟩
  cases op with
  | rl => exact (shiftSteps_rl hn v c _).trans BitVec.rotateLeft_mod_eq_rotateLeft.symm
  | rr => exact (shiftSteps_rr hn v c _).trans BitVec.rotateRight_mod_eq_rotateRight.symm
  | rlc =>
    refine ⟨(shiftSteps_fst (by decide) v c _).trans BitVec.rotateLeft_mod_eq_rotateLeft.symm, ?_⟩
    rw [shiftSteps_succ]
    exact ((getLsbD_shiftInLow _ _ hn).trans (if_pos rfl)).symm
  | rrc =>
    refine ⟨(shiftSteps_fst (by decide) v c _).trans BitVec.rotateRight_mod_eq_rotateRight.symm, ?_⟩
    rw [shiftSteps_succ, BitVec.msb_eq_getLsbD_last]
    exact ((getLsbD_shiftInHigh _ _ (by omega)).trans (if_pos rfl)).symm
  | sla =>
    refine ⟨shiftSteps_fst (by decide) v c _, ?_⟩
    rw [shiftSteps_succ]
    exact (congrArg BitVec.msb (shiftSteps_fst (by decide) v c k)).trans (msb_shiftLeft_eq hn v k)
  | sll =>
    refine ⟨shiftSteps_fst (by decide) v c _, ?_⟩
    rw [shiftSteps_succ]
    exact (congrArg BitVec.msb (shiftSteps_fst (by decide) v c k)).trans (msb_shiftLeft_eq hn v k)
  | sra =>
    refine ⟨shiftSteps_fst (by decide) v c _, ?_⟩
    rw [shiftSteps_succ]
    refine (congrArg (BitVec.getLsbD · 0) (shiftSteps_fst (by decide) v c k)).trans ?_
    simp only [shiftedBy, BitVec.getLsbD_sshiftRight, Nat.add_zero, Nat.add_sub_cancel, Nat.succ_le_iff]
    simp [show ¬ n = 0 by omega]
  | srl =>
    refine ⟨shiftSteps_fst (by decide) v c _, ?_⟩
    rw [shiftSteps_succ]
    exact (congrArg (BitVec.getLsbD · 0) (shiftSteps_fst (by decide) v c k)).trans (BitVec.getLsbD_ushiftRight ..)

/-! ## Registers -/

theorem count16_eq_fieldCount16 (num : BitVec 4) : count16 num = fieldCount16 num := by revert num; decide

theorem fieldCount16_pos (num : BitVec 4) : 0 < fieldCount16 num := by revert num; decide

theorem exec_shiftImmReg (op : ShiftOp) (sz : Size) (r : RegOp sz) (num : BitVec 4) (s : State) :
    exec (op.immReg sz r num) s = .next (s.shiftReg op sz r num) := by
  cases op <;> rfl

theorem exec_shiftAReg (op : ShiftOp) (sz : Size) (r : RegOp sz) (s : State) :
    exec (op.aReg sz r) s = .next (s.shiftReg op sz r ((s.readLoc (curLoc s.rfp .b 1)).setWidth 4)) := by
  cases op <;> rfl

theorem exec_shiftMem (op : ShiftOp) (z : SizeBW) (m : MemOp) (s : State) :
    exec (op.mem z m) s = .next (s.shiftMem op z m) := by
  cases op <;> rfl

/-- A rotate or shift of a register. -/
theorem State.shiftReg_spec (s : State) (op : ShiftOp) (sz : Size) (r : RegOp sz) (num : BitVec 4) :
    ∃ v c, ShiftResult op (fieldCount16 num) (s.readLoc (opLoc s.rfp r)) s.flags.c v c ∧
      LoadsRegFlags s (s.shiftReg op sz r num) (opLoc s.rfp r) v (ShiftFlags v c) := by
  rw [← count16_eq_fieldCount16]
  have hpos : 0 < count16 num := (count16_eq_fieldCount16 num).symm ▸ fieldCount16_pos num
  refine ⟨_, _, shiftResult_shiftSteps (size_bits_pos sz) op hpos (s.readLoc (opLoc s.rfp r)) s.flags.c, ?_⟩
  refine loadsRegFlags_of_reg (fun g => ?_) (by simp [State.shiftReg]) (by simp [State.shiftReg])
    (shiftFlags_spec _ _ _) (by simp [State.shiftReg]) (by constructor <;> simp [State.shiftReg])
  rw [State.shiftReg, State.reg_with_flags, State.writeOp, State.drawnLong_rfp, State.reg_writeLoc, State.reg_writeLoc,
    State.reg_drawnLong, State.reg_drawnLong]
  rfl

/-- Settles O50: a count from the field or from A, in both cases at least 1. -/
theorem shiftRegister : Obligations.ShiftRegister := by
  intro s op sz r
  refine ⟨fun num => ?_, ?_⟩
  · obtain ⟨v, c, h⟩ := s.shiftReg_spec op sz r num
    exact ⟨_, v, c, exec_shiftImmReg op sz r num s, h⟩
  · obtain ⟨v, c, h⟩ := s.shiftReg_spec op sz r ((s.readLoc (curLoc s.rfp .b 1)).setWidth 4)
    exact ⟨_, v, c, exec_shiftAReg op sz r s, h⟩

/-! ## Memory -/

/-- A rotate or shift of memory by one step. -/
theorem State.shiftMem_spec (s : State) (op : ShiftOp) (z : SizeBW) (m : MemOp) :
    ∃ v c, ShiftResult op 1 (s.memRead z.size.bytes (s.ea m)) s.flags.c v c ∧
      (s.shiftMem op z m).memRead z.size.bytes (s.ea m) = v ∧ ShiftFlags v c (s.shiftMem op z m).flags ∧
      SameMemoryBut s (s.shiftMem op z m) z.size.bytes (s.ea m) ∧ MovedRegs s (s.shiftMem op z m) m ∧
      (s.shiftMem op z m).pc = s.pc ∧ SameRest s (s.shiftMem op z m) := by
  obtain ⟨d, hd⟩ : ∃ d, d = shiftStep op (s.memRead z.size.bytes (s.ea m), s.flags.c) := ⟨_, rfl⟩
  have hresult : ShiftResult op 1 (s.memRead z.size.bytes (s.ea m)) s.flags.c d.1 d.2 :=
    hd ▸ shiftResult_shiftSteps (size_bits_pos z.size) op Nat.one_pos (s.memRead z.size.bytes (s.ea m)) s.flags.c
  have ht : s.shiftMem op z m = (({ s.preStep m with flags := shiftFlags d.1 d.2 (s.preStep m).freeBit } :
      State).memWrite z.size.bytes (s.ea m) d.1).postStep m := by
    simp only [hd, State.shiftMem, State.noteRead_eq, State.memRead_preStep]
  obtain ⟨hval, hbut, hmoved, hpc, hrest⟩ := store_spec (s := s)
    (t := { s.preStep m with flags := shiftFlags d.1 d.2 (s.preStep m).freeBit }) m z.size.bytes d.1
    (by cases z <;> decide) (State.reg_with_flags _ _) (by simp) (by simp) (by simp) (by constructor <;> simp)
  rw [ht]
  refine ⟨d.1, d.2, hresult, hval, ?_, hbut, hmoved, hpc, hrest⟩
  simpa using shiftFlags_spec d.1 d.2 (s.preStep m).freeBit

/-! ## Digit rotates -/

/-- The two nibbles of a byte, put together. -/
theorem toNat_append_nibbles (x y : BitVec 4) : (x ++ y : Byte).toNat = x.toNat * 16 + y.toNat := by
  revert x y; decide

theorem toNat_digitRotate (left : Bool) (a m : Byte) :
    if left then (digitRotate left a m).1.toNat = a.toNat / 16 * 16 + m.toNat / 16 ∧
      (digitRotate left a m).2.toNat = m.toNat % 16 * 16 + a.toNat % 16
    else (digitRotate left a m).1.toNat = a.toNat / 16 * 16 + m.toNat % 16 ∧
      (digitRotate left a m).2.toNat = a.toNat % 16 * 16 + m.toNat / 16 := by
  have hlow (b : Byte) : (b.extractLsb' 0 4).toNat = b.toNat % 16 := by rw [BitVec.extractLsb'_toNat]; rfl
  have hhigh (b : Byte) : (b.extractLsb' 4 4).toNat = b.toNat / 16 := by
    rw [BitVec.extractLsb'_toNat, Nat.shiftRight_eq_div_pow]
    omega
  cases left <;> simp [digitRotate, toNat_append_nibbles, hlow, hhigh]

theorem digitFlags_spec (a : Byte) (f : Flags) : ShiftFlags a f.c (digitFlags a f) where
  s := rfl
  z := by simp [digitFlags]
  h := rfl
  v := fun _ => parityEven_iff a
  n := rfl
  c := rfl

/-- What RLD and RRD leave (R410, R411). -/
theorem State.digitRotateMem_spec (s : State) (left : Bool) (m : MemOp) : ∃ d : Byte × Byte,
    (preReg s.rfp m ≠ some (aLoc s.rfp).g →
      d = digitRotate left (s.readLoc (aLoc s.rfp)) (s.memRead 1 (s.ea m))) ∧
    (autoReg s.rfp m ≠ some (aLoc s.rfp).g → (s.digitRotateMem left m).readLoc (aLoc s.rfp) = d.1) ∧
    (s.digitRotateMem left m).memRead 1 (s.ea m) = d.2 ∧ ShiftFlags d.1 s.flags.c (s.digitRotateMem left m).flags ∧
    SameMemoryBut s (s.digitRotateMem left m) 1 (s.ea m) ∧ MovedRegsBut s (s.digitRotateMem left m) m (aLoc s.rfp) ∧
    (s.digitRotateMem left m).pc = s.pc ∧ SameRest s (s.digitRotateMem left m) := by
  obtain ⟨d, hd⟩ : ∃ d, d = digitRotate left ((s.preStep m).dataLoc m (aLoc s.rfp)) (s.memRead 1 (s.ea m)) := ⟨_, rfl⟩
  have ht : s.digitRotateMem left m =
      (({ ((s.preStep m).dataDrawn m (aLoc s.rfp)).memWrite 1 (s.ea m) d.2 with
        flags := digitFlags d.1 s.flags } : State).writeLoc (aLoc s.rfp) d.1).postStepInto m (aLoc s.rfp) := by
    simp only [hd, State.digitRotateMem, State.noteRead_eq, State.memRead_preStep]
  have hmem : (s.digitRotateMem left m).mem = (((s.preStep m).dataDrawn m (aLoc s.rfp)).memWrite 1 (s.ea m) d.2).mem := by
    rw [ht]
    simp
  refine ⟨d, fun h => ?_, fun h => ?_, ?_, ?_, fun a ha => ?_, ?_, ?_, ?_⟩
  · rw [hd, s.dataLoc_preStep m _ h]
  · rw [ht]
    exact (State.readLoc_postStepInto _ _ _ (by simpa using h)).trans (State.readLoc_writeLoc_same _ _ _)
  · rw [State.memRead_eq_of_mem hmem, State.memRead_memWrite_same _ _ _ _ (by decide)]
  · rw [ht]
    simpa using digitFlags_spec d.1 s.flags
  · rw [State.readByte_of_mem hmem, State.readByte_memWrite_other _ _ _ _ _ ha]
    exact State.readByte_of_mem (by simp) a
  · rw [ht]
    exact State.movedRegsBut_postStepInto m _ _ (by simp) fun g => by
      rw [State.reg_with_flags, State.reg_memWrite, State.reg_dataDrawn]
  · rw [ht]
    simp
  · rw [ht]
    constructor <;> simp

theorem exec_digitRotate (left : Bool) (m : MemOp) (s : State) :
    exec (if left then .rld m else .rrd m) s = .next (s.digitRotateMem left m) := by
  cases left <;> rfl

/-- Settles O51: one step of a shift on memory, and the digit rotates, which write A and the byte. -/
theorem shiftMemory : Obligations.ShiftMemory := by
  intro s
  refine ⟨fun op z m => ?_, fun left m => ?_⟩
  · obtain ⟨v, c, h⟩ := s.shiftMem_spec op z m
    exact ⟨_, v, c, exec_shiftMem op z m s, h⟩
  · obtain ⟨d, hd, hrest⟩ := s.digitRotateMem_spec left m
    exact ⟨_, d.1, d.2, exec_digitRotate left m s, fun h => hd h ▸ toNat_digitRotate left _ _, hrest⟩

end Sys2Proof.Machine
end

section
/-! SUPPORT. Proofs of the statements about block transfers (R205 to R209, R215). -/

namespace Sys2Proof.Machine

theorem transferExec (z : SizeBW) (p : BlockPair) (up : Bool) (s : State) :
    exec (if up then .ldi z p else .ldd z p) s = .next (s.blockOnce z p up) := by
  cases up <;> rfl

theorem transferRepeatExec (z : SizeBW) (p : BlockPair) (up : Bool) (s : State) :
    exec (if up then .ldir z p else .lddr z p) s = .next (blockRepeat z p up s.itemCount s) := by
  cases up <;> rfl

/-- Settles O31: one item, and then the flags. -/
theorem blockTransferOnce : Obligations.BlockTransferOnce := by
  intro s z p up
  have d := s.blockItem_done z p up
  have hf : (s.blockOnce z p up).flags =
      { s.flags with h := false, v := (s.blockOnce z p up).bc != 0, n := false } := by
    show transferFlags (s.blockItem z p up).flags _ = _
    rw [d.flags]
    rfl
  refine ⟨_, transferExec z p up s, (State.memRead_with_flags _ _ _ _).trans d.copied, d.memory, ?_, ?_, ?_,
    fun g k h1 h2 h3 => ?_, hf, d.pc, ?_⟩
  · rw [← movePointer_eq, ← d.dst]
    exact State.reg_with_flags _ _ _
  · rw [← movePointer_eq, ← d.src]
    exact State.reg_with_flags _ _ _
  · rw [← d.bc]
    exact State.bc_with_flags _ _
  · rw [← d.regs g k h1 h2 h3]
    exact State.regByte_of_reg (State.reg_with_flags _ _ _) k
  · exact d.rest.trans (by constructor <;> simp [State.blockOnce])

/-! ## Many items -/

/-- `k` items of a block transfer, one after the other. -/
def State.blockItems (z : SizeBW) (p : BlockPair) (up : Bool) : Nat → State → State
  | 0, s => s
  | k + 1, s => State.blockItems z p up k (s.blockItem z p up)

/-- With nothing presented, the repeated instruction is its items and then the flags (R207). -/
theorem blockRepeat_of_nil (z : SizeBW) (p : BlockPair) (up : Bool) (k : Nat) (s : State) (hs : s.host = []) :
    blockRepeat z p up k s =
      { State.blockItems z p up k s with flags := transferFlags (State.blockItems z p up k s).flags false } := by
  induction k generalizing s with
  | zero => rfl
  | succ k ih =>
    have hs1 : (s.blockItem z p up).host = [] := (s.blockItem_done z p up).rest.host.trans hs
    cases k with
    | zero => rfl
    | succ k =>
      rw [blockRepeat, hs1]
      exact ih _ hs1

/-- What `k` items lead to. -/
structure BlockItemsDone (s t : State) (z : SizeBW) (p : BlockPair) (up : Bool) (k : Nat) : Prop where
  dst : t.reg (blockDst s.rfp p) = pointerAfter up z.size.bytes k (s.reg (blockDst s.rfp p))
  src : t.reg (blockSrc s.rfp p) = pointerAfter up z.size.bytes k (s.reg (blockSrc s.rfp p))
  bc : t.bc = s.bc - BitVec.ofNat 16 k
  regs : ∀ g i, g ≠ blockDst s.rfp p → g ≠ blockSrc s.rfp p → ¬ (bcLoc s.rfp).covers g i →
    t.regByte g i = s.regByte g i
  flags : t.flags = s.flags
  pc : t.pc = s.pc
  rest : SameRest s t
  memory : ∀ a, (∀ j < k, ∀ i < z.size.bytes,
      a ≠ busAddr (pointerAfter up z.size.bytes j (s.reg (blockDst s.rfp p)) + BitVec.ofNat 32 i)) →
    t.readByte a = s.readByte a
  copied : k ≤ 65536 →
    (∀ j < k, ∀ j' < k, ∀ i < z.size.bytes, ∀ i' < z.size.bytes,
      busAddr (pointerAfter up z.size.bytes j (s.reg (blockDst s.rfp p)) + BitVec.ofNat 32 i) ≠
      busAddr (pointerAfter up z.size.bytes j' (s.reg (blockSrc s.rfp p)) + BitVec.ofNat 32 i')) →
    ∀ j < k, t.memRead z.size.bytes (pointerAfter up z.size.bytes j (s.reg (blockDst s.rfp p))) =
      s.memRead z.size.bytes (pointerAfter up z.size.bytes j (s.reg (blockSrc s.rfp p)))

/-- No item done. -/
theorem BlockItemsDone.zero (s : State) (z : SizeBW) (p : BlockPair) (up : Bool) : BlockItemsDone s s z p up 0 where
  dst := by simp
  src := by simp
  bc := by simp
  regs := fun _ _ _ _ _ => rfl
  flags := rfl
  pc := rfl
  rest := .refl s
  memory := fun _ _ => rfl
  copied := fun _ _ j hj => absurd hj (Nat.not_lt_zero j)

/-- The bytes of one item are not those of another (R205). -/
theorem item_apart (z : SizeBW) (up : Bool) (p : Long) {j j' i i' : Nat} (hj : j < 65536) (hj' : j' < 65536)
    (hi : i < z.size.bytes) (hi' : i' < z.size.bytes) (h : j ≠ j') :
    busAddr (pointerAfter up z.size.bytes j p + BitVec.ofNat 32 i) ≠
      busAddr (pointerAfter up z.size.bytes j' p + BitVec.ofNat 32 i') := by
  have hb : z.size.bytes = 1 ∨ z.size.bytes = 2 := by cases z <;> decide
  exact busAddr_pointerAfter_ne up _ p j j' i i' (by rcases hb with e | e <;> rw [e] <;> omega)
    (by rcases hb with e | e <;> rw [e] <;> omega) hi hi' h

/-- One item and then `k` more. -/
theorem BlockItemsDone.succ {s s1 t : State} {z : SizeBW} {p : BlockPair} {up : Bool} {k : Nat}
    (d : BlockItemDone s s1 z p up) (ds : BlockItemsDone s1 t z p up k) : BlockItemsDone s t z p up (k + 1) := by
  obtain ⟨dst, src, bc, regs, flags, pc, rest, memory, copied⟩ := ds
  simp only [d.rest.rfp, d.dst, d.src, pointerAfter_move] at dst src regs memory copied
  refine ⟨dst, src, ?_, fun g i h1 h2 h3 => (regs g i h1 h2 h3).trans (d.regs g i h1 h2 h3), flags.trans d.flags,
    pc.trans d.pc, d.rest.trans rest, fun a ha => ?_, fun hk hapart j hj => ?_⟩
  · rw [bc, d.bc, Nat.add_comm k 1, BitVec.ofNat_add]
    exact sub_sub s.bc 1 _
  · refine (memory a fun j hj i hi => ha (j + 1) (by omega) i hi).trans (d.memory a fun i hi => ?_)
    simpa using ha 0 (by omega) i hi
  · cases j with
    | zero =>
      rw [pointerAfter_zero, pointerAfter_zero, ← d.copied]
      refine State.memRead_congr _ _ fun i hi => memory _ fun j' hj' i' hi' => ?_
      simpa using item_apart z up (s.reg (blockDst s.rfp p)) (show 0 < 65536 by omega) (show j' + 1 < 65536 by omega) hi
        hi' (Nat.succ_ne_zero j').symm
    | succ j =>
      refine (copied (by omega) (fun j hj j' hj' => hapart (j + 1) (by omega) (j' + 1) (by omega)) j (by omega)).trans ?_
      refine State.memRead_congr _ _ fun i hi => d.memory _ fun i' hi' => ?_
      simpa using (hapart 0 (by omega) (j + 1) (by omega) i' hi' i hi).symm

theorem State.blockItems_done (z : SizeBW) (p : BlockPair) (up : Bool) (k : Nat) (s : State) :
    BlockItemsDone s (State.blockItems z p up k s) z p up k := by
  induction k generalizing s with
  | zero => exact .zero s z p up
  | succ k ih => exact .succ (s.blockItem_done z p up) (ih _)

/-! ## The flags do not enter an item -/

theorem State.memWrite_with_flags (s : State) (f : Flags) (nb : Nat) (ea : Long) (v : BitVec (8 * nb)) :
    ({ s with flags := f } : State).memWrite nb ea v = { s.memWrite nb ea v with flags := f } := by
  induction nb generalizing s ea with
  | zero => rfl
  | succ nb ih => exact ih (s.writeByte (busAddr ea) (v.setWidth 8)) (ea + 1) (v.extractLsb' 8 (8 * nb))

theorem State.setReg_with_flags (s : State) (f : Flags) (g : GReg) (v : Long) :
    ({ s with flags := f } : State).setReg g v = { s.setReg g v with flags := f } := by
  cases g <;> rfl

theorem State.writeLoc_with_flags {sz : Size} (s : State) (f : Flags) (l : Loc sz) (v : BitVec sz.bits) :
    ({ s with flags := f } : State).writeLoc l v = { s.writeLoc l v with flags := f } := by
  rw [State.writeLoc, State.reg_with_flags, State.setReg_with_flags, State.writeLoc]

theorem State.blockItem_with_flags (s : State) (f : Flags) (z : SizeBW) (p : BlockPair) (up : Bool) :
    ({ s with flags := f } : State).blockItem z p up = { s.blockItem z p up with flags := f } := by
  simp only [State.blockItem, State.countDown, State.noteRead_eq, State.reg_with_flags, State.memRead_with_flags,
    State.memWrite_with_flags, State.setReg_with_flags, State.writeLoc_with_flags, State.bc_with_flags]

theorem State.blockItems_with_flags (z : SizeBW) (p : BlockPair) (up : Bool) (k : Nat) (s : State) (f : Flags) :
    State.blockItems z p up k { s with flags := f } = { State.blockItems z p up k s with flags := f } := by
  induction k generalizing s with
  | zero => rfl
  | succ k ih => rw [State.blockItems, State.blockItem_with_flags, ih, State.blockItems]

/-! ## The count -/

theorem State.itemCount_eq_blockCount (s : State) : s.itemCount = s.blockCount := by
  simp only [State.itemCount, State.blockCount, BitVec.toNat_eq]
  rfl

theorem State.blockCount_le (s : State) : s.blockCount ≤ 65536 := by
  have := s.bc.isLt
  unfold State.blockCount
  split <;> omega

theorem State.bc_sub_blockCount (s : State) : s.bc - BitVec.ofNat 16 s.blockCount = 0 := by
  unfold State.blockCount
  split
  · next h => rw [BitVec.eq_of_toNat_eq (y := 0#16) h]; rfl
  · simp

/-- With more than one item to do, there is one fewer after the first. -/
theorem State.itemCount_succ {s u : State} (h : s.bc ≠ 1) (hu : u.bc = s.bc - 1) :
    s.itemCount = u.itemCount + 1 ∧ 0 < u.itemCount := by
  have hlt := s.bc.isLt
  have h1 : s.bc.toNat ≠ 1 := fun e => h (BitVec.eq_of_toNat_eq e)
  have hbc : u.bc.toNat = (65535 + s.bc.toNat) % 65536 := by rw [hu, BitVec.toNat_sub]; rfl
  rw [State.itemCount_eq_blockCount, State.itemCount_eq_blockCount, State.blockCount, State.blockCount]
  split <;> split <;> omega

/-- LDI or LDD in front of the repeated instruction only sets flags that the end sets again. -/
theorem blockRepeat_blockOnce (z : SizeBW) (p : BlockPair) (up : Bool) (k : Nat) {s : State} (hs : s.host = []) :
    blockRepeat z p up k (s.blockOnce z p up) =
      { State.blockItems z p up k (s.blockItem z p up) with flags := transferFlags s.flags false } := by
  have d := s.blockItem_done z p up
  have hflags := (State.blockItems_done z p up k (s.blockOnce z p up)).flags
  have hitems := State.blockItems_with_flags z p up k (s.blockItem z p up) (s.blockOnce z p up).flags
  refine (blockRepeat_of_nil z p up k (s.blockOnce z p up) (d.rest.host.trans hs)).trans ?_
  rw [hflags, show State.blockItems z p up k (s.blockOnce z p up) = _ from hitems]
  show ({ State.blockItems z p up k (s.blockItem z p up) with
    flags := transferFlags (transferFlags (s.blockItem z p up).flags _) false } : State) = _
  rw [d.flags]
  rfl

/-- Settles O32: all the items, and then the flags. -/
theorem blockTransferRepeat : Obligations.BlockTransferRepeat := by
  intro s z p up hs
  have hexec : exec (if up then .ldir z p else .lddr z p) s = .next { State.blockItems z p up s.blockCount s with
      flags := transferFlags (State.blockItems z p up s.blockCount s).flags false } := by
    rw [transferRepeatExec, s.itemCount_eq_blockCount, blockRepeat_of_nil _ _ _ _ _ hs]
  have d := State.blockItems_done z p up s.blockCount s
  refine ⟨_, hexec, ?_, ?_, ?_, fun g k h1 h2 h3 => ?_, ?_, d.pc, ?_, d.memory, fun hapart j hj => ?_, fun u hbc hu => ?_⟩
  · rw [State.reg_with_flags, d.dst]
  · rw [State.reg_with_flags, d.src]
  · rw [State.bc_with_flags, d.bc, s.bc_sub_blockCount]
  · rw [← d.regs g k h1 h2 h3]
    exact State.regByte_of_reg (State.reg_with_flags _ _ _) k
  · rw [d.flags]
    rfl
  · exact d.rest.trans (by constructor <;> rfl)
  · rw [State.memRead_with_flags, d.copied s.blockCount_le hapart j hj]
  · obtain rfl : s.blockOnce z p up = u := Host.Outcome.next.inj ((transferExec z p up s).symm.trans hu)
    have d1 := s.blockItem_done z p up
    have hu1 : (s.blockOnce z p up).bc = s.bc - 1 := (State.bc_with_flags _ _).trans d1.bc
    rw [transferRepeatExec, blockRepeat_blockOnce z p up _ hs, d.flags, ← s.itemCount_eq_blockCount,
      (State.itemCount_succ hbc hu1).1, State.blockItems]

/-! ## An interruption after the first item -/

/-- The bits of SR that do not hold H, V and N come from the flags S, Z and C (R31, R35). -/
theorem Flags.toByte_masked {f f' : Flags} (hs : f'.s = f.s) (hz : f'.z = f.z) (hc : f'.c = f.c) :
    f'.toByte &&& 0xE9#8 = f.toByte &&& 0xE9#8 := by
  obtain ⟨s, z, h, v, n, c⟩ := f
  obtain ⟨s', z', h', v', n', c'⟩ := f'
  subst hs hz hc
  revert s' z' c' h v n h' v' n'
  decide

theorem State.sr_masked {s t : State} (hi : t.iff = s.iff) (hr : t.rfp = s.rfp) (hs : t.flags.s = s.flags.s)
    (hz : t.flags.z = s.flags.z) (hc : t.flags.c = s.flags.c) : t.sr &&& 0xFFE9 = s.sr &&& 0xFFE9 := by
  have hmask : (0xFFE9 : Word) = (0xFF#8 ++ 0xE9#8 : Word) := by decide
  rw [State.sr_eq, State.sr_eq, hmask, BitVec.and_append, BitVec.and_append, hi, hr, Flags.toByte_masked hs hz hc]

/-- The state from which the interrupt is entered: one item is done, the request is used up, and H, V and N are free
(R215). -/
def State.interruptedBlock (s : State) (z : SizeBW) (p : BlockPair) (up : Bool) (rest : List HostEvent) : State :=
  ({ s.blockItem z p up with host := rest } : State).freeBlockFlags

/-- A request that is accepted after the first of several items enters the interrupt (R215). -/
theorem blockRepeat_of_irq {s : State} (z : SizeBW) (p : BlockPair) (up : Bool) {level : IrqLevel} {entry : BitVec 6}
    {rest : List HostEvent} (hhost : s.host = .irq level entry :: rest) (hacc : s.accepts level = true) (k : Nat) :
    blockRepeat z p up (k + 2) s = (s.interruptedBlock z p up rest).enterInterrupt (s.pc - 2) level entry := by
  have d := s.blockItem_done z p up
  have hacc1 : (s.blockItem z p up).accepts level = true := by
    rw [State.accepts, d.rest.iff, d.rest.comparing]
    exact hacc
  rw [blockRepeat, d.rest.host.trans hhost]
  dsimp only
  rw [if_pos hacc1, ← d.pc]
  rfl

/-- A register outside the pointers and BC is as it was after an item. -/
theorem State.reg_blockItem (s : State) (z : SizeBW) (p : BlockPair) (up : Bool) {g : GReg} (hd : g ≠ blockDst s.rfp p)
    (hs : g ≠ blockSrc s.rfp p) (hb : g ≠ (bcLoc s.rfp).g) : (s.blockItem z p up).reg g = s.reg g := by
  have h := State.readLoc_eq_of_bytes (sz := .l) ⟨g, 0⟩ fun k _ =>
    (s.blockItem_done z p up).regs g k hd hs fun hc => hb hc.1
  rwa [State.readLoc_long, State.readLoc_long] at h

/-- Settles O33: the first item, and then the entry of the interrupt from the state it left. -/
theorem blockTransferInterrupted : Obligations.BlockTransferInterrupted := by
  intro s z p up level entry rest hhost hlevel hcomp hbc
  have d := s.blockItem_done z p up
  obtain ⟨k, hk⟩ : ∃ k, s.itemCount = k + 2 := by
    obtain ⟨h1, h2⟩ := State.itemCount_succ hbc d.bc
    exact ⟨(s.blockItem z p up).itemCount - 1, by omega⟩
  have hexec := transferRepeatExec z p up s
  rw [hk, blockRepeat_of_irq z p up hhost ((State.accepts_iff _ _).2 ⟨hcomp, hlevel⟩)] at hexec
  obtain ⟨v, hv⟩ : ∃ v, v = s.interruptedBlock z p up rest := ⟨_, rfl⟩
  have hreg : ∀ g, v.reg g = (s.blockItem z p up).reg g := fun g => by
    rw [hv]
    exact State.reg_eq_of_fields rfl rfl rfl rfl rfl g
  have hrfp : v.rfp = s.rfp := by rw [hv]; exact d.rest.rfp
  have hbcv : v.bc = s.bc - 1 := by
    rw [← d.bc, State.bc, State.bc, hrfp, d.rest.rfp]
    exact State.readLoc_eq_of_reg _ (hreg _)
  have hxsp : v.xsp = s.xsp := (hreg .xsp).trans (s.reg_blockItem z p up (blockDst_ne_xsp _ _).symm
    (blockSrc_ne_xsp _ _).symm (by rw [bcLoc_g]; exact nofun))
  have hmem : v.mem = (s.blockItem z p up).mem := by rw [hv]; rfl
  have hsr : v.sr &&& 0xFFE9 = s.sr &&& 0xFFE9 := by
    refine State.sr_masked (by rw [hv]; exact d.rest.iff) hrfp ?_ ?_ ?_ <;> rw [hv, ← d.flags] <;> rfl
  rw [← hv] at hexec
  obtain ⟨txsp, tsr, tret, tmem, tregs, tiff, tnest, -, tpc, thalt, tcomp, thost, trfp, tflags, talt, tdmas, tdmad, tdmac,
    tdmam⟩ := v.enterInterrupt_spec (s.pc - 2) level entry
  rw [hxsp] at txsp tsr tret tmem
  have treg : ∀ g ≠ .xsp, (v.enterInterrupt (s.pc - 2) level entry).reg g = (s.blockItem z p up).reg g :=
    fun g hg => (tregs g (by simpa using hg)).trans (hreg g)
  have tbyte : ∀ a, (∀ i < 6, a ≠ busAddr (s.xsp - 6 + BitVec.ofNat 32 i)) →
      (v.enterInterrupt (s.pc - 2) level entry).readByte a = (s.blockItem z p up).readByte a :=
    fun a ha => (tmem a ha).trans (State.readByte_of_mem hmem a)
  refine ⟨_, hexec, ?_, ?_, ?_, txsp, tret, tsr ▸ hsr, tiff, ?_, tpc, ?_, trfp.trans hrfp, ?_, ?_, ?_, ?_, ?_, ?_, ?_, ?_,
    thalt, ?_, fun g j hx h1 h2 h3 => ?_, fun i hi ha => ?_, fun a h1 h2 => ?_⟩
  · rw [treg _ (blockDst_ne_xsp _ _), d.dst, movePointer_eq]
  · rw [treg _ (blockSrc_ne_xsp _ _), d.src, movePointer_eq]
  · rw [← hbcv, State.bc, State.bc, trfp]
    exact State.readLoc_eq_of_reg _ (tregs _ (by rw [bcLoc_g]; simp))
  · rw [tnest, hv]; exact congrArg (· + 1) d.rest.intnest
  · rw [thost, hv]; rfl
  · rw [tflags, ← d.flags, hv]; rfl
  · rw [tflags, ← d.flags, hv]; rfl
  · rw [tflags, ← d.flags, hv]; rfl
  · rw [talt, ← d.rest.flagsAlt, hv]; rfl
  · rw [tdmas, ← d.rest.dmas, hv]; rfl
  · rw [tdmad, ← d.rest.dmad, hv]; rfl
  · rw [tdmac, ← d.rest.dmac, hv]; rfl
  · rw [tdmam, ← d.rest.dmam, hv]; rfl
  · rw [tcomp, hv]; exact d.rest.comparing.trans hcomp
  · exact (State.regByte_of_reg (treg g hx) j).trans (d.regs g j h1 h2 h3)
  · rw [tbyte _ ha]
    rw [← State.extract_memRead _ _ _ _ hi, ← State.extract_memRead _ _ _ _ hi, d.copied]
  · rw [tbyte a h2, d.memory a h1]

end Sys2Proof.Machine
end

section
/-! SUPPORT. Proofs of the statements about block compares (R210 to R214). -/

namespace Sys2Proof.Machine

/-! ## BC and the registers of a block compare -/

/-- BC is the lower half of XBC (R24). -/
theorem State.bc_eq (s : State) : s.bc = (s.reg (curLong s.rfp 1)).setWidth 16 :=
  (BitVec.setWidth_eq_extractLsb' (by decide)).symm

theorem curLong_eq_bc_iff (rfp : BitVec 2) (R : BitVec 3) : curLong rfp R = (bcLoc rfp).g ↔ R = 1 := by
  revert rfp R; decide

theorem curLong_injective (rfp : BitVec 2) (R R' : BitVec 3) (h : curLong rfp R = curLong rfp R') : R = R' := by
  revert rfp R R'; decide

/-- The lower half of a register replaced. -/
theorem insertBits_low (p : Long) (v : Word) : insertBits p 0 v = p.extractLsb' 16 16 ++ v := by
  apply BitVec.eq_of_getLsbD_eq
  intro i hi
  rw [getLsbD_insertBits, BitVec.getLsbD_append, BitVec.getLsbD_extractLsb']
  by_cases h : i < 16
  · simp [h, hi]
  · simp [h, show 16 + (i - 16) = i by omega, show i - 16 < 16 by omega]

/-! ## One item -/

/-- What one item of a block compare leads to. -/
structure CompareItemDone (s t : State) (z : SizeBW) (R : BitVec 3) (up : Bool) : Prop where
  pointer : t.reg (curLong s.rfp R) = comparePointerAfter R up z.size.bytes 1 (s.reg (curLong s.rfp R))
  bc : R ≠ 1 → t.bc = s.bc - 1
  regs : ∀ g k, g ≠ curLong s.rfp R → ¬ (bcLoc s.rfp).covers g k → t.regByte g k = s.regByte g k
  flags : t.flags = compareFlags (s.readLoc (compareLoc s.rfp z))
    (s.memRead z.size.bytes (s.reg (curLong s.rfp R))) (t.bc != 0) s.flags
  mem : t.mem = s.mem
  written : t.written = s.written
  pc : t.pc = s.pc
  rest : SameRest s t

/-- An item is the move of the pointer, the count, and the flags (R211). -/
theorem State.compareItem_eq (s : State) (z : SizeBW) (R : BitVec 3) (up : Bool) :
    ∃ f, s.compareItem z R up = { (s.setReg (curLong s.rfp R)
      (movePointer up z.size.bytes (s.reg (curLong s.rfp R)))).countDown with flags := f } := by
  simp only [State.compareItem, State.noteRead_eq]
  exact ⟨_, rfl⟩

theorem State.compareItem_flags (s : State) (z : SizeBW) (R : BitVec 3) (up : Bool) :
    (s.compareItem z R up).flags = compareFlags (s.readLoc (compareLoc s.rfp z))
      (s.memRead z.size.bytes (s.reg (curLong s.rfp R))) ((s.compareItem z R up).bc != 0) s.flags := by
  simp only [State.compareItem, State.noteRead_eq, State.bc_with_flags]
  simp [State.countDown]

theorem comparePointerAfter_one_of_ne {R : BitVec 3} (hR : R ≠ 1) (up : Bool) (nb : Nat) (p : Long) :
    comparePointerAfter R up nb 1 p = pointerAfter up nb 1 p := if_neg hR

theorem comparePointerAfter_one_bc (up : Bool) (nb : Nat) (p : Long) :
    comparePointerAfter 1 up nb 1 p = countedPointer up nb p := by simp [comparePointerAfter]

/-- The registers after the move of the pointer and the count, the pointer being XBC or not (R210). -/
theorem State.reg_countDown_setReg (s : State) (R : BitVec 3) (up : Bool) (nb : Nat) :
    let u := (s.setReg (curLong s.rfp R) (movePointer up nb (s.reg (curLong s.rfp R)))).countDown
    u.reg (curLong s.rfp R) = comparePointerAfter R up nb 1 (s.reg (curLong s.rfp R)) ∧
      (R ≠ 1 → u.bc = s.bc - 1) ∧
      ∀ g k, g ≠ curLong s.rfp R → ¬ (bcLoc s.rfp).covers g k → u.regByte g k = s.regByte g k := by
  intro u
  obtain ⟨s1, hs1⟩ : ∃ s1, s1 = s.setReg (curLong s.rfp R) (movePointer up nb (s.reg (curLong s.rfp R))) := ⟨_, rfl⟩
  have hrfp : s1.rfp = s.rfp := by rw [hs1, State.setReg_rfp]
  have hptr : s1.reg (curLong s.rfp R) = pointerAfter up nb 1 (s.reg (curLong s.rfp R)) := by
    rw [hs1, State.reg_setReg_same, movePointer_eq]
  have hu : u = s1.writeLoc (bcLoc s.rfp) (s1.bc - 1) := by rw [← hrfp, hs1]; rfl
  refine ⟨?_, fun hR => ?_, fun g k hg hb => ?_⟩
  · by_cases hR : R = 1
    · subst hR
      have hbc : s1.bc = (s1.reg (curLong s.rfp 1)).extractLsb' 0 16 := by rw [← hrfp]; rfl
      rw [hu, State.reg_writeLoc, if_pos ((curLong_eq_bc_iff _ _).2 rfl),
         comparePointerAfter_one_bc, countedPointer, ← hptr, ← hbc]
      exact insertBits_low _ _
    · rw [hu, State.reg_writeLoc_ne _ _ _ (mt (curLong_eq_bc_iff _ _).1 hR), hptr, comparePointerAfter_one_of_ne hR]
  · have hne : (bcLoc s.rfp).g ≠ curLong s.rfp R := fun e => hR ((curLong_eq_bc_iff _ _).1 e.symm)
    have hbc : s1.bc = s.bc := by
      rw [State.bc, State.bc, hrfp]
      exact State.readLoc_eq_of_reg _ (by rw [hs1, State.reg_setReg_ne _ _ hne])
    rw [← hbc, hu, State.bc, State.writeLoc_rfp, hrfp, State.readLoc_writeLoc_same]
  · rw [hu, sameRegsBut_writeLoc s1 _ _ g k hb]
    exact State.regByte_of_reg (by rw [hs1, State.reg_setReg_ne _ _ hg]) k

/-- One item of a block compare (R211, R213). -/
theorem State.compareItem_done (s : State) (z : SizeBW) (R : BitVec 3) (up : Bool) :
    CompareItemDone s (s.compareItem z R up) z R up := by
  have hflags := s.compareItem_flags z R up
  obtain ⟨f, hf⟩ := s.compareItem_eq z R up
  obtain ⟨hptr, hbc, hregs⟩ := s.reg_countDown_setReg R up z.size.bytes
  refine ⟨?_, fun hR => ?_, fun g k hg hb => ?_, hflags, ?_, ?_, ?_, ?_⟩
  · rw [hf, State.reg_with_flags, hptr]
  · rw [hf, State.bc_with_flags, hbc hR]
  · rw [hf, ← hregs g k hg hb]
    exact State.regByte_of_reg (State.reg_with_flags _ _ _) k
  · simp [hf, State.countDown]
  · simp [hf, State.countDown]
  · simp [hf, State.countDown]
  · rw [hf]
    constructor <;> simp [State.countDown]

/-- The flags of a comparison in the words of the statements (R210). -/
theorem compareFlags_spec {n : Nat} (a b : BitVec n) (v : Bool) (f : Flags) :
    (compareFlags a b v f).s = (a - b).msb ∧ ((compareFlags a b v f).z = true ↔ a = b) ∧
      ((compareFlags a b v f).h = true ↔ a.toNat % 16 < b.toNat % 16) ∧ (compareFlags a b v f).v = v ∧
      (compareFlags a b v f).n = true ∧ (compareFlags a b v f).c = f.c := by
  refine ⟨rfl, ?_, decide_eq_true_iff, rfl, rfl, rfl⟩
  exact beq_iff_eq.trans sub_eq_zero

theorem exec_compareOnce (z : SizeBW) (R : BitVec 3) (up : Bool) (s : State) :
    exec (if up then .cpi z R else .cpd z R) s = .next (s.compareItem z R up) := by
  cases up <;> rfl

theorem exec_compareRepeat (z : SizeBW) (R : BitVec 3) (up : Bool) (s : State) :
    exec (if up then .cpir z R else .cpdr z R) s = .next (s.compareLoop z R up) := by
  cases up <;> rfl

theorem State.readLoc_curLoc_long (s : State) (rfp : BitVec 2) (R : BitVec 3) :
    s.readLoc (curLoc rfp .l R) = s.reg (curLong rfp R) := s.readLoc_long _

/-- Settles O34: one item, with the flags of its comparison. -/
theorem blockCompareOnce : Obligations.BlockCompareOnce := by
  intro s z R up
  have d := s.compareItem_done z R up
  obtain ⟨hs, hz, hh, hv, hn, hc⟩ := compareFlags_spec (s.readLoc (compareLoc s.rfp z))
    (s.memRead z.size.bytes (s.reg (curLong s.rfp R))) ((s.compareItem z R up).bc != 0) s.flags
  simp only [State.readLoc_curLoc_long]
  rw [← d.flags] at hs hz hh hv hn hc
  exact ⟨_, exec_compareOnce z R up s, d.pointer, d.bc, d.regs, hs, hz, hh, hv ▸ bne_iff_ne, hn, hc,
    .of_fields d.mem d.written, d.pc, d.rest⟩

/-! ## Many items -/

/-- `k` items of a block compare, one after the other. -/
def State.compareItems (s : State) (z : SizeBW) (R : BitVec 3) (up : Bool) (k : Nat) : State :=
  (fun s : State => s.compareItem z R up)^[k] s

theorem State.compareItems_succ (s : State) (z : SizeBW) (R : BitVec 3) (up : Bool) (k : Nat) :
    s.compareItems z R up (k + 1) = (s.compareItems z R up k).compareItem z R up :=
  Function.iterate_succ_apply' _ k s

/-- CPIR and CPDR with at most `n` items stop after the first item that ends them, or after all (R212, R214). -/
theorem compareRepeat_spec (z : SizeBW) (R : BitVec 3) (up : Bool) {n : Nat} (hn : 0 < n) (s : State) :
    ∃ k < n, compareRepeat z R up n s = s.compareItems z R up (k + 1) ∧
      (∀ j < k, (s.compareItems z R up (j + 1)).compareDone = false) ∧
      ((s.compareItems z R up (k + 1)).compareDone = true ∨ k + 1 = n) := by
  induction n generalizing s with
  | zero => exact absurd hn (Nat.lt_irrefl 0)
  | succ n ih =>
    rw [compareRepeat]
    cases hdone : (s.compareItem z R up).compareDone with
    | true => exact ⟨0, by omega, by rw [if_pos rfl]; rfl, fun j hj => absurd hj (Nat.not_lt_zero j), .inl hdone⟩
    | false =>
      rw [if_neg Bool.false_ne_true]
      cases n with
      | zero => exact ⟨0, by omega, rfl, fun j hj => absurd hj (Nat.not_lt_zero j), .inr rfl⟩
      | succ n =>
        obtain ⟨k, hk, heq, hnot, hlast⟩ := ih (Nat.succ_pos n) (s.compareItem z R up)
        refine ⟨k + 1, by omega, heq, fun j hj => ?_, hlast.imp_right fun h => by omega⟩
        cases j with
        | zero => exact hdone
        | succ j => exact hnot j (by omega)

/-- The first operand of a block compare, A or WA, before item `j` (R210). -/
def compareSource (s : State) (z : SizeBW) (R : BitVec 3) (item : Long) : BitVec z.size.bits :=
  if R = 0 then item.setWidth z.size.bits else s.readLoc (compareLoc s.rfp z)

/-- The counter of a block compare after `j` items, the pointer then being `item` (R210). -/
def compareCount (s : State) (R : BitVec 3) (j : Nat) (item : Long) : Word :=
  if R = 1 then item.setWidth 16 else s.bc - BitVec.ofNat 16 j

/-- What `j` items lead to, the pointer then being `item`. -/
structure CompareItemsDone (s t : State) (z : SizeBW) (R : BitVec 3) (j : Nat) (item : Long) : Prop where
  pointer : t.reg (curLong s.rfp R) = item
  source : t.readLoc (compareLoc s.rfp z) = compareSource s z R item
  bc : t.bc = compareCount s R j item
  regs : ∀ g k, g ≠ curLong s.rfp R → ¬ (bcLoc s.rfp).covers g k → t.regByte g k = s.regByte g k
  carry : t.flags.c = s.flags.c
  mem : t.mem = s.mem
  written : t.written = s.written
  pc : t.pc = s.pc
  rest : SameRest s t

/-- A and WA are the low bits of XWA (R24). -/
theorem State.readLoc_compareLoc (s : State) (rfp : BitVec 2) (z : SizeBW) :
    s.readLoc (compareLoc rfp z) = (s.reg (curLong rfp 0)).setWidth z.size.bits := by
  cases z <;> exact (BitVec.setWidth_eq_extractLsb' (by decide)).symm

theorem compareLoc_g (rfp : BitVec 2) (z : SizeBW) : (compareLoc rfp z).g = curLong rfp 0 := by
  cases z <;> rfl

/-- A and WA stay unless XWA is the pointer. -/
theorem compareSource_of_regs {s t : State} (z : SizeBW) {R : BitVec 3} {item : Long}
    (hptr : t.reg (curLong s.rfp R) = item)
    (hregs : ∀ g k, g ≠ curLong s.rfp R → ¬ (bcLoc s.rfp).covers g k → t.regByte g k = s.regByte g k) :
    t.readLoc (compareLoc s.rfp z) = compareSource s z R item := by
  unfold compareSource
  split
  · next hR => rw [State.readLoc_compareLoc, ← hptr, hR]
  · next hR =>
    refine State.readLoc_eq_of_bytes _ fun k _ => hregs _ k ?_ fun hc => ?_
    · rw [compareLoc_g]
      exact fun e => hR (curLong_injective _ _ _ e).symm
    · rw [compareLoc_g] at hc
      exact absurd ((curLong_eq_bc_iff s.rfp 0).1 hc.1) (by decide)

/-- BC counts items down, or is the lower half of the pointer. -/
theorem compareCount_of_bc {s t : State} {R : BitVec 3} {j : Nat} {item : Long} (hrfp : t.rfp = s.rfp)
    (hptr : t.reg (curLong s.rfp R) = item) (hbc : R ≠ 1 → t.bc = s.bc - BitVec.ofNat 16 j) :
    t.bc = compareCount s R j item := by
  unfold compareCount
  split
  · next hR => rw [State.bc_eq, hrfp, ← hptr, hR]
  · next hR => exact hbc hR

theorem State.compareItems_done (s : State) (z : SizeBW) (R : BitVec 3) (up : Bool) (j : Nat) :
    CompareItemsDone s (s.compareItems z R up j) z R j
      (comparePointerAfter R up z.size.bytes j (s.reg (curLong s.rfp R))) := by
  induction j with
  | zero =>
    exact ⟨rfl, compareSource_of_regs z rfl fun _ _ _ _ => rfl, compareCount_of_bc rfl rfl fun _ =>
      (sub_zero s.bc).symm, fun _ _ _ _ => rfl, rfl, rfl, rfl, rfl, .refl s⟩
  | succ j ih =>
    rw [State.compareItems_succ]
    obtain ⟨u, hu⟩ : ∃ u, u = s.compareItems z R up j := ⟨_, rfl⟩
    rw [← hu] at ih ⊢
    have d := u.compareItem_done z R up
    have hptr : (u.compareItem z R up).reg (curLong s.rfp R) =
        comparePointerAfter R up z.size.bytes (j + 1) (s.reg (curLong s.rfp R)) := by
      rw [← ih.rest.rfp, d.pointer, ih.rest.rfp, ih.pointer]
      rfl
    have hregs : ∀ g k, g ≠ curLong s.rfp R → ¬ (bcLoc s.rfp).covers g k →
        (u.compareItem z R up).regByte g k = s.regByte g k := fun g k hg hb =>
      (d.regs g k (ih.rest.rfp.symm ▸ hg) (ih.rest.rfp.symm ▸ hb)).trans (ih.regs g k hg hb)
    refine ⟨hptr, compareSource_of_regs z hptr hregs, compareCount_of_bc (d.rest.rfp.trans ih.rest.rfp) hptr fun hR => ?_,
      hregs, ?_, d.mem.trans ih.mem, d.written.trans ih.written, d.pc.trans ih.pc, ih.rest.trans d.rest⟩
    · rw [d.bc hR, ih.bc, compareCount, if_neg hR, BitVec.ofNat_add]
      exact sub_sub s.bc _ 1
    · rw [d.flags, ← ih.carry]
      rfl

/-- The flags after item `j` (R210). -/
theorem State.compareItems_flags (s : State) (z : SizeBW) (R : BitVec 3) (up : Bool) (j : Nat) :
    let item := comparePointerAfter R up z.size.bytes j (s.reg (curLong s.rfp R))
    let t := s.compareItems z R up (j + 1)
    t.flags.s = (compareSource s z R item - s.memRead z.size.bytes item).msb ∧
      (t.flags.z = true ↔ compareSource s z R item = s.memRead z.size.bytes item) ∧
      (t.flags.h = true ↔
        (compareSource s z R item).toNat % 16 < (s.memRead z.size.bytes item).toNat % 16) ∧
      t.flags.v = (t.bc != 0) ∧ t.flags.n = true := by
  intro item t
  have ih := s.compareItems_done z R up j
  have hflags : t.flags = compareFlags (compareSource s z R item) (s.memRead z.size.bytes item) (t.bc != 0)
      (s.compareItems z R up j).flags := by
    have d := ((s.compareItems z R up j).compareItem_done z R up).flags
    rwa [ih.rest.rfp, ih.source, ih.pointer, State.memRead_eq_of_mem ih.mem, ← State.compareItems_succ] at d
  obtain ⟨hs, hz, hh, hv, hn, -⟩ := compareFlags_spec (compareSource s z R item) (s.memRead z.size.bytes item)
    (t.bc != 0) (s.compareItems z R up j).flags
  rw [← hflags] at hs hz hh hv hn
  exact ⟨hs, hz, hh, hv, hn⟩

/-- Whether item `j` is the last: it is equal, or the counter is 0 after it (R212). -/
def LastItem (s : State) (z : SizeBW) (R : BitVec 3) (up : Bool) (j : Nat) : Prop :=
  let item := fun j => comparePointerAfter R up z.size.bytes j (s.reg (curLong s.rfp R))
  s.memRead z.size.bytes (item j) = compareSource s z R (item j) ∨ compareCount s R (j + 1) (item (j + 1)) = 0

theorem State.compareDone_iff (s : State) (z : SizeBW) (R : BitVec 3) (up : Bool) (j : Nat) :
    (s.compareItems z R up (j + 1)).compareDone = true ↔ LastItem s z R up j := by
  obtain ⟨-, hz, -, hv, -⟩ := s.compareItems_flags z R up j
  rw [State.compareDone, Bool.or_eq_true, hz, hv, (s.compareItems_done z R up (j + 1)).bc, LastItem, eq_comm]
  simp

/-- A pointer that is not XBC leaves the counter to end the search within 65536 items (R212). -/
theorem exists_lastItem (s : State) (z : SizeBW) {R : BitVec 3} (up : Bool) (hR : R ≠ 1) :
    ∃ j < 65536, LastItem s z R up j := by
  have hle := s.blockCount_le
  have hpos : 0 < s.blockCount := by
    unfold State.blockCount
    split <;> omega
  refine ⟨s.blockCount - 1, by omega, .inr ?_⟩
  rw [compareCount, if_neg hR, Nat.sub_add_cancel hpos, s.bc_sub_blockCount]

/-- What CPIR and CPDR leave: the items up to the last one, and, with none that ends them, the sign that they are under
way (R212, R214). -/
theorem State.compareLoop_spec (s : State) (z : SizeBW) (R : BitVec 3) (up : Bool) :
    ∃ k < 65536, (∀ j < k, ¬ LastItem s z R up j) ∧
      ((LastItem s z R up k ∧ s.compareLoop z R up = s.compareItems z R up (k + 1)) ∨
        ¬ LastItem s z R up k ∧ k = 65535 ∧ s.compareLoop z R up = { s.compareItems z R up (k + 1) with
          pc := (s.compareItems z R up (k + 1)).pc - 2, comparing := true }) := by
  obtain ⟨k, hk, heq, hnot, hlast⟩ := compareRepeat_spec z R up (n := 65536) (by decide) s
  refine ⟨k, hk, fun j hj h => ?_, ?_⟩
  · rw [← s.compareDone_iff, hnot j hj] at h
    exact Bool.false_ne_true h
  · unfold State.compareLoop
    rw [heq]
    dsimp only
    by_cases h : LastItem s z R up k
    · exact .inl ⟨h, if_pos ((s.compareDone_iff z R up k).2 h)⟩
    · have hdone := mt (s.compareDone_iff z R up k).1 h
      exact .inr ⟨h, by rcases hlast with e | e <;> [exact absurd e hdone; omega], if_neg hdone⟩

/-- What the end of CPIR and CPDR leaves as the last item left it. -/
structure SameButProgress (u t : State) : Prop where
  regs : ∀ g, t.reg g = u.reg g
  flags : t.flags = u.flags
  mem : t.mem = u.mem
  written : t.written = u.written
  rfp : t.rfp = u.rfp
  rest : SameRest u { t with comparing := u.comparing }

theorem SameButProgress.bc {u t : State} (h : SameButProgress u t) : t.bc = u.bc := by
  rw [State.bc, State.bc, h.rfp]
  exact State.readLoc_eq_of_reg _ (h.regs _)

theorem SameButProgress.with_progress (u : State) (p : Long) (b : Bool) :
    SameButProgress u { u with pc := p, comparing := b } :=
  ⟨fun g => State.reg_eq_of_fields rfl rfl rfl rfl rfl g, rfl, rfl, rfl, rfl, by constructor <;> rfl⟩

/-- Settles O35: the items, the flags of the last one, and the two ways to end. -/
theorem blockCompareRepeat : Obligations.BlockCompareRepeat := by
  intro s z R up
  rw [State.readLoc_curLoc_long]
  intro item src1 count last
  obtain ⟨k, hk, hnot, hend⟩ := s.compareLoop_spec z R up
  have d := s.compareItems_done z R up (k + 1)
  obtain ⟨fs, fz, fh, fv, fn⟩ := s.compareItems_flags z R up k
  have hsame : SameButProgress (s.compareItems z R up (k + 1)) (s.compareLoop z R up) := by
    rcases hend with ⟨-, h⟩ | ⟨-, -, h⟩ <;> rw [h] <;> exact .with_progress _ _ _
  rw [← hsame.flags] at fs fz fh fv fn
  refine ⟨_, k, exec_compareRepeat z R up s, hk, ?_, hsame.bc.trans d.bc, hnot, fun hlast => ?_, fun hlast => ?_,
    fz.trans eq_comm, fs, fh, ?_, fun g i hg hb => ?_, fn, hsame.flags ▸ d.carry,
    .of_fields (hsame.mem.trans d.mem) (hsame.written.trans d.written), ?_⟩
  · rw [State.readLoc_curLoc_long, hsame.regs, d.pointer]
  · rcases hend with ⟨-, h⟩ | ⟨h, -⟩
    · rw [h]
      exact ⟨d.pc, d.rest.comparing⟩
    · exact absurd hlast h
  · rcases hend with ⟨h, -⟩ | ⟨-, hk', h⟩
    · exact absurd h hlast
    · refine ⟨by_contra fun hR => ?_, hk', ?_⟩
      · obtain ⟨j, hj, hj'⟩ := exists_lastItem s z up hR
        rcases Nat.lt_or_ge j k with hjk | hjk
        · exact hnot j hjk hj'
        · exact hlast ((show j = k by omega) ▸ hj')
      · rw [h, ← d.pc]
        exact ⟨rfl, rfl⟩
  · rw [fv, hsame.bc]
    exact bne_iff_ne
  · exact (State.regByte_of_reg (hsame.regs g) i).trans (d.regs g i hg hb)
  · rw [← d.rest.comparing]
    exact d.rest.trans hsame.rest

end Sys2Proof.Machine
end

section
/-! SUPPORT. The code maps walked once (R131 to R133): what each row reads, and what it answers for a size it does not have
and for a register code that names no register. -/

namespace Sys2Proof

/-! ## Each reader fixes the bytes it reads -/

/-- Whatever `x` answers, `bytes` are its encoding and the bytes left. -/
def Reads (x : Except DecodeError (Instr × List Byte)) (bytes : List Byte) : Prop :=
  ∀ i rest, x = .ok (i, rest) → encode i ++ rest = bytes

theorem blockPair_eq_ok {m : MemOp} {p : BlockPair} : blockPair m = .ok p ↔ m = pairMode p := by
  cases m with
  | ind c =>
    revert c
    cases p <;> decide
  | _ => cases p <;> simp [blockPair, pairMode]

theorem comparePointer_eq_ok {m : MemOp} {R : BitVec 3} : comparePointer m = .ok R ↔ m = .ind R := by
  cases m <;> simp [comparePointer]

namespace Reads

theorem fail {e : DecodeError} {bytes : List Byte} : Reads (.error e) bytes := fun _ _ h => nomatch h

theorem ok {i : Instr} {rest bytes : List Byte} (h : encode i ++ rest = bytes) : Reads (.ok (i, rest)) bytes := by
  rintro i' rest' e
  obtain ⟨rfl, rfl⟩ := Prod.mk.inj (Except.ok.inj e)
  exact h

/-- The end of a row, `pre` being the bytes of its operand. -/
theorem row {i : Instr} {pre tail rest bytes : List Byte} (he : encode i = pre ++ tail) (hb : tail ++ rest = bytes) :
    Reads (.ok (i, rest)) (pre ++ bytes) :=
  ok (by rw [he, List.append_assoc, hb])

section

variable {α : Type} {bytes pre tail bs : List Byte} {op : Byte}

theorem bind {x : Except DecodeError α} {f : α → Except DecodeError (Instr × List Byte)}
    (h : ∀ a, x = .ok a → Reads (f a) bytes) : Reads (x >>= f) bytes := by
  intro i rest e
  obtain ⟨a, hx, hf⟩ := bind_eq_ok.1 e
  exact h a hx i rest hf

theorem reg {sz : Size} {raw : RawReg} {f : RegOp sz → Except DecodeError (Instr × List Byte)}
    (h : ∀ r, Reads (f r) (encodeRegOp r ++ tail)) : Reads (regOp sz raw >>= f) (raw.bytes sz ++ tail) :=
  bind fun r e => by rw [regOp_eq_ok.1 e, RegOp.bytes_raw]; exact h r

theorem dbl {z : SizeBW} {raw : RawReg} {f : DblOp z → Except DecodeError (Instr × List Byte)}
    (h : ∀ rr, Reads (f rr) (encodeDblOp rr ++ tail)) : Reads (dblOp z raw >>= f) (raw.bytes z.size ++ tail) :=
  bind fun rr e => by rw [dblOp_eq_ok.1 e, DblOp.bytes_raw]; exact h rr

theorem imm {nb : Nat} {f : BitVec (8 * nb) × List Byte → Except DecodeError (Instr × List Byte)}
    (h : ∀ v rest, Reads (f (v, rest)) (pre ++ op :: (toLE nb v ++ rest))) :
    Reads (takeLE nb bs >>= f) (pre ++ op :: bs) :=
  bind fun ⟨v, rest⟩ e => by rw [takeLE_eq_ok.1 e]; exact h v rest

theorem byte {f : Byte × List Byte → Except DecodeError (Instr × List Byte)}
    (h : ∀ b rest, Reads (f (b, rest)) (pre ++ op :: b :: rest)) : Reads (take8 bs >>= f) (pre ++ op :: bs) :=
  bind fun ⟨b, rest⟩ e => by rw [take8_eq_ok.1 e]; exact h b rest

theorem num4 {f : BitVec 4 × List Byte → Except DecodeError (Instr × List Byte)}
    (h : ∀ (num : BitVec 4) rest, Reads (f (num, rest)) (pre ++ op :: (0#4 ++ num : Byte) :: rest)) :
    Reads (takeNum4 bs >>= f) (pre ++ op :: bs) :=
  bind fun ⟨num, rest⟩ e => by rw [takeNum4_eq_ok.1 e]; exact h num rest

theorem ctrl {sz : Size} {raw : RawReg} {c : Byte} {f : CtrlReg → Except DecodeError (Instr × List Byte)}
    (h : ∀ cr : CtrlReg, Reads (f cr) (raw.bytes cr.size ++ op :: ctrlCode cr :: tail)) :
    Reads (ctrlRegOf sz c >>= f) (raw.bytes sz ++ op :: c :: tail) :=
  bind fun cr e => by
    obtain ⟨rfl, rfl⟩ := ctrlRegOf_eq_ok.1 e
    exact h cr

theorem dblCode {z : SizeBW} {hi : BitVec 5} {c : BitVec 3}
    {f : BitVec z.dblBits → Except DecodeError (Instr × List Byte)}
    (h : ∀ RR, Reads (f RR) (pre ++ opByte hi (encodeDbl z RR) :: tail)) :
    Reads (Sys2Proof.dblCode z c >>= f) (pre ++ opByte hi c :: tail) :=
  bind fun RR e => by rw [dblCode_eq_ok.1 e]; exact h RR

theorem pair {zz : BitVec 2} {m : MemOp} {f : BlockPair → Except DecodeError (Instr × List Byte)}
    (h : ∀ p, Reads (f p) (encodeMem zz (pairMode p) ++ tail)) :
    Reads (blockPair m >>= f) (encodeMem zz m ++ tail) :=
  bind fun p e => by rw [blockPair_eq_ok.1 e]; exact h p

theorem pointer {zz : BitVec 2} {m : MemOp} {f : BitVec 3 → Except DecodeError (Instr × List Byte)}
    (h : ∀ R, Reads (f R) (encodeMem zz (.ind R) ++ tail)) :
    Reads (comparePointer m >>= f) (encodeMem zz m ++ tail) :=
  bind fun R e => by rw [comparePointer_eq_ok.1 e]; exact h R

end

end Reads

/-! ## The rows of the code maps -/

theorem exists_opByte (b : Byte) : ∃ h l, b = opByte h l := ⟨hi5 b, lo3 b, (eq_opByte_iff b _ _).2 ⟨rfl, rfl⟩⟩

/-- The eight rows of a block of a code map. -/
theorem forall_lo3 {P : BitVec 3 → Prop} (h0 : P 0) (h1 : P 1) (h2 : P 2) (h3 : P 3) (h4 : P 4) (h5 : P 5) (h6 : P 6)
    (h7 : P 7) : ∀ l, P l := by
  rintro ⟨⟨n, hn⟩⟩
  interval_cases n <;> assumption

/-- The 32 blocks of a code map. -/
theorem forall_hi5 {P : BitVec 5 → Prop} (h0 : P 0) (h1 : P 1) (h2 : P 2) (h3 : P 3) (h4 : P 4) (h5 : P 5) (h6 : P 6)
    (h7 : P 7) (h8 : P 8) (h9 : P 9) (h10 : P 10) (h11 : P 11) (h12 : P 12) (h13 : P 13) (h14 : P 14) (h15 : P 15)
    (h16 : P 16) (h17 : P 17) (h18 : P 18) (h19 : P 19) (h20 : P 20) (h21 : P 21) (h22 : P 22) (h23 : P 23)
    (h24 : P 24) (h25 : P 25) (h26 : P 26) (h27 : P 27) (h28 : P 28) (h29 : P 29) (h30 : P 30) (h31 : P 31) :
    ∀ h, P h := by
  rintro ⟨⟨n, hn⟩⟩
  interval_cases n <;> assumption

/-! ## The reg class (R131) -/

open Machine in
/-- What a size that a second op code of the `reg` class does not have is answered with (R134, R140). -/
def regSizeError (op : Byte) : DecodeError :=
  if op ∈ ([0x1A, 0x1B, 0x1D, 0x1E, 0x1F, 0x3B, 0x3F] : List Byte) then .dummyOp
  else if regSizes op = [] then .undefinedOp else .size

/-- The second op codes with a double register in their lower bits (R270). -/
def hasDblCode (op : Byte) : Bool := decide (0x40 ≤ op.toNat) && decide (op.toNat ≤ 0x5F)

/-- What a register code that names no register is answered with (R111, R270). -/
def regCodeError (sz : Size) (op : Byte) : DecodeError :=
  if sz = .b ∧ 0x40 ≤ op.toNat ∧ op.toNat ≤ 0x5F ∧ op.toNat % 2 = 0 then .doubleRegister else .registerCode

/-- A row of the `reg` class under a size it has. -/
structure RegCode (sz : Size) (raw : RawReg) (op : Byte) (bs : List Byte)
    (x : Except DecodeError (Instr × List Byte)) : Prop where
  reads : Reads x (raw.bytes sz ++ op :: bs)
  code : (∀ r : RegOp sz, raw ≠ r.raw) → x = .error .registerCode

open Machine in
/-- A row of the `reg` class. -/
structure RegRow (sz : Size) (raw : RawReg) (op : Byte) (bs : List Byte)
    (x : Except DecodeError (Instr × List Byte)) : Prop where
  reads : Reads x (raw.bytes sz ++ op :: bs)
  size : sz ∉ regSizes op → x = .error (regSizeError op)
  code : sz ∈ regSizes op → op ≠ 0x2E → op ≠ 0x2F → (∀ r : RegOp sz, raw ≠ r.raw) → x = .error (regCodeError sz op)

/-- Only a register code that names no register fails, and only under its own name (R111). -/
theorem regOp_eq_error {sz : Size} {raw : RawReg} (h : ∀ r : RegOp sz, raw ≠ r.raw) :
    regOp sz raw = .error .registerCode := by
  cases hx : regOp sz raw with
  | ok r => exact absurd (regOp_eq_ok.1 hx) (h r)
  | error e =>
    cases raw with
    | short c => exact nomatch hx
    | ext code =>
      rw [regOp] at hx
      split at hx
      · exact nomatch hx
      · exact hx.symm

/-- An odd code is no multiple of 4 (R111). -/
theorem partOf_long_of_word {code : Byte} : partOf .w code = none → partOf .l code = none := by
  revert code
  decide

/-- The code of a register that is none at a size is none for the double register either (R270 (c), (d)). -/
theorem dblOp_eq_error {z : SizeBW} {raw : RawReg} (h : ∀ r : RegOp z.size, raw ≠ r.raw) :
    dblOp z raw = .error .registerCode := by
  cases raw with
  | short c => exact absurd rfl (h (.short c))
  | ext code =>
    have hnone : ∀ r, reg32Of (code.extractLsb' 2 6) = some r → partOf z.size code = none := fun r hr =>
      Option.eq_none_iff_forall_ne_some.2 fun part hp => h (.ext r part) (congrArg RawReg.ext (eq_regCode_iff.2 ⟨hr, hp⟩))
    cases hr : reg32Of (code.extractLsb' 2 6) with
    | none => simp only [dblOp, hr]
    | some r =>
      cases z with
      | b => exact nomatch hnone r hr
      | w =>
        have hl : partOf SizeBW.w.double code = none := partOf_long_of_word (hnone r hr)
        simp only [dblOp, hr, hl]

theorem error_bind {α β : Type} (e : DecodeError) (f : α → Except DecodeError β) :
    ((Except.error e : Except DecodeError α) >>= f) = .error e := rfl

namespace RegCode

variable {sz : Size} {raw : RawReg} {op : Byte} {bs : List Byte}

theorem reg {f : RegOp sz → Except DecodeError (Instr × List Byte)}
    (h : ∀ r, Reads (f r) (encodeRegOp r ++ op :: bs)) : RegCode sz raw op bs (regOp sz raw >>= f) :=
  ⟨.reg h, fun hr => by rw [regOp_eq_error hr, error_bind]⟩

theorem dbl {z : SizeBW} {f : DblOp z → Except DecodeError (Instr × List Byte)}
    (h : ∀ rr, Reads (f rr) (encodeDblOp rr ++ op :: bs)) : RegCode z.size raw op bs (dblOp z raw >>= f) :=
  ⟨.dbl h, fun hr => by rw [dblOp_eq_error hr, error_bind]⟩

end RegCode

namespace RegRow

open Machine

variable {sz : Size} {raw : RawReg} {op : Byte} {bs : List Byte}

theorem regSizeError_of_ne_nil (h : regSizes op ≠ []) : regSizeError op = .size := by
  have hdummy : ∀ b ∈ ([0x1A, 0x1B, 0x1D, 0x1E, 0x1F, 0x3B, 0x3F] : List Byte), regSizes b = [] := by decide
  rw [regSizeError, if_neg (fun hm => h (hdummy op hm)), if_neg h]

theorem regCodeError_of_not (sz : Size) (h : hasDblCode op = false) : regCodeError sz op = .registerCode :=
  if_neg fun ⟨_, h1, h2, _⟩ => by simp [hasDblCode, h1, h2] at h

theorem fail {e : DecodeError} (h : regSizes op = [] ∧ regSizeError op = e) : RegRow sz raw op bs (.error e) :=
  ⟨.fail, fun _ => by rw [h.2], fun hm => by rw [h.1] at hm; exact absurd hm List.not_mem_nil⟩

theorem all {x : Except DecodeError (Instr × List Byte)} (h : regSizes op = [.b, .w, .l] ∧ hasDblCode op = false)
    (hx : RegCode sz raw op bs x) : RegRow sz raw op bs x := by
  refine ⟨hx.reads, fun hm => absurd ?_ hm, fun _ _ _ hr => ?_⟩
  · rw [h.1]
    cases sz <;> decide
  · rw [regCodeError_of_not sz h.2]
    exact hx.code hr

theorem bw {f : SizeBW → Except DecodeError (Instr × List Byte)} (h : regSizes op = [.b, .w] ∧ hasDblCode op = false)
    (hf : ∀ z : SizeBW, RegCode z.size raw op bs (f z)) : RegRow sz raw op bs (needBW sz >>= f) := by
  refine ⟨.bind fun z e => ?_, fun hm => ?_, fun hm _ _ hr => ?_⟩
  · rw [needBW_eq_ok.1 e]
    exact (hf z).reads
  · rw [regSizeError_of_ne_nil (by rw [h.1]; exact List.cons_ne_nil _ _)]
    rw [h.1] at hm
    cases sz with
    | b => exact absurd (by decide) hm
    | w => exact absurd (by decide) hm
    | l => rfl
  · rw [regCodeError_of_not sz h.2]
    rw [h.1] at hm
    cases sz with
    | b => exact (hf .b).code hr
    | w => exact (hf .w).code hr
    | l => exact absurd hm (by decide)

theorem wl {f : SizeWL → Except DecodeError (Instr × List Byte)} (h : regSizes op = [.w, .l] ∧ hasDblCode op = false)
    (hf : ∀ z : SizeWL, RegCode z.size raw op bs (f z)) : RegRow sz raw op bs (needWL sz >>= f) := by
  refine ⟨.bind fun z e => ?_, fun hm => ?_, fun hm _ _ hr => ?_⟩
  · rw [needWL_eq_ok.1 e]
    exact (hf z).reads
  · rw [regSizeError_of_ne_nil (by rw [h.1]; exact List.cons_ne_nil _ _)]
    rw [h.1] at hm
    cases sz with
    | b => rfl
    | w => exact absurd (by decide) hm
    | l => exact absurd (by decide) hm
  · rw [regCodeError_of_not sz h.2]
    rw [h.1] at hm
    cases sz with
    | b => exact absurd hm (by decide)
    | w => exact (hf .w).code hr
    | l => exact (hf .l).code hr

theorem only {want : Size} {f : Unit → Except DecodeError (Instr × List Byte)}
    (h : regSizes op = [want] ∧ hasDblCode op = false) (hf : RegCode want raw op bs (f ())) :
    RegRow sz raw op bs (needSize want sz >>= f) := by
  refine ⟨.bind fun _ e => ?_, fun hm => ?_, fun hm _ _ hr => ?_⟩
  · rw [needSize_eq_ok.1 e]
    exact hf.reads
  · rw [h.1, List.mem_singleton] at hm
    rw [regSizeError_of_ne_nil (by rw [h.1]; exact List.cons_ne_nil _ _), needSize, if_neg hm, error_bind]
  · rw [regCodeError_of_not sz h.2]
    rw [h.1, List.mem_singleton] at hm
    subst hm
    rw [needSize, if_pos rfl]
    exact hf.code hr

theorem ctrl {x : Except DecodeError (Instr × List Byte)} (h : regSizes op = [.b, .w, .l] ∧ (op = 0x2E ∨ op = 0x2F))
    (hx : Reads x (raw.bytes sz ++ op :: bs)) : RegRow sz raw op bs x := by
  refine ⟨hx, fun hm => absurd ?_ hm, fun _ h1 h2 => absurd h.2 (not_or.2 ⟨h1, h2⟩)⟩
  rw [h.1]
  cases sz <;> decide

theorem lowBit_eq_one_iff (l : BitVec 3) : l.extractLsb' 0 1 = 1 ↔ l.toNat % 2 = 1 := by revert l; decide

/-- The rows with a double register in the lower bits of the second op code (R270). -/
theorem dblReg {h : BitVec 5} {l : BitVec 3}
    {f : (z : SizeBW) → BitVec z.dblBits → RegOp z.size → Except DecodeError (Instr × List Byte)}
    (hop : regSizes (opByte h l) = [.b, .w] ∧ 8 ≤ h.toNat ∧ h.toNat ≤ 11)
    (hf : ∀ z RR r, Reads (f z RR r) (encodeRegOp r ++ opByte h (encodeDbl z RR) :: bs)) :
    RegRow sz raw (opByte h l) bs (needBW sz >>= fun z => dblCode z l >>= fun RR => regOp z.size raw >>= f z RR) := by
  obtain ⟨hs, h8, h11⟩ := hop
  have htoNat : (opByte h l).toNat = h.toNat * 8 + l.toNat := by
    rw [opByte, BitVec.toNat_append, Nat.shiftLeft_eq, Nat.mul_comm, ← Nat.two_pow_add_eq_or_of_lt l.isLt, Nat.mul_comm]
  refine ⟨.bind fun z e => ?_, fun hm => ?_, fun hm _ _ hr => ?_⟩
  · rw [needBW_eq_ok.1 e]
    exact .dblCode fun RR => .reg fun r => hf z RR r
  · rw [regSizeError_of_ne_nil (by rw [hs]; exact List.cons_ne_nil _ _)]
    rw [hs] at hm
    cases sz with
    | b => exact absurd (by decide) hm
    | w => exact absurd (by decide) hm
    | l => rfl
  · rw [hs] at hm
    cases sz with
    | b =>
      show (dblCode .b l >>= fun RR => regOp .b raw >>= f .b RR) = _
      rw [dblCode, regCodeError, htoNat]
      by_cases hodd : l.extractLsb' 0 1 = 1
      · have hl : l.toNat % 2 = 1 := (lowBit_eq_one_iff l).1 hodd
        rw [if_pos hodd, ok_bind, regOp_eq_error hr, error_bind, if_neg (by omega)]
      · have hl : ¬ l.toNat % 2 = 1 := mt (lowBit_eq_one_iff l).2 hodd
        rw [if_neg hodd, error_bind, if_pos ⟨rfl, by omega, by omega, by omega⟩]
    | w =>
      show (regOp .w raw >>= f .w l) = _
      rw [regOp_eq_error hr, error_bind, regCodeError, if_neg (fun h => nomatch h.1)]
    | l => exact absurd hm (by decide)

end RegRow

/-! ## The rows -/

theorem reg00_row (sz : Size) (raw : RawReg) (bs : List Byte) : ∀ l : BitVec 3,
    RegRow sz raw (opByte 0 l) bs (reg00 sz raw (opByte 0 l) bs) := by
  apply forall_lo3
  · exact .fail (by decide)
  · exact .fail (by decide)
  · exact .fail (by decide)
  · exact .all (by decide) (.reg fun r => .imm fun v rest => .row rfl rfl)
  · exact .all (by decide) (.reg fun r => .row rfl rfl)
  · exact .all (by decide) (.reg fun r => .row rfl rfl)
  · exact .bw (by decide) fun z => .reg fun r => .row rfl rfl
  · exact .bw (by decide) fun z => .reg fun r => .row rfl rfl

theorem reg08_row (sz : Size) (raw : RawReg) (bs : List Byte) : ∀ l : BitVec 3,
    RegRow sz raw (opByte 1 l) bs (reg08 sz raw (opByte 1 l) bs) := by
  apply forall_lo3
  · exact .bw (by decide) fun z => .dbl fun rr => .imm fun v rest => .row rfl rfl
  · exact .bw (by decide) fun z => .dbl fun rr => .imm fun v rest => .row rfl rfl
  · exact .bw (by decide) fun z => .dbl fun rr => .imm fun v rest => .row rfl rfl
  · exact .bw (by decide) fun z => .dbl fun rr => .imm fun v rest => .row rfl rfl
  · exact .only (by decide) (.reg fun r => .imm fun v rest => .row rfl rfl)
  · exact .only (by decide) (.reg fun r => .row rfl rfl)
  · exact .only (by decide) (.reg fun r => .row rfl rfl)
  · exact .only (by decide) (.reg fun r => .row rfl rfl)

theorem reg10_row (sz : Size) (raw : RawReg) (bs : List Byte) : ∀ l : BitVec 3,
    RegRow sz raw (opByte 2 l) bs (reg10 sz raw (opByte 2 l) bs) := by
  apply forall_lo3
  · exact .only (by decide) (.reg fun r => .row rfl rfl)
  · exact .fail (by decide)
  · exact .wl (by decide) fun z => .reg fun r => .row rfl rfl
  · exact .wl (by decide) fun z => .reg fun r => .row rfl rfl
  · exact .wl (by decide) fun z => .reg fun r => .row rfl rfl
  · exact .fail (by decide)
  · exact .only (by decide) (.reg fun r => .row rfl rfl)
  · exact .fail (by decide)

theorem reg18_row (sz : Size) (raw : RawReg) (bs : List Byte) : ∀ l : BitVec 3,
    RegRow sz raw (opByte 3 l) bs (reg18 sz raw (opByte 3 l) bs) := by
  apply forall_lo3
  · exact .fail (by decide)
  · exact .only (by decide) (.dbl (z := .w) fun rr => .row rfl rfl)
  · exact .fail (by decide)
  · exact .fail (by decide)
  · exact .bw (by decide) fun z => .reg fun r => .imm fun v rest => .row rfl rfl
  · exact .fail (by decide)
  · exact .fail (by decide)
  · exact .fail (by decide)

theorem reg20_row (sz : Size) (raw : RawReg) (bs : List Byte) : ∀ l : BitVec 3,
    RegRow sz raw (opByte 4 l) bs (reg20 sz raw (opByte 4 l) bs) := by
  apply forall_lo3
  · exact .bw (by decide) fun z => .reg fun r => .num4 fun num rest => .row rfl rfl
  · exact .bw (by decide) fun z => .reg fun r => .num4 fun num rest => .row rfl rfl
  · exact .bw (by decide) fun z => .reg fun r => .num4 fun num rest => .row rfl rfl
  · exact .bw (by decide) fun z => .reg fun r => .num4 fun num rest => .row rfl rfl
  · exact .bw (by decide) fun z => .reg fun r => .num4 fun num rest => .row rfl rfl
  · exact .fail (by decide)
  · exact .fail (by decide)
  · exact .fail (by decide)

theorem reg28_row (sz : Size) (raw : RawReg) (bs : List Byte) : ∀ l : BitVec 3,
    RegRow sz raw (opByte 5 l) bs (reg28 sz raw (opByte 5 l) bs) := by
  apply forall_lo3
  · exact .bw (by decide) fun z => .reg fun r => .row rfl rfl
  · exact .bw (by decide) fun z => .reg fun r => .row rfl rfl
  · exact .bw (by decide) fun z => .reg fun r => .row rfl rfl
  · exact .bw (by decide) fun z => .reg fun r => .row rfl rfl
  · exact .bw (by decide) fun z => .reg fun r => .row rfl rfl
  · exact .fail (by decide)
  · exact .ctrl (by decide) (.byte fun c rest => .ctrl fun cr => .reg fun r => .row rfl rfl)
  · exact .ctrl (by decide) (.byte fun c rest => .ctrl fun cr => .reg fun r => .row rfl rfl)

theorem reg30_row (sz : Size) (raw : RawReg) (bs : List Byte) : ∀ l : BitVec 3,
    RegRow sz raw (opByte 6 l) bs (reg30 sz raw (opByte 6 l) bs) := by
  apply forall_lo3
  · exact .bw (by decide) fun z => .reg fun r => .num4 fun num rest => .row rfl rfl
  · exact .bw (by decide) fun z => .reg fun r => .num4 fun num rest => .row rfl rfl
  · exact .bw (by decide) fun z => .reg fun r => .num4 fun num rest => .row rfl rfl
  · exact .bw (by decide) fun z => .reg fun r => .num4 fun num rest => .row rfl rfl
  · exact .bw (by decide) fun z => .reg fun r => .num4 fun num rest => .row rfl rfl
  · exact .fail (by decide)
  · exact .fail (by decide)
  · exact .fail (by decide)

theorem reg38_row (sz : Size) (raw : RawReg) (bs : List Byte) : ∀ l : BitVec 3,
    RegRow sz raw (opByte 7 l) bs (reg38 sz raw (opByte 7 l) bs) := by
  apply forall_lo3
  · exact .only (by decide) (.reg fun r => .imm fun v rest => .row rfl rfl)
  · exact .only (by decide) (.reg fun r => .imm fun v rest => .row rfl rfl)
  · exact .only (by decide) (.reg fun r => .imm fun v rest => .row rfl rfl)
  · exact .fail (by decide)
  · exact .only (by decide) (.reg fun r => .imm fun v rest => .row rfl rfl)
  · exact .only (by decide) (.reg fun r => .imm fun v rest => .row rfl rfl)
  · exact .only (by decide) (.reg fun r => .imm fun v rest => .row rfl rfl)
  · exact .fail (by decide)

theorem regC8_row (sz : Size) (raw : RawReg) (bs : List Byte) : ∀ l : BitVec 3,
    RegRow sz raw (opByte 0x19 l) bs (regC8 sz raw (opByte 0x19 l) bs) := by
  apply forall_lo3
  · exact .all (by decide) (.reg fun r => .imm fun v rest => .row rfl rfl)
  · exact .all (by decide) (.reg fun r => .imm fun v rest => .row rfl rfl)
  · exact .all (by decide) (.reg fun r => .imm fun v rest => .row rfl rfl)
  · exact .all (by decide) (.reg fun r => .imm fun v rest => .row rfl rfl)
  · exact .all (by decide) (.reg fun r => .imm fun v rest => .row rfl rfl)
  · exact .all (by decide) (.reg fun r => .imm fun v rest => .row rfl rfl)
  · exact .all (by decide) (.reg fun r => .imm fun v rest => .row rfl rfl)
  · exact .all (by decide) (.reg fun r => .imm fun v rest => .row rfl rfl)

theorem regE8_row (sz : Size) (raw : RawReg) (bs : List Byte) : ∀ l : BitVec 3,
    RegRow sz raw (opByte 0x1D l) bs (regE8 sz raw (opByte 0x1D l) bs) := by
  apply forall_lo3
  · exact .all (by decide) (.reg fun r => .num4 fun num rest => .row rfl rfl)
  · exact .all (by decide) (.reg fun r => .num4 fun num rest => .row rfl rfl)
  · exact .all (by decide) (.reg fun r => .num4 fun num rest => .row rfl rfl)
  · exact .all (by decide) (.reg fun r => .num4 fun num rest => .row rfl rfl)
  · exact .all (by decide) (.reg fun r => .num4 fun num rest => .row rfl rfl)
  · exact .all (by decide) (.reg fun r => .num4 fun num rest => .row rfl rfl)
  · exact .all (by decide) (.reg fun r => .num4 fun num rest => .row rfl rfl)
  · exact .all (by decide) (.reg fun r => .num4 fun num rest => .row rfl rfl)

theorem regF8_row (sz : Size) (raw : RawReg) (bs : List Byte) : ∀ l : BitVec 3,
    RegRow sz raw (opByte 0x1F l) bs (regF8 sz raw (opByte 0x1F l) bs) := by
  apply forall_lo3
  · exact .all (by decide) (.reg fun r => .row rfl rfl)
  · exact .all (by decide) (.reg fun r => .row rfl rfl)
  · exact .all (by decide) (.reg fun r => .row rfl rfl)
  · exact .all (by decide) (.reg fun r => .row rfl rfl)
  · exact .all (by decide) (.reg fun r => .row rfl rfl)
  · exact .all (by decide) (.reg fun r => .row rfl rfl)
  · exact .all (by decide) (.reg fun r => .row rfl rfl)
  · exact .all (by decide) (.reg fun r => .row rfl rfl)

/-- An op code byte with a condition in its lower four bits (R130). -/
theorem condByte_eq {b : Byte} {k : BitVec 4} (h : b.extractLsb' 4 4 = k) :
    (k ++ condCode (condOf (b.extractLsb' 0 4)) : Byte) = b := by
  rw [condCode_condOf, ← h]
  exact ((eq_append_iff (m := 4) (n := 4) b _ _).2 ⟨rfl, rfl⟩).symm

/-- The second byte of the `reg` class (R131). -/
theorem decodeReg_row (sz : Size) (raw : RawReg) (op : Byte) (bs : List Byte) :
    RegRow sz raw op bs (decodeReg sz raw op bs) := by
  obtain ⟨h, l, rfl⟩ := exists_opByte op
  unfold decodeReg
  rw [hi5_opByte, lo3_opByte]
  revert h
  apply forall_hi5
  · exact reg00_row sz raw bs l
  · exact reg08_row sz raw bs l
  · exact reg10_row sz raw bs l
  · exact reg18_row sz raw bs l
  · exact reg20_row sz raw bs l
  · exact reg28_row sz raw bs l
  · exact reg30_row sz raw bs l
  · exact reg38_row sz raw bs l
  · exact .dblReg (by revert l; decide) fun z RR r => .row rfl rfl
  · exact .dblReg (by revert l; decide) fun z RR r => .row rfl rfl
  · exact .dblReg (by revert l; decide) fun z RR r => .row rfl rfl
  · exact .dblReg (by revert l; decide) fun z RR r => .row rfl rfl
  · exact .all (by revert l; decide) (.reg fun r => .row rfl rfl)
  · exact .all (by revert l; decide) (.reg fun r => .row rfl rfl)
  · exact .bw (by revert l; decide) fun z => .reg fun r => .row
      (congrArg (fun b => encodeRegOp r ++ [b]) (condByte_eq (by revert l; decide))) rfl
  · exact .bw (by revert l; decide) fun z => .reg fun r => .row
      (congrArg (fun b => encodeRegOp r ++ [b]) (condByte_eq (by revert l; decide))) rfl
  · exact .all (by revert l; decide) (.reg fun r => .row rfl rfl)
  · exact .all (by revert l; decide) (.reg fun r => .row rfl rfl)
  · exact .all (by revert l; decide) (.reg fun r => .row rfl rfl)
  · exact .all (by revert l; decide) (.reg fun r => .row rfl rfl)
  · exact .all (by revert l; decide) (.reg fun r => .row rfl rfl)
  · exact .all (by revert l; decide) (.reg fun r => .row rfl rfl)
  · exact .all (by revert l; decide) (.reg fun r => .row rfl rfl)
  · exact .bw (by revert l; decide) fun z => .reg fun r => .row rfl rfl
  · exact .all (by revert l; decide) (.reg fun r => .row rfl rfl)
  · exact regC8_row sz raw bs l
  · exact .all (by revert l; decide) (.reg fun r => .row rfl rfl)
  · exact .bw (by revert l; decide) fun z => .reg fun r => .row rfl rfl
  · exact .all (by revert l; decide) (.reg fun r => .row rfl rfl)
  · exact regE8_row sz raw bs l
  · exact .all (by revert l; decide) (.reg fun r => .row rfl rfl)
  · exact regF8_row sz raw bs l

/-! ## The src class (R132) -/

/-- What a size that a second op code of the `src` class does not have is answered with (R134, R140). -/
def srcSizeError (op : Byte) : DecodeError := if Machine.srcSizes op = [] then .undefinedOp else .size

/-- A row of the `src` class. -/
structure SrcRow (sz : Size) (m : MemOp) (op : Byte) (bs : List Byte)
    (x : Except DecodeError (Instr × List Byte)) : Prop where
  reads : Reads x (encodeMem (sizeCode sz) m ++ op :: bs)
  size : sz ∉ Machine.srcSizes op → x = .error (srcSizeError op)

namespace SrcRow

open Machine

variable {sz : Size} {m : MemOp} {op : Byte} {bs : List Byte}

theorem fail (h : srcSizes op = []) : SrcRow sz m op bs (.error .undefinedOp) :=
  ⟨.fail, fun _ => by rw [srcSizeError, if_pos h]⟩

theorem all {x : Except DecodeError (Instr × List Byte)} (h : srcSizes op = [.b, .w, .l])
    (hx : Reads x (encodeMem (sizeCode sz) m ++ op :: bs)) : SrcRow sz m op bs x := by
  refine ⟨hx, fun hm => absurd ?_ hm⟩
  rw [h]
  cases sz <;> decide

theorem bw {f : SizeBW → Except DecodeError (Instr × List Byte)} (h : srcSizes op = [.b, .w])
    (hf : ∀ z : SizeBW, Reads (f z) (encodeMem (sizeCode z.size) m ++ op :: bs)) :
    SrcRow sz m op bs (needBW sz >>= f) := by
  refine ⟨.bind fun z e => ?_, fun hm => ?_⟩
  · rw [needBW_eq_ok.1 e]
    exact hf z
  · rw [srcSizeError, if_neg (by rw [h]; exact List.cons_ne_nil _ _)]
    rw [h] at hm
    cases sz with
    | b => exact absurd (by decide) hm
    | w => exact absurd (by decide) hm
    | l => rfl

theorem only {want : Size} {f : Unit → Except DecodeError (Instr × List Byte)} (h : srcSizes op = [want])
    (hf : Reads (f ()) (encodeMem (sizeCode want) m ++ op :: bs)) : SrcRow sz m op bs (needSize want sz >>= f) := by
  refine ⟨.bind fun _ e => ?_, fun hm => ?_⟩
  · rw [needSize_eq_ok.1 e]
    exact hf
  · rw [h, List.mem_singleton] at hm
    rw [srcSizeError, if_neg (by rw [h]; exact List.cons_ne_nil _ _), needSize, if_neg hm, error_bind]

end SrcRow

theorem src00_row (sz : Size) (m : MemOp) (bs : List Byte) : ∀ l : BitVec 3,
    SrcRow sz m (opByte 0 l) bs (src00 sz m (opByte 0 l) bs) := by
  apply forall_lo3
  · exact .fail (by decide)
  · exact .fail (by decide)
  · exact .fail (by decide)
  · exact .fail (by decide)
  · exact .bw (by decide) fun z => .row rfl rfl
  · exact .fail (by decide)
  · exact .only (by decide) (.row rfl rfl)
  · exact .only (by decide) (.row rfl rfl)

theorem src10_row (sz : Size) (m : MemOp) (bs : List Byte) : ∀ l : BitVec 3,
    SrcRow sz m (opByte 2 l) bs (src10 sz m (opByte 2 l) bs) := by
  apply forall_lo3
  · exact .bw (by decide) fun z => .pair fun p => .row rfl rfl
  · exact .bw (by decide) fun z => .pair fun p => .row rfl rfl
  · exact .bw (by decide) fun z => .pair fun p => .row rfl rfl
  · exact .bw (by decide) fun z => .pair fun p => .row rfl rfl
  · exact .bw (by decide) fun z => .pointer fun R => .row rfl rfl
  · exact .bw (by decide) fun z => .pointer fun R => .row rfl rfl
  · exact .bw (by decide) fun z => .pointer fun R => .row rfl rfl
  · exact .bw (by decide) fun z => .pointer fun R => .row rfl rfl

theorem src38_row (sz : Size) (m : MemOp) (bs : List Byte) : ∀ l : BitVec 3,
    SrcRow sz m (opByte 7 l) bs (src38 sz m (opByte 7 l) bs) := by
  apply forall_lo3
  · exact .bw (by decide) fun z => .imm fun v rest => .row rfl rfl
  · exact .bw (by decide) fun z => .imm fun v rest => .row rfl rfl
  · exact .bw (by decide) fun z => .imm fun v rest => .row rfl rfl
  · exact .bw (by decide) fun z => .imm fun v rest => .row rfl rfl
  · exact .bw (by decide) fun z => .imm fun v rest => .row rfl rfl
  · exact .bw (by decide) fun z => .imm fun v rest => .row rfl rfl
  · exact .bw (by decide) fun z => .imm fun v rest => .row rfl rfl
  · exact .bw (by decide) fun z => .imm fun v rest => .row rfl rfl

theorem src78_row (sz : Size) (m : MemOp) (bs : List Byte) : ∀ l : BitVec 3,
    SrcRow sz m (opByte 15 l) bs (src78 sz m (opByte 15 l) bs) := by
  apply forall_lo3
  · exact .bw (by decide) fun z => .row rfl rfl
  · exact .bw (by decide) fun z => .row rfl rfl
  · exact .bw (by decide) fun z => .row rfl rfl
  · exact .bw (by decide) fun z => .row rfl rfl
  · exact .bw (by decide) fun z => .row rfl rfl
  · exact .bw (by decide) fun z => .row rfl rfl
  · exact .bw (by decide) fun z => .row rfl rfl
  · exact .bw (by decide) fun z => .row rfl rfl

/-- The second bytes 18H to 1FH of the `src` class. -/
theorem src18_row (sz : Size) (m : MemOp) (bs : List Byte) : ∀ l : BitVec 3, SrcRow sz m (opByte 3 l) bs
    (if l = 1 then do
      let z ← needBW sz
      let (a, bs) ← takeLE 2 bs
      .ok (.ldAbs16Mem z a m, bs)
    else .error .undefinedOp) := by
  apply forall_lo3
  · exact .fail (by decide)
  · exact .bw (by decide) fun z => .imm fun v rest => .row rfl rfl
  · exact .fail (by decide)
  · exact .fail (by decide)
  · exact .fail (by decide)
  · exact .fail (by decide)
  · exact .fail (by decide)
  · exact .fail (by decide)

/-- The second byte of the `src` class (R132). -/
theorem decodeSrc_row (sz : Size) (m : MemOp) (op : Byte) (bs : List Byte) :
    SrcRow sz m op bs (decodeSrc sz m op bs) := by
  obtain ⟨h, l, rfl⟩ := exists_opByte op
  unfold decodeSrc
  rw [hi5_opByte, lo3_opByte]
  revert h
  apply forall_hi5
  · exact src00_row sz m bs l
  · exact .fail (by revert l; decide)
  · exact src10_row sz m bs l
  · exact src18_row sz m bs l
  · exact .all (by revert l; decide) (.row rfl rfl)
  · exact .fail (by revert l; decide)
  · exact .bw (by revert l; decide) fun z => .row rfl rfl
  · exact src38_row sz m bs l
  · exact .bw (by revert l; decide) fun z => .dblCode fun RR => .row rfl rfl
  · exact .bw (by revert l; decide) fun z => .dblCode fun RR => .row rfl rfl
  · exact .bw (by revert l; decide) fun z => .dblCode fun RR => .row rfl rfl
  · exact .bw (by revert l; decide) fun z => .dblCode fun RR => .row rfl rfl
  · exact .bw (by revert l; decide) fun z => .row rfl rfl
  · exact .bw (by revert l; decide) fun z => .row rfl rfl
  · exact .fail (by revert l; decide)
  · exact src78_row sz m bs l
  · exact .all (by revert l; decide) (.row rfl rfl)
  · exact .all (by revert l; decide) (.row rfl rfl)
  · exact .all (by revert l; decide) (.row rfl rfl)
  · exact .all (by revert l; decide) (.row rfl rfl)
  · exact .all (by revert l; decide) (.row rfl rfl)
  · exact .all (by revert l; decide) (.row rfl rfl)
  · exact .all (by revert l; decide) (.row rfl rfl)
  · exact .all (by revert l; decide) (.row rfl rfl)
  · exact .all (by revert l; decide) (.row rfl rfl)
  · exact .all (by revert l; decide) (.row rfl rfl)
  · exact .all (by revert l; decide) (.row rfl rfl)
  · exact .all (by revert l; decide) (.row rfl rfl)
  · exact .all (by revert l; decide) (.row rfl rfl)
  · exact .all (by revert l; decide) (.row rfl rfl)
  · exact .all (by revert l; decide) (.row rfl rfl)
  · exact .all (by revert l; decide) (.row rfl rfl)

/-! ## The dst class (R133) -/

/-- What a blank or a dummy second op code of the `dst` class is answered with (R140). -/
def dstBlankError (op : Byte) : DecodeError :=
  if op ∈ ([0x01, 0x05, 0x15] : List Byte) then .dummyOp else .undefinedOp

/-- A row of the `dst` class. -/
structure DstRow (m : MemOp) (op : Byte) (bs : List Byte) (x : Except DecodeError (Instr × List Byte)) : Prop where
  reads : Reads x (encodeMem 3 m ++ op :: bs)
  blank : Machine.dstBlank op → x = .error (dstBlankError op)

namespace DstRow

open Machine

variable {m : MemOp} {op : Byte} {bs : List Byte}

theorem fail {e : DecodeError} (h : dstBlankError op = e) : DstRow m op bs (.error e) := ⟨.fail, fun _ => by rw [h]⟩

theorem row {x : Except DecodeError (Instr × List Byte)} (h : ¬ dstBlank op) (hx : Reads x (encodeMem 3 m ++ op :: bs)) :
    DstRow m op bs x := ⟨hx, fun hb => absurd hb h⟩

end DstRow

theorem dst00_row (m : MemOp) (bs : List Byte) : ∀ l : BitVec 3,
    DstRow m (opByte 0 l) bs (dst00 m (opByte 0 l) bs) := by
  apply forall_lo3
  · exact .row (by unfold Machine.dstBlank; decide) (.imm fun v rest => .row rfl rfl)
  · exact .fail (by decide)
  · exact .row (by unfold Machine.dstBlank; decide) (.imm fun v rest => .row rfl rfl)
  · exact .fail (by decide)
  · exact .row (by unfold Machine.dstBlank; decide) (.row rfl rfl)
  · exact .fail (by decide)
  · exact .row (by unfold Machine.dstBlank; decide) (.row rfl rfl)
  · exact .fail (by decide)

theorem dst10_row (m : MemOp) (bs : List Byte) : ∀ l : BitVec 3,
    DstRow m (opByte 2 l) bs (dst10 m (opByte 2 l) bs) := by
  apply forall_lo3
  · exact .fail (by decide)
  · exact .fail (by decide)
  · exact .fail (by decide)
  · exact .fail (by decide)
  · exact .row (by unfold Machine.dstBlank; decide) (.imm fun v rest => .row rfl rfl)
  · exact .fail (by decide)
  · exact .row (by unfold Machine.dstBlank; decide) (.imm fun v rest => .row rfl rfl)
  · exact .fail (by decide)

theorem dst28_row (m : MemOp) (bs : List Byte) : ∀ l : BitVec 3,
    DstRow m (opByte 5 l) bs (dst28 m (opByte 5 l) bs) := by
  apply forall_lo3
  · exact .row (by unfold Machine.dstBlank; decide) (.row rfl rfl)
  · exact .row (by unfold Machine.dstBlank; decide) (.row rfl rfl)
  · exact .row (by unfold Machine.dstBlank; decide) (.row rfl rfl)
  · exact .row (by unfold Machine.dstBlank; decide) (.row rfl rfl)
  · exact .row (by unfold Machine.dstBlank; decide) (.row rfl rfl)
  · exact .fail (by decide)
  · exact .fail (by decide)
  · exact .fail (by decide)

/-- RET cc, whose first byte is B0H (R133). -/
theorem reads_retCc {m : MemOp} {op : Byte} {bs : List Byte} (h : op.extractLsb' 4 4 = 0xF#4) :
    Reads (if m = .ind 0 then .ok (.retCc (condOf (op.extractLsb' 0 4)), bs) else .error .firstByte)
      (encodeMem 3 m ++ op :: bs) := by
  split
  · next hm =>
    subst hm
    exact .row (congrArg (fun b => [0xB0, b]) (condByte_eq h)) rfl
  · exact .fail

/-- The second byte of the `dst` class (R133). -/
theorem decodeDst_row (m : MemOp) (op : Byte) (bs : List Byte) :
    DstRow m op bs (decodeDst m op bs) := by
  obtain ⟨h, l, rfl⟩ := exists_opByte op
  unfold decodeDst
  rw [hi5_opByte, lo3_opByte]
  revert h
  apply forall_hi5
  · exact dst00_row m bs l
  · exact .fail (by revert l; decide)
  · exact dst10_row m bs l
  · exact .fail (by revert l; decide)
  · exact .row (by revert l; unfold Machine.dstBlank; decide) (.row rfl rfl)
  · exact dst28_row m bs l
  · exact .row (by revert l; unfold Machine.dstBlank; decide) (.row rfl rfl)
  · exact .fail (by revert l; decide)
  · exact .row (by revert l; unfold Machine.dstBlank; decide) (.row rfl rfl)
  · exact .fail (by revert l; decide)
  · exact .row (by revert l; unfold Machine.dstBlank; decide) (.row rfl rfl)
  · exact .fail (by revert l; decide)
  · exact .row (by revert l; unfold Machine.dstBlank; decide) (.row rfl rfl)
  · exact .fail (by revert l; decide)
  · exact .fail (by revert l; decide)
  · exact .fail (by revert l; decide)
  · exact .row (by revert l; unfold Machine.dstBlank; decide) (.row rfl rfl)
  · exact .row (by revert l; unfold Machine.dstBlank; decide) (.row rfl rfl)
  · exact .row (by revert l; unfold Machine.dstBlank; decide) (.row rfl rfl)
  · exact .row (by revert l; unfold Machine.dstBlank; decide) (.row rfl rfl)
  · exact .row (by revert l; unfold Machine.dstBlank; decide) (.row rfl rfl)
  · exact .row (by revert l; unfold Machine.dstBlank; decide) (.row rfl rfl)
  · exact .row (by revert l; unfold Machine.dstBlank; decide) (.row rfl rfl)
  · exact .row (by revert l; unfold Machine.dstBlank; decide) (.row rfl rfl)
  · exact .row (by revert l; unfold Machine.dstBlank; decide) (.row rfl rfl)
  · exact .row (by revert l; unfold Machine.dstBlank; decide) (.row rfl rfl)
  · exact .row (by revert l; unfold Machine.dstBlank; decide) (.row
      (congrArg (fun b => encodeMem 3 m ++ [b]) (condByte_eq (by revert l; decide))) rfl)
  · exact .row (by revert l; unfold Machine.dstBlank; decide) (.row
      (congrArg (fun b => encodeMem 3 m ++ [b]) (condByte_eq (by revert l; decide))) rfl)
  · exact .row (by revert l; unfold Machine.dstBlank; decide) (.row
      (congrArg (fun b => encodeMem 3 m ++ [b]) (condByte_eq (by revert l; decide))) rfl)
  · exact .row (by revert l; unfold Machine.dstBlank; decide) (.row
      (congrArg (fun b => encodeMem 3 m ++ [b]) (condByte_eq (by revert l; decide))) rfl)
  · exact .row (by revert l; unfold Machine.dstBlank; decide) (reads_retCc (by revert l; decide))
  · exact .row (by revert l; unfold Machine.dstBlank; decide) (reads_retCc (by revert l; decide))

/-! ## The first byte (R104) -/

/-- Operand bytes after the bytes `pre`. -/
theorem Reads.operand {nb : Nat} {bs : List Byte} {f : BitVec (8 * nb) × List Byte → Except DecodeError (Instr × List Byte)}
    (pre : List Byte) (h : ∀ v rest, Reads (f (v, rest)) (pre ++ (toLE nb v ++ rest))) :
    Reads (takeLE nb bs >>= f) (pre ++ bs) :=
  .bind fun ⟨v, rest⟩ e => by rw [takeLE_eq_ok.1 e]; exact h v rest

/-- The byte of EI and DI (R147, R351). -/
theorem reads_ei (bs : List Byte) : Reads
    (takeNum3 bs >>= fun p => .ok (if p.1 = 7 then .di else .ei p.1, p.2)) (0x06 :: bs) :=
  .bind fun ⟨num, rest⟩ e => by
    rw [takeNum3_eq_ok.1 e]
    dsimp only
    split
    · next h => exact .ok (by rw [h]; rfl)
    · exact .ok rfl

/-- The byte of LDF (R370). -/
theorem reads_ldf (bs : List Byte) : Reads (takeNum2 bs >>= fun p => .ok (.ldf p.1, p.2)) (0x17 :: bs) :=
  .bind fun ⟨num, rest⟩ e => by
    rw [takeNum2_eq_ok.1 e]
    exact .ok rfl

theorem reads_op00 (bs : List Byte) : ∀ l : BitVec 3, Reads (op00 (opByte 0 l) bs) (opByte 0 l :: bs) := by
  apply forall_lo3
  · exact .ok rfl
  · exact .fail
  · exact .ok rfl
  · exact .ok rfl
  · exact .fail
  · exact .ok rfl
  · exact reads_ei bs
  · exact .ok rfl

theorem reads_op08 (bs : List Byte) : ∀ l : BitVec 3, Reads (op08 (opByte 1 l) bs) (opByte 1 l :: bs) := by
  apply forall_lo3
  · exact .operand [0x08] fun a _ => .operand (0x08 :: toLE 1 a) fun v rest => .ok rfl
  · exact .operand [0x09] fun v rest => .ok rfl
  · exact .operand [0x0A] fun a _ => .operand (0x0A :: toLE 1 a) fun v rest => .ok rfl
  · exact .operand [0x0B] fun v rest => .ok rfl
  · exact .ok rfl
  · exact .ok rfl
  · exact .ok rfl
  · exact .operand [0x0F] fun v rest => .ok rfl

theorem reads_op10 (bs : List Byte) : ∀ l : BitVec 3, Reads (op10 (opByte 2 l) bs) (opByte 2 l :: bs) := by
  apply forall_lo3
  · exact .ok rfl
  · exact .ok rfl
  · exact .ok rfl
  · exact .ok rfl
  · exact .ok rfl
  · exact .ok rfl
  · exact .ok rfl
  · exact reads_ldf bs

theorem reads_op18 (bs : List Byte) : ∀ l : BitVec 3, Reads (op18 (opByte 3 l) bs) (opByte 3 l :: bs) := by
  apply forall_lo3
  · exact .ok rfl
  · exact .ok rfl
  · exact .operand [0x1A] fun v rest => .ok rfl
  · exact .operand [0x1B] fun v rest => .ok rfl
  · exact .operand [0x1C] fun v rest => .ok rfl
  · exact .operand [0x1D] fun v rest => .ok rfl
  · exact .operand [0x1E] fun v rest => .ok rfl
  · exact .fail

theorem reads_regShort (sz : Size) (c : BitVec 3) (bs : List Byte) :
    Reads (decodeRegShort sz (opByte (3#2 ++ sizeCode sz ++ 1#1) c) bs) (opByte (3#2 ++ sizeCode sz ++ 1#1) c :: bs) :=
  .bind fun ⟨op, rest⟩ e => by
    rw [take8_eq_ok.1 e, lo3_opByte]
    exact (decodeReg_row sz (.short c) op rest).reads

theorem reads_srcInd (sz : Size) (c : BitVec 3) (bs : List Byte) :
    Reads (decodeSrcInd sz (opByte (2#2 ++ sizeCode sz ++ 0#1) c) bs) (opByte (2#2 ++ sizeCode sz ++ 0#1) c :: bs) :=
  .bind fun ⟨op, rest⟩ e => by
    rw [take8_eq_ok.1 e, lo3_opByte]
    exact (decodeSrc_row sz (.ind c) op rest).reads

theorem reads_srcDisp (sz : Size) (c : BitVec 3) (bs : List Byte) :
    Reads (decodeSrcDisp sz (opByte (2#2 ++ sizeCode sz ++ 1#1) c) bs) (opByte (2#2 ++ sizeCode sz ++ 1#1) c :: bs) :=
  .bind fun ⟨d, rest⟩ e => .bind fun ⟨op, rest'⟩ e' => by
    have e' : rest = op :: rest' := take8_eq_ok.1 e'
    rw [takeLE_eq_ok.1 e, e', lo3_opByte, toLE_one]
    exact (decodeSrc_row sz (.disp8 c d) op rest').reads

theorem reads_dstInd (c : BitVec 3) (bs : List Byte) :
    Reads (take8 bs >>= fun p => decodeDst (.ind c) p.1 p.2) (opByte 0x16 c :: bs) :=
  .bind fun ⟨op, rest⟩ e => by
    rw [take8_eq_ok.1 e]
    exact (decodeDst_row (.ind c) op rest).reads

theorem reads_dstDisp (c : BitVec 3) (bs : List Byte) :
    Reads (takeLE 1 bs >>= fun p => take8 p.2 >>= fun q => decodeDst (.disp8 c p.1) q.1 q.2) (opByte 0x17 c :: bs) :=
  .bind fun ⟨d, rest⟩ e => .bind fun ⟨op, rest'⟩ e' => by
    have e' : rest = op :: rest' := take8_eq_ok.1 e'
    rw [takeLE_eq_ok.1 e, e', toLE_one]
    exact (decodeDst_row (.disp8 c d) op rest').reads

/-- The bytes of a mode after the first byte (R104, R113). -/
theorem Reads.mode {zz : BitVec 2} {k : BitVec 3} {bs : List Byte}
    {f : MemOp → Byte → List Byte → Except DecodeError (Instr × List Byte)}
    (h : ∀ m op rest, Reads (f m op rest) (encodeMem zz m ++ op :: rest)) :
    Reads (decodeMode k bs >>= fun p => take8 p.2 >>= fun q => f p.1 q.1 q.2)
      (opByte (3#2 ++ zz ++ 0#1) k :: bs) :=
  .bind fun ⟨m, rest⟩ e => .bind fun ⟨op, rest'⟩ e' => by
    obtain ⟨hm, hbs⟩ := decodeMode_ok e
    have e' : rest = op :: rest' := take8_eq_ok.1 e'
    rw [hbs, e', ← List.cons_append, ← encodeMem_of_modeCode zz hm]
    exact h m op rest'

theorem reads_extended (sz : Size) (k : BitVec 3) (bs : List Byte) :
    Reads (decodeExtended sz (opByte (3#2 ++ sizeCode sz ++ 0#1) k) bs) (opByte (3#2 ++ sizeCode sz ++ 0#1) k :: bs) := by
  unfold decodeExtended
  rw [lo3_opByte]
  split
  · next hk =>
    subst hk
    refine .bind fun ⟨code, rest⟩ e => .bind fun ⟨op, rest'⟩ e' => ?_
    have e' : rest = op :: rest' := take8_eq_ok.1 e'
    rw [take8_eq_ok.1 e, e']
    exact (decodeReg_row sz (.ext code) op rest').reads
  · exact .mode fun m op rest => (decodeSrc_row sz m op rest).reads

/-- LDAR (R125). -/
theorem reads_ldar (bs : List Byte) : Reads (decodeLdar bs) (0xF3 :: 0x13 :: bs) :=
  .operand [0xF3, 0x13] fun d rest => .bind fun ⟨op, rest'⟩ e => by
    rw [take8_eq_ok.1 e]
    obtain ⟨h, l, rfl⟩ := exists_opByte op
    dsimp only
    rw [hi5_opByte, lo3_opByte]
    split
    · next h4 =>
      obtain rfl : h = 4 := BitVec.eq_of_toNat_eq h4
      exact .ok rfl
    · next h6 =>
      obtain rfl : h = 6 := BitVec.eq_of_toNat_eq h6
      exact .ok rfl
    · exact .fail

theorem reads_dstExtended (k : BitVec 3) (bs : List Byte) :
    Reads (decodeDstExtended (opByte 0x1E k) bs) (opByte 0x1E k :: bs) := by
  unfold decodeDstExtended
  split
  · next h =>
    obtain ⟨hb, hhead⟩ := h
    obtain ⟨rest, rfl⟩ : ∃ rest, bs = 0x13 :: rest := by
      cases bs with
      | nil => exact nomatch hhead
      | cons b rest => exact ⟨rest, congrArg (· :: rest) (Option.some.inj hhead)⟩
    rw [hb]
    exact reads_ldar rest
  · rw [lo3_opByte]
    exact .mode fun m op rest => (decodeDst_row m op rest).reads

/-- The decoder reads no bytes but the encoding of what it answers (R104, R106). -/
theorem reads_decode (bs : List Byte) : Reads (decode bs) bs := by
  cases bs with
  | nil => exact .fail
  | cons b bs =>
    obtain ⟨h, l, rfl⟩ := exists_opByte b
    rw [decode, hi5_opByte]
    revert h
    apply forall_hi5
    · exact reads_op00 bs l
    · exact reads_op08 bs l
    · exact reads_op10 bs l
    · exact reads_op18 bs l
    · rw [lo3_opByte]; exact .operand [opByte 4 l] fun v rest => .ok rfl
    · rw [lo3_opByte]; exact .ok rfl
    · rw [lo3_opByte]; exact .operand [opByte 6 l] fun v rest => .ok rfl
    · rw [lo3_opByte]; exact .ok rfl
    · rw [lo3_opByte]; exact .operand [opByte 8 l] fun v rest => .ok rfl
    · rw [lo3_opByte]; exact .ok rfl
    · exact .fail
    · rw [lo3_opByte]; exact .ok rfl
    · exact .operand [opByte 12 l] fun v rest =>
        .ok (congrArg (· :: (toLE 1 v ++ rest)) (condByte_eq (by revert l; decide)))
    · exact .operand [opByte 13 l] fun v rest =>
        .ok (congrArg (· :: (toLE 1 v ++ rest)) (condByte_eq (by revert l; decide)))
    · exact .operand [opByte 14 l] fun v rest =>
        .ok (congrArg (· :: (toLE 2 v ++ rest)) (condByte_eq (by revert l; decide)))
    · exact .operand [opByte 15 l] fun v rest =>
        .ok (congrArg (· :: (toLE 2 v ++ rest)) (condByte_eq (by revert l; decide)))
    · exact reads_srcInd .b l bs
    · exact reads_srcDisp .b l bs
    · exact reads_srcInd .w l bs
    · exact reads_srcDisp .w l bs
    · exact reads_srcInd .l l bs
    · exact reads_srcDisp .l l bs
    · rw [lo3_opByte]; exact reads_dstInd l bs
    · rw [lo3_opByte]; exact reads_dstDisp l bs
    · exact reads_extended .b l bs
    · exact reads_regShort .b l bs
    · exact reads_extended .w l bs
    · exact reads_regShort .w l bs
    · exact reads_extended .l l bs
    · exact reads_regShort .l l bs
    · exact reads_dstExtended l bs
    · rw [lo3_opByte]; exact .ok rfl

/-- Settles O2: the decoder reads only what the encoder writes, and the bytes of EI 7 it reads as DI. -/
theorem encodeOfDecode : Obligations.EncodeOfDecode := by
  intro bs rest i h
  have hbytes := reads_decode bs i rest h
  refine ⟨hbytes, decide_eq_true fun hi => ?_⟩
  subst hi
  rw [← hbytes] at h
  exact nomatch h

end Sys2Proof
end

section
/-! SUPPORT. The bytes that are no instruction (R140, R141), each kind under its own name. -/

namespace Sys2Proof

theorem bind_of_error {α β : Type} {x : Except DecodeError α} {e : DecodeError} {f : α → Except DecodeError β}
    (h : x = .error e) : (x >>= f) = .error e := by rw [h, error_bind]

/-! ## Fields -/

theorem toNat_upperBits {m n : Nat} (b : BitVec (m + n)) : (b.extractLsb' n m).toNat = b.toNat / 2 ^ n := by
  rw [BitVec.extractLsb'_toNat, Nat.shiftRight_eq_div_pow]
  have hlt : b.toNat < 2 ^ n * 2 ^ m := by
    have h := b.isLt
    rwa [Nat.pow_add, Nat.mul_comm] at h
  exact Nat.mod_eq_of_lt (Nat.div_lt_of_lt_mul hlt)

theorem upperBits_ne_zero {m n : Nat} {b : BitVec (m + n)} (h : 2 ^ n ≤ b.toNat) : b.extractLsb' n m ≠ 0 := by
  intro he
  have hz : b.toNat / 2 ^ n = 0 := by rw [← toNat_upperBits, he]; rfl
  exact absurd h (Nat.not_le.2 ((Nat.div_eq_zero_iff_lt (Nat.two_pow_pos n)).1 hz))

theorem toNat_lowTwoBits (b : Byte) : (b.extractLsb' 0 2).toNat = b.toNat % 4 := by
  rw [BitVec.extractLsb'_toNat, Nat.shiftRight_zero]

theorem toNat_hi5 (b : Byte) : (hi5 b).toNat = b.toNat / 8 := toNat_upperBits (m := 5) (n := 3) b

/-- The #4 byte with a bit above its lower four (R129). -/
theorem takeNum4_of_large {b : Byte} (bs : List Byte) (h : 16 ≤ b.toNat) :
    takeNum4 (b :: bs) = .error .fixedZeroBits :=
  bind_of_ok (Machine.take8_cons b bs) (if_neg (upperBits_ne_zero (m := 4) (n := 4) h))

theorem takeNum3_of_large {b : Byte} (bs : List Byte) (h : 8 ≤ b.toNat) :
    takeNum3 (b :: bs) = .error .fixedZeroBits :=
  bind_of_ok (Machine.take8_cons b bs) (if_neg (upperBits_ne_zero (m := 5) (n := 3) h))

theorem takeNum2_of_large {b : Byte} (bs : List Byte) (h : 4 ≤ b.toNat) :
    takeNum2 (b :: bs) = .error .fixedZeroBits :=
  bind_of_ok (Machine.take8_cons b bs) (if_neg (upperBits_ne_zero (m := 6) (n := 2) h))

/-! ## Modes (R126) -/

theorem blockPair_eq_error {m : MemOp} (h3 : m ≠ .ind 3) (h5 : m ≠ .ind 5) : blockPair m = .error .firstByte := by
  cases m with
  | ind c => rw [blockPair, if_neg (fun h => h3 (congrArg MemOp.ind h)), if_neg (fun h => h5 (congrArg MemOp.ind h))]
  | _ => rfl

theorem comparePointer_eq_error {m : MemOp} (h : ∀ c, m ≠ .ind c) : comparePointer m = .error .firstByte := by
  cases m with
  | ind c => exact absurd rfl (h c)
  | _ => rfl

theorem modeReg_eq_error {b : Byte} (h : 0x40 ≤ b.toNat ∧ b.toNat ≤ 0xCF) : modeReg b = .error .mode := by
  rw [modeReg, (Machine.reg32Of_eq_none b).2 h]

theorem stepOf_eq_error {b : Byte} (h : b.toNat % 4 = 3) : stepOf b = .error .mode := by
  rw [stepOf, toNat_lowTwoBits, h]
  rfl

theorem stepOf_ok_or_error (b : Byte) : (∃ st, stepOf b = .ok st) ∨ stepOf b = .error .mode := by
  unfold stepOf
  split
  · exact .inl ⟨_, rfl⟩
  · exact .inl ⟨_, rfl⟩
  · exact .inl ⟨_, rfl⟩
  · exact .inr rfl

open Machine in
/-- An excluded code is that of no register or of no part of it (R111). -/
theorem not_excluded_of_some {sz : Size} {code : Byte} {r : Reg32} {part : BitVec sz.partBits}
    (hr : reg32Of (code.extractLsb' 2 6) = some r) (hp : partOf sz code = some part) : ¬ ExcludedCode sz code := by
  rintro (h | h)
  · exact nomatch hr.symm.trans ((reg32Of_eq_none code).2 h)
  · exact nomatch hp.symm.trans ((partOf_eq_none sz code).2 h)

open Machine in
theorem longReg_eq_error {code : Byte} (h : ExcludedCode .l code) : longReg code = .error .mode := by
  unfold longReg
  split
  · next r part hr hp => exact (not_excluded_of_some hr hp h).elim
  · rfl

theorem longReg_ok_or_error (code : Byte) : (∃ r, longReg code = .ok r) ∨ longReg code = .error .mode := by
  unfold longReg
  split
  · exact .inl ⟨_, rfl⟩
  · exact .inr rfl

/-- The mode bytes of `mmmm = 0011` that are undefined by themselves (R126). -/
theorem decodeMode3_eq_error {b : Byte} (bs : List Byte)
    (h : b.toNat % 4 = 2 ∨ (b.toNat % 4 = 3 ∧ b ≠ 0x03 ∧ b ≠ 0x07) ∨
      (b.toNat % 4 < 2 ∧ 0x40 ≤ b.toNat ∧ b.toNat ≤ 0xCF)) : decodeMode3 b bs = .error .mode := by
  rw [decodeMode3, toNat_lowTwoBits]
  rcases h with h | ⟨h, h3, h7⟩ | ⟨h, hcode⟩
  · rw [h]
    rfl
  · rw [h]
    exact (if_neg h3).trans (if_neg h7)
  · rcases Nat.le_one_iff_eq_zero_or_eq_one.1 (Nat.le_of_lt_succ h) with h | h
    · rw [h]
      exact bind_of_error (modeReg_eq_error hcode)
    · rw [h]
      exact bind_of_error (modeReg_eq_error hcode)

open Machine in
/-- The mode with a byte index, by the codes of its two registers (R122, R126). -/
theorem decodeMode3_index8_eq_error {c1 c2 : Byte} (bs : List Byte) (h : ExcludedCode .l c1 ∨ ExcludedCode .b c2) :
    decodeMode3 0x03 (c1 :: c2 :: bs) = .error .mode := by
  refine bind_of_ok (take8_cons c1 _) (bind_of_ok (take8_cons c2 _) ?_)
  rcases longReg_ok_or_error c1 with ⟨r, hr⟩ | he
  · refine bind_of_ok hr ?_
    split
    · next x part hx hp =>
      rcases h with h | h
      · exact nomatch hr.symm.trans (longReg_eq_error h)
      · exact (not_excluded_of_some hx hp h).elim
    · rfl
  · exact bind_of_error he

open Machine in
/-- The mode with a word index, by the codes of its two registers (R122, R126). -/
theorem decodeMode3_index16_eq_error {c1 c2 : Byte} (bs : List Byte) (h : ExcludedCode .l c1 ∨ ExcludedCode .w c2) :
    decodeMode3 0x07 (c1 :: c2 :: bs) = .error .mode := by
  refine bind_of_ok (take8_cons c1 _) (bind_of_ok (take8_cons c2 _) ?_)
  rcases longReg_ok_or_error c1 with ⟨r, hr⟩ | he
  · refine bind_of_ok hr ?_
    split
    · next x part hx hp =>
      rcases h with h | h
      · exact nomatch hr.symm.trans (longReg_eq_error h)
      · exact (not_excluded_of_some hx hp h).elim
    · rfl
  · exact bind_of_error he

/-- A stepping mode with an undefined step or register (R123, R124, R126). -/
theorem stepOf_modeReg_eq_error {α : Type} {b : Byte} (h : b.toNat % 4 = 3 ∨ (0x40 ≤ b.toNat ∧ b.toNat ≤ 0xCF))
    (f : Step → Reg32 → Except DecodeError α) :
    (stepOf b >>= fun st => modeReg b >>= f st) = .error .mode := by
  rcases stepOf_ok_or_error b with ⟨st, hst⟩ | he
  · rcases h with h | h
    · exact bind_of_error (stepOf_eq_error h)
    · exact bind_of_ok hst (bind_of_error (modeReg_eq_error h))
  · exact bind_of_error he

/-- An undefined mode byte after a first byte of any class (R104, R126). -/
theorem decode_of_mode_error {zz : BitVec 2} {k : BitVec 3} {bs : List Byte} {e : DecodeError} (hk : k ≠ 7)
    (hldar : ¬ (zz = 3 ∧ k = 3 ∧ bs.head? = some 0x13)) (h : decodeMode k bs = .error e) :
    decode (opByte (3#2 ++ zz ++ 0#1) k :: bs) = .error e := by
  have hsize : ∀ sz : Size, decode (opByte (3#2 ++ sizeCode sz ++ 0#1) k :: bs) = .error e := fun sz => by
    rw [decode_extended, decodeExtended, lo3_opByte, if_neg hk, h, error_bind]
  have hdst : zz = 3 → decode (opByte 0x1E k :: bs) = .error e := fun hzz => by
    have hclass : decode (opByte 0x1E k :: bs) = decodeDstExtended (opByte 0x1E k) bs := by
      rw [decode, hi5_opByte]
      rfl
    have hne : ¬ (opByte 0x1E k = 0xF3 ∧ bs.head? = some 0x13) := fun ⟨hb, hhead⟩ =>
      hldar ⟨hzz, ((eq_opByte_iff 0xF3 0x1E k).1 hb.symm).2.symm, hhead⟩
    rw [hclass, decodeDstExtended, if_neg hne, lo3_opByte, h, error_bind]
  have hcases : ∀ zz : BitVec 2, zz = sizeCode .b ∨ zz = sizeCode .w ∨ zz = sizeCode .l ∨ zz = 3 := by decide
  rcases hcases zz with rfl | rfl | rfl | rfl
  · exact hsize .b
  · exact hsize .w
  · exact hsize .l
  · exact hdst rfl

theorem decode_of_mode3_error {zz : BitVec 2} {b : Byte} {bs : List Byte} {e : DecodeError}
    (hldar : ¬ (zz = 3 ∧ b = 0x13)) (h : decodeMode3 b bs = .error e) :
    decode (opByte (3#2 ++ zz ++ 0#1) 3 :: b :: bs) = .error e :=
  decode_of_mode_error (by decide) (fun ⟨hzz, _, hhead⟩ => hldar ⟨hzz, Option.some.inj hhead⟩)
    (bind_of_ok (Machine.take8_cons b bs) h)

/-! ## Registers (R111, R270, R53) -/

open Machine in
theorem ne_raw_of_excluded {sz : Size} {code : Byte} (h : ExcludedCode sz code) (r : RegOp sz) : .ext code ≠ r.raw :=
  fun he => nomatch (regOp_of_excluded h).symm.trans (regOp_eq_ok.2 he)

open Machine in
/-- A double word register with a code that is none (R270 (d), R111). -/
theorem dblOp_word_of_excluded {code : Byte} (h : ExcludedCode .l code) :
    dblOp .w (.ext code) = .error .registerCode := by
  rw [dblOp]
  split
  · next r part hr hp => exact (not_excluded_of_some (sz := .l) hr hp h).elim
  · rfl
  · rfl

/-- R270 (a): the codes that RR has at byte size. -/
theorem dblCode_byte_of_even {c : BitVec 3} (h : c.toNat % 2 = 0) : dblCode .b c = .error .doubleRegister := by
  rw [dblCode, if_neg (mt (RegRow.lowBit_eq_one_iff c).1 (by omega))]

open Machine in
/-- R270 (c): a code after C7H that names a byte register and no word register. -/
theorem dblOp_byte_of_odd {code : Byte} (hc : ¬ ExcludedCode .b code) (h : code.toNat % 2 = 1) :
    dblOp .b (.ext code) = .error .doubleRegister := by
  have hp : partOf .w code = none := (partOf_eq_none .w code).2 (by show code.toNat % 2 ≠ 0; omega)
  rw [dblOp]
  split
  · next r part hr hpart => exact nomatch hpart.symm.trans hp
  · next hr => exact absurd (.inl ((reg32Of_eq_none code).1 hr)) hc
  · rfl

open Machine in
/-- R53: the codes that a control register has at a size. -/
theorem isSome_ctrlRegOf (sz : Size) : ∀ code : Byte,
    (ctrlRegOf sz code).toOption.isSome = decide (ctrlSize code = some sz) := by
  cases sz <;> decide

theorem ctrlRegOf_ok_or_error (sz : Size) (code : Byte) :
    (∃ cr, ctrlRegOf sz code = .ok cr ∧ cr.size = sz) ∨ ctrlRegOf sz code = .error .controlRegister := by
  unfold ctrlRegOf
  dsimp only
  split
  · next cr _ =>
    split
    · next h => exact .inl ⟨cr, rfl, h⟩
    · exact .inr rfl
  · exact .inr rfl

open Machine in
/-- R53: only a control register and its width are accepted, and nothing else is the matter before the register. -/
theorem ctrlRegOf_cases (sz : Size) (code : Byte) :
    (ctrlSize code = some sz ∧ ∃ cr, ctrlRegOf sz code = .ok cr ∧ cr.size = sz) ∨
    (ctrlSize code ≠ some sz ∧ ctrlRegOf sz code = .error .controlRegister) := by
  have hsome := isSome_ctrlRegOf sz code
  rcases ctrlRegOf_ok_or_error sz code with ⟨cr, hcr, hsz⟩ | he
  · rw [hcr] at hsome
    exact .inl ⟨of_decide_eq_true hsome.symm, cr, hcr, hsz⟩
  · rw [he] at hsome
    exact .inr ⟨of_decide_eq_false hsome.symm, he⟩

/-! ## Second op codes of the reg class -/

/-- A row with a #4 byte that has a bit above its lower four (R129). -/
theorem num4Row_of_large {sz : Size} (r : RegOp sz) {b : Byte} {bs : List Byte} (hb : 16 ≤ b.toNat)
    (f : RegOp sz → BitVec 4 × List Byte → Except DecodeError (Instr × List Byte)) :
    (regOp sz r.raw >>= fun r => takeNum4 (b :: bs) >>= f r) = .error .fixedZeroBits :=
  bind_of_ok (regOp_eq_ok.2 rfl) (bind_of_error (takeNum4_of_large bs hb))

theorem num4RowBW_of_large {sz : Size} (r : RegOp sz) {b : Byte} {bs : List Byte} (hb : 16 ≤ b.toNat)
    (hsz : sz ∈ [Size.b, Size.w])
    (f : (z : SizeBW) → RegOp z.size → BitVec 4 × List Byte → Except DecodeError (Instr × List Byte)) :
    (needBW sz >>= fun z => regOp z.size r.raw >>= fun r => takeNum4 (b :: bs) >>= f z r) =
      .error .fixedZeroBits := by
  cases sz with
  | b => exact num4Row_of_large r hb (f .b)
  | w => exact num4Row_of_large r hb (f .w)
  | l => exact absurd hsz (by decide)

open Machine in
/-- The #4 rows of the `reg` class (R131) with a bit that is drawn as 0 (R129). -/
theorem decodeReg_of_large_num4 {sz : Size} (r : RegOp sz) {op b : Byte} {bs : List Byte} (hsz : sz ∈ regSizes op)
    (hop : op.toNat / 8 = 0x1D ∨ op ∈ ([0x20, 0x21, 0x22, 0x23, 0x24, 0x30, 0x31, 0x32, 0x33, 0x34] : List Byte))
    (hb : 16 ≤ b.toNat) : decodeReg sz r.raw op (b :: bs) = .error .fixedZeroBits := by
  rcases hop with hop | hop
  · obtain ⟨h, l, rfl⟩ := exists_opByte op
    rw [← toNat_hi5, hi5_opByte] at hop
    obtain rfl : h = 0x1D := BitVec.eq_of_toNat_eq hop
    rw [decodeReg, hi5_opByte, lo3_opByte]
    show regE8 sz r.raw (opByte 0x1D l) (b :: bs) = _
    revert l
    apply forall_lo3 <;> intro _ <;> exact num4Row_of_large r hb _
  · have hbw : ∀ x ∈ ([0x20, 0x21, 0x22, 0x23, 0x24, 0x30, 0x31, 0x32, 0x33, 0x34] : List Byte),
        regSizes x = [.b, .w] := by decide
    rw [hbw op hop] at hsz
    clear hbw
    revert op
    simp only [List.forall_mem_cons]
    exact ⟨num4RowBW_of_large r hb hsz _, num4RowBW_of_large r hb hsz _, num4RowBW_of_large r hb hsz _,
      num4RowBW_of_large r hb hsz _, num4RowBW_of_large r hb hsz _, num4RowBW_of_large r hb hsz _,
      num4RowBW_of_large r hb hsz _, num4RowBW_of_large r hb hsz _, num4RowBW_of_large r hb hsz _,
      num4RowBW_of_large r hb hsz _, fun _ h => absurd h List.not_mem_nil⟩

/-- The second op codes of the rows with a double register in the lower bits, with an even code (R270). -/
theorem exists_dblRow_of_even {op : Byte} (h1 : 0x40 ≤ op.toNat) (h2 : op.toNat ≤ 0x5F) (h3 : op.toNat % 2 = 0) :
    ∃ h l, op = opByte h l ∧ (h = 8 ∨ h = 9 ∨ h = 10 ∨ h = 11) ∧ l.toNat % 2 = 0 := by
  refine ⟨hi5 op, lo3 op, (eq_opByte_iff op _ _).2 ⟨rfl, rfl⟩, ?_, ?_⟩
  · have hdiv := toNat_hi5 op
    have hcases : (hi5 op).toNat = 8 ∨ (hi5 op).toNat = 9 ∨ (hi5 op).toNat = 10 ∨ (hi5 op).toNat = 11 := by omega
    exact hcases.imp BitVec.eq_of_toNat_eq (Or.imp BitVec.eq_of_toNat_eq (Or.imp BitVec.eq_of_toNat_eq
      BitVec.eq_of_toNat_eq))
  · rw [lo3, BitVec.extractLsb'_toNat, Nat.shiftRight_zero]
    omega

/-- At byte size an even code is no double register, whatever the other operand is (R270). -/
theorem decodeReg_of_even (raw : RawReg) {op : Byte} (bs : List Byte) (h1 : 0x40 ≤ op.toNat) (h2 : op.toNat ≤ 0x5F)
    (h3 : op.toNat % 2 = 0) : decodeReg .b raw op bs = .error .doubleRegister := by
  obtain ⟨h, l, rfl, hh, hl⟩ := exists_dblRow_of_even h1 h2 h3
  rw [decodeReg, hi5_opByte, lo3_opByte]
  rcases hh with rfl | rfl | rfl | rfl
  · exact bind_of_ok (a := SizeBW.b) rfl (bind_of_error (dblCode_byte_of_even hl))
  · exact bind_of_ok (a := SizeBW.b) rfl (bind_of_error (dblCode_byte_of_even hl))
  · exact bind_of_ok (a := SizeBW.b) rfl (bind_of_error (dblCode_byte_of_even hl))
  · exact bind_of_ok (a := SizeBW.b) rfl (bind_of_error (dblCode_byte_of_even hl))

theorem decodeSrc_of_even (m : MemOp) {op : Byte} (bs : List Byte) (h1 : 0x40 ≤ op.toNat) (h2 : op.toNat ≤ 0x5F)
    (h3 : op.toNat % 2 = 0) : decodeSrc .b m op bs = .error .doubleRegister := by
  obtain ⟨h, l, rfl, hh, hl⟩ := exists_dblRow_of_even h1 h2 h3
  rw [decodeSrc, hi5_opByte, lo3_opByte]
  rcases hh with rfl | rfl | rfl | rfl
  · exact bind_of_ok (a := SizeBW.b) rfl (bind_of_error (dblCode_byte_of_even hl))
  · exact bind_of_ok (a := SizeBW.b) rfl (bind_of_error (dblCode_byte_of_even hl))
  · exact bind_of_ok (a := SizeBW.b) rfl (bind_of_error (dblCode_byte_of_even hl))
  · exact bind_of_ok (a := SizeBW.b) rfl (bind_of_error (dblCode_byte_of_even hl))

/-- The rows with a double register as the operand of the first byte, at byte size (R270). -/
theorem decodeReg_of_dblOp_error {raw : RawReg} {e : DecodeError} (bs : List Byte) (h : dblOp .b raw = .error e) :
    ∀ op ∈ ([0x08, 0x09, 0x0A, 0x0B] : List Byte), decodeReg .b raw op bs = .error e := by
  simp only [List.forall_mem_cons]
  exact ⟨bind_of_ok (a := SizeBW.b) rfl (bind_of_error h), bind_of_ok (a := SizeBW.b) rfl (bind_of_error h),
    bind_of_ok (a := SizeBW.b) rfl (bind_of_error h), bind_of_ok (a := SizeBW.b) rfl (bind_of_error h),
    fun _ h => absurd h List.not_mem_nil⟩

/-- The same rows and MULA at word size (R270, R276). -/
theorem decodeReg_word_of_dblOp_error {raw : RawReg} {e : DecodeError} (bs : List Byte) (h : dblOp .w raw = .error e) :
    ∀ op ∈ ([0x08, 0x09, 0x0A, 0x0B, 0x19] : List Byte), decodeReg .w raw op bs = .error e := by
  simp only [List.forall_mem_cons]
  exact ⟨bind_of_ok (a := SizeBW.w) rfl (bind_of_error h), bind_of_ok (a := SizeBW.w) rfl (bind_of_error h),
    bind_of_ok (a := SizeBW.w) rfl (bind_of_error h), bind_of_ok (a := SizeBW.w) rfl (bind_of_error h),
    bind_of_ok (a := ()) rfl (bind_of_error h), fun _ h => absurd h List.not_mem_nil⟩

/-- LDC with an operand that `ctrlRegOf` does not take (R53, R360, R361). -/
theorem decodeReg_of_ctrlRegOf_error {sz : Size} {raw : RawReg} {op c : Byte} {e : DecodeError} (bs : List Byte)
    (hop : op = 0x2E ∨ op = 0x2F) (h : ctrlRegOf sz c = .error e) : decodeReg sz raw op (c :: bs) = .error e := by
  rcases hop with rfl | rfl
  · exact bind_of_ok (Machine.take8_cons c bs) (bind_of_error h)
  · exact bind_of_ok (Machine.take8_cons c bs) (bind_of_error h)

theorem decodeReg_of_ctrlRegOf_ok {sz : Size} {raw : RawReg} {op c : Byte} {cr : CtrlReg} {e : DecodeError}
    (bs : List Byte) (hop : op = 0x2E ∨ op = 0x2F) (h : ctrlRegOf sz c = .ok cr) (hr : regOp cr.size raw = .error e) :
    decodeReg sz raw op (c :: bs) = .error e := by
  rcases hop with rfl | rfl
  · exact bind_of_ok (Machine.take8_cons c bs) (bind_of_ok h (bind_of_error hr))
  · exact bind_of_ok (Machine.take8_cons c bs) (bind_of_ok h (bind_of_error hr))

/-! ## Second op codes of the memory classes -/

/-- The block transfers after a mode that is no pair of theirs (R205, R132). -/
theorem decodeSrc_of_no_pair (z : SizeBW) {m : MemOp} (bs : List Byte) (h3 : m ≠ .ind 3) (h5 : m ≠ .ind 5) :
    ∀ op ∈ ([0x10, 0x11, 0x12, 0x13] : List Byte), decodeSrc z.size m op bs = .error .firstByte := by
  have he := blockPair_eq_error h3 h5
  have hz := needBW_eq_ok.2 (rfl : z.size = z.size)
  simp only [List.forall_mem_cons]
  exact ⟨bind_of_ok hz (bind_of_error he), bind_of_ok hz (bind_of_error he), bind_of_ok hz (bind_of_error he),
    bind_of_ok hz (bind_of_error he), fun _ h => absurd h List.not_mem_nil⟩

/-- The block compares after a mode that is no pointer of theirs (R210, R132). -/
theorem decodeSrc_of_no_pointer (z : SizeBW) {m : MemOp} (bs : List Byte) (h : ∀ c, m ≠ .ind c) :
    ∀ op ∈ ([0x14, 0x15, 0x16, 0x17] : List Byte), decodeSrc z.size m op bs = .error .firstByte := by
  have he := comparePointer_eq_error h
  have hz := needBW_eq_ok.2 (rfl : z.size = z.size)
  simp only [List.forall_mem_cons]
  exact ⟨bind_of_ok hz (bind_of_error he), bind_of_ok hz (bind_of_error he), bind_of_ok hz (bind_of_error he),
    bind_of_ok hz (bind_of_error he), fun _ h => absurd h List.not_mem_nil⟩

/-- RET cc after another first byte than B0H (R133). -/
theorem decodeDst_of_ret {m : MemOp} {op : Byte} (bs : List Byte) (hm : m ≠ .ind 0) (h : 0xF0 ≤ op.toNat) :
    decodeDst m op bs = .error .firstByte := by
  have hdiv := toNat_hi5 op
  have hlt := op.isLt
  have hcases : (hi5 op).toNat = 30 ∨ (hi5 op).toNat = 31 := by omega
  rw [decodeDst]
  rcases hcases with h | h
  · rw [h]
    exact if_neg hm
  · rw [h]
    exact if_neg hm

/-- LDAR with another op code byte than its two (R125). -/
theorem decode_ldar_of_other (d0 d1 op : Byte) (bs : List Byte) (h4 : op.toNat / 8 ≠ 4) (h6 : op.toNat / 8 ≠ 6) :
    decode (0xF3 :: 0x13 :: d0 :: d1 :: op :: bs) = .error .firstByte := by
  rw [← toNat_hi5] at h4 h6
  have hd : takeLE 2 (d0 :: d1 :: op :: bs) = .ok (((0#0 ++ d1) ++ d0 : BitVec 16), op :: bs) := rfl
  refine bind_of_ok hd (bind_of_ok (Machine.take8_cons op bs) ?_)
  dsimp only
  split
  · next h => exact absurd h h4
  · next h => exact absurd h h6
  · rfl

/-! ## The statement -/

/-- The first bytes that are blank in the map of R104. -/
theorem decode_of_blank (rest : List Byte) : ∀ b ∈ ([0x01, 0x04, 0x50, 0x51, 0x52, 0x53, 0x54, 0x55, 0x56, 0x57, 0xC6,
    0xD6, 0xE6, 0xF6, 0xF7] : List Byte), decode (b :: rest) = .error .undefinedOp := by
  simp only [List.forall_mem_cons]
  exact ⟨rfl, rfl, rfl, rfl, rfl, rfl, rfl, rfl, rfl, rfl, rfl, rfl, rfl, rfl, rfl,
    fun _ h => absurd h List.not_mem_nil⟩

open Machine in
/-- Settles O5: each class of first bytes is walked by its rows, and each kind of operand fails under its own name. -/
theorem forbiddenBytesStop : Obligations.ForbiddenBytesStop := by
  refine ⟨fun s hq hh => ⟨step_of_decode_error hq hh, step_of_decode_error hq hh, step_of_decode_error hq hh,
    step_of_decode_error hq hh, step_of_decode_error hq hh, step_of_decode_error hq hh, step_of_decode_error hq hh,
    step_of_decode_error hq hh, step_of_decode_error hq hh⟩, fun rest => ⟨decode_of_blank rest, rfl, ?ei, ?ldf, ?regSize,
    ?srcSize, ?dstBlank, ?pair, ?pointer, ?ret, ?ldar, ?mode3, ?index, ?stepMode, ?code, ?ldcCode, ?longCode, ?num4,
    ?evenReg, ?evenSrc, ?dblReg, ?ldc⟩⟩
  case ei => exact fun b h => bind_of_error (takeNum3_of_large rest h)
  case ldf => exact fun b h => bind_of_error (takeNum2_of_large rest h)
  case regSize =>
    intro sz r op h
    rw [decode_encodeRegOp]
    exact (decodeReg_row sz r.raw op rest).size h
  case srcSize =>
    intro sz m op h
    rw [decode_encodeMem_size]
    exact (decodeSrc_row sz m op rest).size h
  case dstBlank =>
    intro m op h
    rw [decode_encodeMem_dst]
    exact (decodeDst_row m op rest).blank h
  case pair =>
    intro z m h3 h5 op hop
    rw [decode_encodeMem_size]
    exact decodeSrc_of_no_pair z rest h3 h5 op hop
  case pointer =>
    intro z m h op hop
    rw [decode_encodeMem_size]
    exact decodeSrc_of_no_pointer z rest h op hop
  case ret =>
    intro m op hm h
    rw [decode_encodeMem_dst]
    exact decodeDst_of_ret rest hm h
  case ldar => exact fun d0 d1 op h4 h6 => decode_ldar_of_other d0 d1 op rest h4 h6
  case mode3 => exact fun zz b hne h => decode_of_mode3_error hne (decodeMode3_eq_error rest h)
  case index =>
    intro zz b c1 c2 h
    rcases h with ⟨rfl, h⟩ | ⟨rfl, h⟩ | ⟨rfl | rfl, h⟩
    · exact decode_of_mode3_error (fun h => absurd h.2 (by decide)) (decodeMode3_index8_eq_error rest (.inr h))
    · exact decode_of_mode3_error (fun h => absurd h.2 (by decide)) (decodeMode3_index16_eq_error rest (.inr h))
    · exact decode_of_mode3_error (fun h => absurd h.2 (by decide)) (decodeMode3_index8_eq_error rest (.inl h))
    · exact decode_of_mode3_error (fun h => absurd h.2 (by decide)) (decodeMode3_index16_eq_error rest (.inl h))
  case stepMode =>
    intro zz k b hk h
    rcases hk with rfl | rfl
    · exact decode_of_mode_error (by decide) (fun h => absurd h.2.1 (by decide))
        (bind_of_ok (take8_cons b rest) (stepOf_modeReg_eq_error h _))
    · exact decode_of_mode_error (by decide) (fun h => absurd h.2.1 (by decide))
        (bind_of_ok (take8_cons b rest) (stepOf_modeReg_eq_error h _))
  case code =>
    intro sz code op hc hsz h2E h2F
    exact (decode_rawBytes sz (.ext code) op rest).trans
      ((decodeReg_row sz (.ext code) op rest).code hsz h2E h2F (ne_raw_of_excluded hc))
  case ldcCode =>
    intro sz code op cr hc hop
    refine (decode_rawBytes sz (.ext code) op (cr :: rest)).trans ?_
    rcases ctrlRegOf_cases sz cr with ⟨hsz, creg, hcr, rfl⟩ | ⟨hsz, he⟩
    · rw [if_pos hsz]
      exact decodeReg_of_ctrlRegOf_ok rest hop hcr (regOp_of_excluded hc)
    · rw [if_neg hsz]
      exact decodeReg_of_ctrlRegOf_error rest hop he
  case longCode =>
    intro code hc op hop
    exact (decode_rawBytes .w (.ext code) op rest).trans
      (decodeReg_word_of_dblOp_error rest (dblOp_word_of_excluded hc) op hop)
  case num4 =>
    intro sz r op b hsz hop hb
    rw [decode_encodeRegOp]
    exact decodeReg_of_large_num4 r hsz hop hb
  case evenReg =>
    intro r op h1 h2 h3
    rw [decode_encodeRegOp]
    exact decodeReg_of_even r.raw rest h1 h2 h3
  case evenSrc =>
    intro m op h1 h2 h3
    rw [decode_encodeMem_size]
    exact decodeSrc_of_even m rest h1 h2 h3
  case dblReg =>
    refine fun op hop => ⟨fun c hc => ?_, fun code hc hodd => ?_⟩
    · exact (decode_rawBytes .b (.short c) op rest).trans
        (decodeReg_of_dblOp_error rest (bind_of_error (dblCode_byte_of_even hc)) op hop)
    · exact (decode_rawBytes .b (.ext code) op rest).trans
        (decodeReg_of_dblOp_error rest (dblOp_byte_of_odd hc hodd) op hop)
  case ldc =>
    intro sz r op cr hop hne
    rw [decode_encodeRegOp]
    rcases ctrlRegOf_cases sz cr with ⟨hsz, _⟩ | ⟨_, he⟩
    · exact absurd hsz hne
    · exact decodeReg_of_ctrlRegOf_error rest hop he

end Sys2Proof
end
